-- ==== Sys2Proof/Word.lean ====
section
/-! DEFINITION. The word types of the block (00_scope.md R12): all arithmetic is unsigned and wraps at the width. -/

namespace Sys2Proof

abbrev Byte := BitVec 8
abbrev Half := BitVec 16
abbrev Word := BitVec 32

/-- Sparse storage: (key, value) pairs. The canonical form is `Machine.Cells.wf`. -/
abbrev Cells (w : Nat) := List (Nat × BitVec w)

/-- A six-byte station address (10_state.md R31, `addr[0..5]`). -/
structure Mac where
  b0 : Byte
  b1 : Byte
  b2 : Byte
  b3 : Byte
  b4 : Byte
  b5 : Byte
deriving DecidableEq, Repr

end Sys2Proof
end

