-- ==== Sys2Proof/Config.lean ====
section
/-! DEFINITION. The parameter record of 00_scope.md R9, the construction options R11, and the
free values: constants with no body, so that nothing can be proved of what they are (93_implementation_defined.md,
treatment 'any value'). -/

namespace Sys2Proof

/-- The two transports (00_scope.md R2). -/
inductive Variant where
  | bus
  | dma
deriving DecidableEq, Repr

/-- The behaviour of a remote PHY register (10_state.md R38): plain storage, or a chip of which nothing is known
(`Config.phyStore`, `Config.phyLoad`). -/
inductive PhyModel where
  | plainStorage
  | unknownChip
deriving DecidableEq, Repr

/-- The memory-mapped registers of the DMA variant, by name (10_state.md R36). -/
inductive MReg where
  | busMode
  | txPoll
  | rxPoll
  | rxBase
  | txBase
  | status
  | opMode
  | intEn
  | macConfig
  | macFfilt
  | macFlowCtrl
  | macAddrHi
  | macAddrLo
deriving DecidableEq, Repr

/-- The indices of the controller registers: parameters with the defaults of 10_state.md R33 (20_memory.md R67). The six
station address registers follow one another from `par0` on (`PAR0 + i`, 45_mac_interface.md R253). -/
structure CRegMap where
  ncr : BitVec 7 := 0x00
  txCtrl : BitVec 7 := 0x02
  rxCtrl : BitVec 7 := 0x05
  fcCtrl : BitVec 7 := 0x0A
  phyCmd : BitVec 7 := 0x0B
  phyAddr : BitVec 7 := 0x0C
  phyDatL : BitVec 7 := 0x0D
  phyDatH : BitVec 7 := 0x0E
  par0 : BitVec 7 := 0x10
  vidL : BitVec 7 := 0x28
  vidH : BitVec 7 := 0x29
  pidL : BitVec 7 := 0x2A
  pidH : BitVec 7 := 0x2B
  ptrCtrl : BitVec 7 := 0x55
  rxPeek : BitVec 7 := 0x70
  rxPeekN : BitVec 7 := 0x71
  rxData : BitVec 7 := 0x72
  rxrpL : BitVec 7 := 0x74
  rxrpH : BitVec 7 := 0x75
  txData : BitVec 7 := 0x78
  txLenL : BitVec 7 := 0x7C
  txLenH : BitVec 7 := 0x7D
  intStat : BitVec 7 := 0x7E
  intMask : BitVec 7 := 0x7F
deriving DecidableEq, Repr

/-- The offsets of the memory-mapped registers: parameters with the defaults of 10_state.md R36 (20_memory.md R67). -/
structure MRegMap where
  busMode : Nat := 0x0000
  txPoll : Nat := 0x0004
  rxPoll : Nat := 0x0008
  rxBase : Nat := 0x000C
  txBase : Nat := 0x0010
  status : Nat := 0x0014
  opMode : Nat := 0x0018
  intEn : Nat := 0x001C
  macConfig : Nat := 0x1000
  macFfilt : Nat := 0x1004
  macFlowCtrl : Nat := 0x1018
  macAddrHi : Nat := 0x1040
  macAddrLo : Nat := 0x1044
deriving DecidableEq, Repr

/-- The offset of a memory-mapped register. The rules reach `MREG` by name, so no step reads it. -/
def MReg.offset (m : MRegMap) : MReg → Nat
  | .busMode => m.busMode
  | .txPoll => m.txPoll
  | .rxPoll => m.rxPoll
  | .rxBase => m.rxBase
  | .txBase => m.txBase
  | .status => m.status
  | .opMode => m.opMode
  | .intEn => m.intEn
  | .macConfig => m.macConfig
  | .macFfilt => m.macFfilt
  | .macFlowCtrl => m.macFlowCtrl
  | .macAddrHi => m.macAddrHi
  | .macAddrLo => m.macAddrLo

/-- Every register of the table of 10_state.md R36. -/
def MReg.all : List MReg :=
  [.busMode, .txPoll, .rxPoll, .rxBase, .txBase, .status, .opMode, .intEn, .macConfig, .macFfilt, .macFlowCtrl,
   .macAddrHi, .macAddrLo]

/-- The offsets of the host interface registers: parameters with the defaults of 10_state.md R29 (20_memory.md R67). -/
structure HifMap where
  cmd : Nat := 0x00
  arg0 : Nat := 0x04
  arg1 : Nat := 0x08
  result : Nat := 0x0C
  rdata0 : Nat := 0x10
  rdata1 : Nat := 0x14
  hstat : Nat := 0x18
deriving DecidableEq, Repr

/-- The offsets in the order of the table. -/
def HifMap.all (m : HifMap) : List Nat := [m.cmd, m.arg0, m.arg1, m.result, m.rdata0, m.rdata1, m.hstat]

/-- The opcode numbers: parameters with the defaults of 30_encoding.md R96 (00_scope.md R9). -/
structure OpcodeMap where
  regRd : BitVec 6 := 0x01
  regWr : BitVec 6 := 0x02
  memRd : BitVec 6 := 0x03
  memWr : BitVec 6 := 0x04
  phyWr : BitVec 6 := 0x08
  phyRd : BitVec 6 := 0x09
  rxCount : BitVec 6 := 0x0C
  rxAlloc : BitVec 6 := 0x0D
  rxFrame : BitVec 6 := 0x0E
  rxFlush : BitVec 6 := 0x0F
  txFrame : BitVec 6 := 0x10
  init : BitVec 6 := 0x14
  deinit : BitVec 6 := 0x15
  start : BitVec 6 := 0x16
  stop : BitVec 6 := 0x17
  del : BitVec 6 := 0x18
  setLink : BitVec 6 := 0x19
  setAddr : BitVec 6 := 0x1A
  getAddr : BitVec 6 := 0x1B
  setSpeed : BitVec 6 := 0x1C
  setDuplex : BitVec 6 := 0x1D
  setPromisc : BitVec 6 := 0x1E
  setFlowCtrl : BitVec 6 := 0x1F
  setPeerPause : BitVec 6 := 0x20
deriving DecidableEq, Repr

/-- The result codes: parameters with the defaults of 60_exceptions.md R291 (00_scope.md R9). -/
structure ResultMap where
  ok : BitVec 32 := 0
  fail : BitVec 32 := 0xFFFFFFFF
  noMemory : BitVec 32 := 0x101
  invalidArgument : BitVec 32 := 0x102
  invalidState : BitVec 32 := 0x103
  invalidSize : BitVec 32 := 0x104
  timeout : BitVec 32 := 0x107
  invalidVersion : BitVec 32 := 0x10A
deriving DecidableEq, Repr

/-- The codes in the order of the table. -/
def ResultMap.all (m : ResultMap) : List (BitVec 32) :=
  [m.ok, m.fail, m.noMemory, m.invalidArgument, m.invalidState, m.invalidSize, m.timeout, m.invalidVersion]

/-- Options that are recognised and read by no rule (00_scope.md R11). -/
structure IgnoredOptions where
  taskStackSize : Nat := 0
  taskPriority : Nat := 0
  coreAffinity : Nat := 0
  clockMode : Nat := 0
  flags : Nat := 0
deriving DecidableEq, Repr

/-- The parameters of 00_scope.md R9 with their defaults. VARIANT and INT_GPIO have no default in the spec and
FACTORY_ADDR is unspecified: the values here are those of `State.reset` (log 2). -/
structure Config where
  variant : Variant := .bus
  phyPollUs : Nat := 100
  phyBudgetUs : Nat := 1000
  /-- The widths of a PHY value and of the two PHY indices. The formats of 30_encoding.md R94 and the registers of
  10_state.md R33 fix them at their defaults (log 10). -/
  phyValueBits : Nat := 16
  phyIndexBits : Nat := 5
  regIndexBits : Nat := 5
  lockMs : Nat := 50
  maxFrame : Nat := 1518
  rxHdrOverhead : Nat := 4
  crcLen : Nat := 4
  minFrame : Nat := 60
  rxErrMask : Byte := 0xBF
  rxMemStart : Nat := 0x0C00
  rxMemEnd : Nat := 0x4000
  recoverDelayUs : Nat := 10
  bufHdrLen : Nat := 8
  rxDescN : Nat := 10
  txDescN : Nat := 10
  dmaBufSize : Nat := 512
  fcLowWm : Nat := rxDescN / 3
  fcHighWm : Nat := 2 * fcLowWm
  pauseQuanta : Half := 0xFFFF
  /-- `none` is the unbounded wait of the DMA variant. -/
  wakeWaitMs : Option Nat := match variant with
    | .bus => some 1000
    | .dma => none
  intGpio : Nat := 0
  irqActiveLevel : Bool := true
  nTxPoll : Nat := 10
  swResetTimeoutMs : Nat := 100
  tResetPollMs : Nat := 10
  chipVid : Half := 0x0A46
  chipPid : Half := 0x9051
  /-- What the identity registers of the attached controller hold; `VerifyId` compares it with CHIP_ID (log 12). -/
  ctrlVid : Half := 0x0A46
  ctrlPid : Half := 0x9051
  /-- INIT_SEQ under BUS: (register index, byte), 45_mac_interface.md R253. -/
  initSeqBus : List (BitVec 7 × Byte) := []
  /-- INIT_SEQ under DMA: (register, word). -/
  initSeqDma : List (MReg × Word) := []
  factoryAddr : Mac := ⟨0, 0, 0, 0, 0, 0⟩
  loopback : Bool := false
  phyModel : PhyModel := .plainStorage
  cregs : CRegMap := {}
  mregs : MRegMap := {}
  hifs : HifMap := {}
  opcodes : OpcodeMap := {}
  results : ResultMap := {}
  ignored : IgnoredOptions := {}
deriving DecidableEq, Repr

/-- RX_BUF_SIZE (00_scope.md R9, derived). -/
def Config.rxBufSize (c : Config) : Nat := c.maxFrame + c.rxHdrOverhead

/-- N_PHY_POLL_MAX (00_scope.md R9, derived). -/
def Config.phyPollMax (c : Config) : Nat := c.phyBudgetUs / c.phyPollUs

/-- PHYA_BITS of 10_state.md R34, R35: only two bits of a PHY index reach the controller. -/
def phyaBits : Nat := 2

/-- FREE VALUE: a byte the spec leaves unspecified, applied to the counter `Env.free` (log 6). -/
opaque Config.freeByte : Nat → BitVec 8

/-- FREE VALUE: a word the spec leaves unspecified (log 6). -/
opaque Config.freeWord : Nat → BitVec 32

/-- FREE VALUE: an answer of ALLOC that the environment has not fixed (10_state.md R21, log 8). -/
opaque Config.freeAlloc : Nat → Option (BitVec 32)

/-- FREE VALUE: an answer of Deliver that the environment has not fixed (10_state.md R21, log 8). -/
opaque Config.freeDeliver : Nat → Bool

/-- FREE VALUE: `phy_store` of a PHY of which nothing is known (10_state.md R38). -/
opaque Config.phyStore : BitVec 5 → BitVec 5 → BitVec 16 → Cells 16 → Cells 16

/-- FREE VALUE: `phy_load` of a PHY of which nothing is known (10_state.md R38). -/
opaque Config.phyLoad : BitVec 5 → BitVec 5 → Cells 16 → BitVec 16

end Sys2Proof
end

