-- ==== Sys2Proof/Syntax.lean ====
section
/-! DEFINITION. The operations (30_encoding.md R96) and the four bus frames (R99 to R101): one constructor for each
row of opcode_table.json. -/

namespace Sys2Proof

/-- The 24 operations of 30_encoding.md R96, by mnemonic: the first half of a micro-program counter
(10_state.md R26). -/
inductive Op where
  | regRd | regWr | memRd | memWr
  | phyWr | phyRd
  | rxCount | rxAlloc | rxFrame | rxFlush
  | txFrame
  | init | deinit | start | stop | del | setLink
  | setAddr | getAddr | setSpeed | setDuplex | setPromisc | setFlowCtrl | setPeerPause
deriving DecidableEq, Repr

/-- An instruction: a command word's operation with its operand fields (30_encoding.md R97), or a bus frame. -/
inductive Instr where
  /-- `REG_RD reg` (format R) -/
  | regRd (reg : BitVec 7)
  /-- `REG_WR reg, data` (format R) -/
  | regWr (reg : BitVec 7) (data : BitVec 8)
  /-- `MEM_RD len [A0 = dest]` (format L) -/
  | memRd (len : BitVec 16)
  /-- `MEM_WR len [A0 = src]` (format L) -/
  | memWr (len : BitVec 16)
  /-- `PHY_WR phy, reg, value` (format P) -/
  | phyWr (phy : BitVec 5) (reg : BitVec 5) (value : BitVec 16)
  /-- `PHY_RD phy, reg, dv` (format P) -/
  | phyRd (phy : BitVec 5) (reg : BitVec 5) (dv : Bool)
  /-- `RX_COUNT` (format N) -/
  | rxCount
  /-- `RX_ALLOC len` (format L) -/
  | rxAlloc (len : BitVec 16)
  /-- `RX_FRAME len [A0 = buf]` (format L) -/
  | rxFrame (len : BitVec 16)
  /-- `RX_FLUSH` (format N) -/
  | rxFlush
  /-- `TX_FRAME len [A0 = src]` (format L) -/
  | txFrame (len : BitVec 16)
  /-- `INIT` (format N) -/
  | init
  /-- `DEINIT` (format N) -/
  | deinit
  /-- `START` (format N) -/
  | start
  /-- `STOP` (format N) -/
  | stop
  /-- `DEL` (format N) -/
  | del
  /-- `SET_LINK flag` (format C) -/
  | setLink (flag : Bool)
  /-- `SET_ADDR [A0, A1]` (format N) -/
  | setAddr
  /-- `GET_ADDR` (format N) -/
  | getAddr
  /-- `SET_SPEED flag` (format C) -/
  | setSpeed (flag : Bool)
  /-- `SET_DUPLEX flag` (format C) -/
  | setDuplex (flag : Bool)
  /-- `SET_PROMISC flag` (format C) -/
  | setPromisc (flag : Bool)
  /-- `SET_FLOWCTRL flag` (format C) -/
  | setFlowCtrl (flag : Bool)
  /-- `SET_PEER_PAUSE flag` (format C) -/
  | setPeerPause (flag : Bool)
  /-- The register read frame `0rrrrrrr` + one byte in (R100). The data byte is the controller's, no operand. -/
  | busRegRd (reg : BitVec 7)
  /-- The register write frame `1rrrrrrr` + one byte out (R100). -/
  | busRegWr (reg : BitVec 7) (data : BitVec 8)
  /-- The block read frame `0rrrrrrr` + n bytes in; n is not transmitted (R101). -/
  | busBlkRd (reg : BitVec 7)
  /-- The block write frame `1rrrrrrr` + bytes out (R101). -/
  | busBlkWr (reg : BitVec 7)
deriving DecidableEq, Repr

/-- The operation a command word names; a bus frame names none. -/
def Instr.op : Instr → Option Op
  | .regRd _ => some .regRd
  | .regWr _ _ => some .regWr
  | .memRd _ => some .memRd
  | .memWr _ => some .memWr
  | .phyWr _ _ _ => some .phyWr
  | .phyRd _ _ _ => some .phyRd
  | .rxCount => some .rxCount
  | .rxAlloc _ => some .rxAlloc
  | .rxFrame _ => some .rxFrame
  | .rxFlush => some .rxFlush
  | .txFrame _ => some .txFrame
  | .init => some .init
  | .deinit => some .deinit
  | .start => some .start
  | .stop => some .stop
  | .del => some .del
  | .setLink _ => some .setLink
  | .setAddr => some .setAddr
  | .getAddr => some .getAddr
  | .setSpeed _ => some .setSpeed
  | .setDuplex _ => some .setDuplex
  | .setPromisc _ => some .setPromisc
  | .setFlowCtrl _ => some .setFlowCtrl
  | .setPeerPause _ => some .setPeerPause
  | .busRegRd _ => none
  | .busRegWr _ _ => none
  | .busBlkRd _ => none
  | .busBlkWr _ => none

end Sys2Proof
end

