-- ==== Sys2Proof/WellFormed.lean ====
section
/-! DEFINITION. The checks on an instruction beyond the widths of its fields: the PHY index (10_state.md R35), the
port of a block frame (30_encoding.md R101), and the variant an operation exists in (30_encoding.md R96). -/

namespace Sys2Proof

/-- A command word's PHY index must fit PHYA_BITS (10_state.md R35); a block read frame names `RX_PEEKN` or `RX_DATA`,
a block write frame `TX_DATA` (30_encoding.md R101). -/
def Instr.wellFormed (m : CRegMap) : Instr → Bool
  | .phyWr phy _ _ => decide (phy.toNat < 2 ^ phyaBits)
  | .phyRd phy _ _ => decide (phy.toNat < 2 ^ phyaBits)
  | .busBlkRd reg => reg == m.rxPeekN || reg == m.rxData
  | .busBlkWr reg => reg == m.txData
  | _ => true

/-- Column 'var' of 30_encoding.md R96 and the heading of R99: which instructions a variant has. -/
def Instr.existsIn (v : Variant) : Instr → Bool
  | .memRd _ => v == .bus
  | .memWr _ => v == .bus
  | .rxCount => v == .bus
  | .rxAlloc _ => v == .bus
  | .busRegRd _ => v == .bus
  | .busRegWr _ _ => v == .bus
  | .busBlkRd _ => v == .bus
  | .busBlkWr _ => v == .bus
  | _ => true

end Sys2Proof
end

