-- ==== Sys2Proof/Decode.lean ====
section
/-! DEFINITION. The decoder of command words (30_encoding.md R90 to R98) and of bus frames (R99 to R101), total on any
word and any byte string and rejecting by name; then the encoder, from the same tables. -/

namespace Sys2Proof

/-- Why a word or a frame is no instruction. A rejected command word is illegal (30_encoding.md R98). -/
inductive DecodeError where
  /-- the opcode field names no row of R96 -/
  | unknownOpcode (op : BitVec 6)
  /-- a must-be-0 field is not 0 -/
  | reservedBits
  /-- a bus frame of no form of R100, R101 -/
  | frameLength (n : Nat)
deriving DecidableEq, Repr

/-! ## Fields of a command word (30_encoding.md R90 to R95, R97) -/

namespace Field

/-- `CW[31:26]` -/
def op (w : Word) : BitVec 6 := w.extractLsb' 26 6
/-- `CW[22:16]` (format R) -/
def reg7 (w : Word) : BitVec 7 := w.extractLsb' 16 7
/-- `CW[7:0]` (format R) -/
def data (w : Word) : BitVec 8 := w.extractLsb' 0 8
/-- `CW[15:0]` (formats L and P) -/
def low16 (w : Word) : BitVec 16 := w.extractLsb' 0 16
/-- `CW[25:21]` (format P) -/
def phy (w : Word) : BitVec 5 := w.extractLsb' 21 5
/-- `CW[20:16]` (format P) -/
def reg5 (w : Word) : BitVec 5 := w.extractLsb' 16 5
/-- `CW[0]` (format C; `DV` of `PHY_RD`) -/
def flag (w : Word) : Bool := w.getLsbD 0

end Field

/-! ## Formats -/

/-- Format N (R91): bits 25:0 must be 0. -/
def decodeN (w : Word) (i : Instr) : Except DecodeError Instr :=
  if w.extractLsb' 0 26 = 0#26 then .ok i else .error .reservedBits

/-- Format R of `REG_RD` (R92): bits 25:23 and 15:0 must be 0. -/
def decodeRegRd (w : Word) : Except DecodeError Instr :=
  if w.extractLsb' 23 3 = 0#3 ∧ w.extractLsb' 0 16 = 0#16 then .ok (.regRd (Field.reg7 w)) else .error .reservedBits

/-- Format R of `REG_WR` (R92): bits 25:23 and 15:8 must be 0. -/
def decodeRegWr (w : Word) : Except DecodeError Instr :=
  if w.extractLsb' 23 3 = 0#3 ∧ w.extractLsb' 8 8 = 0#8 then .ok (.regWr (Field.reg7 w) (Field.data w))
  else .error .reservedBits

/-- Format L (R93): bits 25:16 must be 0. -/
def decodeL (w : Word) (f : BitVec 16 → Instr) : Except DecodeError Instr :=
  if w.extractLsb' 16 10 = 0#10 then .ok (f (Field.low16 w)) else .error .reservedBits

/-- Format P of `PHY_RD` (R94): bits 15:1 must be 0. -/
def decodePhyRd (w : Word) : Except DecodeError Instr :=
  if w.extractLsb' 1 15 = 0#15 then .ok (.phyRd (Field.phy w) (Field.reg5 w) (Field.flag w)) else .error .reservedBits

/-- Format C (R95): bits 25:1 must be 0. -/
def decodeC (w : Word) (f : Bool → Instr) : Except DecodeError Instr :=
  if w.extractLsb' 1 25 = 0#25 then .ok (f (Field.flag w)) else .error .reservedBits

/-- The opcode of an operation under a map. -/
def OpcodeMap.code (m : OpcodeMap) : Op → BitVec 6
  | .regRd => m.regRd
  | .regWr => m.regWr
  | .memRd => m.memRd
  | .memWr => m.memWr
  | .phyWr => m.phyWr
  | .phyRd => m.phyRd
  | .rxCount => m.rxCount
  | .rxAlloc => m.rxAlloc
  | .rxFrame => m.rxFrame
  | .rxFlush => m.rxFlush
  | .txFrame => m.txFrame
  | .init => m.init
  | .deinit => m.deinit
  | .start => m.start
  | .stop => m.stop
  | .del => m.del
  | .setLink => m.setLink
  | .setAddr => m.setAddr
  | .getAddr => m.getAddr
  | .setSpeed => m.setSpeed
  | .setDuplex => m.setDuplex
  | .setPromisc => m.setPromisc
  | .setFlowCtrl => m.setFlowCtrl
  | .setPeerPause => m.setPeerPause

/-- The operations in the order of 30_encoding.md R96. -/
def Op.all : List Op :=
  [.regRd, .regWr, .memRd, .memWr, .phyWr, .phyRd, .rxCount, .rxAlloc, .rxFrame, .rxFlush, .txFrame, .init, .deinit,
   .start, .stop, .del, .setLink, .setAddr, .getAddr, .setSpeed, .setDuplex, .setPromisc, .setFlowCtrl, .setPeerPause]

/-- The operation a code names. -/
def OpcodeMap.opOf (m : OpcodeMap) (code : BitVec 6) : Option Op := Op.all.find? (fun o => m.code o == code)

/-- The operand fields of a word, in the format of its operation (column 'format' of 30_encoding.md R96). -/
def decodeOperands (o : Op) (w : Word) : Except DecodeError Instr :=
  match o with
  | .regRd => decodeRegRd w
  | .regWr => decodeRegWr w
  | .memRd => decodeL w .memRd
  | .memWr => decodeL w .memWr
  | .phyWr => .ok (.phyWr (Field.phy w) (Field.reg5 w) (Field.low16 w))
  | .phyRd => decodePhyRd w
  | .rxCount => decodeN w .rxCount
  | .rxAlloc => decodeL w .rxAlloc
  | .rxFrame => decodeL w .rxFrame
  | .rxFlush => decodeN w .rxFlush
  | .txFrame => decodeL w .txFrame
  | .init => decodeN w .init
  | .deinit => decodeN w .deinit
  | .start => decodeN w .start
  | .stop => decodeN w .stop
  | .del => decodeN w .del
  | .setLink => decodeC w .setLink
  | .setAddr => decodeN w .setAddr
  | .getAddr => decodeN w .getAddr
  | .setSpeed => decodeC w .setSpeed
  | .setDuplex => decodeC w .setDuplex
  | .setPromisc => decodeC w .setPromisc
  | .setFlowCtrl => decodeC w .setFlowCtrl
  | .setPeerPause => decodeC w .setPeerPause

/-- The decoder of a command word: the opcode map of 30_encoding.md R96, every other opcode reserved (R98). It
reads 32 bits (R102). -/
def decodeWord (m : OpcodeMap) (w : Word) : Except DecodeError Instr :=
  match m.opOf (Field.op w) with
  | some o => decodeOperands o w
  | none => .error (.unknownOpcode (Field.op w))

/-! ## Bus frames (30_encoding.md R99 to R101) -/

/-- Bit 7 of a frame's command byte: 1 = write (R99). -/
def frameIsWrite (c : Byte) : Bool := c.getLsbD 7

/-- Bits 6:0 of a frame's command byte: the register index (R99). -/
def frameReg (c : Byte) : BitVec 7 := c.extractLsb' 0 7

/-- A frame as its bytes in the order they travel: the command byte and the data bytes (R99). The bytes of a read are
driven by the controller, so only their number counts. Two bytes are a register frame (R100), more are a block frame
(R101). The command byte alone stands for a block frame whose data phase is the serial port's own (log 7). -/
def decodeFrame : List Byte → Except DecodeError Instr
  | [] => .error (.frameLength 0)
  | [c, d] => .ok (if frameIsWrite c then .busRegWr (frameReg c) d else .busRegRd (frameReg c))
  | c :: _ => .ok (if frameIsWrite c then .busBlkWr (frameReg c) else .busBlkRd (frameReg c))

/-- The bytes of a frame row of opcode_table.json whose bits are `w`: its encoding is written `Wrrrrrrr dddddddd`, the
command byte first, so the command byte is the more significant one (log 9). -/
def frameBytes (nbits w : Nat) : List Byte :=
  if nbits = 16 then [BitVec.ofNat 8 (w / 256), BitVec.ofNat 8 w] else [BitVec.ofNat 8 w]

/-- What the decoder reads from a row of opcode_table.json whose bits are `w`; the table prints the default opcodes. -/
def decodeTableWord (nbits w : Nat) : Option Instr :=
  match nbits with
  | 32 => (decodeWord {} (BitVec.ofNat 32 w)).toOption
  | 16 => (decodeFrame (frameBytes 16 w)).toOption
  | 8 => (decodeFrame (frameBytes 8 w)).toOption
  | _ => none

/-! ## The encoder -/

/-- A command word from its opcode and its 26 operand bits (R90). -/
def packWord (op : BitVec 6) (operand : Nat) : Word := BitVec.ofNat 32 (op.toNat * 2 ^ 26 + operand)

/-- The command byte of a frame (R99). -/
def packFrame (write : Bool) (reg : BitVec 7) : Byte := BitVec.ofNat 8 ((if write then 2 ^ 7 else 0) + reg.toNat)

/-- The command word of an operation (30_encoding.md R91 to R96); a bus frame has none and encodes as 0. -/
def encodeWord (m : OpcodeMap) : Instr → Word
  | .regRd reg => packWord m.regRd (reg.toNat * 2 ^ 16)
  | .regWr reg d => packWord m.regWr (reg.toNat * 2 ^ 16 + d.toNat)
  | .memRd len => packWord m.memRd len.toNat
  | .memWr len => packWord m.memWr len.toNat
  | .phyWr phy reg v => packWord m.phyWr (phy.toNat * 2 ^ 21 + reg.toNat * 2 ^ 16 + v.toNat)
  | .phyRd phy reg dv => packWord m.phyRd (phy.toNat * 2 ^ 21 + reg.toNat * 2 ^ 16 + dv.toNat)
  | .rxCount => packWord m.rxCount 0
  | .rxAlloc len => packWord m.rxAlloc len.toNat
  | .rxFrame len => packWord m.rxFrame len.toNat
  | .rxFlush => packWord m.rxFlush 0
  | .txFrame len => packWord m.txFrame len.toNat
  | .init => packWord m.init 0
  | .deinit => packWord m.deinit 0
  | .start => packWord m.start 0
  | .stop => packWord m.stop 0
  | .del => packWord m.del 0
  | .setLink f => packWord m.setLink f.toNat
  | .setAddr => packWord m.setAddr 0
  | .getAddr => packWord m.getAddr 0
  | .setSpeed f => packWord m.setSpeed f.toNat
  | .setDuplex f => packWord m.setDuplex f.toNat
  | .setPromisc f => packWord m.setPromisc f.toNat
  | .setFlowCtrl f => packWord m.setFlowCtrl f.toNat
  | .setPeerPause f => packWord m.setPeerPause f.toNat
  | .busRegRd _ => 0
  | .busRegWr _ _ => 0
  | .busBlkRd _ => 0
  | .busBlkWr _ => 0

/-- The bytes of a bus frame (30_encoding.md R100, R101); a command word is no frame. -/
def encodeFrame : Instr → List Byte
  | .busRegRd reg => [packFrame false reg, 0]
  | .busRegWr reg d => [packFrame true reg, d]
  | .busBlkRd reg => [packFrame false reg]
  | .busBlkWr reg => [packFrame true reg]
  | _ => []

/-- How an instruction is written: a command word, or the bytes of a frame. -/
inductive Encoded where
  | word (w : Word)
  | frame (bytes : List Byte)
deriving DecidableEq, Repr

def encode (m : OpcodeMap) (i : Instr) : Encoded :=
  match i.op with
  | some _ => .word (encodeWord m i)
  | none => .frame (encodeFrame i)

def decode (m : OpcodeMap) : Encoded → Except DecodeError Instr
  | .word w => decodeWord m w
  | .frame bs => decodeFrame bs

/-! ## The opcode table, as R96 prints it (the default opcodes) -/

/-- One row of R96: an operation, its opcode, its match and its mask. -/
structure OpcodeRow where
  op : Op
  code : Nat
  pattern : Word
  mask : Word
deriving DecidableEq, Repr

/-- The rows of 30_encoding.md R96. -/
def opcodeTable : List OpcodeRow := [
  ⟨.regRd, 0x01, 0x04000000, 0xFF80FFFF⟩,
  ⟨.regWr, 0x02, 0x08000000, 0xFF80FF00⟩,
  ⟨.memRd, 0x03, 0x0C000000, 0xFFFF0000⟩,
  ⟨.memWr, 0x04, 0x10000000, 0xFFFF0000⟩,
  ⟨.phyWr, 0x08, 0x20000000, 0xFC000000⟩,
  ⟨.phyRd, 0x09, 0x24000000, 0xFC00FFFE⟩,
  ⟨.rxCount, 0x0C, 0x30000000, 0xFFFFFFFF⟩,
  ⟨.rxAlloc, 0x0D, 0x34000000, 0xFFFF0000⟩,
  ⟨.rxFrame, 0x0E, 0x38000000, 0xFFFF0000⟩,
  ⟨.rxFlush, 0x0F, 0x3C000000, 0xFFFFFFFF⟩,
  ⟨.txFrame, 0x10, 0x40000000, 0xFFFF0000⟩,
  ⟨.init, 0x14, 0x50000000, 0xFFFFFFFF⟩,
  ⟨.deinit, 0x15, 0x54000000, 0xFFFFFFFF⟩,
  ⟨.start, 0x16, 0x58000000, 0xFFFFFFFF⟩,
  ⟨.stop, 0x17, 0x5C000000, 0xFFFFFFFF⟩,
  ⟨.del, 0x18, 0x60000000, 0xFFFFFFFF⟩,
  ⟨.setLink, 0x19, 0x64000000, 0xFFFFFFFE⟩,
  ⟨.setAddr, 0x1A, 0x68000000, 0xFFFFFFFF⟩,
  ⟨.getAddr, 0x1B, 0x6C000000, 0xFFFFFFFF⟩,
  ⟨.setSpeed, 0x1C, 0x70000000, 0xFFFFFFFE⟩,
  ⟨.setDuplex, 0x1D, 0x74000000, 0xFFFFFFFE⟩,
  ⟨.setPromisc, 0x1E, 0x78000000, 0xFFFFFFFE⟩,
  ⟨.setFlowCtrl, 0x1F, 0x7C000000, 0xFFFFFFFE⟩,
  ⟨.setPeerPause, 0x20, 0x80000000, 0xFFFFFFFE⟩]

end Sys2Proof
end

