-- ==== Sys2Proof/Machine/State.lean ====
section
/-! DEFINITION. The state of the block and of its environment as plain data (10_state.md), the ways a step can stop, and
the state after the construction reset (70_reset_and_hazards.md R341). -/

namespace Sys2Proof.Machine

/-! ## Names -/

/-- The two contexts that execute operations (10_state.md R23). -/
inductive CtxId where
  /-- HCTX, the host command context -/
  | H
  /-- WCTX, the worker context -/
  | W
deriving DecidableEq, Repr

/-- The lifecycle of the instance (10_state.md R31). -/
inductive Life where
  | uninitialized | initialized | started | stopped | deinitialized | destroyed
deriving DecidableEq, Repr

/-- The seven errors (60_exceptions.md R291). -/
inductive Err where
  | fail | noMemory | invalidArgument | invalidState | invalidSize | timeout | invalidVersion
deriving DecidableEq, Repr

/-- The step labels of every operation and procedure (00_scope.md R14): `S`, `C`, `V`, `K`, `P`, `A`, `F`, `D`, `L`, `M`,
`H`, `G`, `X`, `Y`, `Z` as the rules' pseudocode names them. `s0b` and `s8b` are the second shared flag of DEINIT's S0 and
INIT's S8, `v4` the `Log` step of `Recover`, `p2` and `p3` the shared write and the `Log` step of `Reprobe` after a lock
timeout, `x1b` and `x3b` the `MemWrite` of X1 and X3: steps of their own (R13) on lines whose label another step has (log 18).
An operation with no label on its path has its one step at `s0`, where issue puts the counter (10_state.md R27, R29). -/
inductive Label where
  | s0 | s0b | s1 | s2 | s3 | s4 | s5 | s6 | s8 | s8b | s9
  | c0 | c1 | c2
  | v1 | v2 | v4
  | k0 | k1 | k2 | k3
  | p0 | p1 | p2 | p3
  | a0 | a1 | a2
  | f0 | f1 | f2 | f3 | f4
  | d0 | d1 | d2 | d3 | d4 | d5 | d6 | d7 | d8 | d9
  | l1 | l2
  | m0 | m1 | m2 | m3
  | h0 | h1 | h2 | h3 | h4 | h5
  | g0 | g1 | g2 | g3 | g4 | g5 | g6 | g7
  | x0 | x1 | x1b | x2 | x3 | x3b | x4 | x5 | x6
  | y0 | y1 | y2 | y3
  | z0 | z1 | z2
deriving DecidableEq, Repr

/-- What a log entry says (60_exceptions.md R318): the labels of the rules' pseudocode. -/
inductive LogText where
  | rxPointerReset | reprobeTimeout | readIntStatus | clearIntStatus | noMemForBuffer | invalidFrameLength
  | rxFail | rxTimeout | frameTruncated | frameReadFailed | stackInputFailed | flushTimeout | flushFail
deriving DecidableEq, Repr

/-- The drainer's labels (44_drainer.md R230, R237); `freeI3`, `freeI4`, `freeI5` are the `Free(buf)` steps of R234 and
R235, named after the label they jump to; `log t` is the `Log` step of the text `t`, `remain` the shared write
`FRAMES_REMAIN <- 1` and `rest` the shared write `WSTATE <- waiting` that follow one (R233 to R235; 00_scope.md R13); `pause` is
I5 where `SendPause` has run, whose last line executes with it (R237; 00_scope.md R14). -/
inductive DLabel where
  | w0 | b0 | b1 | i0 | i1 | i2 | i3 | i4 | e0 | e1 | i5
  | freeI3 | freeI4 | freeI5
  | remain | rest | pause
  | log (t : LogText)
deriving DecidableEq, Repr

/-- A micro-program counter (10_state.md R26): an enumerated value, no number. -/
inductive Pc where
  /-- no operation executes (HCTX) -/
  | idle
  /-- the next labelled step of an operation -/
  | op (m : Op) (l : Label)
  /-- the next step of the drainer (WCTX) -/
  | drain (d : DLabel)
  /-- the worker has been ended by `DEL` (44_drainer.md R245) -/
  | ended
deriving DecidableEq, Repr

/-- `WSTATE` (44_drainer.md R230). -/
inductive WState where
  | waiting | draining
deriving DecidableEq, Repr

/-! ## Contexts -/

/-- The eight working registers `x[0]` to `x[7]` of a context under their aliases (10_state.md R24). `none` is the
spec's own "unwritten": a register that the executing operation has not written holds no value (R25). -/
structure Regs where
  cw : Option Word := none
  a0 : Option Word := none
  a1 : Option Word := none
  acc : Option Word := none
  t : Option Word := none
  v : Option Word := none
  n : Option Word := none
  p : Option Word := none
deriving DecidableEq, Repr

/-- The named locals of the pseudocode, "further scratch of the same kind, unwritten at issue" (42_rx_bus.md R162). -/
structure Scratch where
  /-- byte count of a frame header -/
  bc : Option Nat := none
  /-- frame length without CRC -/
  rl : Option Nat := none
  /-- copy length -/
  cl : Option Nat := none
  /-- the delivery buffer being built -/
  buf : Option Word := none
  /-- bytes read and not yet stored, or gathered and not yet sent -/
  bytes : Option (List Byte) := none
  /-- how many bytes of a byte string are stored (20_memory.md R63) -/
  pos : Nat := 0
  /-- what HOST or UP has stored into the operation's operand buffer since issue: (address, length)
  (93_implementation_defined.md U28) -/
  touched : List (Nat × Nat) := []
  /-- ring or list index; unset until a walk's first step reads `rx_idx` -/
  i : Option Nat := none
  /-- second index -/
  j : Option Nat := none
  /-- segments done, or position in a list -/
  k : Option Nat := none
  /-- `seg` of 43_dma_ring.md R208 -/
  seg : Nat := 0
  /-- `fc` of R208 -/
  fc : Nat := 0
  /-- `used` of R208 -/
  used : Nat := 0
  /-- bytes still to copy -/
  rem : Option Nat := none
  /-- where the next bytes go -/
  dst : Option Nat := none
  /-- the frame being skipped is erroneous (42_rx_bus.md R164) -/
  skipErr : Bool := false
  /-- an error remembered while the operation goes on (45_mac_interface.md R253, R256) -/
  err : Option Err := none
deriving DecidableEq, Repr

/-- A context: its working registers, its further scratch, its micro-program counter (10_state.md R23). -/
structure Ctx where
  x : Regs := {}
  sc : Scratch := {}
  pc : Pc
deriving DecidableEq, Repr

/-- The drainer's locals (44_drainer.md R230): the delivery buffer it owns, `rl`, `cl`, and the argument of a
`SendPause` under way. -/
structure Drain where
  buf : Option Word := none
  rl : Nat := 0
  cl : Nat := 0
  pauseArg : Bool := false
deriving DecidableEq, Repr

/-! ## Block state -/

/-- Host interface registers (10_state.md R29); `CMD` holds nothing and `HSTAT` is a view (`hstat`). -/
structure Hif where
  arg0 : Word := 0
  arg1 : Word := 0
  result : Word := 0
  rdata0 : Word := 0
  rdata1 : Word := 0
  done : Bool := false
  /-- the model's own: what the HOST read last -/
  hostData : Word := 0
deriving DecidableEq, Repr

/-- The flags of 10_state.md R28 that are not views of other state. `irqPend` is the latch of the BUS variant. -/
structure Flags where
  wake : Bool := false
  irqPend : Bool := false
  irqEn : Bool := false
  framesRemain : Nat := 0
  freeRx : Nat := 0
  pause : Bool := false
  doFc : Bool := false
  link : Bool := false
deriving DecidableEq, Repr

/-- The controller instance record (10_state.md R31). -/
structure Inst where
  life : Life := .uninitialized
  addr : Mac := ⟨0, 0, 0, 0, 0, 0⟩
  cfgFc : Bool := false
  peerPause : Bool := false
  cfgPromisc : Bool := false
  cfgSpeed : Bool := false
  cfgDuplex : Bool := false
  swResetTimeoutMs : Word
  lowWm : Word
  highWm : Word
deriving DecidableEq, Repr

/-- Transport-specific buffer state (10_state.md R43, R44). -/
structure Bufs where
  rxScratch : Word := 0
  txScratch : Word := 0
  rxRingBase : Word := 0
  txRingBase : Word := 0
  rxb : List Word := []
  txb : List Word := []
  rxIdx : Nat := 0
  txIdx : Nat := 0
  /-- the model's record of the delivery buffers whose header is valid (42_rx_bus.md R174) -/
  hdrValid : List Word := []
deriving DecidableEq, Repr

/-- Who owns an allocation (20_memory.md R76). -/
inductive Owner where
  /-- made at construction, freed by `DEL` -/
  | block
  /-- a delivery buffer the drainer holds (44_drainer.md R244) -/
  | drainer
  /-- a delivery buffer the host obtained by `RX_ALLOC` -/
  | host
  /-- a delivery buffer handed to the mediator -/
  | up
deriving DecidableEq, Repr

/-- A live allocation (10_state.md R21). -/
structure Alloc where
  addr : Word
  size : Nat
  owner : Owner
deriving DecidableEq, Repr

/-! ## The controller -/

/-- A PHY transaction in flight, as latched when the command bit was written (41_phy_access.md R146). -/
structure PhyOp where
  write : Bool
  p : BitVec 5
  r : BitVec 5
  v : Half
deriving DecidableEq, Repr

/-- Controller registers (10_state.md R33, R34) and the device's hidden state (R42; 20_memory.md R77 to R80).
`BUSY` is `phyOp.isSome`; `RXRP_L/H` are views of `rxRp`; the transmit write cursor is the length of `txStage`. -/
structure Dev where
  ncr : Byte := 0
  txCtrl : Byte := 0
  rxCtrl : Byte := 0
  fcCtrl : Byte := 0
  phySel : Bool := false
  phyAddr : Byte := 0
  phyDatL : Byte := 0
  phyDatH : Byte := 0
  par : Mac
  ptrCtrl : Byte := 0
  rxRp : BitVec 16
  rxrpHold : Byte
  rxWp : BitVec 16
  rxLatch : Byte := 0
  rxMem : Cells 8 := []
  txLenL : Byte := 0
  txLenH : Byte := 0
  txStage : List Byte := []
  txLatched : Option (List Byte) := none
  intStat : Byte := 0
  intMask : Byte := 0
  phyOp : Option PhyOp := none
  rxDropped : Nat := 0
deriving DecidableEq, Repr

/-- The memory-mapped registers of the DMA variant (10_state.md R36); the two poll demands hold nothing. -/
structure MRegs where
  busMode : Word := 0
  rxBase : Word := 0
  txBase : Word := 0
  status : Word := 0
  opMode : Word := 0
  intEn : Word := 0
  macConfig : Word := 0
  macFfilt : Word := 0
  macFlowCtrl : Word := 0
  macAddrHi : Word
  macAddrLo : Word
deriving DecidableEq, Repr

/-- The state of a fetcher (10_state.md R42). -/
inductive Fetcher where
  | stopped | running | suspended
deriving DecidableEq, Repr

/-- The frame the receive fetcher is storing (43_dma_ring.md R200): its bytes with CRC, the segments done, the segments
needed, and the bytes that the segments done hold (the sum of their `RBS1`, R203). -/
structure Inflight where
  frame : List Byte
  done : Nat
  need : Nat
  off : Nat
deriving DecidableEq, Repr

/-- The DMA engine (10_state.md R42; 43_dma_ring.md R200, R220). -/
structure Dma where
  rxState : Fetcher := .stopped
  rxCur : Word := 0
  rxInflight : Option Inflight := none
  txState : Fetcher := .stopped
  txCur : Word := 0
  txInflight : List Byte := []
deriving DecidableEq, Repr

/-- The data phase of a bare bus frame (30_encoding.md R99 to R101): how many bytes the block clocks in before it releases
the select line, the bytes it drives, and the bytes the controller drove last. The model's own (log 7). -/
structure BusPort where
  want : Nat := 1
  out : List Byte := [0]
  inp : List Byte := []
deriving DecidableEq, Repr

/-! ## The environment -/

/-- Answers and frames the environment has ready (10_state.md R21; 43_dma_ring.md R221), and the counter that the
free values of Config are applied to. -/
structure Env where
  allocAnswers : List (Option Word) := []
  deliverAnswers : List Bool := []
  /-- frames WIRE offers to the receive side (loopback echoes), with their status byte, oldest first -/
  offers : List (List Byte × Byte) := []
  free : Nat := 0
deriving DecidableEq, Repr

structure LogEntry where
  ctx : CtxId
  text : LogText
deriving DecidableEq, Repr

/-- The values of `on_state_changed` the block sends (45_mac_interface.md R252). -/
inductive Notice where
  | lowLevelInit | deinit
deriving DecidableEq, Repr

/-- One entry of the observable trace (60_exceptions.md R325). -/
inductive Obs where
  | regRd (reg : BitVec 7) (b : Byte)
  | regWr (reg : BitVec 7) (b : Byte)
  | blkRd (reg : BitVec 7) (bytes : List Byte)
  | blkWr (reg : BitVec 7) (bytes : List Byte)
  | mRead (r : MReg) (v : Word)
  | mWrite (r : MReg) (v : Word)
  | notify (n : Notice)
  | deliver (buf : Word) (len : Nat) (ok : Bool)
  /-- a frame goes to WIRE -/
  | sent (frame : List Byte)
  /-- a pause frame goes to WIRE -/
  | pauseSent (quanta : Half)
  /-- a host operation completes -/
  | result (code rd0 rd1 : Word)
deriving DecidableEq, Repr

/-- A step of one agent (10_state.md R20, R22). A step that is not enabled where it is scheduled changes nothing
(log 1). -/
inductive AgentStep where
  /-- HCTX or WCTX takes its next atomic step -/
  | ctx (c : CtxId)
  /-- `LockTimeout` of a context (40_bus_access.md R122) -/
  | lockTimeout (c : CtxId)
  /-- `IrqHandler` of ICTX (60_exceptions.md R313) -/
  | irq
  /-- HOST writes a host interface register and does not wait (10_state.md R29) -/
  | hostWrite (off : Nat) (v : Word)
  /-- HOST reads a host interface register -/
  | hostRead (off : Nat)
  /-- HOST or UP writes bytes of HMEM that are its own (20_memory.md R76) -/
  | memStore (addr : Word) (bytes : List Byte)
  /-- UP or HOST releases a delivery buffer it was given -/
  | release (addr : Word)
  /-- `PhyComplete` (41_phy_access.md R146) -/
  | phyComplete
  /-- `FrameArrive(F, st)` (20_memory.md R77); `causes` are the bits of `INT_STAT` 5:1 a drop may set -/
  | frameArrive (frame : List Byte) (status : Byte) (causes : Byte)
  /-- the oldest frame of `Env.offers` arrives (either variant) -/
  | offerArrives (causes : Byte)
  /-- `Glitch` (20_memory.md R79) -/
  | glitch (cursor : BitVec 16)
  /-- `TxComplete` (45_mac_interface.md R272); `causes` as above -/
  | txComplete (causes : Byte)
  /-- DEV sets interrupt causes 5:1 at will (10_state.md R33) -/
  | setCauses (causes : Byte)
  /-- `ResetComplete` (45_mac_interface.md R254); `rxMem` is what the receive memory then holds, which
  70_reset_and_hazards.md R342 leaves unspecified but for one byte -/
  | resetComplete (rxMem : Cells 8)
  /-- `PauseSent` (44_drainer.md R237) -/
  | pauseSent
  /-- `DmaRxBegin(F)` (43_dma_ring.md R202) -/
  | dmaRxBegin (frame : List Byte)
  /-- `DmaRxSeg` (43_dma_ring.md R203) -/
  | dmaRxSeg
  /-- `DmaTxSeg` (43_dma_ring.md R220) -/
  | dmaTxSeg
  /-- `DmaTxSuspend` (43_dma_ring.md R220) -/
  | dmaTxSuspend
deriving DecidableEq, Repr

/-- An entry of the agenda: what the machine's next step is. -/
inductive Event where
  /-- the HOST writes a command word to `CMD` and waits until the operation has completed: the instruction fetch -/
  | call (w : Word)
  /-- a bus frame stands on the controller's serial port by itself (30_encoding.md R99) -/
  | frame (bytes : List Byte)
  /-- one atomic step of one agent -/
  | agent (a : AgentStep)
deriving DecidableEq, Repr

/-! ## The whole state -/

structure State where
  cfg : Config
  hif : Hif
  hctx : Ctx
  wctx : Ctx
  wstate : WState
  drain : Drain
  flags : Flags
  lock : Option CtxId
  inst : Inst
  bufs : Bufs
  allocs : List Alloc
  dev : Dev
  mreg : MRegs
  dma : Dma
  phyReg : Cells 16
  hmem : Cells 8
  bus : BusPort
  env : Env
  log : List LogEntry
  trace : List Obs
  agenda : List Event
deriving DecidableEq, Repr

/-! ## How a step can stop -/

/-- The faults. Both are raised by the sequencer of the contexts and are SAFE: the machine stops where the spec's rules
never go. -/
inductive Fault where
  /-- SAFE. An operation reads a working register or a scratch local that it has not written (10_state.md R25;
  93_implementation_defined.md U18). Raised by `need`. -/
  | unwrittenRegister
  /-- SAFE. A micro-program counter names a label that its operation does not have (10_state.md R26). Raised by the
  families' step functions. -/
  | noSuchLabel
deriving DecidableEq, Repr

/-- The refusals. All are SAFE: each stands where 93_implementation_defined.md says 'refuse'. -/
inductive Refusal where
  /-- SAFE. No meaning has been written for the instruction. -/
  | notModelled (mnemonic : String)
  /-- SAFE. A write of `CMD` while an operation executes (10_state.md R29; U3). Raised by `issue`. -/
  | cmdWhileBusy
  /-- SAFE. An access to the host interface at an offset it does not have (20_memory.md R64; U4). Raised by the HOST's
  `hostWrite`, `hostRead`. -/
  | hifOffset
  /-- SAFE. A host operation in a lifecycle state that does not admit it (60_exceptions.md R321; U15). Raised by
  `issue`. -/
  | lifecycle
  /-- SAFE. A PHY index that does not fit PHYA_BITS (10_state.md R35; U7). Raised by `issue`. -/
  | phyIndex
  /-- SAFE. `PHY_CMD` written with both command bits, or with a command bit and `SEL` = 0 (10_state.md R34; U5). Raised
  by a write of the register. -/
  | phyCmdReserved
  /-- SAFE. A PHY command written while `BUSY` = 1 (41_phy_access.md R146; U6). Raised by a write of the register. -/
  | phyCmdWhileBusy
  /-- SAFE. A receive cursor written outside the ring (20_memory.md R66; U12). Raised by a write of `RXRP_L`. -/
  | cursorOutsideRing
  /-- SAFE. A block read that would wrap while pointer auto-return is off (20_memory.md R79; U13). Raised by a block
  read. -/
  | wrapWithoutAutoReturn
  /-- SAFE. An access past the end of HMEM, or a transfer larger than the buffer it was given or than the string it is
  taken from (10_state.md R40; U11). Raised at the access. -/
  | outsideRegion
  /-- SAFE. The automatic form of `RX_FRAME` on a buffer whose header is not valid (42_rx_bus.md R171 (b); U14). Raised in
  F0's step. -/
  | headerNotValid
  /-- SAFE. A bus frame under DMA, where there is no bus (30_encoding.md R99, 40_bus_access.md R132). Raised by the four
  bus frames. -/
  | noBusUnderDma
  /-- SAFE. A block frame of more than one byte to a register that is no port of its direction, of no byte, or of more than
  65535 (20_memory.md R65; 30_encoding.md R101; 40_bus_access.md R126, R127), or no byte at all. Raised by the two block
  frames and by `runFrame`. -/
  | blockFrameForm
deriving DecidableEq, Repr

/-- The outcome of a step of this machine. -/
abbrev Out := Host.Outcome State Fault Refusal

/-! ## Reset -/

/-- The controller registers and hidden state after a controller reset (10_state.md R33, R42), which construction
assumes (70_reset_and_hazards.md R341); the unspecified ones at 0 (log 3). -/
def Dev.initial (c : Config) : Dev where
  par := c.factoryAddr
  rxRp := BitVec.ofNat 16 c.rxMemStart
  rxrpHold := BitVec.ofNat 8 (c.rxMemStart / 256)
  rxWp := BitVec.ofNat 16 c.rxMemStart

/-- `MREG` after the DMA software reset (10_state.md R36). -/
def MRegs.initial (c : Config) : MRegs where
  macAddrHi := BitVec.ofNat 32 (c.factoryAddr.b4.toNat + 2 ^ 8 * c.factoryAddr.b5.toNat)
  macAddrLo := BitVec.ofNat 32 (c.factoryAddr.b0.toNat + 2 ^ 8 * c.factoryAddr.b1.toNat +
    2 ^ 16 * c.factoryAddr.b2.toNat + 2 ^ 24 * c.factoryAddr.b3.toNat)

/-- The construction reset (70_reset_and_hazards.md R341) but for the allocations. The record's three 32-bit fields
(10_state.md R31) take their parameters modulo 2^32, since 00_scope.md R10 bounds none of them: DESIGN CHOICE, log 35. -/
def State.blank (c : Config) : State where
  cfg := c
  hif := {}
  hctx := { pc := .idle }
  wctx := { pc := .drain .w0 }
  wstate := .waiting
  drain := {}
  flags := { freeRx := c.rxDescN }
  lock := none
  inst := { swResetTimeoutMs := BitVec.ofNat 32 c.swResetTimeoutMs, lowWm := BitVec.ofNat 32 c.fcLowWm,
            highWm := BitVec.ofNat 32 c.fcHighWm }
  bufs := {}
  allocs := []
  dev := Dev.initial c
  mreg := MRegs.initial c
  dma := {}
  phyReg := []
  hmem := []
  bus := {}
  env := {}
  log := []
  trace := []
  agenda := []

/-- The machine right after the construction reset: the BUS variant with the default parameters (log 2), its two scratch
buffers where the model's ALLOC put them (log 5), nothing scheduled. -/
def State.reset : State :=
  { State.blank {} with
    bufs := { rxScratch := 0x10000000, txScratch := 0x10001000 }
    allocs := [⟨0x10000000, 1530, .block⟩, ⟨0x10001000, 1522, .block⟩] }

end Sys2Proof.Machine
end

