-- ==== Sys2Proof/Machine/Operands.lean ====
section
/-! DEFINITION. Operands as the rules assemble them: byte order (20_memory.md R61, R62), the fields of a latched command
word (30_encoding.md R97), station addresses (R97, R105), descriptor fields (43_dma_ring.md R191, R192), register
names (10_state.md R33, R36), sparse storage and address arithmetic. -/

namespace Sys2Proof.Machine

/-! ## Sparse storage -/

/-- What a key that is not listed reads as (log 4). -/
def blankCell (w : Nat) : BitVec w := 0#w

/-- The value at a key. -/
def Cells.get {w : Nat} : Cells w → Nat → BitVec w
  | [], _ => blankCell w
  | (k, v) :: m, a => if k = a then v else Cells.get m a

/-- Store a value at a key, keeping the canonical form. -/
def Cells.set {w : Nat} : Cells w → Nat → BitVec w → Cells w
  | [], a, b => if b = blankCell w then [] else [(a, b)]
  | (k, v) :: m, a, b =>
    if a < k then (if b = blankCell w then (k, v) :: m else (a, b) :: (k, v) :: m)
    else if a = k then (if b = blankCell w then m else (a, b) :: m)
    else (k, v) :: Cells.set m a b

/-- The canonical form: keys strictly rising, no entry equal to what an unlisted key reads as. -/
def Cells.wf {w : Nat} : Cells w → Bool
  | [] => true
  | (k, v) :: m => v != blankCell w && m.all (fun c => decide (k < c.1)) && Cells.wf m

/-- The canonical form of any list of pairs, a later pair giving way to an earlier one. -/
def Cells.canon {w : Nat} : Cells w → Cells w
  | [] => []
  | (k, v) :: m => Cells.set (Cells.canon m) k v

/-- The memory's canonical form as a predicate of the state: HMEM, RXMEM and PHYREG. -/
def Memory.wf (s : State) : Bool :=
  Cells.wf s.hmem && Cells.wf s.dev.rxMem && Cells.wf s.phyReg

/-! ## Byte order and fields -/

/-- `zext_32` of a byte (00_scope.md R12). -/
def zextByte (b : Byte) : Word := BitVec.ofNat 32 b.toNat

/-- Byte `i` of a word, bits 8i+7 : 8i. -/
def byteOf (i : Nat) (w : Word) : Byte := w.extractLsb' (8 * i) 8

/-- A word from its bytes, least significant first (20_memory.md R61). -/
def wordOf (b0 b1 b2 b3 : Byte) : Word :=
  BitVec.ofNat 32 (b0.toNat + 2 ^ 8 * b1.toNat + 2 ^ 16 * b2.toNat + 2 ^ 24 * b3.toNat)

/-- A 16-bit value from its low and high byte (20_memory.md R62). -/
def halfOf (lo hi : Byte) : Half := BitVec.ofNat 16 (lo.toNat + 2 ^ 8 * hi.toNat)

def lowByte (h : Half) : Byte := h.extractLsb' 0 8
def highByte (h : Half) : Byte := h.extractLsb' 8 8

/-- `{phy[1:0], 0, reg[4:0]}`: the byte written to `PHY_ADDR` (10_state.md R34; 41_phy_access.md R141). -/
def phyAddrByte (phy reg : BitVec 5) : Byte := BitVec.ofNat 8 ((phy.toNat % 4) * 64 + reg.toNat)

/-- The PHY index and the register index a `PHY_ADDR` value names (41_phy_access.md R146). -/
def phyAddrP (a : Byte) : BitVec 5 := BitVec.ofNat 5 (a.toNat / 64)
def phyAddrR (a : Byte) : BitVec 5 := a.extractLsb' 0 5

/-- The key of `PHYREG[p][r]`. -/
def phyKey (p r : BitVec 5) : Nat := p.toNat * 32 + r.toNat

/-! ## Station addresses -/

def macGet (m : Mac) : Fin 6 → Byte
  | 0 => m.b0
  | 1 => m.b1
  | 2 => m.b2
  | 3 => m.b3
  | 4 => m.b4
  | 5 => m.b5

def macSet (m : Mac) (i : Fin 6) (b : Byte) : Mac :=
  match i with
  | 0 => { m with b0 := b }
  | 1 => { m with b1 := b }
  | 2 => { m with b2 := b }
  | 3 => { m with b3 := b }
  | 4 => { m with b4 := b }
  | 5 => { m with b5 := b }

/-- Bytes 0..3 packed as `A0` (30_encoding.md R97), also `MAC_ADDR_LO` (10_state.md R36). -/
def macLo (m : Mac) : Word := wordOf m.b0 m.b1 m.b2 m.b3

/-- Bytes 4..5 packed as `A1` (30_encoding.md R97), also `MAC_ADDR_HI`. -/
def macHi (m : Mac) : Word := wordOf m.b4 m.b5 0 0

/-- The address that two argument words or the two address registers hold. -/
def macOfWords (lo hi : Word) : Mac :=
  ⟨byteOf 0 lo, byteOf 1 lo, byteOf 2 lo, byteOf 3 lo, byteOf 0 hi, byteOf 1 hi⟩

/-! ## Register names -/

/-- The registers of `CREG` (10_state.md R33). -/
inductive CReg where
  | ncr | txCtrl | rxCtrl | fcCtrl | phyCmd | phyAddr | phyDatL | phyDatH
  | par (i : Fin 6)
  | vidL | vidH | pidL | pidH | ptrCtrl
  | rxPeek | rxPeekN | rxData | rxrpL | rxrpH | txData | txLenL | txLenH | intStat | intMask
deriving DecidableEq, Repr

/-- Its index (10_state.md R33). -/
def CReg.index (m : CRegMap) : CReg → BitVec 7
  | .ncr => m.ncr
  | .txCtrl => m.txCtrl
  | .rxCtrl => m.rxCtrl
  | .fcCtrl => m.fcCtrl
  | .phyCmd => m.phyCmd
  | .phyAddr => m.phyAddr
  | .phyDatL => m.phyDatL
  | .phyDatH => m.phyDatH
  | .par i => m.par0 + BitVec.ofNat 7 i.val
  | .vidL => m.vidL
  | .vidH => m.vidH
  | .pidL => m.pidL
  | .pidH => m.pidH
  | .ptrCtrl => m.ptrCtrl
  | .rxPeek => m.rxPeek
  | .rxPeekN => m.rxPeekN
  | .rxData => m.rxData
  | .rxrpL => m.rxrpL
  | .rxrpH => m.rxrpH
  | .txData => m.txData
  | .txLenL => m.txLenL
  | .txLenH => m.txLenH
  | .intStat => m.intStat
  | .intMask => m.intMask

/-- Every register of the table of 10_state.md R33. -/
def CReg.all : List CReg :=
  [.ncr, .txCtrl, .rxCtrl, .fcCtrl, .phyCmd, .phyAddr, .phyDatL, .phyDatH,
   .par 0, .par 1, .par 2, .par 3, .par 4, .par 5, .vidL, .vidH, .pidL, .pidH, .ptrCtrl,
   .rxPeek, .rxPeekN, .rxData, .rxrpL, .rxrpH, .txData, .txLenL, .txLenH, .intStat, .intMask]

/-- The PHY group (10_state.md R34). -/
def CReg.inPhyGroup : CReg → Bool
  | .phyCmd => true
  | .phyAddr => true
  | .phyDatL => true
  | .phyDatH => true
  | _ => false

/-- The register at an index; `none` is a reserved index. Under DMA only the PHY group exists (10_state.md R32). -/
def CReg.ofIndex (c : Config) (i : BitVec 7) : Option CReg :=
  CReg.all.find? (fun r => r.index c.cregs == i && (c.variant == .bus || r.inPhyGroup))

/-! ## Operands of a latched command word (30_encoding.md R97) -/

def cwLen (w : Word) : Nat := (Field.low16 w).toNat
def cwFlag (w : Word) : Bool := Field.flag w

/-! ## Descriptor fields (43_dma_ring.md R191, R192) -/

/-- `W0.OWN` -/
def descOwn (w : Word) : Bool := w.getLsbD 31
/-- `W0.LS` of a receive descriptor -/
def rxDescLs (w : Word) : Bool := w.getLsbD 8
/-- `W0.FL` of a receive descriptor -/
def rxDescFl (w : Word) : Nat := (w.extractLsb' 16 14).toNat
/-- `W1.RBS1`, `W1.TBS1` -/
def descSize (w : Word) : Nat := (w.extractLsb' 0 13).toNat
/-- `W0.LS` of a transmit descriptor -/
def txDescLs (w : Word) : Bool := w.getLsbD 29
/-- `W0.IC` of a transmit descriptor -/
def txDescIc (w : Word) : Bool := w.getLsbD 30
/-- The `W0` with which the fetcher closes a receive descriptor (43_dma_ring.md R203). -/
def rxDescClosed (first last : Bool) (len : Nat) : Word :=
  BitVec.ofNat 32 ((if last then len * 2 ^ 16 else 0) + (if first then 2 ^ 9 else 0) + (if last then 2 ^ 8 else 0))

/-- The `W0` with which `TX_FRAME` hands a descriptor over: `OWN | TCH`, `FS` on the first, `LS | IC` on the last
(45_mac_interface.md R273). -/
def txDescHanded (first last : Bool) : Word :=
  0x80100000 ||| (if first then 0x10000000 else 0) ||| (if last then 0x60000000 else 0)

/-! ## Addresses -/

/-- HMEM has 32-bit addresses (10_state.md R40). -/
def hmemSize : Nat := 2 ^ 32

/-- Whether n bytes at an address lie inside HMEM. -/
def inHmem (a : Word) (n : Nat) : Bool := decide (a.toNat + n ≤ hmemSize)

/-- How many bytes of an n-byte access at an address are one step: all of them where n is at most 4 and the address is
aligned to n, else one (20_memory.md R63). -/
def stringUnit (a n : Nat) : Nat := if n ≤ 4 ∧ a % n = 0 then n else 1

/-- The size of the receive ring (20_memory.md R77). -/
def ringSize (c : Config) : Nat := c.rxMemEnd - c.rxMemStart

/-- `wrap` (20_memory.md R77), its subtraction applied as often as it takes (R79; log 24). -/
def ringWrap (c : Config) (a : Nat) : Nat :=
  if a < c.rxMemEnd then a else c.rxMemStart + (a - c.rxMemStart) % ringSize c

/-- The cursor that `SkipFrame` writes (42_rx_bus.md R169, K1), in the wrapping 32-bit arithmetic of 00_scope.md R12. -/
def skipCursor (c : Config) (cur : Word) (n : Nat) : Word :=
  let start := BitVec.ofNat 32 c.rxMemStart
  start + BitVec.ofNat 32 ((cur + BitVec.ofNat 32 n + 4 - start).toNat % ringSize c)

/-- Whether a cursor value lies in the ring (20_memory.md R66). -/
def inRing (c : Config) (a : Nat) : Bool := decide (c.rxMemStart ≤ a) && decide (a < c.rxMemEnd)

/-- `Derive` (42_rx_bus.md R168): the frame length without CRC and the copy length, or `none` for `InvalidSize`. -/
def derive (c : Config) (bc len : Nat) : Option (Nat × Nat) :=
  let rl := bc - c.crcLen
  let cl := min rl len
  if cl < c.minFrame then none
  else if c.rxBufSize + c.crcLen < bc then none
  else some (rl, cl)

/-- A frame header with a status error bit set (42_rx_bus.md R167). -/
def erroneous (c : Config) (st : Byte) : Bool := (st &&& c.rxErrMask) != 0

end Sys2Proof.Machine
end

