-- ==== Sys2Proof/Machine/Flags.lean ====
section
/-! DEFINITION. Flags and status words computed from state held elsewhere: `BUSY`, `INTLINE`, `dma_irq`, `IRQ_PEND`
(10_state.md R28, 60_exceptions.md R311, R312), `HSTAT` (10_state.md R30), the result codes (60_exceptions.md R291)
and the lifecycle matrix (60_exceptions.md R321). -/

namespace Sys2Proof.Machine

/-- `BUSY`: a PHY transaction is in flight (10_state.md R28; 41_phy_access.md R146). -/
def phyBusy (d : Dev) : Bool := d.phyOp.isSome

/-- What a read of `PHY_CMD` returns (10_state.md R34): `SEL` and `BUSY`; `WR`, `RD` and 7:4 read 0. -/
def phyCmdByte (d : Dev) : Byte :=
  BitVec.ofNat 8 ((if d.phySel then 8 else 0) + (if phyBusy d then 1 else 0))

/-- `INTLINE` is active (60_exceptions.md R311). -/
def intLineActive (d : Dev) : Bool := (d.intStat &&& d.intMask &&& 0x3F) != 0

/-- The level of the GPIO that carries `INTLINE` (10_state.md R28). -/
def intPinLevel (s : State) : Bool :=
  if intLineActive s.dev then s.cfg.irqActiveLevel else !s.cfg.irqActiveLevel

/-- `dma_irq` (10_state.md R36). -/
def dmaIrq (m : MRegs) : Bool := (m.status &&& m.intEn &&& 0xC1) != 0

/-- `IRQ_PEND`: a latch under BUS, a level under DMA (10_state.md R28; 60_exceptions.md R312). -/
def irqPending (s : State) : Bool :=
  match s.cfg.variant with
  | .bus => s.flags.irqPend
  | .dma => dmaIrq s.mreg && s.flags.irqEn

/-- `HSTAT.HBUSY` (10_state.md R30). -/
def hbusy (s : State) : Bool := s.hctx.pc != .idle

/-- A controller software reset is in progress (45_mac_interface.md R254). -/
def resetting (s : State) : Bool :=
  match s.cfg.variant with
  | .bus => s.dev.ncr.getLsbD 0
  | .dma => s.mreg.busMode.getLsbD 0

/-- The result code of an error (60_exceptions.md R291). -/
def errCode (m : ResultMap) : Err → Word
  | .fail => m.fail
  | .noMemory => m.noMemory
  | .invalidArgument => m.invalidArgument
  | .invalidState => m.invalidState
  | .invalidSize => m.invalidSize
  | .timeout => m.timeout
  | .invalidVersion => m.invalidVersion

/-- `HSTAT.LIFE` (10_state.md R30). -/
def lifeCode : Life → Nat
  | .uninitialized => 0
  | .initialized => 1
  | .started => 2
  | .stopped => 3
  | .deinitialized => 4
  | .destroyed => 5

/-- `HSTAT` (10_state.md R30). -/
def hstat (s : State) : Word :=
  BitVec.ofNat 32
    ((hbusy s).toNat + 2 * s.hif.done.toNat + 4 * lifeCode s.inst.life + 32 * s.flags.link.toNat +
      64 * s.flags.wake.toNat + 128 * (s.wstate == .draining).toNat + 256 * (s.flags.framesRemain != 0).toNat +
      512 * s.flags.pause.toNat + 1024 * s.flags.doFc.toNat + 2048 * (irqPending s).toNat +
      4096 * s.flags.irqEn.toNat)

/-- The initialized, started and stopped states, the 'y y y' rows of 60_exceptions.md R321. -/
def lifeUp : Life → Bool
  | .initialized => true
  | .started => true
  | .stopped => true
  | _ => false

/-- The lifecycle permission matrix for host-issued operations (60_exceptions.md R321). -/
def admitted (m : Op) (l : Life) : Bool :=
  match m with
  | .regRd => l != .destroyed
  | .regWr => l != .destroyed
  | .memRd => lifeUp l
  | .memWr => lifeUp l
  | .phyWr => lifeUp l
  | .phyRd => lifeUp l
  | .rxCount => lifeUp l
  | .rxAlloc => lifeUp l
  | .rxFrame => lifeUp l
  | .rxFlush => lifeUp l
  | .txFrame => l == .started
  | .init => l == .uninitialized || l == .deinitialized
  | .deinit => l == .initialized || l == .stopped
  | .start => l == .initialized || l == .stopped
  | .stop => l == .started
  | .del => l != .started && l != .destroyed
  | .setLink => lifeUp l
  | .setAddr => lifeUp l
  | .getAddr => l != .destroyed
  | .setSpeed => lifeUp l
  | .setDuplex => lifeUp l
  | .setPromisc => lifeUp l
  | .setFlowCtrl => l != .destroyed
  | .setPeerPause => lifeUp l

end Sys2Proof.Machine
end

