-- ==== Sys2Proof/Machine/Ops.lean ====
section
/-! DEFINITION. The named operations over the state: contexts and their counters, HMEM, free values and environment answers,
the log and the trace, the controller's registers and ports with their side effects, `MREG`, and the one way an
operation ends: `finish` (return) and `raiseErr` (the block's analogue of an exception, 60_exceptions.md R300). -/

namespace Sys2Proof.Machine

/-! ## Outcomes -/

/-- Go on after a step that answered a next state. -/
def andThen (o : Out) (k : State → Out) : Out :=
  match o with
  | .next s => k s
  | .fault f => .fault f
  | .refused r => .refused r

/-- Use a value that the executing operation must have written (10_state.md R25). -/
def need {α : Type} (v : Option α) (k : α → Out) : Out :=
  match v with
  | some a => k a
  | none => .fault .unwrittenRegister

/-- Use the answer of a register or port access that may be refused. -/
def accept {α : Type} (e : Except Refusal α) (k : α → Out) : Out :=
  match e with
  | .ok a => k a
  | .error r => .refused r

/-! ## Contexts -/

/-- The context of a name (10_state.md R23). -/
def ctxOf (c : CtxId) (s : State) : Ctx :=
  match c with
  | .H => s.hctx
  | .W => s.wctx

def setCtx (c : CtxId) (x : Ctx) (s : State) : State :=
  match c with
  | .H => { s with hctx := x }
  | .W => { s with wctx := x }

/-- Write working registers of the executing context (10_state.md R24). -/
def modX (c : CtxId) (f : Regs → Regs) (s : State) : State :=
  setCtx c { ctxOf c s with x := f (ctxOf c s).x } s

/-- Write further scratch of the executing context (42_rx_bus.md R162). -/
def modSc (c : CtxId) (f : Scratch → Scratch) (s : State) : State :=
  setCtx c { ctxOf c s with sc := f (ctxOf c s).sc } s

/-- The working registers of a context. -/
def xOf (c : CtxId) (s : State) : Regs := (ctxOf c s).x

/-- The further scratch of a context. -/
def scOf (c : CtxId) (s : State) : Scratch := (ctxOf c s).sc

/-- `T <- b`, zero-extended (10_state.md R24). -/
def setT (c : CtxId) (b : Byte) (s : State) : State := modX c (fun x => { x with t := some (zextByte b) }) s

/-- `T <- v` of a 32-bit register (45_mac_interface.md R253, R254 under DMA). -/
def setTw (c : CtxId) (v : Word) (s : State) : State := modX c (fun x => { x with t := some v }) s

def setV (c : CtxId) (v : Word) (s : State) : State := modX c (fun x => { x with v := some v }) s

def setN (c : CtxId) (v : Word) (s : State) : State := modX c (fun x => { x with n := some v }) s

def setP (c : CtxId) (v : Word) (s : State) : State := modX c (fun x => { x with p := some v }) s

def setAcc (c : CtxId) (v : Word) (s : State) : State := modX c (fun x => { x with acc := some v }) s

/-- `pc <- L` (00_scope.md R13). -/
def setPc (c : CtxId) (p : Pc) (s : State) : State := setCtx c { ctxOf c s with pc := p } s

/-- The next step of operation `m` is the one labelled `l` (10_state.md R27). -/
def goto (c : CtxId) (m : Op) (l : Label) (s : State) : State := setPc c (.op m l) s

/-- The step ends here; the next one is labelled `l`. -/
def toLabel (c : CtxId) (m : Op) (l : Label) (s : State) : Out := .next (goto c m l s)

/-- Latch a command word and its arguments at issue; every other working register becomes unwritten (10_state.md R25,
R29; 20_memory.md R74). -/
def latch (c : CtxId) (cw a0 a1 : Word) (s : State) : State :=
  setCtx c { ctxOf c s with x := { cw := some cw, a0 := some a0, a1 := some a1 }, sc := {} } s

/-! ## Log and trace -/

/-- `Log(text)` (60_exceptions.md R318). -/
def logEntry (c : CtxId) (t : LogText) (s : State) : State := { s with log := s.log ++ [⟨c, t⟩] }

/-- Append to the observable trace (60_exceptions.md R325). -/
def observe (o : Obs) (s : State) : State := { s with trace := s.trace ++ [o] }

/-- `Notify(s)` (45_mac_interface.md R252). -/
def notify (n : Notice) (s : State) : State := observe (.notify n) s

/-! ## Free values -/

/-- A byte of any value. -/
def drawByte (s : State) : Byte × State := (Config.freeByte s.env.free, { s with env.free := s.env.free + 1 })

/-- `n` bytes of any value. -/
def drawBytes (n : Nat) (s : State) : List Byte × State :=
  ((List.range n).map (fun i => Config.freeByte (s.env.free + i)), { s with env.free := s.env.free + n })

/-- A word of any value. -/
def drawWord (s : State) : Word × State := (Config.freeWord s.env.free, { s with env.free := s.env.free + 1 })

/-! ## HMEM (20_memory.md R61, R63) -/

/-- One byte of HMEM; addresses are 32-bit and wrap. -/
def hbyte (s : State) (a : Nat) : Byte := Cells.get s.hmem (a % hmemSize)

/-- `MemRead(a, n)` as a byte string. -/
def hread (s : State) (a n : Nat) : List Byte := (List.range n).map (fun i => hbyte s (a + i))

/-- Store a byte string from an address on, in ascending order. -/
def storeBytes (m : Cells 8) (a : Nat) : List Byte → Cells 8
  | [] => m
  | b :: bs => storeBytes (Cells.set m (a % hmemSize) b) (a + 1) bs

/-- `MemWrite(a, n, bytes)`. -/
def hwrite (a : Nat) (bs : List Byte) (s : State) : State := { s with hmem := storeBytes s.hmem a bs }

/-- `MemRead(a, 4)`. -/
def hread32 (s : State) (a : Nat) : Word :=
  wordOf (hbyte s a) (hbyte s (a + 1)) (hbyte s (a + 2)) (hbyte s (a + 3))

/-- `MemWrite(a, 4, v)`. -/
def hwrite32 (a : Nat) (v : Word) (s : State) : State :=
  hwrite a [byteOf 0 v, byteOf 1 v, byteOf 2 v, byteOf 3 v] s

/-! ## The operand buffer of a host operation (30_encoding.md R97) -/

/-- Whether two byte ranges share a byte. -/
def overlaps (a n b m : Nat) : Bool := decide (a < b + m) && decide (b < a + n)

/-- How many bytes of HMEM an operation takes as its operand buffer; the automatic form of `RX_FRAME` takes a delivery
buffer (42_rx_bus.md R170, R171). -/
def operandLength (c : Config) (m : Op) (len : Nat) : Nat :=
  match m with
  | .memRd => len
  | .memWr => len
  | .txFrame => len
  | .rxFrame => if c.variant = .bus ∧ len = 0 then c.rxBufSize else len
  | _ => 0

/-- The operand buffer of the operation that HCTX executes: address and length, length 0 where it has none. -/
def operandBuffer (s : State) : Nat × Nat :=
  match s.hctx.pc, s.hctx.x.a0, s.hctx.x.cw with
  | .op m _, some a, some w => (a.toNat, operandLength s.cfg m (cwLen w))
  | _, _, _ => (0, 0)

/-- Whether `n` bytes at an address share a byte with it. -/
def meetsOperand (s : State) (a n : Nat) : Bool :=
  decide (0 < (operandBuffer s).2) && overlaps a n (operandBuffer s).1 (operandBuffer s).2

/-! ## Byte strings of HMEM, step by step (20_memory.md R63) -/

def setBytes (c : CtxId) (bs : List Byte) (s : State) : State :=
  modSc c (fun x => { x with bytes := some bs, pos := 0 }) s

def setPos (c : CtxId) (p : Nat) (s : State) : State := modSc c (fun x => { x with pos := p }) s

/-- Whether HOST or UP has stored to an address of the operand buffer since issue. -/
def wasTouched (c : CtxId) (s : State) (a : Nat) : Bool :=
  (scOf c s).touched.any (fun r => decide (r.1 ≤ a) && decide (a < r.1 + r.2))

/-- The bytes that an operation stores from an address on: of any value where HOST or UP has stored too since issue
(93_implementation_defined.md U28; log 17). -/
def blur (c : CtxId) (a : Nat) (bs : List Byte) (s : State) : List Byte × State :=
  match bs with
  | [] => ([], s)
  | b :: bs =>
    let (b', s) := if wasTouched c s a then drawByte s else (b, s)
    let (bs', s) := blur c (a + 1) bs s
    (b' :: bs', s)

/-- One step of `bytes <- MemRead(a, n)` at label `l`; `after` runs in the step of the last byte. The bytes gathered so far
are in the scratch. -/
def readString (c : CtxId) (m : Op) (l : Label) (a n : Nat) (after : State → Out) (s : State) : Out :=
  need (scOf c s).bytes fun got =>
    if hmemSize < a + n then .refused .outsideRegion
    else
      let u := min (stringUnit a n) (n - got.length)
      let s := setBytes c (got ++ hread s (a + got.length) u) s
      if got.length + u < n then toLabel c m l s else after s

/-- One step of `MemWrite(a, n, bs)` at label `l`; `after` runs in the step of the last byte. How many are stored is in the
scratch. -/
def writeString (c : CtxId) (m : Op) (l : Label) (a : Nat) (bs : List Byte) (after : State → Out) (s : State) : Out :=
  if hmemSize < a + bs.length then .refused .outsideRegion
  else
    let p := (scOf c s).pos
    let u := min (stringUnit a bs.length) (bs.length - p)
    let (out, s) := blur c (a + p) ((bs.drop p).take u) s
    let s := setPos c (p + u) (hwrite (a + p) out s)
    if p + u < bs.length then toLabel c m l s else after s

/-! ## ALLOC and UP (10_state.md R21) -/

/-- An answer ALLOC may give to `Alloc(n)`: not null, 4-aligned, inside HMEM, and apart from every live allocation and
from the operand buffer of the operation that HCTX executes (log 8). -/
def admissible (s : State) (n : Nat) (a : Word) : Bool :=
  a != 0 && decide (a.toNat % 4 = 0) && inHmem a n &&
    s.allocs.all (fun x => !overlaps a.toNat n x.addr.toNat x.size) && !meetsOperand s a.toNat n

/-- The environment's next answer to `Alloc`, fixed or free. -/
def nextAllocAnswer (s : State) : Option Word × State :=
  match s.env.allocAnswers with
  | a :: rest => (a, { s with env.allocAnswers := rest })
  | [] => (Config.freeAlloc s.env.free, { s with env.free := s.env.free + 1 })

/-- Record an allocation. -/
def addAlloc (a : Word) (n : Nat) (o : Owner) (s : State) : State := { s with allocs := s.allocs ++ [⟨a, n, o⟩] }

/-- `Alloc(n)`: `none` is null. An answer that is not admissible is no answer of ALLOC and counts as null (log 8). -/
def alloc (n : Nat) (o : Owner) (s : State) : Option Word × State :=
  match nextAllocAnswer s with
  | (none, s') => (none, s')
  | (some a, s') => if admissible s' n a then (some a, addAlloc a n o s') else (none, s')

/-- `Free(a)`. A buffer that no longer exists has no header. -/
def freeAlloc (a : Word) (s : State) : State :=
  { s with
    allocs := s.allocs.filter (fun x => x.addr != a)
    bufs.hdrValid := s.bufs.hdrValid.filter (fun x => x != a) }

/-- Hand an allocation to another owner (20_memory.md R76). -/
def giveAlloc (a : Word) (o : Owner) (s : State) : State :=
  { s with allocs := s.allocs.map (fun x => if x.addr = a then { x with owner := o } else x) }

/-- The mediator's next answer to `Deliver`, fixed or free. -/
def nextDeliverAnswer (s : State) : Bool × State :=
  match s.env.deliverAnswers with
  | a :: rest => (a, { s with env.deliverAnswers := rest })
  | [] => (Config.freeDeliver s.env.free, { s with env.free := s.env.free + 1 })

/-! ## The interrupt pin (60_exceptions.md R311) -/

/-- Change `INT_STAT` and `INT_MASK`; a transition of the pin from inactive to active while `IRQ_EN` = 1 latches
`IRQ_PEND` in the same step. -/
def setInt (stat mask : Byte) (s : State) : State :=
  let d := { s.dev with intStat := stat, intMask := mask }
  { s with
    dev := d
    flags := if !intLineActive s.dev && intLineActive d && s.flags.irqEn then { s.flags with irqPend := true }
      else s.flags }

/-- Set cause bits of `INT_STAT` (10_state.md R33: bits 5:0 hold causes). -/
def setCause (causes : Byte) (s : State) : State :=
  setInt (s.dev.intStat ||| (causes &&& 0x3F)) s.dev.intMask s

/-! ## Receive memory (20_memory.md R77 to R79) -/

/-- The byte of RXMEM at an address. -/
def rxByte (s : State) (a : Nat) : Byte := Cells.get s.dev.rxMem a

/-- Put the receive cursor somewhere: the pre-fetch latch becomes unspecified (20_memory.md R66) and no delivery-buffer
header is valid any longer (42_rx_bus.md R171 (b), R174; log 21). -/
def moveCursor (a : Nat) (s : State) : State :=
  { s with
    dev := { s.dev with rxRp := BitVec.ofNat 16 a, rxLatch := Config.freeByte s.env.free }
    env.free := s.env.free + 1
    bufs.hdrValid := [] }

/-- A step of HCTX that is none of 42_rx_bus.md has moved the cursor: the header of the buffer that the drainer owns stays
as valid as it was (R174: "until the next operation of this file that moves the cursor"; 70_reset_and_hazards.md R356,
R360; log 21). `before` is the state before the step. -/
def keepDrainHeader (before s : State) : State :=
  match before.drain.buf with
  | some a => if a ∈ before.bufs.hdrValid ∧ a ∉ s.bufs.hdrValid then { s with bufs.hdrValid := s.bufs.hdrValid ++ [a] } else s
  | none => s

/-- `RST_RX` (20_memory.md R79): both cursors to the start, every stored frame discarded. -/
def resetRxPointer (s : State) : State :=
  let s := moveCursor s.cfg.rxMemStart s
  { s with
    dev.rxWp := BitVec.ofNat 16 s.cfg.rxMemStart
    dev.rxMem := Cells.set s.dev.rxMem s.cfg.rxMemStart 0 }

/-- The `n` bytes at the cursor, going round the ring (20_memory.md R79). -/
def peekBytes (n : Nat) (s : State) : List Byte :=
  (List.range n).map (fun i => rxByte s (ringWrap s.cfg (s.dev.rxRp.toNat + i)))

/-- Pointer auto-return is on: `INT_MASK.PAR` (20_memory.md R79). -/
def autoReturn (s : State) : Bool := s.dev.intMask.getLsbD 7

/-- The bytes a block read of port `RX_PEEKN` delivers, or its refusal (20_memory.md R79; U13). -/
def portPeek (n : Nat) (s : State) : Except Refusal (List Byte × State) :=
  if !autoReturn s && decide (s.cfg.rxMemEnd < s.dev.rxRp.toNat + n) then .error .wrapWithoutAutoReturn
  else .ok (peekBytes n s, s)

/-- The same for port `RX_DATA`, whose cursor advances. -/
def portTake (n : Nat) (s : State) : Except Refusal (List Byte × State) :=
  if !autoReturn s && decide (s.cfg.rxMemEnd ≤ s.dev.rxRp.toNat + n) then .error .wrapWithoutAutoReturn
  else .ok (peekBytes n s, moveCursor (ringWrap s.cfg (s.dev.rxRp.toNat + n)) s)

/-! ## Transmit memory (20_memory.md R80) -/

/-- The length registers as a number. -/
def txLen (d : Dev) : Nat := d.txLenL.toNat + 256 * d.txLenH.toNat

/-- A write of `TX_CTRL` with `TXREQ` = 1 while it reads 0: latch the first `TXLEN` staged bytes (bytes that were not
staged are of any value), empty the staging memory, set `TXREQ`. -/
def requestTx (b : Byte) (s : State) : State :=
  let n := txLen s.dev
  let have_ := s.dev.txStage.take n
  let (fill, s) := drawBytes (n - have_.length) s
  { s with dev := { s.dev with txLatched := some (have_ ++ fill), txStage := [], txCtrl := b ||| 1 } }

/-- A block write to port `TX_DATA`. -/
def stageTx (bs : List Byte) (s : State) : State := { s with dev.txStage := s.dev.txStage ++ bs }

/-! ## Controller registers (10_state.md R33, R34, R37) -/

/-- The value and the side effect of reading a register, but for a reset in progress. -/
def devReadRaw (r : CReg) (s : State) : Except Refusal (Byte × State) :=
  match r with
  | .ncr => let (f, s) := drawByte s; .ok ((f &&& 0xFE) ||| (s.dev.ncr &&& 1), s)
  | .txCtrl => .ok (s.dev.txCtrl, s)
  | .rxCtrl => .ok (s.dev.rxCtrl, s)
  | .fcCtrl => .ok (s.dev.fcCtrl, s)
  | .phyCmd => .ok (phyCmdByte s.dev, s)
  | .phyAddr => .ok (s.dev.phyAddr, s)
  | .phyDatL => .ok (s.dev.phyDatL, s)
  | .phyDatH => .ok (s.dev.phyDatH, s)
  | .par i => .ok (macGet s.dev.par i, s)
  | .vidL => .ok (lowByte s.cfg.ctrlVid, s)
  | .vidH => .ok (highByte s.cfg.ctrlVid, s)
  | .pidL => .ok (lowByte s.cfg.ctrlPid, s)
  | .pidH => .ok (highByte s.cfg.ctrlPid, s)
  | .ptrCtrl => .ok (s.dev.ptrCtrl, s)
  | .rxPeek => .ok (s.dev.rxLatch, { s with dev.rxLatch := rxByte s s.dev.rxRp.toNat })
  | .rxPeekN => (portPeek 1 s).map (fun r => (r.1.headD 0, r.2))
  | .rxData => (portTake 1 s).map (fun r => (r.1.headD 0, r.2))
  | .rxrpL => .ok (lowByte s.dev.rxRp, s)
  | .rxrpH => .ok (highByte s.dev.rxRp, s)
  | .txData => .ok (drawByte s)
  | .txLenL => .ok (s.dev.txLenL, s)
  | .txLenH => .ok (s.dev.txLenH, s)
  | .intStat => .ok (s.dev.intStat, s)
  | .intMask => .ok (s.dev.intMask, s)

/-- Read a register (40_bus_access.md R124). While a software reset is in progress every register but the reset bit's
reads any value (45_mac_interface.md R254; U19). -/
def devRead (r : CReg) (s : State) : Except Refusal (Byte × State) :=
  match devReadRaw r s with
  | .error e => .error e
  | .ok (b, s') => if resetting s && r != .ncr then .ok (drawByte s') else .ok (b, s')

/-- Write `PHY_CMD` (10_state.md R34; 41_phy_access.md R146): `SEL` is held; one command bit with `SEL` starts a
transaction latched from the address and data registers. -/
def writePhyCmd (b : Byte) (s : State) : Except Refusal State :=
  let wr := b.getLsbD 1
  let rd := b.getLsbD 2
  let sel := b.getLsbD 3
  if !wr && !rd then .ok { s with dev.phySel := sel }
  else if (wr && rd) || !sel then .error .phyCmdReserved
  else if phyBusy s.dev then .error .phyCmdWhileBusy
  else .ok { s with dev := { s.dev with
    phySel := true
    phyOp := some ⟨wr, phyAddrP s.dev.phyAddr, phyAddrR s.dev.phyAddr, halfOf s.dev.phyDatL s.dev.phyDatH⟩ } }

/-- Write a register (40_bus_access.md R125, by the access types of 10_state.md R33, R37). A write to a read-only
register is ignored. -/
def devWrite (r : CReg) (b : Byte) (s : State) : Except Refusal State :=
  match r with
  | .ncr => .ok { s with dev.ncr := b ||| (s.dev.ncr &&& 1) }
  | .txCtrl =>
    if b.getLsbD 0 && !s.dev.txCtrl.getLsbD 0 then .ok (requestTx b s)
    else .ok { s with dev.txCtrl := b ||| (s.dev.txCtrl &&& 1) }
  | .rxCtrl => .ok { s with dev.rxCtrl := b }
  | .fcCtrl => .ok { s with dev.fcCtrl := b }
  | .phyCmd => writePhyCmd b s
  | .phyAddr => .ok { s with dev.phyAddr := b }
  | .phyDatL => .ok { s with dev.phyDatL := b }
  | .phyDatH => .ok { s with dev.phyDatH := b }
  | .par i => .ok { s with dev.par := macSet s.dev.par i b }
  | .ptrCtrl =>
    let s := if b.getLsbD 0 then resetRxPointer s else s
    let s := if b.getLsbD 1 then { s with dev.txStage := [] } else s
    .ok { s with dev.ptrCtrl := b &&& 0xFC }
  | .rxrpH => .ok { s with dev.rxrpHold := b }
  | .rxrpL =>
    let a := (halfOf b s.dev.rxrpHold).toNat
    if inRing s.cfg a then .ok (moveCursor a s) else .error .cursorOutsideRing
  | .txData => .ok (stageTx [b] s)
  | .txLenL => .ok { s with dev.txLenL := b }
  | .txLenH => .ok { s with dev.txLenH := b }
  | .intStat => .ok (setInt (s.dev.intStat &&& ~~~b) s.dev.intMask s)
  | .intMask => .ok (setInt s.dev.intStat b s)
  | .vidL => .ok s
  | .vidH => .ok s
  | .pidL => .ok s
  | .pidH => .ok s
  | .rxPeek => .ok s
  | .rxPeekN => .ok s
  | .rxData => .ok s

/-- How many bytes a block frame may carry (20_memory.md R65; 40_bus_access.md R126, R127). -/
def blockLength (n : Nat) : Bool := decide (1 ≤ n) && decide (n ≤ 65535)

/-- The bytes and the side effect of a block read frame, but for a reset in progress. A frame that carries one byte is the
register frame of the same command byte, whatever the register; one of more than 65535 is refused (log 7). -/
def devBlockReadRaw (r : CReg) (n : Nat) (s : State) : Except Refusal (List Byte × State) :=
  match r with
  | .rxPeekN => if blockLength n then portPeek n s else .error .blockFrameForm
  | .rxData => if blockLength n then portTake n s else .error .blockFrameForm
  | r => if n = 1 then (devReadRaw r s).map (fun x => ([x.1], x.2)) else .error .blockFrameForm

/-- A block read frame (30_encoding.md R101; 40_bus_access.md R126). -/
def devBlockRead (r : CReg) (n : Nat) (s : State) : Except Refusal (List Byte × State) :=
  match devBlockReadRaw r n s with
  | .error e => .error e
  | .ok (bs, s') => if resetting s && r != .ncr then .ok (drawBytes n s') else .ok (bs, s')

/-- A block write frame (30_encoding.md R101; 40_bus_access.md R127). -/
def devBlockWrite (r : CReg) (bs : List Byte) (s : State) : Except Refusal State :=
  match r, bs with
  | _, [] => .error .blockFrameForm
  | .txData, bs => if blockLength bs.length then .ok (stageTx bs s) else .error .blockFrameForm
  | r, [b] => devWrite r b s
  | _, _ => .error .blockFrameForm

/-- Read by index: a reserved index returns any value (10_state.md R32). -/
def devReadIdx (i : BitVec 7) (s : State) : Except Refusal (Byte × State) :=
  match CReg.ofIndex s.cfg i with
  | some r => devRead r s
  | none => .ok (drawByte s)

/-- Write by index: a write to a reserved index is ignored (10_state.md R32). -/
def devWriteIdx (i : BitVec 7) (b : Byte) (s : State) : Except Refusal State :=
  match CReg.ofIndex s.cfg i with
  | some r => devWrite r b s
  | none => .ok s

/-! ## The transactions of a context (40_bus_access.md R124 to R127) -/

/-- The exchange of `RegRead(r)`; `k` is what the operation does with the byte in the same step. -/
def regRead (r : CReg) (s : State) (k : Byte → State → Out) : Out :=
  accept (devRead r s) (fun x => k x.1 (observe (.regRd (r.index s.cfg.cregs) x.1) x.2))

/-- The exchange of `RegWrite(r, b)`. -/
def regWrite (r : CReg) (b : Byte) (s : State) (k : State → Out) : Out :=
  accept (devWrite r b s) (fun s' => k (observe (.regWr (r.index s.cfg.cregs) b) s'))

/-- `RegRead` of an index. -/
def regReadIdx (i : BitVec 7) (s : State) (k : Byte → State → Out) : Out :=
  accept (devReadIdx i s) (fun x => k x.1 (observe (.regRd i x.1) x.2))

/-- `RegWrite` of an index. -/
def regWriteIdx (i : BitVec 7) (b : Byte) (s : State) (k : State → Out) : Out :=
  accept (devWriteIdx i b s) (fun s' => k (observe (.regWr i b) s'))

/-- The exchange of `BlockRead(r, n)`. -/
def blockRead (r : CReg) (n : Nat) (s : State) (k : List Byte → State → Out) : Out :=
  accept (devBlockRead r n s) (fun x => k x.1 (observe (.blkRd (r.index s.cfg.cregs) x.1) x.2))

/-- The exchange of `BlockWrite(r, bytes)`. -/
def blockWrite (r : CReg) (bs : List Byte) (s : State) (k : State → Out) : Out :=
  accept (devBlockWrite r bs s) (fun s' => k (observe (.blkWr (r.index s.cfg.cregs) bs) s'))

/-! ## MREG (10_state.md R36, R37) -/

/-- What a register holds; the write-only poll demands hold nothing and read any value. -/
def mregValue (r : MReg) (s : State) : Word × State :=
  match r with
  | .busMode => (s.mreg.busMode, s)
  | .txPoll => drawWord s
  | .rxPoll => drawWord s
  | .rxBase => (s.mreg.rxBase, s)
  | .txBase => (s.mreg.txBase, s)
  | .status => (s.mreg.status, s)
  | .opMode => (s.mreg.opMode, s)
  | .intEn => (s.mreg.intEn, s)
  | .macConfig => (s.mreg.macConfig, s)
  | .macFfilt => (s.mreg.macFfilt, s)
  | .macFlowCtrl => (s.mreg.macFlowCtrl, s)
  | .macAddrHi => (s.mreg.macAddrHi, s)
  | .macAddrLo => (s.mreg.macAddrLo, s)

/-- While the software reset is in progress a register reads any value, but for the reset bit itself (U19). -/
def mregRead (r : MReg) (s : State) : Word × State :=
  let (v, s') := mregValue r s
  if resetting s then
    let (f, s'') := drawWord s'
    if r = .busMode then ((f &&& 0xFFFFFFFE) ||| (v &&& 1), s'') else (f, s'')
  else (v, s')

/-- A write of `DMA_OPMODE`: the receive fetcher starts or stops as `SR` changes (43_dma_ring.md R200). -/
def switchRx (old new : Bool) (s : State) : State :=
  if !old && new then
    { s with dma := { s.dma with rxCur := s.mreg.rxBase, rxInflight := none, rxState := .running } }
  else if old && !new then
    { s with
      dma := { s.dma with rxInflight := none, rxState := .stopped }
      dev.rxDropped := s.dev.rxDropped + s.dma.rxInflight.isSome.toNat }
  else s

/-- A write of `DMA_OPMODE`: the transmit fetcher starts or stops as `ST` changes (43_dma_ring.md R220). -/
def switchTx (old new : Bool) (s : State) : State :=
  if !old && new then
    { s with dma := { s.dma with txCur := s.mreg.txBase, txInflight := [], txState := .running } }
  else if old && !new then { s with dma := { s.dma with txInflight := [], txState := .stopped } }
  else s

/-- Receive poll demand (43_dma_ring.md R201). -/
def pollRx (s : State) : State :=
  if s.dma.rxState = .suspended then { s with dma.rxState := .running } else s

/-- Transmit poll demand (45_mac_interface.md R274). -/
def pollTx (s : State) : State :=
  if s.dma.txState = .suspended then { s with dma.txState := .running } else s

/-- Write a memory-mapped register. -/
def mregWrite (r : MReg) (v : Word) (s : State) : State :=
  match r with
  | .busMode => { s with mreg.busMode := v ||| (s.mreg.busMode &&& 1) }
  | .txPoll => pollTx s
  | .rxPoll => pollRx s
  | .rxBase => { s with mreg.rxBase := v &&& 0xFFFFFFFC }
  | .txBase => { s with mreg.txBase := v &&& 0xFFFFFFFC }
  | .status => { s with mreg.status := s.mreg.status &&& ~~~v }
  | .opMode =>
    let old := s.mreg.opMode
    let s := switchRx (old.getLsbD 1) (v.getLsbD 1) s
    let s := switchTx (old.getLsbD 13) (v.getLsbD 13) s
    { s with mreg.opMode := v }
  | .intEn => { s with mreg.intEn := v }
  | .macConfig => { s with mreg.macConfig := v }
  | .macFfilt => { s with mreg.macFfilt := v }
  | .macFlowCtrl => { s with mreg.macFlowCtrl := v }
  | .macAddrHi => { s with mreg.macAddrHi := v }
  | .macAddrLo => { s with mreg.macAddrLo := v }

/-- `MRead(name)` as a step of a context. -/
def mRead (r : MReg) (s : State) (k : Word → State → Out) : Out :=
  let (v, s') := mregRead r s
  k v (observe (.mRead r v) s')

/-- `MWrite(name, v)` as a step of a context. -/
def mWrite (r : MReg) (v : Word) (s : State) : State := observe (.mWrite r v) (mregWrite r v s)

/-! ## How an operation ends -/

/-- Completion of a host operation (10_state.md R29): results, `HBUSY <- 0`, `DONE <- 1`, in one step. -/
def completeHost (code rd0 rd1 : Word) (s : State) : State :=
  observe (.result code rd0 rd1)
    (setPc .H .idle { s with hif := { s.hif with result := code, rdata0 := rd0, rdata1 := rd1, done := true } })

/-- The drainer goes on at a label (44_drainer.md R230). -/
def drainTo (d : DLabel) (s : State) : State := setPc .W (.drain d) s

/-- The drainer returns to `waiting` (44_drainer.md R233, R239). -/
def drainWait (s : State) : State := drainTo .w0 { s with wstate := .waiting }

/-- The case lines of I0, I1 and I3 under BUS (44_drainer.md R234): where the drainer goes on when an operation it issued
has ended. For `RX_ALLOC` the results are (buf, rl); of `RX_FRAME`'s the drainer takes `cl` and compares it with I0's `rl`. -/
def drainReturnBus (m : Op) (r : Except (Err × Word) (Word × Word)) (s : State) : State :=
  match m, r with
  | .rxAlloc, .ok (buf, rl) =>
    if buf = 0 then drainTo .i5 { s with drain := { s.drain with buf := none, rl := 0, cl := 0 } }
    else drainTo .i1 { s with drain := { s.drain with buf := some buf, rl := rl.toNat, cl := 0 } }
  | .rxAlloc, .error (.noMemory, rl) =>
    drainTo (.log .noMemForBuffer) { s with drain := { s.drain with buf := none, rl := rl.toNat } }
  | .rxAlloc, .error (.invalidSize, _) => drainTo (.log .invalidFrameLength) s
  | .rxAlloc, .error (.timeout, _) => drainTo (.log .rxTimeout) s
  | .rxAlloc, .error _ => drainTo (.log .rxFail) s
  | .rxFrame, .ok (cl, _) =>
    drainTo (if cl.toNat < s.drain.rl then .log .frameTruncated else .i2) { s with drain.cl := cl.toNat }
  | .rxFrame, .error _ => drainTo (.log .frameReadFailed) s
  | .rxFlush, .error (.timeout, _) => drainTo (.log .flushTimeout) s
  | .rxFlush, .error _ => drainTo (.log .flushFail) s
  | _, _ => drainTo .i5 s

/-- The same under DMA (44_drainer.md R235). -/
def drainReturnDma (m : Op) (r : Except (Err × Word) (Word × Word)) (s : State) : State :=
  match m, r with
  | .rxFrame, .ok (cl, rl) =>
    let s := { s with drain := { s.drain with rl := rl.toNat, cl := cl.toNat } }
    if cl = 0 then drainTo .freeI4 s else drainTo .i2 s
  | .rxFrame, .error _ => drainTo (.log .frameTruncated) s
  | _, _ => drainTo .i4 s

def drainReturn (m : Op) (r : Except (Err × Word) (Word × Word)) (s : State) : State :=
  match s.cfg.variant with
  | .bus => drainReturnBus m r s
  | .dma => drainReturnDma m r s

/-- `return Ok(rd0, rd1)` (00_scope.md R13; 30_encoding.md R105): to the host's registers or to the drainer's locals. -/
def finish (c : CtxId) (m : Op) (rd0 rd1 : Word) (s : State) : Out :=
  match c with
  | .H => .next (completeHost s.cfg.results.ok rd0 rd1 s)
  | .W => .next (drainReturn m (.ok (rd0, rd1)) s)

/-- The operation ends with an error as its result (60_exceptions.md R300): `RDATA0` = 0, and `RDATA1` = 0 unless the
rule names a datum. -/
def endWithError (c : CtxId) (m : Op) (e : Err) (rd1 : Word) (s : State) : Out :=
  match c with
  | .H => .next (completeHost (errCode s.cfg.results e) 0 rd1 s)
  | .W => .next (drainReturn m (.error (e, rd1)) s)

/-- `raise E(info)`: THE ONE SHARED OPERATION by which an error is taken (60_exceptions.md R300, R301, R303). The two
operations with an 'on error' continuation remember the error and go on there: `INIT` at S8 (45_mac_interface.md
R253), `DEINIT` at S0 (R256). Everything else ends at once; nothing is rolled back. -/
def raiseErr (c : CtxId) (m : Op) (e : Err) (rd1 : Word) (s : State) : Out :=
  match m with
  | .init => toLabel c m .s8 (modSc c (fun x => { x with err := some e }) s)
  | .deinit => toLabel c m .s0 (modSc c (fun x => { x with err := some e }) s)
  | _ => endWithError c m e rd1 s

/-! ## What a label's step is -/

/-- The step a context takes at its label: a bus transaction (Acquire, then Transfer with the exchange `xfer`), any other
atomic step, or nothing for now. -/
inductive Act where
  | bus (xfer : State → Out)
  | plain (o : Out)
  | blocked

/-- A `RegRead` step. -/
def rdStep (r : CReg) (k : Byte → State → Out) : Act := .bus (fun s => regRead r s k)

/-- A `RegWrite` step. -/
def wrStep (r : CReg) (b : Byte) (k : State → Out) : Act := .bus (fun s => regWrite r b s k)

/-- `need`, where the step itself depends on the value. -/
def needAct {α : Type} (v : Option α) (k : α → Act) : Act :=
  match v with
  | some a => k a
  | none => .plain (.fault .unwrittenRegister)

/-- A label the operation does not have. -/
def noLabel : Act := .plain (.fault .noSuchLabel)

end Sys2Proof.Machine
end

