-- ==== Sys2Proof/Machine/BusAccess.lean ====
section
/-! DEFINITION. `REG_RD`, `REG_WR`, `MEM_RD`, `MEM_WR` (40_bus_access.md R128 to R131), step by step, and the four bare bus
frames (30_encoding.md R99 to R101) as the controller answers them. -/

namespace Sys2Proof.Machine

/-! ## REG_RD, REG_WR -/

def regRdEntry (c : CtxId) (s : State) : Out := toLabel c .regRd .s0 s

def regRdAct (c : CtxId) (l : Label) (_s : State) : Act :=
  match l with
  | .s0 => .bus (fun s => need (xOf c s).cw fun w =>
      regReadIdx (Field.reg7 w) s fun b t => finish c .regRd (zextByte b) 0 (setT c b (keepDrainHeader s t)))
  | _ => noLabel

def regWrEntry (c : CtxId) (s : State) : Out := toLabel c .regWr .s0 s

def regWrAct (c : CtxId) (l : Label) (_s : State) : Act :=
  match l with
  | .s0 => .bus (fun s => need (xOf c s).cw fun w =>
      regWriteIdx (Field.reg7 w) (Field.data w) s fun t => finish c .regWr 0 0 (keepDrainHeader s t))
  | _ => noLabel

/-! ## MEM_RD, MEM_WR -/

/-- The lines of R130 and R131 before S0, in their order: length 0, null buffer. They execute with S0 (00_scope.md R14); where
neither ends the operation, its step is `act` of the length and the buffer. -/
def memChecks (c : CtxId) (m : Op) (s : State) (act : Nat → Word → Act) : Act :=
  needAct (xOf c s).cw fun w => needAct (xOf c s).a0 fun a =>
    if cwLen w = 0 then .plain (finish c m 0 0 s)
    else if a = 0 then .plain (raiseErr c m .invalidArgument 0 s)
    else act (cwLen w) a

def memRdEntry (c : CtxId) (s : State) : Out := toLabel c .memRd .s0 s

def memRdAct (c : CtxId) (l : Label) (s : State) : Act :=
  match l with
  | .s0 => memChecks c .memRd s fun n _ => .bus (fun s =>
      blockRead .rxData n s fun bs t => toLabel c .memRd .s1 (setBytes c bs (keepDrainHeader s t)))
  | .s1 => .plain (need (xOf c s).a0 fun a => need (scOf c s).bytes fun bs =>
      writeString c .memRd .s1 a.toNat bs (finish c .memRd 0 0) s)
  | _ => noLabel

def memWrEntry (c : CtxId) (s : State) : Out := toLabel c .memWr .s0 (setBytes c [] s)

def memWrAct (c : CtxId) (l : Label) (s : State) : Act :=
  match l with
  | .s0 => memChecks c .memWr s fun n a => .plain (readString c .memWr .s0 a.toNat n (toLabel c .memWr .s1) s)
  | .s1 => .bus (fun s => need (scOf c s).bytes fun bs =>
      blockWrite .txData bs s fun s => finish c .memWr 0 0 s)
  | _ => noLabel

/-! ## The bare bus frames (30_encoding.md R99 to R101)

A frame that stands on the controller's serial port by itself: the exchange of a Transfer step (40_bus_access.md R123)
without a context that holds the lock. The bytes the controller drives go to `BusPort.inp`; how many it drives in a
block read, and what the block drives in a block write, are `BusPort.want` and `BusPort.out` (log 7). -/

/-- Frames exist under BUS only (30_encoding.md R99; 40_bus_access.md R132). -/
def onBus (s : State) (k : Out) : Out :=
  match s.cfg.variant with
  | .bus => k
  | .dma => .refused .noBusUnderDma

def frameRegRd (reg : BitVec 7) (s : State) : Out :=
  onBus s (regReadIdx reg s fun b s => .next { s with bus.inp := [b] })

def frameRegWr (reg : BitVec 7) (d : Byte) (s : State) : Out :=
  onBus s (regWriteIdx reg d s fun s => .next s)

def frameBlkRd (reg : BitVec 7) (s : State) : Out :=
  onBus s (match CReg.ofIndex s.cfg reg with
    | some r => blockRead r s.bus.want s fun bs s => .next { s with bus.inp := bs }
    | none =>
      if s.bus.want = 1 then regReadIdx reg s fun b s => .next { s with bus.inp := [b] }
      else .refused .blockFrameForm)

def frameBlkWr (reg : BitVec 7) (s : State) : Out :=
  onBus s (match CReg.ofIndex s.cfg reg with
    | some r => blockWrite r s.bus.out s fun s => .next s
    | none =>
      match s.bus.out with
      | [d] => regWriteIdx reg d s fun s => .next s
      | _ => .refused .blockFrameForm)

end Sys2Proof.Machine
end

