-- ==== Sys2Proof/Machine/Sequences.lean ====
section
/-! DEFINITION. The register sequences that several operations inline: `ResetDescChain` (43_dma_ring.md R195), `StopSeq`
(45_mac_interface.md R258) and `StartSeq` (R257). Each takes what follows it as `k`, which runs in the step of the
sequence's last label. -/

namespace Sys2Proof.Machine

/-! ## Descriptor addresses (43_dma_ring.md R193) -/

def rxdAddr (s : State) (i : Nat) : Nat := s.bufs.rxRingBase.toNat + 16 * i
def txdAddr (s : State) (i : Nat) : Nat := s.bufs.txRingBase.toNat + 16 * i
def rxBuf (s : State) (i : Nat) : Word := s.bufs.rxb.getD i 0
def txBuf (s : State) (i : Nat) : Word := s.bufs.txb.getD i 0

/-! ## ResetDescChain (43_dma_ring.md R195)

R194 calls it legal only while both fetchers are stopped. `INIT_SEQ` may have started one (00_scope.md R9 bounds no register of
it); the rewrite then runs unchecked beside it: DESIGN CHOICE, log 36. -/

def setI (c : CtxId) (i : Nat) (s : State) : State := modSc c (fun x => { x with i := some i }) s

/-- It begins with descriptor 0 at D0. -/
def chainEntry (c : CtxId) (m : Op) (s : State) : Out := toLabel c m .d0 (setI c 0 s)

/-- D3 and D7 end a round of their loop: the next descriptor, or what follows the loop. -/
def chainNext (c : CtxId) (m : Op) (i n : Nat) (again after : Label) (s : State) : Out :=
  if i + 1 < n then toLabel c m again (setI c (i + 1) s) else toLabel c m after (setI c 0 s)

/-- Its steps. Whether a fetcher runs is not looked at (log 36). -/
def chainAct (c : CtxId) (m : Op) (l : Label) (s : State) (k : State → Out) : Act :=
  match l with
  | .d0 => .plain (need (scOf c s).i fun i => toLabel c m .d1 (hwrite32 (rxdAddr s i) 0x80000000 s))
  | .d1 => .plain (need (scOf c s).i fun i =>
      toLabel c m .d2 (hwrite32 (rxdAddr s i + 4) (0x00004000 ||| BitVec.ofNat 32 s.cfg.dmaBufSize) s))
  | .d2 => .plain (need (scOf c s).i fun i => toLabel c m .d3 (hwrite32 (rxdAddr s i + 8) (rxBuf s i) s))
  | .d3 => .plain (need (scOf c s).i fun i =>
      chainNext c m i s.cfg.rxDescN .d0 .d4
        (hwrite32 (rxdAddr s i + 12) (BitVec.ofNat 32 (rxdAddr s ((i + 1) % s.cfg.rxDescN))) s))
  | .d4 => .plain (need (scOf c s).i fun i => toLabel c m .d5 (hwrite32 (txdAddr s i) 0x00100000 s))
  | .d5 => .plain (need (scOf c s).i fun i => toLabel c m .d6 (hwrite32 (txdAddr s i + 4) 0 s))
  | .d6 => .plain (need (scOf c s).i fun i => toLabel c m .d7 (hwrite32 (txdAddr s i + 8) (txBuf s i) s))
  | .d7 => .plain (need (scOf c s).i fun i =>
      chainNext c m i s.cfg.txDescN .d4 .d8
        (hwrite32 (txdAddr s i + 12) (BitVec.ofNat 32 (txdAddr s ((i + 1) % s.cfg.txDescN))) s))
  | .d8 => .plain (toLabel c m .d9 (mWrite .rxBase s.bufs.rxRingBase
      { s with
        bufs := { s.bufs with rxIdx := 0, txIdx := 0 }
        flags := { s.flags with framesRemain := 0, freeRx := s.cfg.rxDescN } }))
  | .d9 => .plain (k (mWrite .txBase s.bufs.txRingBase s))
  | _ => noLabel

/-! ## StopSeq (45_mac_interface.md R258) -/

def stopSeqEntry (c : CtxId) (m : Op) (s : State) : Out := toLabel c m .h0 s

/-- The operations of 42_rx_bus.md, whose cursor moves end every header (R174). -/
def isRxOp : Op → Bool
  | .rxCount => true
  | .rxAlloc => true
  | .rxFrame => true
  | .rxFlush => true
  | _ => false

/-- The pointer reset of `StopSeq` and `StartSeq` under BUS, and what follows it in its step. -/
def resetPointers (m : Op) (k : State → Out) : Act :=
  .bus (fun s => regWrite .ptrCtrl 0x03 s fun t => k (if isRxOp m then t else keepDrainHeader s t))

/-- The unlabelled line that ends `StopSeq`; under DMA `IRQ_PEND` is no latch. It executes with the next labelled line of the
operation (00_scope.md R14), S0 of `DEINIT` and V1 of `Recover`, and with the last labelled step where none follows, in `STOP` and
`SET_LINK` (log 18). -/
def stopFlags (s : State) : State :=
  match s.cfg.variant with
  | .bus => { s with flags := { s.flags with irqEn := false, irqPend := false, framesRemain := 0 } }
  | .dma => { s with flags := { s.flags with irqEn := false, framesRemain := 0 } }

/-- Its labelled lines. -/
def stopSeqAct (c : CtxId) (m : Op) (l : Label) (s : State) (k : State → Out) : Act :=
  match s.cfg.variant, l with
  | .bus, .h0 => wrStep .intMask 0x80 (toLabel c m .h1)
  | .bus, .h1 => rdStep .rxCtrl (fun b s => toLabel c m .h2 (setT c b s))
  | .bus, .h2 => .bus (fun s => need (xOf c s).t fun t =>
      regWrite .rxCtrl (byteOf 0 t &&& 0xFE) s (toLabel c m .h3))
  | .bus, .h3 => resetPointers m k
  | .dma, .h0 => .plain (toLabel c m .h1 (mWrite .intEn 0 s))
  | .dma, .h1 => .plain (mRead .opMode s fun v s => toLabel c m .h2 (setV c v s))
  | .dma, .h2 => .plain (need (xOf c s).v fun v =>
      toLabel c m .h3 (mWrite .opMode (v &&& ~~~0x00002002) s))
  | .dma, .h3 => .plain (mRead .macConfig s fun v s => toLabel c m .h4 (setV c v s))
  | .dma, .h4 => .plain (need (xOf c s).v fun v =>
      toLabel c m .h5 (mWrite .macConfig (v &&& ~~~0x0000000C) s))
  | .dma, .h5 => .plain (k (mWrite .status 0x000000C1 s))
  | _, _ => noLabel

/-! ## StartSeq (45_mac_interface.md R257) -/

def startSeqEntry (c : CtxId) (m : Op) (s : State) : Out :=
  match s.cfg.variant with
  | .bus => toLabel c m .g0 s
  | .dma => chainEntry c m s

/-- The unlabelled line that ends `StartSeq` under BUS. Enabling while the line is active makes no edge
(60_exceptions.md R311). -/
def startFlagsBus (s : State) : State := { s with flags := { s.flags with irqEn := true, framesRemain := 0 } }

/-- The same under DMA. -/
def startFlagsDma (s : State) : State := { s with flags.irqEn := true }

def startSeqAct (c : CtxId) (m : Op) (l : Label) (s : State) (k : State → Out) : Act :=
  match s.cfg.variant, l with
  | .bus, .g0 => resetPointers m (toLabel c m .g1)
  | .bus, .g1 => wrStep .intStat 0x3F (toLabel c m .g2)
  | .bus, .g2 => wrStep .intMask 0x81 (toLabel c m .g3)
  | .bus, .g3 => rdStep .rxCtrl (fun b s => toLabel c m .g4 (setT c b s))
  | .bus, .g4 => .bus (fun s => need (xOf c s).t fun t =>
      regWrite .rxCtrl (byteOf 0 t ||| 0x01) s (fun s => k (startFlagsBus s)))
  | .dma, .g0 => .plain (mRead .macConfig s fun v s => toLabel c m .g1 (setV c v s))
  | .dma, .g1 => .plain (need (xOf c s).v fun v => toLabel c m .g2 (mWrite .macConfig (v ||| 0x00000008) s))
  | .dma, .g2 => .plain (mRead .opMode s fun v s => toLabel c m .g3 (setV c v s))
  | .dma, .g3 => .plain (need (xOf c s).v fun v => toLabel c m .g4 (mWrite .opMode (v ||| 0x00002002) s))
  | .dma, .g4 => .plain (mRead .macConfig s fun v s => toLabel c m .g5 (setV c v s))
  | .dma, .g5 => .plain (need (xOf c s).v fun v => toLabel c m .g6 (mWrite .macConfig (v ||| 0x00000004) s))
  | .dma, .g6 => .plain (toLabel c m .g7 (mWrite .status 0x000000C1 s))
  | .dma, .g7 => .plain (k (startFlagsDma (mWrite .intEn 0x000000C0 s)))
  | .dma, l => chainAct c m l s (toLabel c m .g0)
  | _, _ => noLabel

end Sys2Proof.Machine
end

