-- ==== Sys2Proof/Machine/RxBus.lean ====
section
/-! DEFINITION. The receive side of the bus-attached variant (42_rx_bus.md): the procedures `RxCount` (R164), `Recover` (R166),
`SkipFrame` (R169) and `Reprobe` (R173), inlined in the operation that calls them (R162), and `RX_COUNT` (R165),
`RX_ALLOC` (R170), `RX_FRAME` (R171), `RX_FLUSH` (R172). -/

namespace Sys2Proof.Machine

/-- `FRAMES_REMAIN <- n` (10_state.md R28). -/
def setRemain (n : Nat) (s : State) : State := { s with flags.framesRemain := n }

/-- A Nat result as a result datum. -/
def datum (n : Nat) : Word := BitVec.ofNat 32 n

/-- No frame is pending: the `bc == 0` line of the four operations (R165, R170, R171, R172). -/
def nothingPending (c : CtxId) (m : Op) (s : State) : Out := finish c m 0 0 (setRemain 0 s)

/-- `(rl, cl) <- Derive(bc, len)` (R168) and go on, or raise `InvalidSize` with the frame unconsumed. -/
def deriveThen (c : CtxId) (m : Op) (bc : Nat) (after : Label) (s : State) : Out :=
  need (xOf c s).cw fun w =>
    match derive s.cfg bc (cwLen w) with
    | none => raiseErr c m .invalidSize 0 s
    | some (rl, cl) => toLabel c m after (modSc c (fun x => { x with bc := some bc, rl := some rl, cl := some cl }) s)

/-- What each operation does with the byte count `RxCount` returned. -/
def countDone (c : CtxId) (m : Op) (bc : Nat) (s : State) : Out :=
  match m with
  | .rxCount => if bc = 0 then nothingPending c m s else finish c m (datum bc) 0 s
  | .rxAlloc => if bc = 0 then nothingPending c m s else deriveThen c m bc .a0 s
  | .rxFrame => if bc = 0 then nothingPending c m s else deriveThen c m bc .f2 s
  | _ => if bc = 0 then nothingPending c m s else toLabel c m .k0 (modSc c (fun x => { x with bc := some bc }) s)

/-- The byte after the header fields of R167: status, and the byte count low byte first. -/
def headerStatus (hdr : List Byte) : Byte := hdr.getD 1 0
def headerCount (hdr : List Byte) : Nat := (halfOf (hdr.getD 2 0) (hdr.getD 3 0)).toNat

/-- C2 of `RxCount` (R164): an erroneous frame is skipped, re-probed and reported `Fail`. -/
def headerPeeked (c : CtxId) (m : Op) (hdr : List Byte) (s : State) : Out :=
  if erroneous s.cfg (headerStatus hdr) then
    toLabel c m .k0 (modSc c (fun x => { x with bc := some (headerCount hdr), skipErr := true }) s)
  else countDone c m (headerCount hdr) s

/-- What follows `Reprobe`: `Fail` after an erroneous frame, else the operation's `return`. -/
def reprobeDone (c : CtxId) (m : Op) (s : State) : Out :=
  if (scOf c s).skipErr then raiseErr c m .fail 0 s
  else match m with
    | .rxFrame => need (scOf c s).cl fun cl => need (scOf c s).rl fun rl => finish c m (datum cl) (datum rl) s
    | _ => finish c m 0 0 s

/-- A lock timeout inside `Reprobe` is absorbed (R173): the write of `FRAMES_REMAIN` and the `Log` are the next two steps. -/
def reprobeTimeout (c : CtxId) (m : Op) (s : State) : Out := toLabel c m .p2 s

/-- The labels of the procedures. -/
def rxProcAct (c : CtxId) (m : Op) (l : Label) (s : State) : Act :=
  match l with
  -- RxCount
  | .c0 => rdStep .rxPeek fun b s => toLabel c m .c1 (setT c b s)
  | .c1 => rdStep .rxPeek fun b s =>
      if 1 < b.toNat then stopSeqEntry c m (setT c b s)
      else if b = 0 then countDone c m 0 (setT c b s)
      else toLabel c m .c2 (setT c b s)
  | .c2 => .bus (fun s => blockRead .rxPeekN 4 s (headerPeeked c m))
  -- Recover: V0 is StopSeq, whose last line executes with V1; V3 is StartSeq
  | .h0 => stopSeqAct c m l s (toLabel c m .v1)
  | .h1 => stopSeqAct c m l s (toLabel c m .v1)
  | .h2 => stopSeqAct c m l s (toLabel c m .v1)
  | .h3 => stopSeqAct c m l s (toLabel c m .v1)
  | .v1 => .bus (fun s => regWrite .ptrCtrl 0x01 (stopFlags s) (toLabel c m .v2))
  | .v2 => .plain (startSeqEntry c m s)
  | .g0 => startSeqAct c m l s (toLabel c m .v4)
  | .g1 => startSeqAct c m l s (toLabel c m .v4)
  | .g2 => startSeqAct c m l s (toLabel c m .v4)
  | .g3 => startSeqAct c m l s (toLabel c m .v4)
  | .g4 => startSeqAct c m l s (toLabel c m .v4)
  | .v4 => .plain (raiseErr c m .fail 0 (logEntry c .rxPointerReset s))
  -- SkipFrame: the cursor value is in `P`
  | .k0 => rdStep .rxrpH fun b s => toLabel c m .k1 (setP c (zextByte b <<< 8) s)
  | .k1 => rdStep .rxrpL fun b s => need (xOf c s).p fun cur => need (scOf c s).bc fun n =>
      toLabel c m .k2 (setP c (skipCursor s.cfg (cur ||| zextByte b) n) s)
  | .k2 => .bus (fun s => need (xOf c s).p fun cur =>
      regWrite .rxrpH (byteOf 1 cur) s (toLabel c m .k3))
  | .k3 => .bus (fun s => need (xOf c s).p fun cur =>
      regWrite .rxrpL (byteOf 0 cur) s (toLabel c m .p0))
  -- Reprobe
  | .p0 => rdStep .rxPeek fun b s => toLabel c m .p1 (setT c b s)
  | .p1 => rdStep .rxPeek fun b s => reprobeDone c m (setRemain (if b = 0 then 0 else 1) (setT c b s))
  | .p2 => .plain (toLabel c m .p3 (setRemain 1 s))
  | .p3 => .plain (reprobeDone c m (logEntry c .reprobeTimeout s))
  | _ => noLabel

/-! ## RX_COUNT, RX_FLUSH -/

def rxCountEntry (c : CtxId) (s : State) : Out := toLabel c .rxCount .c0 s

def rxCountAct (c : CtxId) (l : Label) (s : State) : Act := rxProcAct c .rxCount l s

def rxFlushBusEntry (c : CtxId) (s : State) : Out := toLabel c .rxFlush .c0 s

def rxFlushBusAct (c : CtxId) (l : Label) (s : State) : Act := rxProcAct c .rxFlush l s

/-! ## RX_ALLOC -/

def rxAllocEntry (c : CtxId) (s : State) : Out := toLabel c .rxAlloc .c0 s

/-- Who owns a delivery buffer from its `Alloc` on (20_memory.md R76): the block, for the drainer or on the host's behalf. -/
def allocOwner (c : CtxId) : Owner :=
  match c with
  | .H => .block
  | .W => .drainer

/-- Ownership passes to the caller when the operation returns (R170 (d)); the drainer's buffer is the block's already. -/
def passToCaller (c : CtxId) (a : Word) (s : State) : State :=
  match c with
  | .H => giveAlloc a .host s
  | .W => s

def rxAllocAct (c : CtxId) (l : Label) (s : State) : Act :=
  match l with
  | .a0 => .plain (need (scOf c s).rl fun rl =>
      match alloc s.cfg.rxBufSize (allocOwner c) s with
      | (none, s) => raiseErr c .rxAlloc .noMemory (datum rl) s
      | (some a, s) => toLabel c .rxAlloc .a1 (modSc c (fun x => { x with buf := some a }) s))
  | .a1 => .plain (need (scOf c s).buf fun a => need (scOf c s).cl fun cl =>
      toLabel c .rxAlloc .a2 (hwrite32 a.toNat (datum cl) s))
  | .a2 => .plain (need (scOf c s).buf fun a => need (scOf c s).bc fun bc => need (scOf c s).rl fun rl =>
      let s := hwrite32 (a.toNat + 4) (datum bc) s
      finish c .rxAlloc a (datum rl) (passToCaller c a { s with bufs.hdrValid := s.bufs.hdrValid ++ [a] }))
  | l => rxProcAct c .rxAlloc l s

/-! ## RX_FRAME, bus-attached variant -/

/-- Its first label (R171): F0 of the automatic form, C0 of the explicit one. -/
def rxFrameBusEntry (c : CtxId) (s : State) : Out :=
  need (xOf c s).cw fun w => toLabel c .rxFrame (if cwLen w = 0 then .f0 else .c0) s

/-- The line of R171 and 43_dma_ring.md R210 before the first label, a null buffer. It executes with that label (00_scope.md R14);
where it does not end the operation, the step is `act` of the buffer. -/
def bufferCheck (c : CtxId) (m : Op) (s : State) (act : Word → Act) : Act :=
  needAct (xOf c s).a0 fun a => if a = 0 then .plain (raiseErr c m .invalidArgument 0 s) else act a

/-- The frame's bytes that are copied out: `frame[4 .. 4 + cl - 1]` of the `bc + 4` bytes read (R171, F4), which must exist and,
in the automatic form, fit the delivery buffer (10_state.md R40; U11; log 11). -/
def copyFits (s : State) (len bc cl : Nat) : Bool :=
  decide (cl ≤ bc) && (decide (len ≠ 0) || decide (cl ≤ s.cfg.rxBufSize))

def rxFrameBusAct (c : CtxId) (l : Label) (s : State) : Act :=
  match l with
  -- the automatic form takes only a buffer whose header is valid (R171 (b), log 11)
  | .f0 => bufferCheck c .rxFrame s fun a => .plain (
      if a ∈ s.bufs.hdrValid then
        toLabel c .rxFrame .f1 (modSc c (fun x => { x with cl := some (hread32 s a.toNat).toNat }) s)
      else .refused .headerNotValid)
  | .c0 => bufferCheck c .rxFrame s fun _ => rxProcAct c .rxFrame .c0 s
  | .f1 => .plain (need (xOf c s).a0 fun a =>
      let bc := (hread32 s (a.toNat + 4)).toNat
      toLabel c .rxFrame .f2
        (modSc c (fun x => { x with bc := some bc, rl := some (datum bc - datum s.cfg.crcLen).toNat }) s))
  | .f2 => .bus (fun s => need (scOf c s).bc fun bc =>
      if s.cfg.rxBufSize + s.cfg.crcLen < bc then .refused .outsideRegion
      else blockRead .rxData (bc + 4) s fun bs s => toLabel c .rxFrame .f3 (setBytes c bs s))
  | .f3 => .plain (need (scOf c s).bytes fun bs =>
      writeString c .rxFrame .f3 s.bufs.rxScratch.toNat bs (fun s => toLabel c .rxFrame .f4 (setPos c 0 s)) s)
  | .f4 => .plain (need (xOf c s).a0 fun a => need (xOf c s).cw fun w => need (scOf c s).bytes fun bs =>
      need (scOf c s).bc fun bc => need (scOf c s).cl fun cl =>
        if copyFits s (cwLen w) bc cl then
          writeString c .rxFrame .f4 a.toNat ((bs.drop 4).take cl) (toLabel c .rxFrame .p0) s
        else .refused .outsideRegion)
  | l => rxProcAct c .rxFrame l s

end Sys2Proof.Machine
end

