-- ==== Sys2Proof/Machine/DmaRing.lean ====
section
/-! DEFINITION. The receive operations of the DMA variant (43_dma_ring.md): `RxWalk` (R208), `RX_FRAME` (R210), `RX_FLUSH`
(R211). -/

namespace Sys2Proof.Machine

/-- `W0` of a receive descriptor that is given back to the engine (R210, M2). -/
def descGivenBack : Word := 0x80000000

/-- The walk begins at `rx_idx`: read in its first step (R208; 00_scope.md R14). -/
def walkIdx (c : CtxId) (s : State) : Nat := (scOf c s).i.getD s.bufs.rxIdx

/-- What the counts reported are (R210, R211, R212). -/
def report (remain used : Nat) (s : State) : State :=
  { s with flags := { s.flags with framesRemain := remain, freeRx := s.cfg.rxDescN - used } }

/-- The walk found no complete frame. -/
def walkEmpty (c : CtxId) (m : Op) (used : Nat) (s : State) : Out := finish c m 0 0 (report 0 used s)

/-- The bytes the next segment copies (R210): all that remain in the last, at most a buffer's size before. -/
def segmentBytes (cfg : Config) (k seg rem : Nat) : Nat := if k + 1 < seg then min rem cfg.dmaBufSize else rem

/-- The next segment: M0, or M2 at once when it copies nothing. -/
def segmentEntry (c : CtxId) (m : Op) (k seg rem : Nat) (s : State) : Out :=
  if m = .rxFrame ∧ segmentBytes s.cfg k seg rem ≠ 0 then toLabel c m .m0 (setBytes c [] s) else toLabel c m .m2 s

/-- The ring index of the segment under way: `j <- rx_idx` executes with the first M0 or M2 (00_scope.md R14). -/
def segmentIdx (c : CtxId) (s : State) : Nat := (scOf c s).j.getD s.bufs.rxIdx

def setJ (c : CtxId) (j : Nat) (s : State) : State := modSc c (fun x => { x with j := some j }) s

/-- The walk is over and a frame is pending: set up the give-back loop (R210, R211). -/
def walkDone (c : CtxId) (m : Op) (s : State) : Out :=
  need (xOf c s).cw fun w => need (xOf c s).a0 fun a =>
    let sc := scOf c s
    let cl := min (sc.rl.getD 0) (cwLen w)
    segmentEntry c m 0 sc.seg cl (modSc c (fun x =>
      { x with cl := some cl, rem := some cl, dst := some a.toNat, k := some 0 }) s)

/-- One round of the first loop of `RxWalk`: a CPU-owned descriptor up to the first `LS`. -/
def walkFirst (c : CtxId) (m : Op) (s : State) : Out :=
  let i := walkIdx c s
  let sc := scOf c s
  let w := hread32 s (rxdAddr s i)
  if !descOwn w && decide (sc.used < s.cfg.rxDescN) && sc.fc == 0 then
    toLabel c m .l1 (modSc c (fun x =>
      { x with
        used := sc.used + 1
        seg := sc.seg + 1
        rl := if rxDescLs w then some (rxDescFl w - s.cfg.crcLen) else sc.rl
        fc := if rxDescLs w then 1 else 0
        i := some ((i + 1) % s.cfg.rxDescN) }) s)
  else if sc.fc = 0 then walkEmpty c m sc.used s
  else toLabel c m .l2 (setI c i s)

/-- One round of the second loop: what else is pending. -/
def walkSecond (c : CtxId) (m : Op) (s : State) : Out :=
  let i := walkIdx c s
  let sc := scOf c s
  let w := hread32 s (rxdAddr s i)
  if !descOwn w && decide (sc.used < s.cfg.rxDescN) then
    toLabel c m .l2 (modSc c (fun x =>
      { x with
        used := sc.used + 1
        fc := if rxDescLs w then sc.fc + 1 else sc.fc
        i := some ((i + 1) % s.cfg.rxDescN) }) s)
  else walkDone c m s

/-- M2: give a descriptor back, then the next segment or the end of the loop. -/
def giveBack (c : CtxId) (m : Op) (s : State) : Out :=
  need (scOf c s).k fun k => need (scOf c s).rem fun rem =>
    let j := segmentIdx c s
    let sc := scOf c s
    let s := hwrite32 (rxdAddr s j) descGivenBack s
    let j' := (j + 1) % s.cfg.rxDescN
    let s := modSc c (fun x => { x with j := some j', k := some (k + 1), used := sc.used - 1 }) s
    if k + 1 < sc.seg then segmentEntry c m (k + 1) sc.seg rem s
    else toLabel c m .m3 s

/-- M3: `rx_idx <- j`, the poll demand, the counts, and the operation's result. -/
def pollAndReport (c : CtxId) (m : Op) (s : State) : Out :=
  need (scOf c s).j fun j => need (xOf c s).cw fun w => need (scOf c s).cl fun cl =>
    let sc := scOf c s
    let rl := sc.rl.getD 0
    let s := report (sc.fc - 1) sc.used (mWrite .rxPoll 1 { s with bufs.rxIdx := j })
    match m with
    | .rxFrame =>
      if cwLen w < rl then raiseErr c m .invalidSize 0 s else finish c m (datum cl) (datum rl) s
    | _ => finish c m 0 0 s

def rxRingAct (c : CtxId) (m : Op) (l : Label) (s : State) : Act :=
  match l with
  | .l1 => .plain (walkFirst c m s)
  | .l2 => .plain (walkSecond c m s)
  | .m0 => .plain (need (scOf c s).k fun k => need (scOf c s).rem fun rem =>
      let j := segmentIdx c s
      let n := segmentBytes s.cfg k (scOf c s).seg rem
      if s.cfg.dmaBufSize < n then .refused .outsideRegion
      else readString c m .m0 (rxBuf s j).toNat n (toLabel c m .m1) (setJ c j s))
  | .m1 => .plain (need (scOf c s).bytes fun bs => need (scOf c s).dst fun dst => need (scOf c s).rem fun rem =>
      writeString c m .m1 dst bs (fun s =>
        toLabel c m .m2 (modSc c (fun x => { x with dst := some (dst + bs.length), rem := some (rem - bs.length) }) s)) s)
  | .m2 => .plain (giveBack c m s)
  | .m3 => .plain (pollAndReport c m s)
  | _ => noLabel

def rxFrameDmaEntry (c : CtxId) (s : State) : Out := toLabel c .rxFrame .l1 s

/-- A null buffer is tested with L1 (R210). -/
def rxFrameDmaAct (c : CtxId) (l : Label) (s : State) : Act :=
  match l with
  | .l1 => bufferCheck c .rxFrame s fun _ => rxRingAct c .rxFrame .l1 s
  | l => rxRingAct c .rxFrame l s

def rxFlushDmaEntry (c : CtxId) (s : State) : Out := toLabel c .rxFlush .l1 s

def rxFlushDmaAct (c : CtxId) (l : Label) (s : State) : Act := rxRingAct c .rxFlush l s

/-! ## The two variants together -/

def rxFrameEntry (c : CtxId) (s : State) : Out :=
  match s.cfg.variant with
  | .bus => rxFrameBusEntry c s
  | .dma => rxFrameDmaEntry c s

def rxFrameAct (c : CtxId) (l : Label) (s : State) : Act :=
  match s.cfg.variant with
  | .bus => rxFrameBusAct c l s
  | .dma => rxFrameDmaAct c l s

def rxFlushEntry (c : CtxId) (s : State) : Out :=
  match s.cfg.variant with
  | .bus => rxFlushBusEntry c s
  | .dma => rxFlushDmaEntry c s

def rxFlushAct (c : CtxId) (l : Label) (s : State) : Act :=
  match s.cfg.variant with
  | .bus => rxFlushBusAct c l s
  | .dma => rxFlushDmaAct c l s

end Sys2Proof.Machine
end

