-- ==== Sys2Proof/Machine/Transmit.lean ====
section
/-! DEFINITION. `TX_FRAME` (45_mac_interface.md R270), bus-attached (R271) and DMA variant (R273). -/

namespace Sys2Proof.Machine

/-- The number of descriptors a frame takes: `ceil_div(len, DMA_BUF_SIZE)` (R273). -/
def txSegments (cfg : Config) (len : Nat) : Nat := (len + cfg.dmaBufSize - 1) / cfg.dmaBufSize

/-- `(tx_idx + j) mod TX_DESC_N` (R273). -/
def txSlot (s : State) (j : Nat) : Nat := (s.bufs.txIdx + j) % s.cfg.txDescN

/-- `min(DMA_BUF_SIZE, len - j * DMA_BUF_SIZE)` (R273). -/
def txSegmentLen (cfg : Config) (len j : Nat) : Nat := min cfg.dmaBufSize (len - j * cfg.dmaBufSize)

/-- `N <- 0`, for the first descriptor; then X0. -/
def txFrameEntry (c : CtxId) (s : State) : Out := toLabel c .txFrame .x0 (setN c 0 (setJ c 0 s))

/-- The argument checks of R270, before anything is accessed: they execute with X0 (00_scope.md R14), whose step is `act` of the
length where they pass. -/
def txChecks (c : CtxId) (s : State) (act : Nat → Act) : Act :=
  needAct (xOf c s).cw fun w => needAct (xOf c s).a0 fun a =>
    if a = 0 ∨ cwLen w = 0 ∨ s.cfg.maxFrame < cwLen w then .plain (raiseErr c .txFrame .invalidArgument 0 s)
    else act (cwLen w)

/-- What a poll of the busy indication leads to (R270, R271, R273): again while it is set and polls are left,
`InvalidState` when none is left, `clear` when it is not set. The count wraps modulo 2^32, so that an N_TX_POLL of more than
2^32 - 1 never runs out: DESIGN CHOICE, log 37. -/
def txPolled (c : CtxId) (busy : Bool) (n : Word) (s : State) (clear : State → Out) : Out :=
  let n' := n + 1
  let s := setN c n' s
  if busy && decide (n'.toNat < s.cfg.nTxPoll) then toLabel c .txFrame .x0 s
  else if busy then raiseErr c .txFrame .invalidState 0 s
  else clear s

/-- R271. -/
def txFrameBusAct (c : CtxId) (l : Label) (s : State) : Act :=
  match l with
  | .x0 => txChecks c s fun _ => rdStep .txCtrl fun b s => need (xOf c s).n fun n =>
      txPolled c (b.getLsbD 0) n (setT c b s) (toLabel c .txFrame .x1)
  | .x1 => .bus (fun s => need (xOf c s).cw fun w =>
      regWrite .txLenL (lowByte (Field.low16 w)) s (toLabel c .txFrame .x2))
  | .x2 => .bus (fun s => need (xOf c s).cw fun w =>
      regWrite .txLenH (highByte (Field.low16 w)) s fun s => toLabel c .txFrame .x3 (setBytes c [] s))
  | .x3 => .plain (need (xOf c s).cw fun w => need (xOf c s).a0 fun a =>
      readString c .txFrame .x3 a.toNat (cwLen w) (toLabel c .txFrame .x3b) s)
  | .x3b => .plain (need (scOf c s).bytes fun bs =>
      writeString c .txFrame .x3b s.bufs.txScratch.toNat bs (toLabel c .txFrame .x4) s)
  | .x4 => .bus (fun s => need (scOf c s).bytes fun bs =>
      blockWrite .txData bs s (toLabel c .txFrame .x5))
  | .x5 => rdStep .txCtrl fun b s => toLabel c .txFrame .x6 (setT c b s)
  | .x6 => .bus (fun s => need (xOf c s).t fun t =>
      regWrite .txCtrl (byteOf 0 t ||| 0x01) s (finish c .txFrame 0 0))
  | _ => noLabel

/-- R273. -/
def txFrameDmaAct (c : CtxId) (l : Label) (s : State) : Act :=
  match l with
  | .x0 => txChecks c s fun len => .plain (need (xOf c s).n fun n => need (scOf c s).j fun j =>
      let v := hread32 s (txdAddr s (txSlot s j))
      txPolled c (descOwn v) n (setV c v s) fun s =>
        if j + 1 < txSegments s.cfg len then toLabel c .txFrame .x0 (setN c 0 (setJ c (j + 1) s))
        else toLabel c .txFrame .x1 (setBytes c [] (setJ c 0 s)))
  | .x1 => .plain (need (xOf c s).cw fun w => need (xOf c s).a0 fun a => need (scOf c s).j fun j =>
      readString c .txFrame .x1 (a.toNat + j * s.cfg.dmaBufSize) (txSegmentLen s.cfg (cwLen w) j)
        (toLabel c .txFrame .x1b) s)
  | .x1b => .plain (need (scOf c s).j fun j => need (scOf c s).bytes fun bs =>
      writeString c .txFrame .x1b (txBuf s (txSlot s j)).toNat bs (toLabel c .txFrame .x2) s)
  | .x2 => .plain (need (xOf c s).cw fun w => need (scOf c s).j fun j =>
      let s := hwrite32 (txdAddr s (txSlot s j) + 4) (datum (txSegmentLen s.cfg (cwLen w) j)) s
      if j + 1 < txSegments s.cfg (cwLen w) then toLabel c .txFrame .x1 (setBytes c [] (setJ c (j + 1) s))
      else toLabel c .txFrame .x3 s)
  | .x3 => .plain (need (xOf c s).cw fun w => need (scOf c s).j fun j =>
      let s := hwrite32 (txdAddr s (txSlot s j)) (txDescHanded (j == 0) (j + 1 == txSegments s.cfg (cwLen w))) s
      if j = 0 then toLabel c .txFrame .x4 s else toLabel c .txFrame .x3 (setJ c (j - 1) s))
  | .x4 => .plain (need (xOf c s).cw fun w =>
      let s := { s with bufs.txIdx := txSlot s (txSegments s.cfg (cwLen w)) }
      finish c .txFrame 0 0 (mWrite .txPoll 0 s))
  | _ => noLabel

def txFrameAct (c : CtxId) (l : Label) (s : State) : Act :=
  match s.cfg.variant with
  | .bus => txFrameBusAct c l s
  | .dma => txFrameDmaAct c l s

end Sys2Proof.Machine
end

