-- ==== Sys2Proof/Machine/Lifecycle.lean ====
section
/-! DEFINITION. The lifecycle operations (45_mac_interface.md R251 to R259, R267): `INIT` with `ResetWait` and `VerifyId`,
`DEINIT`, `START`, `STOP`, `SET_LINK`, `DEL`. -/

namespace Sys2Proof.Machine

/-- `life <- l` (10_state.md R31). -/
def setLife (l : Life) (s : State) : State := { s with inst.life := l }

/-! ## INIT (R253) -/

def initEntry (c : CtxId) (s : State) : Out := toLabel c .init .s0 s

/-- The word that starts a software reset (R254). -/
def resetWord : Word := 0x00000001

/-- What follows the read of the reset bit at Z2 (R254). An accumulator that wraps before it reaches the timeout goes on:
DESIGN CHOICE, log 37. -/
def resetPolled (c : CtxId) (busy : Bool) (s : State) (done : State → Out) : Out :=
  need (xOf c s).acc fun acc =>
    if busy && decide (acc.toNat < s.inst.swResetTimeoutMs.toNat) then toLabel c .init .z1 s
    else if busy then raiseErr c .init .timeout 0 s
    else done s

def setK (c : CtxId) (k : Nat) (s : State) : State := modSc c (fun x => { x with k := some k }) s

/-- `INIT_SEQ` goes on at entry `k`, or is over: `addr` is read next under BUS, the rings are built under DMA. -/
def initSeqAt (c : CtxId) (k : Nat) (s : State) : Out :=
  match s.cfg.variant with
  | .bus => if k < s.cfg.initSeqBus.length then toLabel c .init .s2 (setK c k s) else toLabel c .init .s3 (setI c 0 s)
  | .dma => if k < s.cfg.initSeqDma.length then toLabel c .init .s2 (setK c k s) else chainEntry c .init s

/-- Station address register `i` (10_state.md R33). -/
def parReg (i : Nat) : Fin 6 := ⟨i % 6, Nat.mod_lt _ (by decide)⟩

/-- `addr[i] <- b`. -/
def setAddrByte (i : Nat) (b : Byte) (s : State) : State :=
  { s with inst.addr := macSet s.inst.addr (parReg i) b }

/-- The four identity bytes as two values (R255). -/
def chipMatches (cfg : Config) (vid pid : Word) : Bool :=
  vid == cfg.chipVid.zeroExtend 32 && pid == cfg.chipPid.zeroExtend 32

/-- The labels of `INIT` that the variants do not share, BUS. A write of `INIT_SEQ` that moves the receive cursor (PTR_CTRL, RXRP_L)
ends the record of every valid header, that of the buffer the drainer owns among them, where 42_rx_bus.md R171 (b) and R174 pull
apart: DEDUCED, the model's choice, log 21. -/
def initActBus (c : CtxId) (l : Label) (_s : State) : Act :=
  match l with
  | .z0 => wrStep .ncr (byteOf 0 resetWord) fun s => toLabel c .init .z1 (setAcc c 0 s)
  | .z2 => rdStep .ncr fun b s => resetPolled c (b.getLsbD 0) (setT c b s) (toLabel c .init .y0)
  | .y0 => rdStep .vidL fun b s => toLabel c .init .y1 (setV c (zextByte b) s)
  | .y1 => rdStep .vidH fun b s => need (xOf c s).v fun v =>
      toLabel c .init .y2 (setV c (v ||| (zextByte b <<< 8)) s)
  | .y2 => rdStep .pidL fun b s => toLabel c .init .y3 (setN c (zextByte b) s)
  | .y3 => rdStep .pidH fun b s => need (xOf c s).v fun v => need (xOf c s).n fun n =>
      let n' := n ||| (zextByte b <<< 8)
      let s := setN c n' s
      if chipMatches s.cfg v n' then initSeqAt c 0 s else raiseErr c .init .invalidVersion 0 s
  | .s2 => .bus (fun s => need (scOf c s).k fun k => need s.cfg.initSeqBus[k]? fun e =>
      regWriteIdx e.1 e.2 s (initSeqAt c (k + 1)))
  | .s3 => .bus (fun s => need (scOf c s).i fun i =>
      regRead (.par (parReg i)) s fun b s =>
        let s := setAddrByte i b s
        if i + 1 < 6 then toLabel c .init .s3 (setI c (i + 1) s)
        else finish c .init 0 0 (setLife .initialized s))
  | _ => noLabel

/-- The same, DMA. -/
def initActDma (c : CtxId) (l : Label) (s : State) : Act :=
  match l with
  | .z0 => .plain (toLabel c .init .z1 (setAcc c 0 (mWrite .busMode resetWord s)))
  | .z2 => .plain (mRead .busMode s fun v s =>
      resetPolled c (v.getLsbD 0) (setTw c v s) (initSeqAt c 0))
  | .s2 => .plain (need (scOf c s).k fun k => need s.cfg.initSeqDma[k]? fun e =>
      initSeqAt c (k + 1) (mWrite e.1 e.2 s))
  | .s3 => .plain (mRead .macAddrLo s fun v s => toLabel c .init .s4 (setV c v s))
  | .s4 => .plain (mRead .macAddrHi s fun t s => need (xOf c s).v fun v =>
      finish c .init 0 0 (setLife .initialized { setTw c t s with inst.addr := macOfWords v t }))
  | l => chainAct c .init l s (toLabel c .init .s3)

def initAct (c : CtxId) (l : Label) (s : State) : Act :=
  match l with
  | .s0 => .plain (toLabel c .init .s1 { s with flags.irqEn := true })
  | .s1 => .plain (toLabel c .init .z0 (notify .lowLevelInit s))
  | .z1 => .plain (need (xOf c s).acc fun acc =>
      toLabel c .init .z2 (setAcc c (acc + BitVec.ofNat 32 s.cfg.tResetPollMs) s))
  | .s8 => .plain (toLabel c .init .s8b { s with flags.irqEn := false })
  | .s8b => .plain (toLabel c .init .s9 { s with flags.irqPend := false })
  | .s9 => .plain (need (scOf c s).err fun e => endWithError c .init e 0 (notify .deinit s))
  | l => match s.cfg.variant with
    | .bus => initActBus c l s
    | .dma => initActDma c l s

/-! ## DEINIT (R256) -/

def deinitEntry (c : CtxId) (s : State) : Out := stopSeqEntry c .deinit s

def deinitAct (c : CtxId) (l : Label) (s : State) : Act :=
  match l with
  -- the last line of StopSeq executes with S0, where an error has not ended it before (00_scope.md R14)
  | .s0 => .plain (
      let s := if (scOf c s).err.isSome then s else stopFlags s
      toLabel c .deinit .s0b { s with flags.irqEn := false })
  | .s0b => .plain (toLabel c .deinit .s1 { s with flags.irqPend := false })
  | .s1 => .plain (
      let s := setLife .deinitialized (notify .deinit s)
      match (scOf c s).err with
      | some e => endWithError c .deinit e 0 s
      | none => finish c .deinit 0 0 s)
  | l => stopSeqAct c .deinit l s (toLabel c .deinit .s0)

/-! ## START (R257), STOP (R258) -/

def startEntry (c : CtxId) (s : State) : Out := startSeqEntry c .start s

def startAct (c : CtxId) (l : Label) (s : State) : Act :=
  startSeqAct c .start l s fun s => finish c .start 0 0 (setLife .started s)

def stopEntry (c : CtxId) (s : State) : Out := stopSeqEntry c .stop s

def stopAct (c : CtxId) (l : Label) (s : State) : Act :=
  stopSeqAct c .stop l s fun s => finish c .stop 0 0 (setLife .stopped (stopFlags s))

/-! ## SET_LINK (R259) -/

/-- `LINK <- up` and the operation's return. -/
def linkDone (c : CtxId) (up : Bool) (s : State) : Out := finish c .setLink 0 0 { s with flags.link := up }

/-- Its first label: that of the sequence it runs, or S0 where it runs none. -/
def setLinkEntry (c : CtxId) (s : State) : Out :=
  need (xOf c s).cw fun w =>
    if cwFlag w = decide (s.inst.life = .started) then toLabel c .setLink .s0 s
    else if cwFlag w then startSeqEntry c .setLink s
    else stopSeqEntry c .setLink s

/-- The labels of `StopSeq`. -/
def isStopLabel : Label → Bool
  | .h0 => true
  | .h1 => true
  | .h2 => true
  | .h3 => true
  | .h4 => true
  | .h5 => true
  | _ => false

def setLinkAct (c : CtxId) (l : Label) (s : State) : Act :=
  if l = .s0 then .plain (need (xOf c s).cw fun w => linkDone c (cwFlag w) s)
  else if isStopLabel l then stopSeqAct c .setLink l s fun s => linkDone c false (setLife .stopped (stopFlags s))
  else startSeqAct c .setLink l s fun s => linkDone c true (setLife .started s)

/-! ## DEL (R267) -/

def delEntry (c : CtxId) (s : State) : Out := toLabel c .del .s0 s

/-- What the instance was built with, in the order `DEL` frees it. -/
def instanceBuffers (s : State) : List Word :=
  match s.cfg.variant with
  | .bus => [s.bufs.rxScratch, s.bufs.txScratch]
  | .dma => s.bufs.rxb ++ s.bufs.txb ++ [s.bufs.rxRingBase, s.bufs.txRingBase]

/-- Whether an allocation exists and is of the given owner. -/
def ownedBy (o : Owner) (s : State) (a : Word) : Bool := s.allocs.any (fun x => x.addr == a && x.owner == o)

/-- Every allocation the instance holds, first a delivery buffer the drainer owned when it ended. -/
def delList (s : State) : List Word :=
  (s.allocs.filter (fun x => x.owner == .drainer)).map (·.addr) ++ (instanceBuffers s).filter (ownedBy .block s)

/-- The next `Free` step, or the end of the operation. -/
def delNext (c : CtxId) (s : State) : Out :=
  match delList s with
  | [] => finish c .del 0 0 (setLife .destroyed s)
  | _ :: _ => toLabel c .del .s1 s

/-- S0: `WCTX` ends. -/
def endWorker (s : State) : State :=
  { setPc .W .ended s with flags := { s.flags with wake := false, irqEn := false } }

def delAct (c : CtxId) (l : Label) (s : State) : Act :=
  match l with
  | .s0 => if s.lock = some .W then .blocked else .plain (delNext c (endWorker s))
  | .s1 => .plain (delNext c (freeAlloc ((delList s).headD 0) { s with drain.buf := none }))
  | _ => noLabel

end Sys2Proof.Machine
end

