-- ==== Sys2Proof/Machine/Settings.lean ====
section
/-! DEFINITION. The configuration operations (45_mac_interface.md R260 to R266). -/

namespace Sys2Proof.Machine

/-- A field of a word set or cleared (R262 to R264). -/
def putMask (on : Bool) (mask v : Word) : Word := if on then v ||| mask else v &&& ~~~mask

/-- The same for a byte register. -/
def putMask8 (on : Bool) (mask v : Byte) : Byte := if on then v ||| mask else v &&& ~~~mask

/-- `S0: V <- MRead(r)` of the read-modify-write operations. -/
def readToV (c : CtxId) (m : Op) (r : MReg) (s : State) : Act :=
  .plain (mRead r s fun v s => toLabel c m .s1 (setV c v s))

/-! ## SET_ADDR (R260), GET_ADDR (R261) -/

def setAddrEntry (c : CtxId) (s : State) : Out := toLabel c .setAddr .s0 (setI c 0 s)

/-- The reserved bits of the second argument word (R260), tested with S0 (00_scope.md R14). -/
def setAddrCheck (c : CtxId) (s : State) (act : Act) : Act :=
  needAct (xOf c s).a1 fun a1 =>
    if a1.extractLsb' 16 16 = 0#16 then act else .plain (raiseErr c .setAddr .invalidArgument 0 s)

/-- The six bytes of the argument words (30_encoding.md R97). -/
def addrOperand (c : CtxId) (s : State) (k : Mac → Out) : Out :=
  need (xOf c s).a0 fun a0 => need (xOf c s).a1 fun a1 => k (macOfWords a0 a1)

def setAddrActBus (c : CtxId) (l : Label) (s : State) : Act :=
  match l with
  | .s0 => setAddrCheck c s <| .bus (fun s => need (scOf c s).i fun i => addrOperand c s fun a =>
      regWrite (.par (parReg i)) (macGet a (parReg i)) s fun s =>
        if i + 1 < 6 then toLabel c .setAddr .s0 (setI c (i + 1) s)
        else finish c .setAddr 0 0 { s with inst.addr := a })
  | _ => noLabel

def setAddrActDma (c : CtxId) (l : Label) (s : State) : Act :=
  match l with
  | .s0 => setAddrCheck c s <| .plain (addrOperand c s fun a => toLabel c .setAddr .s1 (mWrite .macAddrHi (macHi a) s))
  | .s1 => .plain (addrOperand c s fun a =>
      finish c .setAddr 0 0 { mWrite .macAddrLo (macLo a) s with inst.addr := a })
  | _ => noLabel

def setAddrAct (c : CtxId) (l : Label) (s : State) : Act :=
  match s.cfg.variant with
  | .bus => setAddrActBus c l s
  | .dma => setAddrActDma c l s

def getAddrEntry (c : CtxId) (s : State) : Out := toLabel c .getAddr .s0 s

/-- No register access: its one step. -/
def getAddrAct (c : CtxId) (l : Label) (s : State) : Act :=
  match l with
  | .s0 => .plain (finish c .getAddr (macLo s.inst.addr) (macHi s.inst.addr) s)
  | _ => noLabel

/-! ## SET_SPEED (R262), SET_DUPLEX (R263) -/

/-- `MAC_CONFIG.FES` -/
def fesMask : Word := 0x00004000
/-- `MAC_CONFIG.DM` -/
def dmMask : Word := 0x00000800

def speedDone (c : CtxId) (on : Bool) (s : State) : Out :=
  finish c .setSpeed 0 0 { s with inst.cfgSpeed := on }

def setSpeedEntry (c : CtxId) (s : State) : Out := toLabel c .setSpeed .s0 s

def setSpeedAct (c : CtxId) (l : Label) (s : State) : Act :=
  match s.cfg.variant, l with
  | .bus, .s0 => .plain (need (xOf c s).cw fun w => speedDone c (cwFlag w) s)
  | .dma, .s0 => readToV c .setSpeed .macConfig s
  | .dma, .s1 => .plain (need (xOf c s).cw fun w => need (xOf c s).v fun v =>
      speedDone c (cwFlag w) (mWrite .macConfig (putMask (cwFlag w) fesMask v) s))
  | _, _ => noLabel

def duplexDone (c : CtxId) (on : Bool) (s : State) : Out :=
  finish c .setDuplex 0 0 { s with inst.cfgDuplex := on }

def setDuplexEntry (c : CtxId) (s : State) : Out := toLabel c .setDuplex .s0 s

def setDuplexAct (c : CtxId) (l : Label) (s : State) : Act :=
  match s.cfg.variant, l with
  | .bus, .s0 => .plain (need (xOf c s).cw fun w => duplexDone c (cwFlag w) s)
  | .dma, .s0 => readToV c .setDuplex .macConfig s
  | .dma, .s1 => .plain (need (xOf c s).cw fun w => need (xOf c s).v fun v =>
      duplexDone c (cwFlag w) (mWrite .macConfig (putMask (cwFlag w) dmMask v) s))
  | _, _ => noLabel

/-! ## SET_PROMISC (R264) -/

def promiscDone (c : CtxId) (on : Bool) (s : State) : Out :=
  finish c .setPromisc 0 0 { s with inst.cfgPromisc := on }

def setPromiscEntry (c : CtxId) (s : State) : Out := toLabel c .setPromisc .s0 s

def setPromiscAct (c : CtxId) (l : Label) (s : State) : Act :=
  match s.cfg.variant, l with
  | .bus, .s0 => rdStep .rxCtrl fun b s => toLabel c .setPromisc .s1 (setT c b s)
  | .bus, .s1 => .bus (fun s => need (xOf c s).cw fun w => need (xOf c s).t fun t =>
      regWrite .rxCtrl (putMask8 (cwFlag w) 0x02 (byteOf 0 t)) s (promiscDone c (cwFlag w)))
  | .dma, .s0 => readToV c .setPromisc .macFfilt s
  | .dma, .s1 => .plain (need (xOf c s).cw fun w => need (xOf c s).v fun v =>
      promiscDone c (cwFlag w) (mWrite .macFfilt (putMask (cwFlag w) 0x00000001 v) s))
  | _, _ => noLabel

/-! ## SET_FLOWCTRL (R265), SET_PEER_PAUSE (R266) -/

def setFlowCtrlEntry (c : CtxId) (s : State) : Out := toLabel c .setFlowCtrl .s0 s

/-- No register access: its one step. -/
def setFlowCtrlAct (c : CtxId) (l : Label) (s : State) : Act :=
  match l with
  | .s0 => .plain (need (xOf c s).cw fun w => finish c .setFlowCtrl 0 0 { s with inst.cfgFc := cwFlag w })
  | _ => noLabel

def setPeerPauseEntry (c : CtxId) (s : State) : Out := toLabel c .setPeerPause .s0 s

/-- `en <- cfg_fc & flag` -/
def fcAgreed (s : State) (w : Word) : Bool := s.inst.cfgFc && cwFlag w

/-- `TFE | RFE` on with `FCB` written 0, or all three off. -/
def flowCtrlWord (en : Bool) (v : Word) : Word :=
  if en then (v &&& ~~~0x00000001) ||| 0x00000006 else v &&& ~~~0x00000007

def peerPauseDone (c : CtxId) (w : Word) (s : State) : Out :=
  finish c .setPeerPause 0 0
    { s with inst.peerPause := cwFlag w, flags.doFc := fcAgreed s w }

def setPeerPauseAct (c : CtxId) (l : Label) (s : State) : Act :=
  match s.cfg.variant, l with
  | .bus, .s0 => rdStep .fcCtrl fun b s => toLabel c .setPeerPause .s1 (setT c b s)
  | .bus, .s1 => .bus (fun s => need (xOf c s).cw fun w => need (xOf c s).t fun t =>
      regWrite .fcCtrl (putMask8 (fcAgreed s w) 0x01 (byteOf 0 t)) s (peerPauseDone c w))
  | .dma, .s0 => readToV c .setPeerPause .macFlowCtrl s
  | .dma, .s1 => .plain (need (xOf c s).cw fun w => need (xOf c s).v fun v =>
      peerPauseDone c w (mWrite .macFlowCtrl (flowCtrlWord (fcAgreed s w) v) s))
  | _, _ => noLabel

end Sys2Proof.Machine
end

