-- ==== Sys2Proof/Machine/Drainer.lean ====
section
/-! DEFINITION. The drainer (44_drainer.md): the micro-program of `WCTX` at its own labels. It issues `RX_ALLOC`, `RX_FRAME`
and `RX_FLUSH` to its own context; `drainReturn` (Ops) is where it goes on when they end. -/

namespace Sys2Proof.Machine

/-- `WSTATE <- draining` at a label (R231, R232). -/
def drainFrom (d : DLabel) (s : State) : State := drainTo d { s with wstate := .draining }

/-- Where a burst begins (R231). -/
def burstLabel : Variant → DLabel
  | .bus => .b0
  | .dma => .i0

/-- W0: `WakeTaken` (R231), else `WaitTimeout` under BUS (R232), else nothing is enabled. -/
def drainWaiting (s : State) : Act :=
  if s.flags.wake then
    .plain (.next (drainFrom (burstLabel s.cfg.variant) { s with flags.wake := false }))
  else if s.cfg.variant = .bus ∧ s.flags.irqEn = true then
    .plain (.next (if intPinLevel s = s.cfg.irqActiveLevel then drainFrom .b0 s else s))
  else .blocked

/-- After B1: no packet received, or the first iteration (R233). -/
def burstEntered (t : Word) (s : State) : State := if t.getLsbD 0 then drainTo .i0 s else drainWait s

/-- Where an iteration goes when its frame is dealt with: the loop test, after `FcEval` under DMA (R234, R235). -/
def iterationEnd : Variant → DLabel
  | .bus => .i5
  | .dma => .i4

/-- The same after `Free(buf)`. -/
def iterationFree : Variant → DLabel
  | .bus => .freeI5
  | .dma => .freeI4

/-- I0 under DMA (R235). -/
def drainAlloc (s : State) : State :=
  match alloc s.cfg.rxBufSize .drainer s with
  | (none, s) => drainTo (.log .noMemForBuffer) s
  | (some a, s) => drainTo .i1 { s with drain.buf := some a }

/-- I2: `Deliver(buf, cl)` (R238). -/
def drainDeliver (buf : Word) (s : State) : State :=
  let (ok, s) := nextDeliverAnswer s
  let s := observe (.deliver buf s.drain.cl ok) s
  if ok then drainTo (iterationEnd s.cfg.variant) { giveAlloc buf .up s with drain.buf := none }
  else drainTo (.log .stackInputFailed) s

/-- A `Free(buf)` step (R234, R235). -/
def drainFree (after : DLabel) (buf : Word) (s : State) : State :=
  drainTo after (freeAlloc buf { s with drain.buf := none })

/-- The assertion condition of `FcEval` (R236). -/
def fcAssert (s : State) : Bool :=
  s.flags.doFc && decide (s.flags.freeRx < s.inst.lowWm.toNat) && decide (0 < s.flags.framesRemain)

/-- Its release condition. -/
def fcRelease (s : State) : Bool :=
  decide (s.inst.highWm.toNat < s.flags.freeRx) || decide (s.flags.framesRemain = 0)

/-- `FcEval()` (R236): `SendPause(1)`, `SendPause(0)`, or nothing. -/
def fcEval (s : State) : State :=
  if fcAssert s then drainTo .e0 { s with drain.pauseArg := true }
  else if fcRelease s then drainTo .e0 { s with drain.pauseArg := false }
  else drainTo .i5 s

/-- The word of E1 (R237). -/
def pauseWord (cfg : Config) (a : Bool) (v : Word) : Word :=
  (v &&& 0x0000FFFE) ||| ((if a then cfg.pauseQuanta.zeroExtend 32 else 0) <<< 16) ||| 0x00000001

/-- I5: the loop test (R239). -/
def loopTest (s : State) : State := if s.flags.framesRemain = 0 then drainWait s else drainTo .i0 s

/-- A `Log` step of the drainer (R233 to R235): where it goes on, a shared write that follows being a step of its own. The two
texts of 42_rx_bus.md are logged inside the operation that meets them. -/
def drainLog (t : LogText) (s : State) : Out :=
  let s := logEntry .W t s
  match t with
  | .noMemForBuffer => .next (drainTo .i3 s)
  | .invalidFrameLength => .next (drainTo .i3 s)
  | .rxFail => .next (drainTo .i5 s)
  | .rxTimeout => .next (drainTo .remain s)
  | .frameTruncated => .next (drainTo (iterationFree s.cfg.variant) s)
  | .frameReadFailed => .next (drainTo .freeI3 s)
  | .stackInputFailed => .next (drainTo (iterationFree s.cfg.variant) s)
  | .flushTimeout => .next (drainTo .remain s)
  | .flushFail => .next (drainTo .i5 s)
  | .readIntStatus => .next (drainTo .rest s)
  | .clearIntStatus => need (xOf .W s).t fun t => .next (drainTo (if t.getLsbD 0 then .i0 else .rest) s)
  | .rxPointerReset => .fault .noSuchLabel
  | .reprobeTimeout => .fault .noSuchLabel

/-- The drainer issues an operation to `WCTX` (R230, 30_encoding.md R96 column ctx). An argument word that the operation does not take
is latched as 0; the spec says what A0 and A1 hold for the host's issue only: DESIGN CHOICE, log 39. -/
def issueW (i : Instr) (a0 : Word) (entry : State → Out) (s : State) : Out :=
  entry (latch .W (encodeWord s.cfg.opcodes i) a0 0 s)

/-- `MAX_FRAME` as an operand. -/
def maxFrameLen (cfg : Config) : BitVec 16 := BitVec.ofNat 16 cfg.maxFrame

def drainAct (d : DLabel) (s : State) : Act :=
  match d with
  | .w0 => drainWaiting s
  | .b0 => match s.cfg.variant with
    | .bus => rdStep .intStat fun b s => .next (drainTo .b1 (setT .W b s))
    | .dma => noLabel
  | .b1 => match s.cfg.variant with
    | .bus => .bus (fun s => need (xOf .W s).t fun t =>
        regWrite .intStat (byteOf 0 t) s fun s => .next (burstEntered t s))
    | .dma => noLabel
  | .i0 => match s.cfg.variant with
    | .bus => .plain (issueW (.rxAlloc (maxFrameLen s.cfg)) 0 (rxAllocEntry .W) s)
    | .dma => .plain (.next (drainAlloc s))
  | .i1 => match s.cfg.variant with
    | .bus => .plain (need s.drain.buf fun a => issueW (.rxFrame 0) a (rxFrameEntry .W) s)
    | .dma => .plain (need s.drain.buf fun a => issueW (.rxFrame (maxFrameLen s.cfg)) a (rxFrameEntry .W) s)
  | .i2 => .plain (need s.drain.buf fun a => .next (drainDeliver a s))
  | .i3 => .plain (issueW .rxFlush 0 (rxFlushEntry .W) s)
  | .i4 => .plain (.next (fcEval s))
  | .e0 => .plain (mRead .macFlowCtrl s fun v s => .next (drainTo .e1 (setV .W v s)))
  | .e1 => .plain (need (xOf .W s).v fun v =>
      .next (drainTo .pause (mWrite .macFlowCtrl (pauseWord s.cfg s.drain.pauseArg v) s)))
  | .i5 => .plain (.next (loopTest s))
  | .freeI3 => .plain (need s.drain.buf fun a => .next (drainFree .i3 a s))
  | .freeI4 => .plain (need s.drain.buf fun a => .next (drainFree .i4 a s))
  | .freeI5 => .plain (need s.drain.buf fun a => .next (drainFree .i5 a s))
  | .remain => .plain (.next (drainTo .i5 { s with flags.framesRemain := 1 }))
  | .rest => .plain (.next (drainWait s))
  | .pause => .plain (.next (loopTest { s with flags.pause := s.drain.pauseArg }))
  | .log t => .plain (drainLog t s)

/-- A lock timeout at the drainer's own transactions (R233); its `Log` is the next step. -/
def drainTimeout (d : DLabel) (s : State) : Out :=
  match d with
  | .b0 => .next (drainTo (.log .readIntStatus) s)
  | .b1 => .next (drainTo (.log .clearIntStatus) s)
  | _ => .next s

end Sys2Proof.Machine
end

