-- ==== Sys2Proof/Machine/Devices.lean ====
section
/-! DEFINITION. The steps of the agents beside the two contexts (10_state.md R20): the interrupt handler (60_exceptions.md
R313), the controller's own steps, the DMA engine's (43_dma_ring.md R200 to R221), the wire, and HOST and UP as far as
they touch memory. A step that is not enabled changes nothing (log 1). -/

namespace Sys2Proof.Machine

/-! ## ICTX -/

/-- `IrqHandler` (R313): one step, no bus transaction; under DMA a read and a write of `DMA_STATUS` in that step. After `DEL` no agent of the block steps
(45_mac_interface.md R267). -/
def irqHandler (s : State) : State :=
  if irqPending s && s.inst.life != .destroyed then
    match s.cfg.variant with
    | .bus => { s with flags := { s.flags with irqPend := false, wake := true } }
    | .dma => observe (.mWrite .status s.mreg.status) (observe (.mRead .status s.mreg.status)
        { s with mreg.status := 0, flags.wake := true })
  else s

/-! ## DEV: PHY management (41_phy_access.md R146) -/

/-- `phy_store` of 10_state.md R38. The answer of an unknown chip is brought into the canonical form. -/
def phyStored (cfg : Config) (p r : BitVec 5) (v : Half) (f : Cells 16) : Cells 16 :=
  match cfg.phyModel with
  | .plainStorage => Cells.set f (phyKey p r) v
  | .unknownChip => Cells.canon (Config.phyStore p r v f)

/-- `phy_load` of 10_state.md R38. -/
def phyLoaded (cfg : Config) (p r : BitVec 5) (f : Cells 16) : Half :=
  match cfg.phyModel with
  | .plainStorage => Cells.get f (phyKey p r)
  | .unknownChip => Config.phyLoad p r f

/-- `PhyComplete`: enabled while a PHY transaction is in flight. -/
def phyComplete (s : State) : State :=
  match s.dev.phyOp with
  | none => s
  | some o =>
    if o.write then
      { s with phyReg := phyStored s.cfg o.p o.r o.v s.phyReg, dev.phyOp := none }
    else
      let v := phyLoaded s.cfg o.p o.r s.phyReg
      { s with dev := { s.dev with phyDatL := lowByte v, phyDatH := highByte v, phyOp := none } }

/-! ## DEV: receive memory (20_memory.md R77, R79) -/

/-- The bytes of the ring that hold stored frames, from the read cursor forward to the write cursor. -/
def ringUsed (s : State) : Nat :=
  (s.dev.rxWp.toNat + ringSize s.cfg - s.dev.rxRp.toNat) % ringSize s.cfg

/-- The free space of the ring, counted from the write cursor forward to the read cursor: all of it when they agree. -/
def ringFree (s : State) : Nat := ringSize s.cfg - ringUsed s

/-- Store bytes in the ring from an address on, going round it. -/
def storeRing (cfg : Config) (m : Cells 8) (a : Nat) : List Byte → Cells 8
  | [] => m
  | b :: bs => storeRing cfg (Cells.set m (ringWrap cfg a) b) (a + 1) bs

/-- The header of a stored frame: ready flag, status, length low, length high. -/
def frameHeader (status : Byte) (len : Nat) : List Byte :=
  [0x01, status, BitVec.ofNat 8 len, BitVec.ofNat 8 (len / 256)]

/-- A frame that finds no room: counted, and other causes may be set. -/
def dropFrame (causes : Byte) (s : State) : State :=
  setCause (causes &&& 0x3E) { s with dev.rxDropped := s.dev.rxDropped + 1 }

/-- `FrameArrive(F, st)`. A frame has at least one byte; one that the ring cannot hold, whatever its length, is dropped. -/
def frameArrive (frame : List Byte) (status causes : Byte) (s : State) : State :=
  let len := frame.length
  if s.cfg.variant = .bus ∧ s.dev.rxCtrl.getLsbD 0 = true ∧ 1 ≤ len then
    if ringFree s < 4 + len + 1 then dropFrame causes s
    else
      let wp := s.dev.rxWp.toNat
      let wp' := ringWrap s.cfg (wp + 4 + len)
      let m := storeRing s.cfg s.dev.rxMem wp (frameHeader status len ++ frame)
      setCause 0x01 { s with dev := { s.dev with rxMem := Cells.set m wp' 0, rxWp := BitVec.ofNat 16 wp' } }
  else s

/-- `Glitch`: the receive cursor goes anywhere in the ring. -/
def glitch (cursor : BitVec 16) (s : State) : State :=
  if s.cfg.variant = .bus ∧ inRing s.cfg cursor.toNat = true then moveCursor cursor.toNat s else s

/-- DEV sets interrupt causes 5:1 at will (10_state.md R33). -/
def setCauses (causes : Byte) (s : State) : State :=
  if s.cfg.variant = .bus then setCause (causes &&& 0x3E) s else s

/-! ## Departure of a frame (43_dma_ring.md R221) -/

/-- T goes to WIRE; under LOOPBACK WIRE then offers T with `CRC_LEN` bytes of any value, status 0x00. -/
def depart (frame : List Byte) (s : State) : State :=
  let s := observe (.sent frame) s
  if s.cfg.loopback then
    let (crc, s) := drawBytes s.cfg.crcLen s
    { s with env.offers := s.env.offers ++ [(frame ++ crc, 0)] }
  else s

/-- `TxComplete` (45_mac_interface.md R272): enabled while `TXREQ` reads 1. -/
def txComplete (causes : Byte) (s : State) : State :=
  if s.cfg.variant = .bus ∧ s.dev.txCtrl.getLsbD 0 = true then
    let s := depart (s.dev.txLatched.getD []) s
    setCause (causes &&& 0x3E)
      { s with dev := { s.dev with txCtrl := s.dev.txCtrl &&& 0xFE, txLatched := none } }
  else s

/-! ## Controller software reset (45_mac_interface.md R254; 70_reset_and_hazards.md R342) -/

/-- The PHY group after a controller reset: `PHY_DATL`, `PHY_DATH` of any value, a transaction in flight abandoned. -/
def resetPhyGroup (s : State) : State :=
  let (l, s) := drawByte s
  let (h, s) := drawByte s
  { s with dev := { s.dev with phySel := false, phyAddr := 0, phyDatL := l, phyDatH := h, phyOp := none } }

/-- `ResetComplete` under BUS. The frame in transmission does not leave; the receive memory holds anything (`mem`) but for
0x00 at its start. The device's hidden state is reset with it (R340; 10_state.md R42). -/
def resetBus (mem : Cells 8) (s : State) : State :=
  let s := resetPhyGroup s
  let s := moveCursor s.cfg.rxMemStart s
  setInt 0 0 { s with dev := { s.dev with
    ncr := 0
    txCtrl := 0
    rxCtrl := 0
    fcCtrl := 0
    par := s.cfg.factoryAddr
    ptrCtrl := 0
    rxrpHold := BitVec.ofNat 8 (s.cfg.rxMemStart / 256)
    rxWp := BitVec.ofNat 16 s.cfg.rxMemStart
    rxMem := Cells.set (Cells.canon mem) s.cfg.rxMemStart 0
    txLenL := 0
    txLenH := 0
    txStage := []
    txLatched := none
    rxDropped := 0 } }

/-- `ResetComplete` under DMA: every `MREG` register, both fetchers with the rest of their hidden state (R340; 10_state.md
R42; log 16); the rings in HMEM are not touched. -/
def resetDma (s : State) : State :=
  let s := resetPhyGroup s
  { s with
    dev := { s.dev with rxDropped := 0 }
    mreg := MRegs.initial s.cfg
    dma := {} }

/-- `ResetComplete`: enabled while the reset bit reads 1. -/
def resetComplete (mem : Cells 8) (s : State) : State :=
  if resetting s then
    match s.cfg.variant with
    | .bus => resetBus mem s
    | .dma => resetDma s
  else s

/-! ## PauseSent (44_drainer.md R237) -/

/-- Enabled while `FCB` reads 1. -/
def pauseSent (s : State) : State :=
  let v := s.mreg.macFlowCtrl
  if s.cfg.variant = .dma ∧ v.getLsbD 0 = true then
    let s := if v.getLsbD 1 then observe (.pauseSent (v.extractLsb' 16 16)) s else s
    { s with mreg.macFlowCtrl := v &&& ~~~0x00000001 }
  else s

/-! ## DMAE: receive fetcher (43_dma_ring.md R202 to R204) -/

/-- The availability check (R204): walk at most `fuel` descriptors from `d`, `need` bytes still wanted, `k` walked. -/
def available (s : State) (d need k : Nat) : Nat → Option Nat
  | 0 => none
  | fuel + 1 =>
    if !descOwn (hread32 s d) then none
    else
      let size := descSize (hread32 s (d + 4))
      if need ≤ size then some (k + 1)
      else available s (hread32 s (d + 12)).toNat (need - size) (k + 1) fuel

/-- A frame the receive side drops. -/
def dropDma (s : State) : State := { s with dev.rxDropped := s.dev.rxDropped + 1 }

/-- `RU <- 1`, the fetcher suspends. -/
def suspendRx (s : State) : State :=
  { dropDma s with mreg.status := s.mreg.status ||| 0x00000080, dma.rxState := .suspended }

/-- `DmaRxBegin(F)` (R202): WIRE offers a frame. Dropped while the fetcher is stopped or suspended or `RE` = 0; not taken
while another frame is being stored. -/
def dmaRxBegin (frame : List Byte) (s : State) : State :=
  let len := frame.length
  if s.cfg.variant = .bus ∨ len = 0 then s
  else if s.dma.rxState ≠ .running ∨ s.mreg.macConfig.getLsbD 2 = false then dropDma s
  else if s.dma.rxInflight.isSome then s
  else if 16383 < len ∨ s.cfg.rxDescN * s.cfg.dmaBufSize < len then dropDma s
  else match available s s.dma.rxCur.toNat len 0 s.cfg.rxDescN with
    | some k => { s with dma.rxInflight := some ⟨frame, 0, k, 0⟩ }
    | none => suspendRx s

/-- `DmaRxSeg` (R203): one segment is stored and its descriptor closed. -/
def dmaRxSeg (s : State) : State :=
  match s.cfg.variant, s.dma.rxInflight with
  | .dma, some f =>
    if f.done < f.need then
      let d := s.dma.rxCur.toNat
      let size := descSize (hread32 s (d + 4))
      let seg := (f.frame.drop f.off).take size
      let last := f.done + 1 == f.need
      let next := hread32 s (d + 12)
      let s := hwrite (hread32 s (d + 8)).toNat seg s
      let s := hwrite32 d (rxDescClosed (f.done == 0) last f.frame.length) s
      if last then
        { s with
          dma := { s.dma with rxCur := next, rxInflight := none }
          mreg.status := s.mreg.status ||| 0x00000040 }
      else { s with dma := { s.dma with rxCur := next, rxInflight := some ⟨f.frame, f.done + 1, f.need, f.off + size⟩ } }
    else s
  | _, _ => s

/-! ## DMAE: transmit fetcher (43_dma_ring.md R220) -/

/-- A frame's last segment has been gathered: it leaves when `TE` = 1, and `IC` sets `TI` (R221). -/
def departDma (w0 : Word) (bytes : List Byte) (s : State) : State :=
  let s := if txDescIc w0 then { s with mreg.status := s.mreg.status ||| 0x00000001 } else s
  { depart bytes s with dma.txInflight := [] }

/-- `DmaTxSeg`: enabled when the fetcher runs and owns the current descriptor. -/
def dmaTxSeg (s : State) : State :=
  let d := s.dma.txCur.toNat
  let w0 := hread32 s d
  if s.cfg.variant = .dma ∧ s.dma.txState = .running ∧ descOwn w0 = true then
    let bytes := s.dma.txInflight ++ hread s (hread32 s (d + 8)).toNat (descSize (hread32 s (d + 4)))
    let next := hread32 s (d + 12)
    let s := if txDescLs w0 && s.mreg.macConfig.getLsbD 3 then departDma w0 bytes s
      else { s with dma.txInflight := bytes }
    let s := hwrite32 d (w0 &&& 0x7FFFFFFF) s
    { s with dma.txCur := next }
  else s

/-- `DmaTxSuspend`: enabled when the fetcher runs and does not own the current descriptor. -/
def dmaTxSuspend (s : State) : State :=
  if s.cfg.variant = .dma ∧ s.dma.txState = .running ∧ descOwn (hread32 s s.dma.txCur.toNat) = false then
    { s with dma.txState := .suspended }
  else s

/-! ## WIRE: the oldest offered frame arrives (43_dma_ring.md R221) -/

/-- An echo stays on offer while the receive side is not ready for it: reception off under BUS, another frame being stored
under DMA. What the receive side drops is gone. -/
def offerArrives (causes : Byte) (s : State) : State :=
  match s.env.offers with
  | [] => s
  | (frame, status) :: rest =>
    let taken := { s with env.offers := rest }
    match s.cfg.variant with
    | .bus => if s.dev.rxCtrl.getLsbD 0 then frameArrive frame status causes taken else s
    | .dma =>
      if s.dma.rxState = .running ∧ s.mreg.macConfig.getLsbD 2 = true ∧ s.dma.rxInflight.isSome then s
      else dmaRxBegin frame taken

/-! ## HOST and UP (20_memory.md R76) -/

/-- Which of the bytes stored from an address on stand: those that fall into the operand buffer of the executing operation
give way to bytes of any value (93_implementation_defined.md U28; 20_memory.md R74). -/
def mixStored (s : State) (a : Nat) (bs fill : List Byte) : List Byte :=
  (List.range bs.length).map (fun i => if meetsOperand s (a + i) 1 then fill.getD i 0 else bs.getD i 0)

/-- The store itself: into an operand buffer it leaves bytes of any value, and what the operation writes there later is of
any value too (log 17). -/
def storeOutside (a : Nat) (bs : List Byte) (s : State) : State :=
  if meetsOperand s a bs.length then
    let (fill, u) := drawBytes bs.length s
    modSc .H (fun x => { x with touched := (a, bs.length) :: x.touched }) (hwrite a (mixStored s a bs fill) u)
  else hwrite a bs s

/-- HOST or UP writes bytes of HMEM that are no buffer of the block's. A valid header ends where the store falls into the first
BUF_HDR_LEN bytes of its buffer, whatever the value of that parameter: DESIGN CHOICE, log 38. -/
def memStore (a : Word) (bs : List Byte) (s : State) : State :=
  let touches (x : Alloc) : Bool := overlaps a.toNat bs.length x.addr.toNat x.size
  if inHmem a bs.length && s.allocs.all (fun x => !(touches x && (x.owner == .block || x.owner == .drainer))) then
    let s := storeOutside a.toNat bs s
    { s with bufs.hdrValid := s.bufs.hdrValid.filter (fun h => !overlaps a.toNat bs.length h.toNat s.cfg.bufHdrLen) }
  else s

/-- UP or HOST gives back a delivery buffer it owns. -/
def releaseBuf (a : Word) (s : State) : State :=
  if ownedBy .host s a || ownedBy .up s a then freeAlloc a s else s

end Sys2Proof.Machine
end

