-- ==== Sys2Proof/Machine/Phy.lean ====
section
/-! DEFINITION. The PHY access protocol: `PHY_WR`, `PHY_RD` (41_phy_access.md R141, R142) with the busy pre-check (R144) and
the busy-poll loop (R143). -/

namespace Sys2Proof.Machine

/-- `PHY_CMD_WRITE` = `SEL | WR` (10_state.md R34). -/
def phyCmdWrite : Byte := 0x0A
/-- `PHY_CMD_READ` = `SEL | RD` (10_state.md R34). -/
def phyCmdRead : Byte := 0x0C

/-- The pre-check (R144): one read of `PHY_CMD`; busy is `InvalidState`. -/
def phyPreCheck (c : CtxId) (m : Op) (after : Label) : Act :=
  rdStep .phyCmd fun b s =>
    if b.getLsbD 0 then raiseErr c m .invalidState 0 (setT c b s) else toLabel c m after (setT c b s)

/-- S1 of both operations: the address register. -/
def phyAddress (c : CtxId) (m : Op) (after : Label) : Act :=
  .bus (fun s => need (xOf c s).cw fun w =>
    regWrite .phyAddr (phyAddrByte (Field.phy w) (Field.reg5 w)) s (toLabel c m after))

/-- The step that writes the command byte; `ACC <- 0` is done with it. -/
def phyCommand (c : CtxId) (m : Op) (cmd : Byte) (after : Label) : Act :=
  wrStep .phyCmd cmd fun s => toLabel c m after (setAcc c 0 s)

/-- The poll read of R143: add the interval, go round while busy and under the budget, `Timeout` when the budget is
spent, fall through when the flag is clear. The interval and the accumulator are taken modulo 2^32 (10_state.md R24, 00_scope.md R12),
so that a budget of 2^32 or more, which R10 does not exclude, never runs out: DESIGN CHOICE, log 37. -/
def phyPoll (c : CtxId) (m : Op) (again : Label) (clear : State → Out) : Act :=
  rdStep .phyCmd fun b s => need (xOf c s).acc fun acc =>
    let acc' := acc + BitVec.ofNat 32 s.cfg.phyPollUs
    let s := setAcc c acc' (setT c b s)
    if b.getLsbD 0 && decide (acc'.toNat < s.cfg.phyBudgetUs) then toLabel c m again s
    else if b.getLsbD 0 then raiseErr c m .timeout 0 s
    else clear s

def phyWrEntry (c : CtxId) (s : State) : Out := toLabel c .phyWr .s0 s

def phyWrAct (c : CtxId) (l : Label) (s : State) : Act :=
  match l with
  | .s0 => phyPreCheck c .phyWr .s1
  | .s1 => phyAddress c .phyWr .s2
  | .s2 => .bus (fun s => need (xOf c s).cw fun w =>
      regWrite .phyDatL (lowByte (Field.low16 w)) s (toLabel c .phyWr .s3))
  | .s3 => .bus (fun s => need (xOf c s).cw fun w =>
      regWrite .phyDatH (highByte (Field.low16 w)) s (toLabel c .phyWr .s4))
  | .s4 => phyCommand c .phyWr phyCmdWrite .s5
  | .s5 => .plain (toLabel c .phyWr .s6 s)
  | .s6 => phyPoll c .phyWr .s5 (finish c .phyWr 0 0)
  | _ => noLabel

def phyRdEntry (c : CtxId) (s : State) : Out := toLabel c .phyRd .s0 s

def phyRdAct (c : CtxId) (l : Label) (s : State) : Act :=
  match l with
  -- a null output destination is tested before anything else (R142), with S0 (00_scope.md R14)
  | .s0 => needAct (xOf c s).cw fun w =>
      if cwFlag w then phyPreCheck c .phyRd .s1 else .plain (raiseErr c .phyRd .invalidArgument 0 s)
  | .s1 => phyAddress c .phyRd .s2
  | .s2 => phyCommand c .phyRd phyCmdRead .s3
  | .s3 => .plain (toLabel c .phyRd .s4 s)
  | .s4 => phyPoll c .phyRd .s3 (toLabel c .phyRd .s5)
  | .s5 => rdStep .phyDatL fun b s => toLabel c .phyRd .s6 (setV c (zextByte b) s)
  | .s6 => rdStep .phyDatH fun b s => need (xOf c s).v fun v =>
      let v' := v ||| (zextByte b <<< 8)
      finish c .phyRd v' 0 (setV c v' s)
  | _ => noLabel

end Sys2Proof.Machine
end

