-- ==== Sys2Proof/Machine/Micro.lean ====
section
/-! DEFINITION. The atomic steps of the contexts (10_state.md R22, R27): what each operation does at issue, what its step at
each label is, and the two steps of a bus transaction with its lock (40_bus_access.md R121 to R123). -/

namespace Sys2Proof.Machine

/-- What an operation does in the step that issues it: its counter names its first label (10_state.md R27, R29), and the locals that
its lines before that label initialise are set. Its argument checks execute with that label (00_scope.md R14). -/
def opEntry (c : CtxId) (m : Op) (s : State) : Out :=
  match m with
  | .regRd => regRdEntry c s
  | .regWr => regWrEntry c s
  | .memRd => memRdEntry c s
  | .memWr => memWrEntry c s
  | .phyWr => phyWrEntry c s
  | .phyRd => phyRdEntry c s
  | .rxCount => rxCountEntry c s
  | .rxAlloc => rxAllocEntry c s
  | .rxFrame => rxFrameEntry c s
  | .rxFlush => rxFlushEntry c s
  | .txFrame => txFrameEntry c s
  | .init => initEntry c s
  | .deinit => deinitEntry c s
  | .start => startEntry c s
  | .stop => stopEntry c s
  | .del => delEntry c s
  | .setLink => setLinkEntry c s
  | .setAddr => setAddrEntry c s
  | .getAddr => getAddrEntry c s
  | .setSpeed => setSpeedEntry c s
  | .setDuplex => setDuplexEntry c s
  | .setPromisc => setPromiscEntry c s
  | .setFlowCtrl => setFlowCtrlEntry c s
  | .setPeerPause => setPeerPauseEntry c s

/-- The step of an operation at a label. -/
def opAct (c : CtxId) (m : Op) (l : Label) (s : State) : Act :=
  match m with
  | .regRd => regRdAct c l s
  | .regWr => regWrAct c l s
  | .memRd => memRdAct c l s
  | .memWr => memWrAct c l s
  | .phyWr => phyWrAct c l s
  | .phyRd => phyRdAct c l s
  | .rxCount => rxCountAct c l s
  | .rxAlloc => rxAllocAct c l s
  | .rxFrame => rxFrameAct c l s
  | .rxFlush => rxFlushAct c l s
  | .txFrame => txFrameAct c l s
  | .init => initAct c l s
  | .deinit => deinitAct c l s
  | .start => startAct c l s
  | .stop => stopAct c l s
  | .del => delAct c l s
  | .setLink => setLinkAct c l s
  | .setAddr => setAddrAct c l s
  | .getAddr => getAddrAct c l s
  | .setSpeed => setSpeedAct c l s
  | .setDuplex => setDuplexAct c l s
  | .setPromisc => setPromiscAct c l s
  | .setFlowCtrl => setFlowCtrlAct c l s
  | .setPeerPause => setPeerPauseAct c l s

/-- The step a context takes next. -/
def ctxAct (c : CtxId) (s : State) : Act :=
  match (ctxOf c s).pc with
  | .idle => .blocked
  | .ended => .blocked
  | .op m l => opAct c m l s
  | .drain d => drainAct d s

/-- The other context. -/
def other : CtxId → CtxId
  | .H => .W
  | .W => .H

/-- A bus transaction of a context. BUS: `Acquire` when the lock is free (R121), `Transfer` when the context holds it,
which exchanges the frame and releases the lock in one step (R123), nothing while the other holds it. DMA: one atomic
step (R124, R125). -/
def busStep (c : CtxId) (xfer : State → Out) (s : State) : Out :=
  match s.cfg.variant, s.lock with
  | .dma, _ => xfer s
  | .bus, none => .next { s with lock := some c }
  | .bus, some o => if o = c then xfer { s with lock := none } else .next s

/-- The next atomic step of a context; where none is enabled, no change. -/
def ctxStep (c : CtxId) (s : State) : Out :=
  match ctxAct c s with
  | .bus f => busStep c f s
  | .plain o => o
  | .blocked => .next s

/-- Whether a context has a step to take. -/
def ctxEnabled (c : CtxId) (s : State) : Bool :=
  match ctxAct c s with
  | .bus _ => s.cfg.variant == .dma || s.lock != some (other c)
  | .plain _ => true
  | .blocked => false

/-- What the `Timeout` of a transaction does to the context that waits for the lock: absorbed inside `Reprobe`
(42_rx_bus.md R173), handled by the drainer at its own labels (44_drainer.md R233), raised everywhere else. -/
def takeTimeout (c : CtxId) (s : State) : Out :=
  match (ctxOf c s).pc with
  | .op m .p0 => reprobeTimeout c m s
  | .op m .p1 => reprobeTimeout c m s
  | .op m _ => raiseErr c m .timeout 0 s
  | .drain d => drainTimeout d s
  | .idle => .next s
  | .ended => .next s

/-- `LockTimeout` (R122): enabled only while the context waits for a lock that the other holds. -/
def lockTimeoutStep (c : CtxId) (s : State) : Out :=
  match ctxAct c s with
  | .bus _ => if s.cfg.variant = .bus ∧ s.lock = some (other c) then takeTimeout c s else .next s
  | .plain _ => .next s
  | .blocked => .next s

end Sys2Proof.Machine
end

