-- ==== Sys2Proof/Machine/Call.lean ====
section
/-! DEFINITION. A host operation from its issue to its completion (10_state.md R29; 30_encoding.md R98): the write of `CMD`, then
the atomic steps of HCTX with whatever steps of the other agents the agenda puts between them, until `HBUSY` = 0
(log 1). -/

namespace Sys2Proof.Machine

/-! ## Issue -/

/-- An illegal command word (30_encoding.md R98): it completes at once and nothing else changes. -/
def issueIllegal (s : State) : State := completeHost (errCode s.cfg.results .invalidArgument) 0 0 s

/-- What issue latches (10_state.md R29): the command word and the two argument words, with `DONE <- 0`. -/
def issued (i : Instr) (s : State) : State :=
  latch .H (encodeWord s.cfg.opcodes i) s.hif.arg0 s.hif.arg1 { s with hif.done := false }

/-- A write of `CMD` with the word of instruction `i`, whose operation is `m`. In `destroyed` it is ignored; while an
operation executes it is refused (R29, U3); an operation the variant lacks is illegal (R98); a PHY index out of range
(R35) or a lifecycle state that does not admit it (60_exceptions.md R321) is refused. -/
def issue (m : Op) (i : Instr) (s : State) : Out :=
  if s.inst.life = .destroyed then .next s
  else if hbusy s then .refused .cmdWhileBusy
  else if !i.existsIn s.cfg.variant then .next (issueIllegal s)
  else if !i.wellFormed s.cfg.cregs then .refused .phyIndex
  else if !admitted m s.inst.life then .refused .lifecycle
  else opEntry .H m (issued i s)

/-- A write of `CMD` with any word. -/
def issueWord (w : Word) (s : State) : Out :=
  match decodeWord s.cfg.opcodes w with
  | .ok i =>
    match i.op with
    | some m => issue m i s
    | none => .next s
  | .error _ =>
    if s.inst.life = .destroyed then .next s
    else if hbusy s then .refused .cmdWhileBusy
    else .next (issueIllegal s)

/-! ## HOST at the host interface registers (10_state.md R29) -/

/-- HOST writes a register; a write to a read-only one is ignored (10_state.md R37); any other offset is refused
(20_memory.md R64). -/
def hostWrite (off : Nat) (v : Word) (s : State) : Out :=
  if off = s.cfg.hifs.cmd then issueWord v s
  else if off = s.cfg.hifs.arg0 then .next { s with hif.arg0 := v }
  else if off = s.cfg.hifs.arg1 then .next { s with hif.arg1 := v }
  else if off ∈ s.cfg.hifs.all then .next s
  else .refused .hifOffset

/-- What HOST reads of a register. -/
def hifRead (off : Nat) (s : State) : Option Word :=
  if off = s.cfg.hifs.cmd then some 0
  else if off = s.cfg.hifs.arg0 then some s.hif.arg0
  else if off = s.cfg.hifs.arg1 then some s.hif.arg1
  else if off = s.cfg.hifs.result then some s.hif.result
  else if off = s.cfg.hifs.rdata0 then some s.hif.rdata0
  else if off = s.cfg.hifs.rdata1 then some s.hif.rdata1
  else if off = s.cfg.hifs.hstat then some (hstat s)
  else none

def hostRead (off : Nat) (s : State) : Out :=
  match hifRead off s with
  | some v => .next { s with hif.hostData := v }
  | none => .refused .hifOffset

/-! ## One step of one agent -/

def agentStep (a : AgentStep) (s : State) : Out :=
  match a with
  | .ctx c => ctxStep c s
  | .lockTimeout c => lockTimeoutStep c s
  | .irq => .next (irqHandler s)
  | .hostWrite off v => hostWrite off v s
  | .hostRead off => hostRead off s
  | .memStore addr bytes => .next (memStore addr bytes s)
  | .release addr => .next (releaseBuf addr s)
  | .phyComplete => .next (phyComplete s)
  | .frameArrive f st causes => .next (frameArrive f st causes s)
  | .offerArrives causes => .next (offerArrives causes s)
  | .glitch cursor => .next (glitch cursor s)
  | .txComplete causes => .next (txComplete causes s)
  | .setCauses causes => .next (setCauses causes s)
  | .resetComplete mem => .next (resetComplete mem s)
  | .pauseSent => .next (pauseSent s)
  | .dmaRxBegin f => .next (dmaRxBegin f s)
  | .dmaRxSeg => .next (dmaRxSeg s)
  | .dmaTxSeg => .next (dmaTxSeg s)
  | .dmaTxSuspend => .next (dmaTxSuspend s)

/-- Where the agenda names no agent: HCTX goes on, or WCTX where HCTX waits for it. -/
def advance (s : State) : Out := if ctxEnabled .H s then ctxStep .H s else ctxStep .W s

/-! ## To completion -/

/-- Steps until HCTX is idle, at most `fuel` of them. An operation that `fuel` does not see to its end goes on in later
steps of the machine. -/
def callLoop : Nat → State → Out
  | 0, s => .next s
  | fuel + 1, s =>
    if !hbusy s then .next s
    else match s.agenda with
      | .agent a :: rest => andThen (agentStep a { s with agenda := rest }) (callLoop fuel)
      | _ => andThen (advance s) (callLoop fuel)

/-- More steps than an operation takes under a valid configuration while the agenda's entries and the worker's
transactions fall between them: one for each byte of a copy (at most 65535 read, 65539 landed, 65535 delivered), two for
each poll, list entry, descriptor and buffer, with room to spare. -/
def callFuel (s : State) : Nat :=
  2 ^ 18 + 8 * (s.cfg.phyBudgetUs + s.inst.swResetTimeoutMs.toNat + s.cfg.nTxPoll * (s.cfg.txDescN + 1) +
    s.cfg.initSeqBus.length + s.cfg.initSeqDma.length + 4 * s.cfg.rxDescN + 4 * s.cfg.txDescN + s.allocs.length +
    s.agenda.length)

/-- A host operation. -/
def hostCall (m : Op) (i : Instr) (s : State) : Out := andThen (issue m i s) (callLoop (callFuel s))

end Sys2Proof.Machine
end

