-- ==== Sys2Proof/Machine/Exec.lean ====
section
/-! DEFINITION. The meaning of each instruction: one definition for each row of opcode_table.json. A command word's meaning is
its whole operation, from the write of `CMD` to its completion; the operation's own steps are in the family's file. -/

namespace Sys2Proof.Machine

/-- `REG_RD` (40_bus_access.md R128). -/
def execRegRd (reg : BitVec 7) (s : State) : Out := hostCall .regRd (.regRd reg) s

/-- `REG_WR` (40_bus_access.md R129). -/
def execRegWr (reg : BitVec 7) (data : BitVec 8) (s : State) : Out := hostCall .regWr (.regWr reg data) s

/-- `MEM_RD` (40_bus_access.md R130). -/
def execMemRd (len : BitVec 16) (s : State) : Out := hostCall .memRd (.memRd len) s

/-- `MEM_WR` (40_bus_access.md R131). -/
def execMemWr (len : BitVec 16) (s : State) : Out := hostCall .memWr (.memWr len) s

/-- `PHY_WR` (41_phy_access.md R141). -/
def execPhyWr (phy reg : BitVec 5) (value : BitVec 16) (s : State) : Out := hostCall .phyWr (.phyWr phy reg value) s

/-- `PHY_RD` (41_phy_access.md R142). -/
def execPhyRd (phy reg : BitVec 5) (dv : Bool) (s : State) : Out := hostCall .phyRd (.phyRd phy reg dv) s

/-- `RX_COUNT` (42_rx_bus.md R165). -/
def execRxCount (s : State) : Out := hostCall .rxCount .rxCount s

/-- `RX_ALLOC` (42_rx_bus.md R170). -/
def execRxAlloc (len : BitVec 16) (s : State) : Out := hostCall .rxAlloc (.rxAlloc len) s

/-- `RX_FRAME` (42_rx_bus.md R171, 43_dma_ring.md R210). -/
def execRxFrame (len : BitVec 16) (s : State) : Out := hostCall .rxFrame (.rxFrame len) s

/-- `RX_FLUSH` (42_rx_bus.md R172, 43_dma_ring.md R211). -/
def execRxFlush (s : State) : Out := hostCall .rxFlush .rxFlush s

/-- `TX_FRAME` (45_mac_interface.md R270 to R273). -/
def execTxFrame (len : BitVec 16) (s : State) : Out := hostCall .txFrame (.txFrame len) s

/-- `INIT` (45_mac_interface.md R253). -/
def execInit (s : State) : Out := hostCall .init .init s

/-- `DEINIT` (45_mac_interface.md R256). -/
def execDeinit (s : State) : Out := hostCall .deinit .deinit s

/-- `START` (45_mac_interface.md R257). -/
def execStart (s : State) : Out := hostCall .start .start s

/-- `STOP` (45_mac_interface.md R258). -/
def execStop (s : State) : Out := hostCall .stop .stop s

/-- `DEL` (45_mac_interface.md R267). -/
def execDel (s : State) : Out := hostCall .del .del s

/-- `SET_LINK` (45_mac_interface.md R259). -/
def execSetLink (flag : Bool) (s : State) : Out := hostCall .setLink (.setLink flag) s

/-- `SET_ADDR` (45_mac_interface.md R260). -/
def execSetAddr (s : State) : Out := hostCall .setAddr .setAddr s

/-- `GET_ADDR` (45_mac_interface.md R261). -/
def execGetAddr (s : State) : Out := hostCall .getAddr .getAddr s

/-- `SET_SPEED` (45_mac_interface.md R262). -/
def execSetSpeed (flag : Bool) (s : State) : Out := hostCall .setSpeed (.setSpeed flag) s

/-- `SET_DUPLEX` (45_mac_interface.md R263). -/
def execSetDuplex (flag : Bool) (s : State) : Out := hostCall .setDuplex (.setDuplex flag) s

/-- `SET_PROMISC` (45_mac_interface.md R264). -/
def execSetPromisc (flag : Bool) (s : State) : Out := hostCall .setPromisc (.setPromisc flag) s

/-- `SET_FLOWCTRL` (45_mac_interface.md R265). -/
def execSetFlowCtrl (flag : Bool) (s : State) : Out := hostCall .setFlowCtrl (.setFlowCtrl flag) s

/-- `SET_PEER_PAUSE` (45_mac_interface.md R266). -/
def execSetPeerPause (flag : Bool) (s : State) : Out := hostCall .setPeerPause (.setPeerPause flag) s

/-- `BUS_REG_RD` (30_encoding.md R100). -/
def execBusRegRd (reg : BitVec 7) (s : State) : Out := frameRegRd reg s

/-- `BUS_REG_WR` (30_encoding.md R100). -/
def execBusRegWr (reg : BitVec 7) (data : BitVec 8) (s : State) : Out := frameRegWr reg data s

/-- `BUS_BLK_RD` (30_encoding.md R101). -/
def execBusBlkRd (reg : BitVec 7) (s : State) : Out := frameBlkRd reg s

/-- `BUS_BLK_WR` (30_encoding.md R101). -/
def execBusBlkWr (reg : BitVec 7) (s : State) : Out := frameBlkWr reg s

end Sys2Proof.Machine
end

