-- ==== Sys2Proof/Machine/Dispatch.lean ====
section
/-! DEFINITION. The dispatch: one arm for each constructor of Instr. -/

namespace Sys2Proof.Machine

def exec (i : Instr) (s : State) : Host.Outcome State Fault Refusal :=
  match i with
  | .regRd reg => Sys2Proof.Machine.execRegRd reg s
  | .regWr reg data => Sys2Proof.Machine.execRegWr reg data s
  | .memRd len => Sys2Proof.Machine.execMemRd len s
  | .memWr len => Sys2Proof.Machine.execMemWr len s
  | .phyWr phy reg value => Sys2Proof.Machine.execPhyWr phy reg value s
  | .phyRd phy reg dv => Sys2Proof.Machine.execPhyRd phy reg dv s
  | .rxCount => Sys2Proof.Machine.execRxCount s
  | .rxAlloc len => Sys2Proof.Machine.execRxAlloc len s
  | .rxFrame len => Sys2Proof.Machine.execRxFrame len s
  | .rxFlush => Sys2Proof.Machine.execRxFlush s
  | .txFrame len => Sys2Proof.Machine.execTxFrame len s
  | .init => Sys2Proof.Machine.execInit s
  | .deinit => Sys2Proof.Machine.execDeinit s
  | .start => Sys2Proof.Machine.execStart s
  | .stop => Sys2Proof.Machine.execStop s
  | .del => Sys2Proof.Machine.execDel s
  | .setLink flag => Sys2Proof.Machine.execSetLink flag s
  | .setAddr => Sys2Proof.Machine.execSetAddr s
  | .getAddr => Sys2Proof.Machine.execGetAddr s
  | .setSpeed flag => Sys2Proof.Machine.execSetSpeed flag s
  | .setDuplex flag => Sys2Proof.Machine.execSetDuplex flag s
  | .setPromisc flag => Sys2Proof.Machine.execSetPromisc flag s
  | .setFlowCtrl flag => Sys2Proof.Machine.execSetFlowCtrl flag s
  | .setPeerPause flag => Sys2Proof.Machine.execSetPeerPause flag s
  | .busRegRd reg => Sys2Proof.Machine.execBusRegRd reg s
  | .busRegWr reg data => Sys2Proof.Machine.execBusRegWr reg data s
  | .busBlkRd reg => Sys2Proof.Machine.execBusBlkRd reg s
  | .busBlkWr reg => Sys2Proof.Machine.execBusBlkWr reg s

end Sys2Proof.Machine
end

