-- ==== Sys2Proof/Machine/Fetch.lean ====
section
/-! DEFINITION. How the machine comes to its next step (10_state.md R22, R29; log 1): a command word from the host, a bus frame,
one step of one agent, or, where the agenda is empty, the block's own contexts. -/

namespace Sys2Proof.Machine

/-- The host writes `w` to `CMD` and waits: an illegal word completes at once (30_encoding.md R98). -/
def runWord (w : Word) (s : State) : Out :=
  match decodeWord s.cfg.opcodes w with
  | .ok i => exec i s
  | .error _ => issueWord w s

/-- The data phase of a block frame whose bytes are given: what the block drives in a write, how many it clocks in in a
read (30_encoding.md R101). A command byte alone leaves it as it stands (log 7). -/
def loadFrame (bs : List Byte) (s : State) : State :=
  match bs with
  | _ :: d :: e :: ds =>
    { s with bus := { s.bus with want := ds.length + 2, out := d :: e :: ds } }
  | _ => s

/-- A bus frame; no byte at all is no frame (30_encoding.md R99). -/
def runFrame (bs : List Byte) (s : State) : Out :=
  match decodeFrame bs with
  | .ok i => exec i (loadFrame bs s)
  | .error _ => .refused .blockFrameForm

/-- With nothing scheduled: an operation under way goes on; else a pending interrupt is taken; else the worker steps; after
`DEL` nothing does. -/
def idleStep (s : State) : Out :=
  if s.inst.life = .destroyed then .next s
  else if hbusy s then advance s
  else if irqPending s then .next (irqHandler s)
  else ctxStep .W s

/-- The next entry of the agenda. -/
def takeEvent (e : Event) (s : State) : Out :=
  match e with
  | .call w => runWord w s
  | .frame bs => runFrame bs s
  | .agent a => agentStep a s

/-- The event that carries a row of opcode_table.json whose bits are `w`. -/
def wordEvent (nbits w : Nat) : Event :=
  match nbits with
  | 16 => .frame (frameBytes 16 w)
  | 8 => .frame (frameBytes 8 w)
  | _ => .call (BitVec.ofNat 32 w)

end Sys2Proof.Machine
end

