-- ==== Sys2Proof/Machine/Step.lean ====
section
/-! DEFINITION. The machine's step. -/

namespace Sys2Proof.Machine

/-- One entry of the agenda, or one step of the block's own contexts. -/
def step (s : State) : Host.Outcome State Fault Refusal :=
  match s.agenda with
  | e :: rest => takeEvent e { s with agenda := rest }
  | [] => idleStep s

/-- The state with one instruction as the next thing that happens: the host's command word, or a frame on the bus. -/
def State.withFetchWord (s : State) (nbits w : Nat) : State := { s with agenda := wordEvent nbits w :: s.agenda }

end Sys2Proof.Machine
end

