-- ==== Sys2Proof/Machine/Construct.lean ====
section
/-! DEFINITION. Construction of an instance (70_reset_and_hazards.md R341; 43_dma_ring.md R193; 60_exceptions.md R305): the
constraints of 00_scope.md R10, the allocations, and their rollback. `State.reset` is one instance of it (log 2, log 5). -/

namespace Sys2Proof.Machine

/-- What this model asks of the parameters beside R10, where the spec names a parameter and another value of it has no
meaning: the widths are those of the formats and registers, and no two registers, opcodes or results share a number
(log 10). -/
def mapsValid (c : Config) : Bool :=
  decide (c.phyValueBits = 16) && decide (c.phyIndexBits = 5) && decide (c.regIndexBits = 5) &&
  decide ((CReg.all.map (CReg.index c.cregs)).Nodup) &&
  decide ((MReg.all.map (MReg.offset c.mregs)).Nodup) && MReg.all.all (fun r => decide (r.offset c.mregs % 4 = 0)) &&
  decide (c.hifs.all.Nodup) && c.hifs.all.all (fun a => decide (a % 4 = 0)) &&
  decide ((Op.all.map c.opcodes.code).Nodup) && decide (c.results.all.Nodup)

/-- The constraints every configuration must meet (00_scope.md R10). -/
def configValid (c : Config) : Bool :=
  decide (0 < c.phyPollUs) && decide (0 < c.phyBudgetUs) && decide (c.phyBudgetUs % c.phyPollUs = 0) &&
  decide (c.fcLowWm ≤ c.fcHighWm) && decide (c.fcHighWm ≤ c.rxDescN) &&
  decide (1 ≤ c.rxDescN) && decide (1 ≤ c.txDescN) &&
  decide (0 < c.dmaBufSize) && decide (c.dmaBufSize % 4 = 0) && decide (c.dmaBufSize ≤ 8188) &&
  decide (c.maxFrame + c.crcLen ≤ c.rxDescN * c.dmaBufSize) &&
  decide (c.maxFrame ≤ c.txDescN * c.dmaBufSize) &&
  decide (c.crcLen + c.minFrame ≤ c.maxFrame) && decide (c.bufHdrLen ≤ c.minFrame) &&
  decide (c.rxMemStart < c.rxMemEnd) && decide (c.rxMemEnd ≤ 0x10000) &&
  decide (0 < c.tResetPollMs) && decide (c.tResetPollMs ≤ c.swResetTimeoutMs) && decide (1 ≤ c.nTxPoll) &&
  decide (c.rxBufSize + c.crcLen + 4 ≤ 65535) && decide (c.maxFrame + c.crcLen ≤ 16383) &&
  decide (c.rxBufSize + c.crcLen + 5 < c.rxMemEnd - c.rxMemStart) && mapsValid c

/-- Why no instance comes to exist. -/
inductive NoInstance where
  /-- a constraint of R10 is broken: the configuration is refused (93_implementation_defined.md U26) -/
  | badConfig
  /-- an allocation was answered null; the earlier ones were freed in this order (R341; U29) -/
  | noMemory (freed : List Word)
deriving DecidableEq, Repr

/-- The sizes construction asks ALLOC for, in order (10_state.md R44; 43_dma_ring.md R193). -/
def constructionSizes (c : Config) : List Nat :=
  match c.variant with
  | .bus => [c.rxBufSize + c.crcLen + 4, c.rxBufSize]
  | .dma => [16 * c.rxDescN, 16 * c.txDescN] ++ List.replicate c.rxDescN c.dmaBufSize ++
      List.replicate c.txDescN c.dmaBufSize

/-- Make the allocations; `got` is what was obtained so far, the latest first. -/
def allocateAll : List Nat → List Word → State → Except (List Word) (List Word × State)
  | [], got, s => .ok (got.reverse, s)
  | n :: ns, got, s =>
    match alloc n .block s with
    | (none, _) => .error got
    | (some a, s) => allocateAll ns (a :: got) s

/-- Where the buffers are (10_state.md R43, R44). -/
def placeBuffers (c : Config) (got : List Word) : Bufs :=
  match c.variant with
  | .bus => { rxScratch := got.getD 0 0, txScratch := got.getD 1 0 }
  | .dma => {
      rxRingBase := got.getD 0 0
      txRingBase := got.getD 1 0
      rxb := (got.drop 2).take c.rxDescN
      txb := (got.drop (2 + c.rxDescN)).take c.txDescN }

/-- Construction with what ALLOC answers. -/
def construct (c : Config) (answers : List (Option Word)) : Except NoInstance State :=
  if configValid c then
    match allocateAll (constructionSizes c) [] { State.blank c with env.allocAnswers := answers } with
    | .ok (got, s) => .ok { s with bufs := placeBuffers c got }
    | .error freed => .error (.noMemory freed)
  else .error .badConfig

end Sys2Proof.Machine
end

