-- ==== Sys2Proof/Safety.lean ====
section
/-! DEFINITION. What the claims of this model are stated with: the outcomes, the invariants that every step keeps, frames, and
what a host operation finds where nothing else is going on. -/

namespace Sys2Proof.Machine

/-! ## Outcomes -/

/-- An outcome that is a fault of the machine. No claim allows one where the spec's own rules apply. -/
def Faults (o : Out) : Prop := ∃ f, o = .fault f

/-- Every next state of an outcome has a property. -/
def Ensures (o : Out) (P : State → Prop) : Prop := ∀ s, o = .next s → P s

/-! ## Invariants -/

/-- The fields that a register's definition fixes read as the register tables say (10_state.md R33, R34, R36): the two
self-clearing bits of `PTR_CTRL`, bits 7:6 of `INT_STAT`, the two low bits of the ring bases, the bits of `DMA_STATUS`
other than `TI`, `RI`, `RU`. -/
def FixedFields (s : State) : Prop :=
  s.dev.ptrCtrl &&& 0x03 = 0 ∧ s.dev.intStat &&& 0xC0 = 0 ∧
  s.mreg.rxBase &&& 0x3 = 0 ∧ s.mreg.txBase &&& 0x3 = 0 ∧ s.mreg.status &&& 0xFFFFFF3E = 0

/-- The receive cursors lie in the ring (10_state.md R41; 20_memory.md R66, R79), which is not empty. -/
def CursorsInRing (s : State) : Prop :=
  s.cfg.rxMemStart < s.cfg.rxMemEnd ∧ s.cfg.rxMemEnd ≤ 0x10000 ∧
  inRing s.cfg s.dev.rxRp.toNat = true ∧ inRing s.cfg s.dev.rxWp.toNat = true

/-- The buffers the instance was built with lie inside HMEM (10_state.md R43, R44; 43_dma_ring.md R193). -/
def BuffersInHmem (s : State) : Prop :=
  s.bufs.rxScratch.toNat + (s.cfg.rxBufSize + s.cfg.crcLen + 4) ≤ hmemSize ∧
  s.bufs.txScratch.toNat + s.cfg.rxBufSize ≤ hmemSize ∧
  (∀ i, (rxBuf s i).toNat + s.cfg.dmaBufSize ≤ hmemSize) ∧ (∀ i, (txBuf s i).toNat + s.cfg.dmaBufSize ≤ hmemSize)

/-- There is no lock under DMA (20_memory.md R70). -/
def NoLockUnderDma (s : State) : Prop := s.cfg.variant = .dma → s.lock = none

/-- The result codes of 60_exceptions.md R291. -/
def ResultCode (m : ResultMap) (w : Word) : Prop := w = m.ok ∨ ∃ e, w = errCode m e

/-- No two controller registers share an index (log 10). -/
def DistinctRegs (m : CRegMap) : Prop := ∀ r q : CReg, r.index m = q.index m → r = q

/-- No two operations share an opcode (log 10). -/
def DistinctCodes (m : OpcodeMap) : Prop := ∀ o p : Op, m.code o = m.code p → o = p

/-- What the worker may execute (60_exceptions.md R320; 30_encoding.md R96): the drainer, or an operation it issues. -/
def workerOp : Op → Bool
  | .rxAlloc => true
  | .rxFrame => true
  | .rxFlush => true
  | _ => false

/-- WCTX is in the drainer, in an operation the drainer issues, or ended. -/
def WorkerConfined (s : State) : Prop :=
  match s.wctx.pc with
  | .idle => False
  | .op m _ => workerOp m = true
  | .drain _ => True
  | .ended => True

/-- HCTX is idle or inside an operation (10_state.md R26). -/
def HostPc (s : State) : Prop :=
  match s.hctx.pc with
  | .idle => True
  | .op _ _ => True
  | .drain _ => False
  | .ended => False

/-! ## A host operation with nothing beside it -/

/-- The agenda puts no other agent's step next. -/
def NoAgent (s : State) : Prop := ∀ a rest, s.agenda ≠ .agent a :: rest

/-- HCTX is free to take an operation, the lock is free, and nothing is scheduled beside the operation. -/
def Quiet (s : State) : Prop := s.hctx.pc = .idle ∧ s.lock = none ∧ NoAgent s

/-- `t` is `u` but for what a host operation changes of HCTX and of the host's registers, and for the trace: `ARG0`, `ARG1`
and what the host read last stand. This is the frame of a host operation whose effect on everything else is `u`. -/
def OnlyHost (u t : State) : Prop :=
  t = { u with hctx := t.hctx, hif := t.hif, trace := t.trace } ∧
  t.hif.arg0 = u.hif.arg0 ∧ t.hif.arg1 = u.hif.arg1 ∧ t.hif.hostData = u.hif.hostData

/-- The host's registers after a completed operation (10_state.md R29). -/
def Reports (code rd0 rd1 : Word) (t : State) : Prop :=
  t.hif.result = code ∧ t.hif.rdata0 = rd0 ∧ t.hif.rdata1 = rd1 ∧ t.hif.done = true ∧ t.hctx.pc = .idle

/-- The outcome `o` of a host operation from `s` is a next state: the operation has completed with the result given, has made
the observable steps `obs` in that order, and leaves `u` but for the host's own part. -/
def Answers (o : Out) (s u : State) (obs : List Obs) (code rd0 rd1 : Word) : Prop :=
  ∃ t, o = .next t ∧ Reports code rd0 rd1 t ∧ OnlyHost u t ∧ t.trace = s.trace ++ obs ++ [.result code rd0 rd1]

/-- A host operation that the lifecycle matrix admits (60_exceptions.md R321), with nothing beside it. -/
def Ready (m : Op) (s : State) : Prop := Quiet s ∧ admitted m s.inst.life = true

/-- The steps a transaction takes (40_bus_access.md R121, R123 to R125). -/
def txSteps : Variant → Nat
  | .bus => 2
  | .dma => 1

/-- An agenda on which HCTX takes `k` steps and an agent then takes one. -/
def schedule (k : Nat) (a : AgentStep) : List Event := List.replicate k (.agent (.ctx .H)) ++ [.agent a]

/-- The lock is free, HCTX is free, and the agenda is the one given. -/
def Scheduled (m : Op) (s : State) (agenda : List Event) : Prop :=
  s.hctx.pc = .idle ∧ s.lock = none ∧ admitted m s.inst.life = true ∧ s.agenda = agenda

/-- The PHY polling parameters are within 00_scope.md R10, and the accumulator's 32 bits hold the budget. -/
def PhyBudget (c : Config) (n : Nat) : Prop :=
  0 < c.phyPollUs ∧ c.phyBudgetUs = n * c.phyPollUs ∧ c.phyBudgetUs < 2 ^ 32

/-! ## Entries of the trace, by register -/

def rdObs (s : State) (r : CReg) (b : Byte) : Obs := .regRd (r.index s.cfg.cregs) b
def wrObs (s : State) (r : CReg) (b : Byte) : Obs := .regWr (r.index s.cfg.cregs) b
def blkRdObs (s : State) (r : CReg) (bs : List Byte) : Obs := .blkRd (r.index s.cfg.cregs) bs
def blkWrObs (s : State) (r : CReg) (bs : List Byte) : Obs := .blkWr (r.index s.cfg.cregs) bs

/-! ## What the shared sequences leave -/

/-- The record of valid headers after HCTX has moved the cursor in an operation that is none of 42_rx_bus.md: only the header
of the buffer that the drainer owns stays as valid as it was (R174; log 21). -/
def headersKept (s : State) : List Word := (keepDrainHeader s { s with bufs.hdrValid := [] }).bufs.hdrValid

/-- What `StartSeq` leaves under BUS (45_mac_interface.md R257). -/
def startedBus (s : State) : State :=
  let r := resetRxPointer s
  { r with
    bufs.hdrValid := headersKept s
    dev := { r.dev with
      txStage := [], ptrCtrl := 0, intStat := s.dev.intStat &&& ~~~0x3F, intMask := 0x81,
      rxCtrl := s.dev.rxCtrl ||| 0x01 }
    flags := { s.flags with irqEn := true, framesRemain := 0 } }

/-- Its transactions. -/
def startTraceBus (s : State) : List Obs :=
  [wrObs s .ptrCtrl 0x03, wrObs s .intStat 0x3F, wrObs s .intMask 0x81, rdObs s .rxCtrl s.dev.rxCtrl,
   wrObs s .rxCtrl (s.dev.rxCtrl ||| 0x01)]

/-- What `StopSeq` leaves under BUS (45_mac_interface.md R258). -/
def stoppedBus (s : State) : State :=
  let r := resetRxPointer s
  { r with
    bufs.hdrValid := headersKept s
    dev := { r.dev with txStage := [], ptrCtrl := 0, intMask := 0x80, rxCtrl := s.dev.rxCtrl &&& 0xFE }
    flags := { s.flags with irqEn := false, irqPend := false, framesRemain := 0 } }

/-- Its transactions. -/
def stopTraceBus (s : State) : List Obs :=
  [wrObs s .intMask 0x80, rdObs s .rxCtrl s.dev.rxCtrl, wrObs s .rxCtrl (s.dev.rxCtrl &&& 0xFE),
   wrObs s .ptrCtrl 0x03]

/-- One descriptor of the receive ring as `ResetDescChain` writes it (43_dma_ring.md R195). -/
def buildRxDesc (s : State) (i : Nat) : State :=
  hwrite32 (rxdAddr s i + 12) (BitVec.ofNat 32 (rxdAddr s ((i + 1) % s.cfg.rxDescN)))
    (hwrite32 (rxdAddr s i + 8) (rxBuf s i)
      (hwrite32 (rxdAddr s i + 4) (0x00004000 ||| BitVec.ofNat 32 s.cfg.dmaBufSize)
        (hwrite32 (rxdAddr s i) 0x80000000 s)))

/-- One descriptor of the transmit ring. -/
def buildTxDesc (s : State) (i : Nat) : State :=
  hwrite32 (txdAddr s i + 12) (BitVec.ofNat 32 (txdAddr s ((i + 1) % s.cfg.txDescN)))
    (hwrite32 (txdAddr s i + 8) (txBuf s i) (hwrite32 (txdAddr s i + 4) 0 (hwrite32 (txdAddr s i) 0x00100000 s)))

/-- What `ResetDescChain` leaves (43_dma_ring.md R195). -/
def chainBuilt (s : State) : State :=
  let r := (List.range s.cfg.txDescN).foldl buildTxDesc ((List.range s.cfg.rxDescN).foldl buildRxDesc s)
  { r with
    bufs := { s.bufs with rxIdx := 0, txIdx := 0 }
    flags := { s.flags with framesRemain := 0, freeRx := s.cfg.rxDescN }
    mreg := { s.mreg with rxBase := s.bufs.rxRingBase &&& 0xFFFFFFFC, txBase := s.bufs.txRingBase &&& 0xFFFFFFFC } }

/-- Its register writes. -/
def chainTrace (s : State) : List Obs := [.mWrite .rxBase s.bufs.rxRingBase, .mWrite .txBase s.bufs.txRingBase]

/-- The fetchers after a write of `DMA_OPMODE` (43_dma_ring.md R200, R220). -/
def opModeWritten (v : Word) (s : State) : State := mregWrite .opMode v s

/-- What `StartSeq` leaves under DMA (45_mac_interface.md R257). -/
def startedDma (s : State) : State :=
  let r := opModeWritten (s.mreg.opMode ||| 0x00002002) (chainBuilt s)
  { r with
    mreg := { r.mreg with
      macConfig := s.mreg.macConfig ||| 0x0000000C, status := s.mreg.status &&& ~~~0x000000C1, intEn := 0x000000C0 }
    flags := { r.flags with irqEn := true } }

/-- Its register accesses. -/
def startTraceDma (s : State) : List Obs :=
  chainTrace s ++
  [.mRead .macConfig s.mreg.macConfig, .mWrite .macConfig (s.mreg.macConfig ||| 0x8),
   .mRead .opMode s.mreg.opMode, .mWrite .opMode (s.mreg.opMode ||| 0x2002),
   .mRead .macConfig (s.mreg.macConfig ||| 0x8), .mWrite .macConfig (s.mreg.macConfig ||| 0x8 ||| 0x4),
   .mWrite .status 0xC1, .mWrite .intEn 0xC0]

/-- What `StopSeq` leaves under DMA (45_mac_interface.md R258). -/
def stoppedDma (s : State) : State :=
  let r := opModeWritten (s.mreg.opMode &&& ~~~0x00002002) s
  { r with
    mreg := { r.mreg with
      macConfig := s.mreg.macConfig &&& ~~~0x0000000C, status := s.mreg.status &&& ~~~0x000000C1, intEn := 0 }
    flags := { s.flags with irqEn := false, framesRemain := 0 } }

/-- Its register accesses. -/
def stopTraceDma (s : State) : List Obs :=
  [.mWrite .intEn 0, .mRead .opMode s.mreg.opMode, .mWrite .opMode (s.mreg.opMode &&& ~~~0x2002),
   .mRead .macConfig s.mreg.macConfig, .mWrite .macConfig (s.mreg.macConfig &&& ~~~0xC), .mWrite .status 0xC1]

/-- What `StartSeq` and `StopSeq` leave, either variant. -/
def started (s : State) : State := match s.cfg.variant with | .bus => startedBus s | .dma => startedDma s
def startTrace (s : State) : List Obs := match s.cfg.variant with | .bus => startTraceBus s | .dma => startTraceDma s
def stopped (s : State) : State := match s.cfg.variant with | .bus => stoppedBus s | .dma => stoppedDma s
def stopTrace (s : State) : List Obs := match s.cfg.variant with | .bus => stopTraceBus s | .dma => stopTraceDma s

/-! ## INIT (45_mac_interface.md R253 to R255) -/

/-- `INIT_SEQ` written in order, BUS; a write that is refused refuses it. -/
def programBus : List (BitVec 7 × Byte) → State → Except Refusal State
  | [], s => .ok s
  | (r, v) :: rest, s =>
    match devWriteIdx r v s with
    | .ok t => programBus rest t
    | .error e => .error e

/-- The same, DMA. -/
def programDma (seq : List (MReg × Word)) (s : State) : State := seq.foldl (fun u e => mregWrite e.1 e.2 u) s

/-- What stands when the software reset has completed and the reset bit has been read once more, BUS. -/
def afterResetBus (mem : Cells 8) (s : State) : State :=
  let r := resetBus mem { s with flags.irqEn := true, agenda := [] }
  { r with env.free := r.env.free + 1 }

/-- The byte that read returns: bit 0 is clear, the others are of any value. -/
def resetRead (mem : Cells 8) (s : State) : Byte :=
  Config.freeByte (resetBus mem { s with flags.irqEn := true, agenda := [] }).env.free &&& 0xFE

/-- What stands when the software reset has completed, DMA. -/
def afterResetDma (s : State) : State := resetDma { s with flags.irqEn := true, agenda := [] }

/-- The transactions of `INIT` up to the identity reads, BUS. -/
def initTraceBus (s : State) (resetReads : List Byte) : List Obs :=
  [.notify .lowLevelInit, wrObs s .ncr 0x01] ++ resetReads.map (rdObs s .ncr)

/-- The four identity reads (45_mac_interface.md R255). -/
def identityTrace (s : State) : List Obs :=
  [rdObs s .vidL (lowByte s.cfg.ctrlVid), rdObs s .vidH (highByte s.cfg.ctrlVid),
   rdObs s .pidL (lowByte s.cfg.ctrlPid), rdObs s .pidH (highByte s.cfg.ctrlPid)]

/-- The six address reads. -/
def addressTrace (s : State) (m : Mac) : List Obs :=
  [rdObs s (.par 0) m.b0, rdObs s (.par 1) m.b1, rdObs s (.par 2) m.b2, rdObs s (.par 3) m.b3, rdObs s (.par 4) m.b4,
   rdObs s (.par 5) m.b5]

/-- `n` polls of `T_RESET_POLL_MS` are the first to reach the reset timeout (R254; 70_reset_and_hazards.md R370). -/
def ResetPolls (s : State) (n : Nat) : Prop :=
  0 < n ∧ (n - 1) * s.cfg.tResetPollMs < s.inst.swResetTimeoutMs.toNat ∧
  s.inst.swResetTimeoutMs.toNat ≤ n * s.cfg.tResetPollMs ∧ n * s.cfg.tResetPollMs < 2 ^ 32

/-- Interrupts off and the pending latch cleared (R253 S8, R256 S0). -/
def interruptsOff (s : State) : State := { s with flags := { s.flags with irqEn := false, irqPend := false } }

/-! ## Frames at the receive cursor (BUS) -/

/-- The presence byte (42_rx_bus.md R161): what the second of two reads of `RX_PEEK` returns. -/
def presence (s : State) : Byte := rxByte s s.dev.rxRp.toNat

/-- The header at the cursor and its byte count (42_rx_bus.md R167). -/
def cursorHeader (s : State) : List Byte := peekBytes 4 s
def cursorCount (s : State) : Nat := headerCount (cursorHeader s)

/-- A frame stands at the cursor, pointer auto-return is on, no reset is in progress. -/
def FrameAtCursor (s : State) : Prop :=
  s.cfg.variant = .bus ∧ resetting s = false ∧ autoReturn s = true ∧ presence s = 1

/-- Its status byte has no error bit and its count is not 0. -/
def GoodFrame (s : State) : Prop :=
  FrameAtCursor s ∧ erroneous s.cfg (headerStatus (cursorHeader s)) = false ∧ cursorCount s ≠ 0

/-- The transactions of `RxCount` that end in a peek of the header (42_rx_bus.md R164). -/
def countTrace (s : State) : List Obs :=
  [rdObs s .rxPeek s.dev.rxLatch, rdObs s .rxPeek 1, blkRdObs s .rxPeekN (cursorHeader s)]

/-- After the two reads of `RX_PEEK` the latch holds the presence byte. -/
def peeked (s : State) : State := { s with dev.rxLatch := presence s }

/-- The cursor after a frame of `bc` bytes (42_rx_bus.md R169; 20_memory.md R79). -/
def pastFrame (s : State) (bc : Nat) : Nat := ringWrap s.cfg (s.dev.rxRp.toNat + bc + 4)

/-- What a consumed frame and the re-probe leave: the cursor moved, `FRAMES_REMAIN` refreshed (42_rx_bus.md R173). -/
def consumed (bc : Nat) (s : State) : State :=
  let pb := rxByte s (pastFrame s bc)
  { moveCursor (pastFrame s bc) s with
    dev.rxLatch := pb
    flags.framesRemain := if pb = 0 then 0 else 1 }

/-- The two reads of the re-probe: the first returns the latch that the cursor move left unspecified. -/
def reprobeTrace (s : State) (bc : Nat) : List Obs :=
  [rdObs s .rxPeek (Config.freeByte s.env.free), rdObs s .rxPeek (rxByte s (pastFrame s bc))]

/-- The transactions of `SkipFrame` (42_rx_bus.md R169). -/
def skipTrace (s : State) (bc : Nat) : List Obs :=
  [rdObs s .rxrpH (highByte s.dev.rxRp), rdObs s .rxrpL (lowByte s.dev.rxRp),
   wrObs s .rxrpH (BitVec.ofNat 8 (pastFrame s bc / 256)), wrObs s .rxrpL (BitVec.ofNat 8 (pastFrame s bc))]

/-- What a skipped frame leaves: as `consumed`, with the holding byte as it was written. -/
def skipped (bc : Nat) (s : State) : State :=
  { consumed bc s with dev := { (consumed bc s).dev with rxrpHold := BitVec.ofNat 8 (pastFrame s bc / 256) } }

/-! ## Frames in the receive ring (DMA; 43_dma_ring.md R208) -/

/-- `W0` of the `j`th descriptor from `rx_idx` on, going round the ring. -/
def rxSlot (s : State) (j : Nat) : Nat := (s.bufs.rxIdx + j) % s.cfg.rxDescN
def rxW0 (s : State) (j : Nat) : Word := hread32 s (rxdAddr s (rxSlot s j))

/-- The walk meets `used` CPU-owned descriptors. -/
def CpuOwned (s : State) (used : Nat) : Prop :=
  s.cfg.variant = .dma ∧ s.bufs.rxIdx < s.cfg.rxDescN ∧ used ≤ s.cfg.rxDescN ∧
  (∀ j, j < used → descOwn (rxW0 s j) = false) ∧ (used < s.cfg.rxDescN → descOwn (rxW0 s used) = true)

/-- The first complete frame takes `seg` of them. -/
def FirstFrame (s : State) (used seg : Nat) : Prop :=
  CpuOwned s used ∧ 0 < seg ∧ seg ≤ used ∧
  (∀ j, j + 1 < seg → rxDescLs (rxW0 s j) = false) ∧ rxDescLs (rxW0 s (seg - 1)) = true

/-- The complete frames the walk meets. -/
def framesMet (s : State) (used : Nat) : Nat := ((List.range used).filter (fun j => rxDescLs (rxW0 s j))).length

/-- The first frame's length without CRC. -/
def firstLength (s : State) (seg : Nat) : Nat := rxDescFl (rxW0 s (seg - 1)) - s.cfg.crcLen

/-- The bytes that segment `k` of `seg` copies of `cl` bytes. -/
def segmentTake (c : Config) (seg cl k : Nat) : Nat := segmentBytes c k seg (cl - k * c.dmaBufSize)

/-- Segment `k` is copied to its place after `dst`, and its descriptor given back (43_dma_ring.md R210). -/
def takeSegment (s : State) (dst seg cl : Nat) (u : State) (k : Nat) : State :=
  hwrite32 (rxdAddr s (rxSlot s k)) 0x80000000
    (hwrite (dst + k * s.cfg.dmaBufSize) (hread u (rxBuf s (rxSlot s k)).toNat (segmentTake s.cfg seg cl k)) u)

/-- A descriptor is given back (43_dma_ring.md R211). -/
def giveSegment (s : State) (u : State) (k : Nat) : State := hwrite32 (rxdAddr s (rxSlot s k)) 0x80000000 u

/-- What follows the loop: `rx_idx`, the poll demand, the counts. -/
def ringReported (s : State) (used seg : Nat) (u : State) : State :=
  report (framesMet s used - 1) (used - seg) (pollRx { u with bufs.rxIdx := rxSlot s seg })

/-! ## Frames to send (DMA; 45_mac_interface.md R273) -/

/-- Segment `j` is copied to its transmit buffer and its length written. -/
def bindSegment (s : State) (src len : Nat) (u : State) (j : Nat) : State :=
  hwrite32 (txdAddr s (txSlot s j) + 4) (BitVec.ofNat 32 (txSegmentLen s.cfg len j))
    (hwrite (txBuf s (txSlot s j)).toNat (hread u (src + j * s.cfg.dmaBufSize) (txSegmentLen s.cfg len j)) u)

/-- Descriptor `j` of `k` is handed over. -/
def handSegment (s : State) (k : Nat) (u : State) (j : Nat) : State :=
  hwrite32 (txdAddr s (txSlot s j)) (0x80100000 ||| (if j = 0 then 0x10000000 else 0) |||
    (if j + 1 = k then 0x60000000 else 0)) u

/-- What `TX_FRAME` leaves. -/
def frameBound (s : State) (src len : Nat) : State :=
  let k := txSegments s.cfg len
  let copied := (List.range k).foldl (bindSegment s src len) s
  let handed := (List.range k).reverse.foldl (handSegment s k) copied
  pollTx { handed with bufs.txIdx := txSlot s k }

/-! ## Construction (70_reset_and_hazards.md R341) -/

/-- What ALLOC answers to the `k`th request of a construction: the answers given, then free values (log 8). -/
def constructionAnswer (answers : List (Option Word)) (k : Nat) : Option Word :=
  answers.getD k (Config.freeAlloc (k - answers.length))

/-- `b` is an answer ALLOC may give to the next request when it has answered `as` to the first requests of these sizes: not null,
4-aligned, inside HMEM, and apart from what it gave before (10_state.md R21; log 8). -/
def MayAnswer (sizes : List Nat) (as : List Word) (b : Word) : Prop :=
  b ≠ 0 ∧ b.toNat % 4 = 0 ∧ b.toNat + sizes.getD as.length 0 ≤ 2 ^ 32 ∧
  ∀ j, j < as.length →
    b.toNat + sizes.getD as.length 0 ≤ (as.getD j 0).toNat ∨ (as.getD j 0).toNat + sizes.getD j 0 ≤ b.toNat

/-- ALLOC may answer `as` to the first requests of these sizes, one after the other. -/
def Admitted (sizes : List Nat) (as : List Word) : Prop :=
  as.length ≤ sizes.length ∧ ∀ k, k < as.length → MayAnswer sizes (as.take k) (as.getD k 0)

/-! ## Memory frames -/

/-- Every byte of HMEM outside the `n` bytes at `a` reads as before. -/
def SameMemoryExcept (a n : Nat) (s t : State) : Prop :=
  ∀ b, (∀ i, i < n → b % hmemSize ≠ (a + i) % hmemSize) → hbyte t b = hbyte s b

end Sys2Proof.Machine
end

