-- ==== Sys2Proof/Certificates/Slice0/Obligations.lean ====
section
/-! DEFINITION. The statements for the provers, in the order of the spec's files. -/

section

open Sys2Proof Sys2Proof.Machine

/-! ## Encoding (30_encoding.md) -/

/-- The command words of the spec's own examples (REG_RD 0x28, REG_WR 0x7F 0x81, PHY_WR 1 0 0x1200, PHY_RD 1 2 with and
without destination, RX_ALLOC and RX_FRAME 1518, TX_FRAME 60, SET_LINK up, SET_ADDR, GET_ADDR, START) and the frames
0B, 8C 40, 72 and F8 with their data bytes decode to those instructions, under the default opcodes of the table. Rests
on 30_encoding.md R90 to R101; 40_bus_access.md R128; 40_bus_access.md R129; 41_phy_access.md R141; 41_phy_access.md
R142. -/
def Obligations.DecodeExamples : Prop :=
  decodeWord {} 0x04280000 = .ok (.regRd 0x28) ∧ decodeWord {} 0x087F0081 = .ok (.regWr 0x7F 0x81) ∧
  decodeWord {} 0x20201200 = .ok (.phyWr 1 0 0x1200) ∧ decodeWord {} 0x24220001 = .ok (.phyRd 1 2 true) ∧
  decodeWord {} 0x24220000 = .ok (.phyRd 1 2 false) ∧ decodeWord {} 0x340005EE = .ok (.rxAlloc 1518) ∧
  decodeWord {} 0x380005EE = .ok (.rxFrame 1518) ∧ decodeWord {} 0x4000003C = .ok (.txFrame 60) ∧
  decodeWord {} 0x58000000 = .ok .start ∧ decodeWord {} 0x64000001 = .ok (.setLink true) ∧
  decodeWord {} 0x68000000 = .ok .setAddr ∧ decodeWord {} 0x6C000000 = .ok .getAddr ∧
  decodeFrame [0x0B, 0x00] = .ok (.busRegRd 0x0B) ∧ decodeFrame [0x8C, 0x40] = .ok (.busRegWr 0x0C 0x40) ∧
  decodeFrame [0x72] = .ok (.busBlkRd 0x72) ∧ decodeFrame [0x72, 0x01, 0x00, 0x3C] = .ok (.busBlkRd 0x72) ∧
  decodeFrame (0xF8 :: List.replicate 60 0x00) = .ok (.busBlkWr 0x78)

/-- For every instruction, command word or bus frame, and every value of its operand fields, the decoder reads the
encoding of the instruction as that instruction, under the default opcodes and under every assignment of opcodes in
which no two operations share one. That the opcodes are a parameter is R9's; that no two agree is the model's
condition (log 10). Rests on 00_scope.md R9; 30_encoding.md R91 to R101. -/
def Obligations.DecodeOfEncode : Prop :=
  DistinctCodes {} ∧ ∀ (m : OpcodeMap) (i : Instr), DistinctCodes m → decode m (encode m i) = .ok i

/-- The 24 rows have match = op << 26. The decoder, under the default opcodes that the table prints, reads a word as the
operation of a row exactly when (w & mask) = match for that row. No word meets two rows. Rests on 30_encoding.md R96. -/
def Obligations.RowSelection : Prop :=
  opcodeTable.length = 24 ∧ (∀ r ∈ opcodeTable, r.pattern = BitVec.ofNat 32 (r.code * 2 ^ 26)) ∧
  (∀ (w : Word) (r : OpcodeRow), r ∈ opcodeTable →
    (w &&& r.mask = r.pattern ↔ ∃ i, decodeWord {} w = .ok i ∧ i.op = some r.op)) ∧
  (∀ (w : Word) (r r' : OpcodeRow), r ∈ opcodeTable → r' ∈ opcodeTable →
    w &&& r.mask = r.pattern → w &&& r'.mask = r'.pattern → r = r')

/-- A word whose opcode is reserved, or that meets no row of R96 (an unknown opcode or a must-be-0 field that is not 0),
does not decode. When the host writes such a word, or the word of an operation that the variant lacks, while no
operation executes and the instance is not destroyed, the step completes the operation at once: RESULT is
InvalidArgument, RDATA0 and RDATA1 are 0, DONE is 1, one result entry is traced, and nothing else of the state
changes. Every row of R96 has column H, so the fourth condition of the rule never arises. A PHY operation with a PHY
index of 4 or more and an operation in a lifecycle state that does not admit it are refused. Formalises R98. -/
def Obligations.IllegalWords : Prop :=
  (∀ w : Word, (Field.op w).toNat ∈ [0x00, 0x05, 0x06, 0x07, 0x0A, 0x0B, 0x11, 0x12, 0x13] ∨ 0x21 ≤ (Field.op w).toNat →
    decodeWord {} w = .error (.unknownOpcode (Field.op w))) ∧
  (∀ w : Word, (∃ e, decodeWord {} w = .error e) ↔ ∀ r ∈ opcodeTable, w &&& r.mask ≠ r.pattern) ∧
  (∀ (s : State) (w : Word) (rest : List Event), s.agenda = .call w :: rest → s.hctx.pc = .idle →
    s.inst.life ≠ .destroyed →
    ((∃ e, decodeWord s.cfg.opcodes w = .error e) ∨ ∃ i, decodeWord s.cfg.opcodes w = .ok i ∧ i.existsIn s.cfg.variant = false) →
    step s = .next { s with
      agenda := rest
      hif := { s.hif with result := s.cfg.results.invalidArgument, rdata0 := 0, rdata1 := 0, done := true }
      trace := s.trace ++ [.result s.cfg.results.invalidArgument 0 0] }) ∧
  (∀ (s : State) (w : Word) (rest : List Event) (i : Instr), s.agenda = .call w :: rest → s.hctx.pc = .idle →
    s.inst.life ≠ .destroyed → decodeWord s.cfg.opcodes w = .ok i → i.existsIn s.cfg.variant = true →
    (i.wellFormed s.cfg.cregs = false → step s = .refused .phyIndex) ∧
    (i.wellFormed s.cfg.cregs = true → ∀ m, i.op = some m → admitted m s.inst.life = false → step s = .refused .lifecycle))

/-! ## A step and the host interface (10_state.md) -/

/-- When the next thing that happens is the host's write of a command word that decodes to i, the step is exec of i at the
state with that entry taken off; when it is a bus frame that decodes to i, the step is exec of i at that state, in
which a frame of a command byte and two or more data bytes has also set the data phase: how many bytes a block read
clocks in, which bytes a block write drives. When it is an agent's step, the step is that agent's step. A row of the
opcode table placed by withFetchWord runs exactly the instruction the decoder reads from it, where the opcodes are the
table's. Rests on 10_state.md R22; 10_state.md R29; 30_encoding.md R90; 30_encoding.md R99; 30_encoding.md R101. -/
def Obligations.StepRunsTheInstruction : Prop :=
  (∀ (s : State) (w : Word) (rest : List Event) (i : Instr), s.agenda = .call w :: rest →
    decodeWord s.cfg.opcodes w = .ok i → step s = exec i { s with agenda := rest }) ∧
  (∀ (s : State) (bs : List Byte) (rest : List Event) (i : Instr), s.agenda = .frame bs :: rest → decodeFrame bs = .ok i →
    (bs.length ≤ 2 → step s = exec i { s with agenda := rest }) ∧
    (3 ≤ bs.length → step s = exec i { s with
      agenda := rest
      bus := { s.bus with want := bs.length - 1, out := bs.tail } })) ∧
  (∀ (s : State) (a : AgentStep) (rest : List Event), s.agenda = .agent a :: rest →
    step s = agentStep a { s with agenda := rest }) ∧
  (∀ (s : State) (nbits w : Nat) (i : Instr), s.cfg.opcodes = {} → decodeTableWord nbits w = some i →
    step (s.withFetchWord nbits w) = exec i s)

/-- When the host writes the word of an operation that the variant has, with a PHY index in range and in a lifecycle state
that admits it, while HBUSY is 0, the operation is entered in a state in which CW is the word, A0 is ARG0, A1 is ARG1,
every other working register and all scratch is unwritten, DONE is 0, and nothing else has changed. While HBUSY is 1 a
write of CMD is refused (treatment U3); in destroyed it is ignored. ARG0 and ARG1 take what is written; CMD reads 0
and the others what they hold; any other offset is refused (treatment U4). The offsets and the opcodes are parameters,
no two alike (log 10). The model's choice, where no rule speaks: a write of RESULT, RDATA0, RDATA1 or HSTAT is
ignored, and a read leaves what was read in the model's own hostData and changes nothing else (log 30). Rests on
10_state.md R25; 10_state.md R29; 20_memory.md R64; 20_memory.md R67; 60_exceptions.md R321;
93_implementation_defined.md U3; 93_implementation_defined.md U4. -/
def Obligations.HostRegisters : Prop :=
  (∀ (s : State) (i : Instr) (m : Op), i.op = some m → DistinctCodes s.cfg.opcodes → s.hctx.pc = .idle →
    i.existsIn s.cfg.variant = true → i.wellFormed s.cfg.cregs = true → admitted m s.inst.life = true →
    hostWrite s.cfg.hifs.cmd (encodeWord s.cfg.opcodes i) s = opEntry .H m { s with
      hif := { s.hif with done := false }
      hctx := { x := { cw := some (encodeWord s.cfg.opcodes i), a0 := some s.hif.arg0, a1 := some s.hif.arg1 }, sc := {},
                pc := .idle } }) ∧
  (∀ (s : State) (w : Word), s.inst.life ≠ .destroyed → s.hctx.pc ≠ .idle →
    hostWrite s.cfg.hifs.cmd w s = .refused .cmdWhileBusy) ∧
  (∀ (s : State) (w : Word), s.inst.life = .destroyed → hostWrite s.cfg.hifs.cmd w s = .next s) ∧
  (({} : HifMap).all = [0x00, 0x04, 0x08, 0x0C, 0x10, 0x14, 0x18] ∧ ({} : HifMap).all.Nodup) ∧
  (∀ (s : State) (m : HifMap) (v : Word), m = s.cfg.hifs → m.all.Nodup →
    hostWrite m.arg0 v s = .next { s with hif.arg0 := v } ∧ hostWrite m.arg1 v s = .next { s with hif.arg1 := v } ∧
    (∀ off ∈ [m.result, m.rdata0, m.rdata1, m.hstat], hostWrite off v s = .next s) ∧
    hostRead m.cmd s = .next { s with hif.hostData := 0 } ∧
    hostRead m.arg0 s = .next { s with hif.hostData := s.hif.arg0 } ∧
    hostRead m.arg1 s = .next { s with hif.hostData := s.hif.arg1 } ∧
    hostRead m.result s = .next { s with hif.hostData := s.hif.result } ∧
    hostRead m.rdata0 s = .next { s with hif.hostData := s.hif.rdata0 } ∧
    hostRead m.rdata1 s = .next { s with hif.hostData := s.hif.rdata1 } ∧
    hostRead m.hstat s = .next { s with hif.hostData := hstat s } ∧
    (∀ off, off ∉ m.all → hostWrite off v s = .refused .hifOffset ∧ hostRead off s = .refused .hifOffset))

/-- Bit 0 is 1 exactly while HCTX is not idle; bit 1 is DONE; bits 4:2 are the lifecycle state (0 to 5 in the order of the
table, so never 6 or 7); bit 5 LINK; bit 6 WAKE; bit 7 is 1 exactly when the worker is draining; bit 8 is 1 exactly
when FRAMES_REMAIN is not 0; bit 9 PAUSE; bit 10 DO_FC; bit 11 IRQ_PEND; bit 12 IRQ_EN; bits 31:13 are 0. Formalises
R30. -/
def Obligations.StatusRegister : Prop :=
  ∀ s : State,
    (hstat s).getLsbD 0 = decide (s.hctx.pc ≠ .idle) ∧ (hstat s).getLsbD 1 = s.hif.done ∧
    ((hstat s).extractLsb' 2 3).toNat = (match s.inst.life with
      | .uninitialized => 0 | .initialized => 1 | .started => 2 | .stopped => 3 | .deinitialized => 4 | .destroyed => 5) ∧
    (hstat s).getLsbD 5 = s.flags.link ∧ (hstat s).getLsbD 6 = s.flags.wake ∧
    (hstat s).getLsbD 7 = decide (s.wstate = .draining) ∧ (hstat s).getLsbD 8 = decide (s.flags.framesRemain ≠ 0) ∧
    (hstat s).getLsbD 9 = s.flags.pause ∧ (hstat s).getLsbD 10 = s.flags.doFc ∧
    (hstat s).getLsbD 11 = irqPending s ∧ (hstat s).getLsbD 12 = s.flags.irqEn ∧
    (hstat s).extractLsb' 13 19 = 0

/-! ## Controller registers and ports (10_state.md R33 to R37; 20_memory.md R66, R78 to R80) -/

/-- With no software reset in progress: the storage registers read what they hold, the identity registers the attached
controller's identity (the model's parameter, log 12), the address bytes the station address register, RXRP_L/H the
cursor, PHY_CMD only SEL and BUSY, and none of these reads changes anything. RX_PEEK returns the latch and reloads it
with the byte at the cursor. RX_PEEKN returns the byte at the cursor; so does RX_DATA, which moves the cursor on round
the ring, and is refused where that would wrap with pointer auto-return off (treatment U13). NCR shows its reset bit
and any value in its other bits. During a reset every register but NCR reads any value. That TX_DATA, which is
write-only, reads any value is the model's choice (log 15). Rests on 10_state.md R33; 10_state.md R34; 20_memory.md
R66; 20_memory.md R78; 20_memory.md R79; 45_mac_interface.md R254; 93_implementation_defined.md U13, U19. -/
def Obligations.RegisterReads : Prop :=
  ∀ s : State,
    (resetting s = false →
      devRead .txCtrl s = .ok (s.dev.txCtrl, s) ∧ devRead .rxCtrl s = .ok (s.dev.rxCtrl, s) ∧
      devRead .fcCtrl s = .ok (s.dev.fcCtrl, s) ∧ devRead .phyAddr s = .ok (s.dev.phyAddr, s) ∧
      devRead .phyDatL s = .ok (s.dev.phyDatL, s) ∧ devRead .phyDatH s = .ok (s.dev.phyDatH, s) ∧
      devRead (.par 0) s = .ok (s.dev.par.b0, s) ∧ devRead (.par 1) s = .ok (s.dev.par.b1, s) ∧
      devRead (.par 2) s = .ok (s.dev.par.b2, s) ∧ devRead (.par 3) s = .ok (s.dev.par.b3, s) ∧
      devRead (.par 4) s = .ok (s.dev.par.b4, s) ∧ devRead (.par 5) s = .ok (s.dev.par.b5, s) ∧
      devRead .vidL s = .ok (s.cfg.ctrlVid.extractLsb' 0 8, s) ∧ devRead .vidH s = .ok (s.cfg.ctrlVid.extractLsb' 8 8, s) ∧
      devRead .pidL s = .ok (s.cfg.ctrlPid.extractLsb' 0 8, s) ∧ devRead .pidH s = .ok (s.cfg.ctrlPid.extractLsb' 8 8, s) ∧
      devRead .ptrCtrl s = .ok (s.dev.ptrCtrl, s) ∧
      devRead .rxrpL s = .ok (s.dev.rxRp.extractLsb' 0 8, s) ∧ devRead .rxrpH s = .ok (s.dev.rxRp.extractLsb' 8 8, s) ∧
      devRead .txLenL s = .ok (s.dev.txLenL, s) ∧ devRead .txLenH s = .ok (s.dev.txLenH, s) ∧
      devRead .intStat s = .ok (s.dev.intStat, s) ∧ devRead .intMask s = .ok (s.dev.intMask, s) ∧
      devRead .phyCmd s = .ok ((if s.dev.phySel then 0x08 else 0) ||| (if s.dev.phyOp.isSome then 0x01 else 0), s) ∧
      devRead .rxPeek s = .ok (s.dev.rxLatch, { s with dev.rxLatch := rxByte s s.dev.rxRp.toNat }) ∧
      (s.dev.rxRp.toNat < s.cfg.rxMemEnd →
        devRead .rxPeekN s = .ok (rxByte s s.dev.rxRp.toNat, s) ∧
        (s.dev.rxRp.toNat + 1 < s.cfg.rxMemEnd →
          devRead .rxData s = .ok (rxByte s s.dev.rxRp.toNat, moveCursor (s.dev.rxRp.toNat + 1) s)) ∧
        (s.dev.rxRp.toNat + 1 = s.cfg.rxMemEnd → s.dev.intMask.getLsbD 7 = true →
          devRead .rxData s = .ok (rxByte s s.dev.rxRp.toNat, moveCursor s.cfg.rxMemStart s)) ∧
        (s.dev.rxRp.toNat + 1 = s.cfg.rxMemEnd → s.dev.intMask.getLsbD 7 = false →
          devRead .rxData s = .error .wrapWithoutAutoReturn))) ∧
    devRead .ncr s = .ok ((Config.freeByte s.env.free &&& 0xFE) ||| (s.dev.ncr &&& 0x01),
      { s with env.free := s.env.free + 1 }) ∧
    (resetting s = false → devRead .txData s = .ok (Config.freeByte s.env.free, { s with env.free := s.env.free + 1 })) ∧
    (resetting s = true → ∀ r : CReg, r ≠ .ncr → ∀ b t, devReadRaw r s = .ok (b, t) →
      devRead r s = .ok (Config.freeByte t.env.free, { t with env.free := t.env.free + 1 }))

/-- The storage registers take the byte. A write to a read-only register or port is ignored. RXRP_H sets only the holding
byte; RXRP_L moves the cursor to the address it forms with the holding byte when that lies in the ring and is refused
otherwise (treatment U12); the cursor's move leaves the latch unspecified. A 1 in NCR.RST stays set until the reset
completes. A write of TX_DATA appends the byte to the staging memory. PHY_CMD without a command bit changes only SEL;
with both command bits, or one and SEL = 0, it is refused; with one and SEL = 1 it starts a transaction latched from
the address and data registers, or is refused while one is in flight (U6). TX_CTRL, PTR_CTRL, INT_STAT and INT_MASK
have statements of their own. Two readings of the model's: PHY_ADDR, PHY_DATL and PHY_DATH take a write while BUSY = 1
too (log 14), and a write of 0 to NCR.RST cancels nothing (log 13). Rests on 10_state.md R33; 10_state.md R34;
10_state.md R37; 20_memory.md R66; 20_memory.md R80; 41_phy_access.md R146; 93_implementation_defined.md U5, U6, U12. -/
def Obligations.RegisterWrites : Prop :=
  ∀ (s : State) (b : Byte),
    devWrite .rxCtrl b s = .ok { s with dev.rxCtrl := b } ∧ devWrite .fcCtrl b s = .ok { s with dev.fcCtrl := b } ∧
    devWrite .phyAddr b s = .ok { s with dev.phyAddr := b } ∧ devWrite .phyDatL b s = .ok { s with dev.phyDatL := b } ∧
    devWrite .phyDatH b s = .ok { s with dev.phyDatH := b } ∧ devWrite .txLenL b s = .ok { s with dev.txLenL := b } ∧
    devWrite .txLenH b s = .ok { s with dev.txLenH := b } ∧
    devWrite (.par 0) b s = .ok { s with dev.par.b0 := b } ∧ devWrite (.par 1) b s = .ok { s with dev.par.b1 := b } ∧
    devWrite (.par 2) b s = .ok { s with dev.par.b2 := b } ∧ devWrite (.par 3) b s = .ok { s with dev.par.b3 := b } ∧
    devWrite (.par 4) b s = .ok { s with dev.par.b4 := b } ∧ devWrite (.par 5) b s = .ok { s with dev.par.b5 := b } ∧
    (∀ r ∈ [CReg.vidL, .vidH, .pidL, .pidH, .rxPeek, .rxPeekN, .rxData], devWrite r b s = .ok s) ∧
    devWrite .rxrpH b s = .ok { s with dev.rxrpHold := b } ∧
    (∀ a, a = b.toNat + 256 * s.dev.rxrpHold.toNat →
      (s.cfg.rxMemStart ≤ a ∧ a < s.cfg.rxMemEnd → devWrite .rxrpL b s = .ok (moveCursor a s)) ∧
      (¬(s.cfg.rxMemStart ≤ a ∧ a < s.cfg.rxMemEnd) → devWrite .rxrpL b s = .error .cursorOutsideRing)) ∧
    (∀ a, (moveCursor a s).dev.rxRp = BitVec.ofNat 16 a ∧ (moveCursor a s).dev.rxLatch = Config.freeByte s.env.free) ∧
    devWrite .ncr b s = .ok { s with dev.ncr := b ||| (s.dev.ncr &&& 0x01) } ∧
    devWrite .txData b s = .ok { s with dev.txStage := s.dev.txStage ++ [b] } ∧
    (b.getLsbD 1 = false → b.getLsbD 2 = false → devWrite .phyCmd b s = .ok { s with dev.phySel := b.getLsbD 3 }) ∧
    (b.getLsbD 1 = true → b.getLsbD 2 = true → devWrite .phyCmd b s = .error .phyCmdReserved) ∧
    (b.getLsbD 1 ≠ b.getLsbD 2 → b.getLsbD 3 = false → devWrite .phyCmd b s = .error .phyCmdReserved) ∧
    (b.getLsbD 1 ≠ b.getLsbD 2 → b.getLsbD 3 = true → s.dev.phyOp.isSome = true →
      devWrite .phyCmd b s = .error .phyCmdWhileBusy) ∧
    (b.getLsbD 1 ≠ b.getLsbD 2 → b.getLsbD 3 = true → s.dev.phyOp = none →
      devWrite .phyCmd b s = .ok { s with dev := { s.dev with
        phySel := true
        phyOp := some ⟨b.getLsbD 1, BitVec.ofNat 5 (s.dev.phyAddr.toNat / 64), s.dev.phyAddr.extractLsb' 0 5,
          halfOf s.dev.phyDatL s.dev.phyDatH⟩ } })

/-- Under BUS the registers of the register table exist, at the table's indices by default, under DMA only the PHY group,
0x0B to 0x0E by default. Where no two registers share an index, an access by the index of a register that exists is an
access to that register. A read of any other index returns any value and changes nothing else; a write of it has no
effect. That the indices are a parameter is R33's; that no two agree is the model's condition (log 10). Rests on
10_state.md R32; 10_state.md R33; 20_memory.md R67; 40_bus_access.md R132. -/
def Obligations.ReservedIndices : Prop :=
  CReg.all.map (CReg.index {}) = [0x00, 0x02, 0x05, 0x0A, 0x0B, 0x0C, 0x0D, 0x0E, 0x10, 0x11, 0x12, 0x13, 0x14, 0x15, 0x28, 0x29,
    0x2A, 0x2B, 0x55, 0x70, 0x71, 0x72, 0x74, 0x75, 0x78, 0x7C, 0x7D, 0x7E, 0x7F] ∧
  DistinctRegs {} ∧
  (∀ (c : Config) (i : BitVec 7), (CReg.ofIndex c i).isSome = true ↔
    ∃ r : CReg, r.index c.cregs = i ∧ (c.variant = .bus ∨ r ∈ [CReg.phyCmd, .phyAddr, .phyDatL, .phyDatH])) ∧
  (∀ (s : State) (r : CReg) (b : Byte), DistinctRegs s.cfg.cregs →
    s.cfg.variant = .bus ∨ r ∈ [CReg.phyCmd, .phyAddr, .phyDatL, .phyDatH] →
    devReadIdx (r.index s.cfg.cregs) s = devRead r s ∧ devWriteIdx (r.index s.cfg.cregs) b s = devWrite r b s) ∧
  (∀ (s : State) (i : BitVec 7) (b : Byte), CReg.ofIndex s.cfg i = none →
    devReadIdx i s = .ok (Config.freeByte s.env.free, { s with env.free := s.env.free + 1 }) ∧
    devWriteIdx i b s = .ok s)

/-- A block read of n bytes from RX_PEEKN delivers the n bytes of the ring from the cursor on and changes nothing; from
RX_DATA it delivers the same and advances the cursor by n round the ring, which leaves the latch unspecified; with
pointer auto-return off a read that would wrap is refused (treatment U13). RST_RX puts both cursors at the start, with
0x00 there, and PTR_CTRL's two low bits read 0 at once; RST_TX empties the staging memory. A glitch moves the cursor
anywhere in the ring. A block transfer carries 1 to 65535 bytes; the refusal of any other number is the model's choice
(log 7). That a moved cursor ends every record of a valid header, at the access itself, is too (log 21). Rests on
20_memory.md R65; 20_memory.md R66; 20_memory.md R79; 20_memory.md R80; 93_implementation_defined.md U13. -/
def Obligations.ReceivePorts : Prop :=
  (∀ (s : State) (n : Nat), resetting s = false → 1 ≤ n → n ≤ 65535 → CursorsInRing s → s.dev.intMask.getLsbD 7 = true →
    ∃ bytes : List Byte, bytes.length = n ∧
      (∀ i, i < n → bytes.getD i 0 = Cells.get s.dev.rxMem (s.cfg.rxMemStart +
        (s.dev.rxRp.toNat - s.cfg.rxMemStart + i) % (s.cfg.rxMemEnd - s.cfg.rxMemStart))) ∧
      devBlockRead .rxPeekN n s = .ok (bytes, s) ∧
      ∃ t, devBlockRead .rxData n s = .ok (bytes, t) ∧
        t.dev = { s.dev with
          rxRp := t.dev.rxRp, rxLatch := Config.freeByte s.env.free } ∧
        t.dev.rxRp.toNat = s.cfg.rxMemStart +
          (s.dev.rxRp.toNat - s.cfg.rxMemStart + n) % (s.cfg.rxMemEnd - s.cfg.rxMemStart) ∧
        t = { s with dev := t.dev, env.free := s.env.free + 1, bufs.hdrValid := [] }) ∧
  (∀ (s : State) (n : Nat), 1 ≤ n → n ≤ 65535 → s.dev.intMask.getLsbD 7 = false →
    (s.cfg.rxMemEnd < s.dev.rxRp.toNat + n → devBlockRead .rxPeekN n s = .error .wrapWithoutAutoReturn) ∧
    (s.cfg.rxMemEnd ≤ s.dev.rxRp.toNat + n → devBlockRead .rxData n s = .error .wrapWithoutAutoReturn)) ∧
  (∀ (s : State) (b : Byte), ∃ t, devWrite .ptrCtrl b s = .ok t ∧ t.dev.ptrCtrl = b &&& 0xFC ∧
    (b.getLsbD 0 = true → CursorsInRing s → Memory.wf s = true →
      t.dev.rxRp.toNat = s.cfg.rxMemStart ∧ t.dev.rxWp.toNat = s.cfg.rxMemStart ∧
      Cells.get t.dev.rxMem s.cfg.rxMemStart = 0 ∧
      (∀ a, a ≠ s.cfg.rxMemStart → Cells.get t.dev.rxMem a = Cells.get s.dev.rxMem a)) ∧
    (b.getLsbD 0 = false → t.dev.rxRp = s.dev.rxRp ∧ t.dev.rxWp = s.dev.rxWp ∧ t.dev.rxMem = s.dev.rxMem ∧
      t.dev.rxLatch = s.dev.rxLatch) ∧
    (b.getLsbD 1 = true → t.dev.txStage = []) ∧ (b.getLsbD 1 = false → t.dev.txStage = s.dev.txStage)) ∧
  (∀ (s : State) (a : BitVec 16), s.cfg.variant = .bus → inRing s.cfg a.toNat = true →
    glitch a s = { s with
      dev := { s.dev with rxRp := a, rxLatch := Config.freeByte s.env.free }
      env.free := s.env.free + 1
      bufs.hdrValid := [] }) ∧
  (∀ (s : State) (n : Nat) (bs : List Byte), n = 0 ∨ 65535 < n → bs.length = n →
    devBlockRead .rxPeekN n s = .error .blockFrameForm ∧ devBlockRead .rxData n s = .error .blockFrameForm ∧
    devBlockWrite .txData bs s = .error .blockFrameForm)

/-- A block write of 1 to 65535 bytes to TX_DATA appends them to the staging memory. A write of TX_CTRL with TXREQ = 1
while TXREQ reads 0 latches as the frame the first TXLEN bytes of the staging memory, TXLEN being {TXLEN_H, TXLEN_L},
with bytes of any value beyond what was staged, empties the staging memory and sets TXREQ; while TXREQ reads 1 a write
of TX_CTRL latches nothing, and a 0 cancels nothing (the model's reading, log 13). Nothing else changes. While TXREQ
reads 1 TxComplete clears it, sends the latched frame to the wire once and may set causes 5:1 of INT_STAT; under
LOOPBACK it also puts that frame on offer with CRC_LEN bytes of any value after it, status 0x00. While TXREQ reads 0
it changes nothing. Rests on 20_memory.md R80; 10_state.md R33; 10_state.md R37; 43_dma_ring.md R221;
45_mac_interface.md R272. -/
def Obligations.TransmitStaging : Prop :=
  (∀ (s : State) (bytes : List Byte), bytes ≠ [] → bytes.length ≤ 65535 →
    devBlockWrite .txData bytes s = .ok { s with dev.txStage := s.dev.txStage ++ bytes }) ∧
  (∀ (s : State) (b : Byte) (n : Nat), b.getLsbD 0 = true → s.dev.txCtrl.getLsbD 0 = false →
    n = s.dev.txLenL.toNat + 256 * s.dev.txLenH.toNat →
    ∃ frame k, devWrite .txCtrl b s = .ok { s with
        dev := { s.dev with txLatched := some frame, txStage := [], txCtrl := b }
        env.free := s.env.free + k } ∧
      frame.length = n ∧ frame.take s.dev.txStage.length = s.dev.txStage.take n ∧
      (n ≤ s.dev.txStage.length → k = 0)) ∧
  (∀ (s : State) (b : Byte), s.dev.txCtrl.getLsbD 0 = true →
    devWrite .txCtrl b s = .ok { s with dev.txCtrl := b ||| 0x01 }) ∧
  (∀ (s : State) (frame : List Byte) (causes : Byte), s.cfg.variant = .bus →
    (s.dev.txCtrl.getLsbD 0 = false → agentStep (.txComplete causes) s = .next s) ∧
    (s.dev.txCtrl.getLsbD 0 = true → s.dev.txLatched = some frame →
      ∃ t, agentStep (.txComplete causes) s = .next t ∧
        t.dev = { s.dev with
          txCtrl := s.dev.txCtrl &&& 0xFE, txLatched := none, intStat := s.dev.intStat ||| (causes &&& 0x3E) } ∧
        t.trace = s.trace ++ [.sent frame] ∧
        (s.cfg.loopback = false → t.env = s.env) ∧
        (s.cfg.loopback = true → ∃ crc : List Byte, crc.length = s.cfg.crcLen ∧
          t.env = { s.env with offers := s.env.offers ++ [(frame ++ crc, 0x00)], free := s.env.free + s.cfg.crcLen }) ∧
        t.flags = { s.flags with irqPend := t.flags.irqPend } ∧
        t = { s with dev := t.dev, trace := t.trace, env := t.env, flags := t.flags }))

/-- A write of INT_STAT clears exactly the bits written 1 and a write of INT_MASK replaces it. Either write, a cause that
DEV sets, a frame that arrives (INT_STAT.PR, or the causes of a drop), and a transmission that completes leave
IRQ_PEND 1 exactly when it was 1 or when IRQ_EN is 1 and the pin went from inactive to active in this step; the pin is
active exactly when INT_STAT & INT_MASK & 0x3F is not 0. No other flag changes; the two writes and the causes change
nothing beside. Rests on 10_state.md R28; 10_state.md R33; 10_state.md R37; 20_memory.md R77; 60_exceptions.md R311. -/
def Obligations.InterruptPin : Prop :=
  ∀ s : State,
    (∀ t, (∃ b : Byte, devWrite .intStat b s = .ok t ∨ devWrite .intMask b s = .ok t ∨ t = setCauses b s ∨
        (∃ frame st, agentStep (.frameArrive frame st b) s = .next t) ∨ agentStep (.txComplete b) s = .next t) →
      t.flags = { s.flags with irqPend := t.flags.irqPend } ∧
      (t.flags.irqPend = true ↔ s.flags.irqPend = true ∨
        (s.flags.irqEn = true ∧ s.dev.intStat &&& s.dev.intMask &&& 0x3F = 0 ∧
          t.dev.intStat &&& t.dev.intMask &&& 0x3F ≠ 0))) ∧
    (∀ t, (∃ b : Byte, devWrite .intStat b s = .ok t ∨ devWrite .intMask b s = .ok t ∨ t = setCauses b s) →
      t = { s with dev := { s.dev with intStat := t.dev.intStat, intMask := t.dev.intMask }, flags := t.flags }) ∧
    (∀ (b : Byte) t, devWrite .intStat b s = .ok t →
      t.dev.intMask = s.dev.intMask ∧ ∀ i, t.dev.intStat.getLsbD i = (s.dev.intStat.getLsbD i && !b.getLsbD i)) ∧
    (∀ (b : Byte) t, devWrite .intMask b s = .ok t → t.dev.intMask = b ∧ t.dev.intStat = s.dev.intStat) ∧
    (∀ b : Byte, s.cfg.variant = .bus → (setCauses b s).dev.intStat = s.dev.intStat ||| (b &&& 0x3E) ∧
      (setCauses b s).dev.intMask = s.dev.intMask)

/-- With no software reset in progress a read of every register but the two write-only poll demands returns what it holds
and changes nothing. A write stores the word, except that bits 1:0 of the ring bases are dropped, DMA_STATUS is
write-1-to-clear, DMA_BUSMODE.SWR once set stays set, and a poll demand makes a suspended fetcher run and changes
nothing else. A write of DMA_OPMODE that sets SR starts the receive fetcher at DMA_RXBASE, one that clears it stops
the fetcher and gives up the frame in flight, which counts as dropped; ST does the same for the transmit fetcher.
dma_irq is (DMA_STATUS & DMA_INTEN & 0xC1) not 0. Two readings of the model's: a write of 0 does not cancel
DMA_BUSMODE.SWR, while one of MAC_FLOWCTRL with FCB = 0 drops a pending FCB (log 13); the count of dropped frames
changes only where a frame in flight is given up (log 23). Rests on 10_state.md R36; 10_state.md R37; 43_dma_ring.md
R200; 43_dma_ring.md R201; 43_dma_ring.md R220; 45_mac_interface.md R274; 70_reset_and_hazards.md R355. -/
def Obligations.MappedRegisters : Prop :=
  ∀ (s : State) (v : Word),
    (resetting s = false →
      mregRead .busMode s = (s.mreg.busMode, s) ∧ mregRead .rxBase s = (s.mreg.rxBase, s) ∧
      mregRead .txBase s = (s.mreg.txBase, s) ∧ mregRead .status s = (s.mreg.status, s) ∧
      mregRead .opMode s = (s.mreg.opMode, s) ∧ mregRead .intEn s = (s.mreg.intEn, s) ∧
      mregRead .macConfig s = (s.mreg.macConfig, s) ∧ mregRead .macFfilt s = (s.mreg.macFfilt, s) ∧
      mregRead .macFlowCtrl s = (s.mreg.macFlowCtrl, s) ∧ mregRead .macAddrHi s = (s.mreg.macAddrHi, s) ∧
      mregRead .macAddrLo s = (s.mreg.macAddrLo, s)) ∧
    mregWrite .rxBase v s = { s with mreg.rxBase := v &&& 0xFFFFFFFC } ∧
    mregWrite .txBase v s = { s with mreg.txBase := v &&& 0xFFFFFFFC } ∧
    (∃ w, mregWrite .status v s = { s with mreg.status := w } ∧
      ∀ i, w.getLsbD i = (s.mreg.status.getLsbD i && !v.getLsbD i)) ∧
    mregWrite .intEn v s = { s with mreg.intEn := v } ∧ mregWrite .macConfig v s = { s with mreg.macConfig := v } ∧
    mregWrite .macFfilt v s = { s with mreg.macFfilt := v } ∧
    mregWrite .macFlowCtrl v s = { s with mreg.macFlowCtrl := v } ∧
    mregWrite .macAddrHi v s = { s with mreg.macAddrHi := v } ∧
    mregWrite .macAddrLo v s = { s with mreg.macAddrLo := v } ∧
    mregWrite .busMode v s = { s with mreg.busMode := v ||| (s.mreg.busMode &&& 1) } ∧
    mregWrite .rxPoll v s = { s with dma.rxState := if s.dma.rxState = .suspended then .running else s.dma.rxState } ∧
    mregWrite .txPoll v s = { s with dma.txState := if s.dma.txState = .suspended then .running else s.dma.txState } ∧
    (∃ d n, mregWrite .opMode v s = { s with mreg.opMode := v, dma := d, dev.rxDropped := n } ∧
      (s.mreg.opMode.getLsbD 1 = false → v.getLsbD 1 = true →
        d.rxState = .running ∧ d.rxCur = s.mreg.rxBase ∧ d.rxInflight = none ∧ n = s.dev.rxDropped) ∧
      (s.mreg.opMode.getLsbD 1 = true → v.getLsbD 1 = false →
        d.rxState = .stopped ∧ d.rxCur = s.dma.rxCur ∧ d.rxInflight = none ∧
        n = s.dev.rxDropped + (if s.dma.rxInflight = none then 0 else 1)) ∧
      (s.mreg.opMode.getLsbD 1 = v.getLsbD 1 →
        d.rxState = s.dma.rxState ∧ d.rxCur = s.dma.rxCur ∧ d.rxInflight = s.dma.rxInflight ∧ n = s.dev.rxDropped) ∧
      (s.mreg.opMode.getLsbD 13 = false → v.getLsbD 13 = true →
        d.txState = .running ∧ d.txCur = s.mreg.txBase ∧ d.txInflight = []) ∧
      (s.mreg.opMode.getLsbD 13 = true → v.getLsbD 13 = false →
        d.txState = .stopped ∧ d.txCur = s.dma.txCur ∧ d.txInflight = []) ∧
      (s.mreg.opMode.getLsbD 13 = v.getLsbD 13 →
        d.txState = s.dma.txState ∧ d.txCur = s.dma.txCur ∧ d.txInflight = s.dma.txInflight)) ∧
    (dmaIrq s.mreg = true ↔ s.mreg.status &&& s.mreg.intEn &&& 0xC1 ≠ 0)

/-! ## Transactions and the register operations (40_bus_access.md) -/

/-- Under BUS a context whose next primitive is a transaction takes the lock when it is free, exchanges the frame and
releases the lock in one step when it holds it, and does nothing while the other context holds it. Under DMA the
access is one step without a lock. Rests on 40_bus_access.md R121; 40_bus_access.md R123; 40_bus_access.md R124;
40_bus_access.md R125. -/
def Obligations.LockSteps : Prop :=
  ∀ (s : State) (c : CtxId) (f : State → Out), ctxAct c s = .bus f →
    (s.cfg.variant = .bus → s.lock = none → agentStep (.ctx c) s = .next { s with lock := some c }) ∧
    (s.cfg.variant = .bus → s.lock = some c → agentStep (.ctx c) s = f { s with lock := none }) ∧
    (s.cfg.variant = .bus → s.lock = some (other c) → agentStep (.ctx c) s = .next s) ∧
    (s.cfg.variant = .dma → agentStep (.ctx c) s = f s)

/-- LockTimeout changes nothing unless the variant is BUS, the context is at a transaction and the other context holds the
lock. Then a host operation other than INIT and DEINIT, at a label outside the re-probe, completes with RESULT =
Timeout, RDATA0 and RDATA1 0, and nothing else changed, the lock included; INIT and DEINIT go on at their error
continuation. Inside the re-probe of RX_COUNT, RX_ALLOC, RX_FRAME or RX_FLUSH, in either context, the operation goes
on: its next step sets FRAMES_REMAIN to 1, the one after logs one line, and the operation ends as it would have. The
transaction is not performed. At B0 and B1 the drainer goes on to its log line. Rests on 40_bus_access.md R122;
42_rx_bus.md R173; 44_drainer.md R233; 45_mac_interface.md R253; 45_mac_interface.md R256; 60_exceptions.md R300. -/
def Obligations.LockTimeouts : Prop :=
  (∀ (s : State) (c : CtxId), s.cfg.variant = .dma ∨ s.lock ≠ some (other c) ∨ (∀ f, ctxAct c s ≠ .bus f) →
    agentStep (.lockTimeout c) s = .next s) ∧
  (∀ (s : State) (m : Op) (l : Label) (f : State → Out), s.cfg.variant = .bus → s.lock = some .W →
    s.hctx.pc = .op m l → opAct .H m l s = .bus f →
    (l ≠ .p0 → l ≠ .p1 → m ≠ .init → m ≠ .deinit →
      ∃ t, agentStep (.lockTimeout .H) s = .next t ∧ Reports s.cfg.results.timeout 0 0 t ∧ OnlyHost s t ∧
        t.trace = s.trace ++ [.result s.cfg.results.timeout 0 0]) ∧
    (m = .init → agentStep (.lockTimeout .H) s =
      .next (goto .H .init .s8 (modSc .H (fun x => { x with err := some .timeout }) s))) ∧
    (m = .deinit → agentStep (.lockTimeout .H) s =
      .next (goto .H .deinit .s0 (modSc .H (fun x => { x with err := some .timeout }) s)))) ∧
  (∀ (s : State) (c : CtxId) (m : Op) (l : Label), s.cfg.variant = .bus → s.lock = some (other c) →
    (ctxOf c s).pc = .op m l → l = .p0 ∨ l = .p1 → m ∈ [Op.rxCount, .rxAlloc, .rxFrame, .rxFlush] →
    ∃ t u, agentStep (.lockTimeout c) s = .next t ∧ t = setPc c (.op m .p2) s ∧
      agentStep (.ctx c) t = .next u ∧ u = setPc c (.op m .p3) { s with flags.framesRemain := 1 } ∧
      agentStep (.ctx c) u = reprobeDone c m { u with log := s.log ++ [⟨c, .reprobeTimeout⟩] }) ∧
  (∀ (s : State) (d : DLabel) (x : LogText), s.cfg.variant = .bus → s.lock = some .H → s.wctx.pc = .drain d →
    (d, x) ∈ [(DLabel.b0, LogText.readIntStatus), (.b1, .clearIntStatus)] →
    agentStep (.lockTimeout .W) s = .next { s with wctx.pc := .drain (.log x) })

/-- Where REG_RD is admitted and nothing stands in its way it completes with Ok, RDATA0 the byte the register read
returned, zero-extended, RDATA1 0: one register read is traced and the rest of the state is what that read left. A
read returns a byte for every register but a block port that would wrap with pointer auto-return off; that form is
refused (treatment U13). Where it moves the cursor, the header of the buffer that the drainer owns stays as valid as
it was: the model's reading (log 21). Rests on 40_bus_access.md R124; 40_bus_access.md R128; 30_encoding.md R105;
10_state.md R29. -/
def Obligations.RegRd : Prop :=
  ∀ (s : State) (reg : BitVec 7), Ready .regRd s →
    (∀ b u, devReadIdx reg s = .ok (b, u) → Answers (exec (.regRd reg) s) s (keepDrainHeader s u) [.regRd reg b] s.cfg.results.ok (zextByte b) 0) ∧
    (∀ e, devReadIdx reg s = .error e → exec (.regRd reg) s = .refused e) ∧
    (reg ≠ s.cfg.cregs.rxPeekN → reg ≠ s.cfg.cregs.rxData → ∃ b u, devReadIdx reg s = .ok (b, u)) ∧
    (s.dev.intMask.getLsbD 7 = true → ∃ b u, devReadIdx reg s = .ok (b, u))

/-- Where REG_WR is admitted and nothing stands in its way it completes with Ok and data 0, 0: one register write is
traced and the rest of the state is what that write left. A write is taken by every register but PHY_CMD (reserved
values, a command while busy) and RXRP_L (a cursor outside the ring), whose forms are refused (treatments U5, U6,
U12); a write to a read-only register or a reserved index still returns Ok. The three PHY registers take a write while
BUSY = 1 too: the model's reading of R146 against treatment U6 (log 14). Where the write moves the cursor, the header
of the buffer that the drainer owns stays as valid as it was: also the model's reading (log 21). Rests on
40_bus_access.md R125; 40_bus_access.md R129; 41_phy_access.md R146; 10_state.md R32; 10_state.md R37; 30_encoding.md
R105; 93_implementation_defined.md U5, U6, U12. -/
def Obligations.RegWr : Prop :=
  ∀ (s : State) (reg : BitVec 7) (d : Byte), Ready .regWr s →
    (∀ u, devWriteIdx reg d s = .ok u → Answers (exec (.regWr reg d) s) s (keepDrainHeader s u) [.regWr reg d] s.cfg.results.ok 0 0) ∧
    (∀ e, devWriteIdx reg d s = .error e → exec (.regWr reg d) s = .refused e) ∧
    (reg ≠ s.cfg.cregs.phyCmd → reg ≠ s.cfg.cregs.rxrpL → ∃ u, devWriteIdx reg d s = .ok u) ∧
    (∀ r ∈ [CReg.vidL, .vidH, .pidL, .pidH, .rxPeek, .rxPeekN, .rxData], DistinctRegs s.cfg.cregs → s.cfg.variant = .bus →
      reg = r.index s.cfg.cregs → devWriteIdx reg d s = .ok s) ∧
    (CReg.ofIndex s.cfg reg = none → devWriteIdx reg d s = .ok s)

/-- With length 0 MEM_RD returns Ok without a transaction; with a null destination and a length it is InvalidArgument,
checked before any transaction. Otherwise one block read of RX_DATA is traced, its bytes stand at A0 on, the receive
side is as the block read left it, no other byte of HMEM changes, and the operation completes with Ok; a destination
that runs past HMEM is refused where its bytes are stored (treatment U11), a block read that the port refuses is
refused by the same name. The header of the buffer that the drainer owns stays as valid as it was: the model's reading
(log 21). Rests on 40_bus_access.md R126; 40_bus_access.md R130; 20_memory.md R63; 20_memory.md R79; 10_state.md R40;
30_encoding.md R105. -/
def Obligations.MemRd : Prop :=
  ∀ (s : State) (len : BitVec 16), Ready .memRd s → s.cfg.variant = .bus →
    (len = 0 → Answers (exec (.memRd len) s) s s [] s.cfg.results.ok 0 0) ∧
    (len ≠ 0 → s.hif.arg0 = 0 → Answers (exec (.memRd len) s) s s [] s.cfg.results.invalidArgument 0 0) ∧
    (len ≠ 0 → s.hif.arg0 ≠ 0 →
      (∀ bytes u, devBlockRead .rxData len.toNat s = .ok (bytes, u) →
        (2 ^ 32 < s.hif.arg0.toNat + len.toNat → exec (.memRd len) s = .refused .outsideRegion) ∧
        (s.hif.arg0.toNat + len.toNat ≤ 2 ^ 32 →
          Answers (exec (.memRd len) s) s (hwrite s.hif.arg0.toNat bytes (keepDrainHeader s u)) [blkRdObs s .rxData bytes]
            s.cfg.results.ok 0 0 ∧
          (Memory.wf s = true → ∀ t, exec (.memRd len) s = .next t →
            SameMemoryExcept s.hif.arg0.toNat len.toNat s t ∧
            ∀ i, i < len.toNat → hbyte t (s.hif.arg0.toNat + i) = bytes.getD i 0))) ∧
      (∀ e, devBlockRead .rxData len.toNat s = .error e → exec (.memRd len) s = .refused e) ∧
      (s.dev.intMask.getLsbD 7 = true → ∃ bytes u, devBlockRead .rxData len.toNat s = .ok (bytes, u)))

/-- With length 0 MEM_WR returns Ok without a transaction; with a null source and a length it is InvalidArgument; a source
that runs past HMEM is refused (treatment U11). Otherwise it completes with Ok, one block write of the bytes at A0 to
TX_DATA is traced, the bytes are appended to the staging memory, and nothing else changes, HMEM included. Rests on
40_bus_access.md R127; 40_bus_access.md R131; 20_memory.md R63; 20_memory.md R80; 10_state.md R40; 30_encoding.md
R105. -/
def Obligations.MemWr : Prop :=
  ∀ (s : State) (len : BitVec 16), Ready .memWr s → s.cfg.variant = .bus →
    (len = 0 → Answers (exec (.memWr len) s) s s [] s.cfg.results.ok 0 0) ∧
    (len ≠ 0 → s.hif.arg0 = 0 → Answers (exec (.memWr len) s) s s [] s.cfg.results.invalidArgument 0 0) ∧
    (len ≠ 0 → s.hif.arg0 ≠ 0 → 2 ^ 32 < s.hif.arg0.toNat + len.toNat → exec (.memWr len) s = .refused .outsideRegion) ∧
    (len ≠ 0 → s.hif.arg0 ≠ 0 → s.hif.arg0.toNat + len.toNat ≤ 2 ^ 32 →
      ∃ bytes : List Byte, bytes.length = len.toNat ∧
        (∀ i, i < len.toNat → bytes.getD i 0 = hbyte s (s.hif.arg0.toNat + i)) ∧
        Answers (exec (.memWr len) s) s { s with dev.txStage := s.dev.txStage ++ bytes } [blkWrObs s .txData bytes]
          s.cfg.results.ok 0 0)

/-- Under BUS each of the four bare frames completes: a register read frame leaves what the register read returned as the
byte the controller drove, for every register but a port that would wrap with pointer auto-return off; a register
write frame writes the register, for every register but PHY_CMD and RXRP_L; a block read frame of RX_PEEKN or RX_DATA
of 1 to 65535 bytes delivers the bytes of the port when auto-return is on; a block write frame of 1 to 65535 bytes to
TX_DATA appends the bytes the block drives. Each traces its one transaction and changes nothing beyond that access and
the byte port. A frame that the access refuses is refused by the same name; under DMA, where there is no bus, all four
are refused. The model's choices: a bare frame takes no lock; a block frame of another length, or of two or more bytes
to a register that is no port of its direction, is refused; a block frame of one byte is the register frame of the
same command byte (log 7). Rests on 20_memory.md R65; 30_encoding.md R99; 30_encoding.md R100; 30_encoding.md R101;
40_bus_access.md R126; 40_bus_access.md R127; 40_bus_access.md R132. -/
def Obligations.BusFrames : Prop :=
  ∀ (s : State) (reg : BitVec 7) (d : Byte) (n : Nat) (m : CRegMap), n = s.bus.want → m = s.cfg.cregs → DistinctRegs m →
    (s.cfg.variant = .bus →
      (reg ≠ m.rxPeekN → reg ≠ m.rxData → ∃ t, exec (.busRegRd reg) s = .next t) ∧
      (reg ≠ m.phyCmd → reg ≠ m.rxrpL → ∃ t, exec (.busRegWr reg d) s = .next t) ∧
      (reg = m.rxPeekN ∨ reg = m.rxData → 1 ≤ n → n ≤ 65535 → s.dev.intMask.getLsbD 7 = true →
        ∃ t, exec (.busBlkRd reg) s = .next t ∧ t.bus.inp.length = n) ∧
      (s.bus.out ≠ [] → s.bus.out.length ≤ 65535 → exec (.busBlkWr m.txData) s = .next { s with
        dev.txStage := s.dev.txStage ++ s.bus.out
        trace := s.trace ++ [.blkWr m.txData s.bus.out] }) ∧
      (∀ b u, devReadIdx reg s = .ok (b, u) →
        exec (.busRegRd reg) s = .next { u with trace := s.trace ++ [.regRd reg b], bus := { s.bus with inp := [b] } }) ∧
      (∀ e, devReadIdx reg s = .error e → exec (.busRegRd reg) s = .refused e) ∧
      (∀ u, devWriteIdx reg d s = .ok u →
        exec (.busRegWr reg d) s = .next { u with trace := s.trace ++ [.regWr reg d] }) ∧
      (∀ e, devWriteIdx reg d s = .error e → exec (.busRegWr reg d) s = .refused e) ∧
      (∀ r ∈ [CReg.rxPeekN, CReg.rxData],
        (∀ bytes u, devBlockRead r n s = .ok (bytes, u) → exec (.busBlkRd (r.index m)) s =
          .next { u with trace := s.trace ++ [.blkRd (r.index m) bytes], bus := { s.bus with inp := bytes } }) ∧
        (∀ e, devBlockRead r n s = .error e → exec (.busBlkRd (r.index m)) s = .refused e) ∧
        (n = 0 ∨ 65535 < n → exec (.busBlkRd (r.index m)) s = .refused .blockFrameForm)) ∧
      (s.bus.out = [] ∨ 65535 < s.bus.out.length → exec (.busBlkWr m.txData) s = .refused .blockFrameForm) ∧
      (reg ≠ m.rxPeekN → reg ≠ m.rxData → n ≠ 1 → exec (.busBlkRd reg) s = .refused .blockFrameForm) ∧
      (reg ≠ m.txData → s.bus.out.length ≠ 1 → exec (.busBlkWr reg) s = .refused .blockFrameForm) ∧
      (n = 1 → ∀ b u, devReadIdx reg s = .ok (b, u) →
        ∃ t, exec (.busBlkRd reg) s = .next t ∧ t.bus.inp = [b] ∧ t.dev = u.dev ∧ t.hmem = s.hmem) ∧
      (n = 1 → ∀ e, devReadIdx reg s = .error e → exec (.busBlkRd reg) s = .refused e) ∧
      (s.bus.out = [d] → ∀ u, devWriteIdx reg d s = .ok u →
        ∃ t, exec (.busBlkWr reg) s = .next t ∧ t.dev = u.dev ∧ t.hmem = s.hmem) ∧
      (s.bus.out = [d] → ∀ e, devWriteIdx reg d s = .error e → exec (.busBlkWr reg) s = .refused e)) ∧
    (s.cfg.variant = .dma → ∀ i ∈ [Instr.busRegRd reg, .busRegWr reg d, .busBlkRd reg, .busBlkWr reg],
      exec i s = .refused .noBusUnderDma)

/-! ## PHY access (41_phy_access.md) -/

/-- With no transaction in flight and no reset in progress, where the device completes the transaction after the command
and j polls, j below the number n of polls in the budget, PHY_WR returns Ok: the trace holds the pre-check read, the
writes of PHY_ADDR, PHY_DATL, PHY_DATH and the command 0x0A in that order, j polls that read busy and one that reads
clear; the PHY register of that index holds the value as the PHY stores it, the address and data registers hold what
was written, BUSY is 0, and nothing else changes. Rests on 41_phy_access.md R141; 41_phy_access.md R143;
41_phy_access.md R144; 41_phy_access.md R146; 41_phy_access.md R147. -/
def Obligations.PhyWrCompletes : Prop :=
  ∀ (s : State) (phy reg : BitVec 5) (v : Half) (n j : Nat),
    Scheduled .phyWr s (schedule (5 * txSteps s.cfg.variant + j * (1 + txSteps s.cfg.variant)) .phyComplete) →
    PhyBudget s.cfg n → j < n → phy.toNat < 4 → s.dev.phyOp = none → resetting s = false →
    Answers (exec (.phyWr phy reg v) s) s
      { s with
        dev := { s.dev with
          phyAddr := BitVec.ofNat 8 (phy.toNat * 64 + reg.toNat)
          phyDatL := v.extractLsb' 0 8
          phyDatH := v.extractLsb' 8 8
          phySel := true
          phyOp := none }
        phyReg := phyStored s.cfg phy reg v s.phyReg
        agenda := [] }
      ([rdObs s .phyCmd (if s.dev.phySel then 0x08 else 0), wrObs s .phyAddr (BitVec.ofNat 8 (phy.toNat * 64 + reg.toNat)),
        wrObs s .phyDatL (v.extractLsb' 0 8), wrObs s .phyDatH (v.extractLsb' 8 8), wrObs s .phyCmd 0x0A] ++
        List.replicate j (rdObs s .phyCmd 0x09) ++ [rdObs s .phyCmd 0x08])
      s.cfg.results.ok 0 0

/-- As for PHY_WR, with the command 0x0C and no data register written before it: PHY_RD returns Ok with RDATA0 the 16-bit
value the PHY gave when the transaction completed, zero-extended, which also stands in the two data registers; nothing
else changes but the address register, SEL, and the agenda. Rests on 41_phy_access.md R142; 41_phy_access.md R143;
41_phy_access.md R144; 41_phy_access.md R146; 41_phy_access.md R147; 30_encoding.md R105. -/
def Obligations.PhyRdCompletes : Prop :=
  ∀ (s : State) (phy reg : BitVec 5) (n j : Nat) (v : Half),
    Scheduled .phyRd s (schedule (3 * txSteps s.cfg.variant + j * (1 + txSteps s.cfg.variant)) .phyComplete) →
    PhyBudget s.cfg n → j < n → phy.toNat < 4 → s.dev.phyOp = none → resetting s = false →
    v = phyLoaded s.cfg phy reg s.phyReg →
    Answers (exec (.phyRd phy reg true) s) s
      { s with
        dev := { s.dev with
          phyAddr := BitVec.ofNat 8 (phy.toNat * 64 + reg.toNat)
          phyDatL := v.extractLsb' 0 8
          phyDatH := v.extractLsb' 8 8
          phySel := true
          phyOp := none }
        agenda := [] }
      ([rdObs s .phyCmd (if s.dev.phySel then 0x08 else 0), wrObs s .phyAddr (BitVec.ofNat 8 (phy.toNat * 64 + reg.toNat)),
        wrObs s .phyCmd 0x0C] ++ List.replicate j (rdObs s .phyCmd 0x09) ++
        [rdObs s .phyCmd 0x08, rdObs s .phyDatL (v.extractLsb' 0 8), rdObs s .phyDatH (v.extractLsb' 8 8)])
      s.cfg.results.ok (BitVec.ofNat 32 v.toNat) 0

/-- Where the device does not complete the transaction, PHY_WR and PHY_RD return Timeout after exactly n polls that read
busy, n being the budget divided by the interval; the registers written before stay written, the transaction stays in
flight with the direction, indices and value latched at the command, and nothing else changes. Rests on
41_phy_access.md R141; 41_phy_access.md R142; 41_phy_access.md R143; 41_phy_access.md R146; 60_exceptions.md R300. -/
def Obligations.PhyTimeout : Prop :=
  ∀ (s : State) (phy reg : BitVec 5) (v : Half) (n : Nat),
    Quiet s → PhyBudget s.cfg n → 0 < n → phy.toNat < 4 → s.dev.phyOp = none → resetting s = false →
    (admitted .phyWr s.inst.life = true →
      Answers (exec (.phyWr phy reg v) s) s
        { s with dev := { s.dev with
          phyAddr := BitVec.ofNat 8 (phy.toNat * 64 + reg.toNat)
          phyDatL := v.extractLsb' 0 8
          phyDatH := v.extractLsb' 8 8
          phySel := true
          phyOp := some ⟨true, phy, reg, v⟩ } }
        ([rdObs s .phyCmd (if s.dev.phySel then 0x08 else 0), wrObs s .phyAddr (BitVec.ofNat 8 (phy.toNat * 64 + reg.toNat)),
          wrObs s .phyDatL (v.extractLsb' 0 8), wrObs s .phyDatH (v.extractLsb' 8 8), wrObs s .phyCmd 0x0A] ++
          List.replicate n (rdObs s .phyCmd 0x09))
        s.cfg.results.timeout 0 0) ∧
    (admitted .phyRd s.inst.life = true →
      Answers (exec (.phyRd phy reg true) s) s
        { s with dev := { s.dev with
          phyAddr := BitVec.ofNat 8 (phy.toNat * 64 + reg.toNat)
          phySel := true
          phyOp := some ⟨false, phy, reg, halfOf s.dev.phyDatL s.dev.phyDatH⟩ } }
        ([rdObs s .phyCmd (if s.dev.phySel then 0x08 else 0), wrObs s .phyAddr (BitVec.ofNat 8 (phy.toNat * 64 + reg.toNat)),
          wrObs s .phyCmd 0x0C] ++ List.replicate n (rdObs s .phyCmd 0x09))
        s.cfg.results.timeout 0 0)

/-- PHY_RD with DV = 0 is InvalidArgument with no access, whether or not a transaction is in flight. PHY_WR and PHY_RD
with a transaction in flight read PHY_CMD once and return InvalidState; the address, data and command registers are
not touched. Rests on 41_phy_access.md R141; 41_phy_access.md R142; 41_phy_access.md R144. -/
def Obligations.PhyPreChecks : Prop :=
  ∀ (s : State) (phy reg : BitVec 5) (v : Half), phy.toNat < 4 →
    (Ready .phyRd s → Answers (exec (.phyRd phy reg false) s) s s [] s.cfg.results.invalidArgument 0 0) ∧
    (Ready .phyRd s → s.dev.phyOp.isSome = true → resetting s = false →
      Answers (exec (.phyRd phy reg true) s) s s [rdObs s .phyCmd (if s.dev.phySel then 0x09 else 0x01)] s.cfg.results.invalidState 0 0) ∧
    (Ready .phyWr s → s.dev.phyOp.isSome = true → resetting s = false →
      Answers (exec (.phyWr phy reg v) s) s s [rdObs s .phyCmd (if s.dev.phySel then 0x09 else 0x01)] s.cfg.results.invalidState 0 0)

/-- With a PHY that is plain storage, PHY_WR of a value that completes within its budget, followed by PHY_RD of the same
register that completes within its budget, with nothing else between, returns that value. Rests on 41_phy_access.md
R149; 10_state.md R38. -/
def Obligations.PhyReadBack : Prop :=
  ∀ (s : State) (phy reg : BitVec 5) (v : Half) (n j k : Nat),
    Scheduled .phyWr s (schedule (5 * txSteps s.cfg.variant + j * (1 + txSteps s.cfg.variant)) .phyComplete) →
    PhyBudget s.cfg n → j < n → k < n → phy.toNat < 4 → s.dev.phyOp = none → resetting s = false →
    s.cfg.phyModel = .plainStorage → Memory.wf s = true →
    ∃ t, exec (.phyWr phy reg v) s = .next t ∧ t.hif.result = s.cfg.results.ok ∧
      ∃ u, exec (.phyRd phy reg true) { t with
          agenda := schedule (3 * txSteps s.cfg.variant + k * (1 + txSteps s.cfg.variant)) .phyComplete } = .next u ∧
        u.hif.result = s.cfg.results.ok ∧ u.hif.rdata0 = BitVec.ofNat 32 v.toNat

/-! ## Receiving under BUS (42_rx_bus.md) -/

/-- The frame length is the byte count less the CRC (0 when it is smaller), the copy length the smaller of that and the
caller's limit; a copy length below MIN_FRAME and a byte count above RX_BUF_SIZE + CRC_LEN are InvalidSize. With the
defaults and the limit MAX_FRAME, counts 64 to 1526 pass, 63 and 1527 fail. Rests on 42_rx_bus.md R168. -/
def Obligations.LengthRules : Prop :=
  (∀ (c : Config) (bc len : Nat),
    (min (bc - c.crcLen) len < c.minFrame ∨ c.maxFrame + c.rxHdrOverhead + c.crcLen < bc → derive c bc len = none) ∧
    (c.minFrame ≤ min (bc - c.crcLen) len → bc ≤ c.maxFrame + c.rxHdrOverhead + c.crcLen →
      derive c bc len = some (bc - c.crcLen, min (bc - c.crcLen) len))) ∧
  (∀ bc, (derive {} bc 1518).isSome = true ↔ 64 ≤ bc ∧ bc ≤ 1526)

/-- Where the byte at the receive cursor is 0, RX_COUNT, RX_ALLOC, RX_FLUSH and the explicit form of RX_FRAME read RX_PEEK
twice, clear FRAMES_REMAIN and return Ok with data 0, 0; only the latch changes beside. Rests on 42_rx_bus.md R164;
42_rx_bus.md R165; 42_rx_bus.md R170; 42_rx_bus.md R171; 42_rx_bus.md R172; 20_memory.md R78. -/
def Obligations.NothingPending : Prop :=
  ∀ (s : State) (len : BitVec 16) (i : Instr) (m : Op), Ready m s → s.cfg.variant = .bus → resetting s = false →
    presence s = 0 →
    (i, m) ∈ [(.rxCount, .rxCount), (.rxAlloc len, .rxAlloc), (.rxFlush, .rxFlush), (.rxFrame len, .rxFrame)] →
    (m = .rxFrame → len ≠ 0 ∧ s.hif.arg0 ≠ 0) →
    Answers (exec i s) s { s with dev.rxLatch := 0, flags.framesRemain := 0 }
      [rdObs s .rxPeek s.dev.rxLatch, rdObs s .rxPeek 0] s.cfg.results.ok 0 0

/-- With a frame at the cursor whose status has no error bit, RX_COUNT peeks its four header bytes and returns Ok with
RDATA0 the byte count and RDATA1 0; only the latch changes. A count of 0 in the header also clears FRAMES_REMAIN.
Rests on 42_rx_bus.md R161; 42_rx_bus.md R164; 42_rx_bus.md R165; 42_rx_bus.md R167; 30_encoding.md R105. -/
def Obligations.RxCount : Prop :=
  ∀ s : State, Ready .rxCount s → FrameAtCursor s → erroneous s.cfg (headerStatus (cursorHeader s)) = false →
    (cursorCount s ≠ 0 → Answers (exec .rxCount s) s (peeked s) (countTrace s) s.cfg.results.ok
      (BitVec.ofNat 32 (cursorCount s)) 0) ∧
    (cursorCount s = 0 → Answers (exec .rxCount s) s (setRemain 0 (peeked s)) (countTrace s) s.cfg.results.ok 0 0)

/-- With an erroneous frame at the cursor, RX_COUNT, RX_ALLOC, RX_FLUSH and the explicit form of RX_FRAME peek its header,
read the cursor, write it moved past the frame round the ring (high byte first), read RX_PEEK twice for FRAMES_REMAIN,
and return Fail with data 0, 0; nothing else changes. Rests on 42_rx_bus.md R164; 42_rx_bus.md R167; 42_rx_bus.md
R169; 42_rx_bus.md R173; 42_rx_bus.md R175. -/
def Obligations.ErroneousFrame : Prop :=
  ∀ (s : State) (len : BitVec 16) (i : Instr) (m : Op), Ready m s → FrameAtCursor s → CursorsInRing s →
    erroneous s.cfg (headerStatus (cursorHeader s)) = true →
    (i, m) ∈ [(.rxCount, .rxCount), (.rxAlloc len, .rxAlloc), (.rxFlush, .rxFlush), (.rxFrame len, .rxFrame)] →
    (m = .rxFrame → len ≠ 0 ∧ s.hif.arg0 ≠ 0) →
    Answers (exec i s) s (skipped (cursorCount s) s)
      (countTrace s ++ skipTrace s (cursorCount s) ++ reprobeTrace s (cursorCount s)) s.cfg.results.fail 0 0

/-- With a presence byte of 2 or more, RX_COUNT, RX_ALLOC, RX_FLUSH and the explicit form of RX_FRAME perform once the
register sequence of STOP, the write of PTR_CTRL with RST_RX and the register sequence of START, log the pointer reset
and return Fail: afterwards both cursors stand at the start of the ring with 0x00 there, reception and interrupts are
enabled, FRAMES_REMAIN is 0, and the lifecycle state and everything else is as before. Rests on 42_rx_bus.md R164;
42_rx_bus.md R166; 42_rx_bus.md R177; 45_mac_interface.md R257; 45_mac_interface.md R258. -/
def Obligations.Recovery : Prop :=
  ∀ (s : State) (len : BitVec 16) (i : Instr) (m : Op), Ready m s → s.cfg.variant = .bus → resetting s = false →
    2 ≤ (presence s).toNat →
    (i, m) ∈ [(.rxCount, .rxCount), (.rxAlloc len, .rxAlloc), (.rxFlush, .rxFlush), (.rxFrame len, .rxFrame)] →
    (m = .rxFrame → len ≠ 0 ∧ s.hif.arg0 ≠ 0) →
    Answers (exec i s) s
      { s with
        dev := { s.dev with
          rxRp := BitVec.ofNat 16 s.cfg.rxMemStart
          rxWp := BitVec.ofNat 16 s.cfg.rxMemStart
          rxLatch := Config.freeByte (s.env.free + 2)
          rxMem := Cells.set (Cells.set (Cells.set s.dev.rxMem s.cfg.rxMemStart 0) s.cfg.rxMemStart 0) s.cfg.rxMemStart 0
          txStage := []
          ptrCtrl := 0
          intStat := s.dev.intStat &&& 0xC0
          intMask := 0x81
          rxCtrl := (s.dev.rxCtrl &&& 0xFE) ||| 0x01 }
        env.free := s.env.free + 3
        bufs.hdrValid := []
        flags := { s.flags with irqEn := true, irqPend := false, framesRemain := 0 }
        log := s.log ++ [⟨.H, .rxPointerReset⟩] }
      ([rdObs s .rxPeek s.dev.rxLatch, rdObs s .rxPeek (presence s)] ++
        [wrObs s .intMask 0x80, rdObs s .rxCtrl s.dev.rxCtrl, wrObs s .rxCtrl (s.dev.rxCtrl &&& 0xFE), wrObs s .ptrCtrl 0x03] ++
        [wrObs s .ptrCtrl 0x01] ++
        [wrObs s .ptrCtrl 0x03, wrObs s .intStat 0x3F, wrObs s .intMask 0x81, rdObs s .rxCtrl (s.dev.rxCtrl &&& 0xFE),
          wrObs s .rxCtrl ((s.dev.rxCtrl &&& 0xFE) ||| 0x01)])
      s.cfg.results.fail 0 0

/-- With a frame at the cursor whose status has no error bit and whose count is not 0: a length that Derive rejects is
InvalidSize; an allocation that ALLOC answers null is NoMemory with RDATA1 the frame length; otherwise the operation
returns Ok with RDATA0 the buffer and RDATA1 the frame length, the buffer of RX_BUF_SIZE bytes, the block's while the
operation writes it, is the host's, its first word holds the copy length and its second the byte count, and its header
is valid. The frame stays pending in every case and nothing else changes but the latch. Rests on 42_rx_bus.md R170;
42_rx_bus.md R168; 42_rx_bus.md R174; 42_rx_bus.md R175; 20_memory.md R61; 30_encoding.md R105. -/
def Obligations.RxAlloc : Prop :=
  ∀ (s : State) (len : BitVec 16), Ready .rxAlloc s → GoodFrame s →
    (derive s.cfg (cursorCount s) len.toNat = none →
      Answers (exec (.rxAlloc len) s) s (peeked s) (countTrace s) s.cfg.results.invalidSize 0 0) ∧
    (∀ rl cl, derive s.cfg (cursorCount s) len.toNat = some (rl, cl) →
      (∀ v, alloc (s.cfg.maxFrame + s.cfg.rxHdrOverhead) .block (peeked s) = (none, v) →
        Answers (exec (.rxAlloc len) s) s v (countTrace s) s.cfg.results.noMemory 0 (BitVec.ofNat 32 rl)) ∧
      (∀ a v, alloc (s.cfg.maxFrame + s.cfg.rxHdrOverhead) .block (peeked s) = (some a, v) →
        Answers (exec (.rxAlloc len) s) s
          { hwrite32 (a.toNat + 4) (BitVec.ofNat 32 (cursorCount s)) (hwrite32 a.toNat (BitVec.ofNat 32 cl) v) with
            bufs.hdrValid := s.bufs.hdrValid ++ [a]
            allocs := v.allocs.map (fun x => if x.addr = a then { x with owner := .host } else x) }
          (countTrace s) s.cfg.results.ok a (BitVec.ofNat 32 rl)))

/-- A null buffer is InvalidArgument before any transaction. Explicit form, with a good frame at the cursor: a length that
Derive rejects is InvalidSize and leaves the frame pending; otherwise the header is peeked. Automatic form, length 0:
the copy length and the byte count are the two words of the buffer's header, and a buffer whose header is not valid is
refused (treatment U14). Then count + 4 bytes of RX_DATA are read, which moves the cursor past the frame, all are
stored in the scratch buffer and the copy length of bytes after the header at A0, FRAMES_REMAIN is re-probed and the
operation returns Ok with the copy length and the frame length. Accesses outside the region an operation was given are
refused (treatment U11): bytes that run past HMEM where they are stored, and in the automatic form a byte count above
what the scratch buffer holds, or a copy length above the byte count or the buffer's size. How valid headers are
recorded and where the automatic form's two numbers are checked is the model's choice (log 11). Rests on 42_rx_bus.md
R171; 42_rx_bus.md R168; 42_rx_bus.md R173; 42_rx_bus.md R174; 42_rx_bus.md R175; 10_state.md R40; 30_encoding.md
R105; 93_implementation_defined.md U11, U14. -/
def Obligations.RxFrameBus : Prop :=
  ∀ (s : State) (len : BitVec 16), Ready .rxFrame s → s.cfg.variant = .bus → CursorsInRing s → BuffersInHmem s →
    s.cfg.maxFrame + s.cfg.rxHdrOverhead + s.cfg.crcLen + 4 ≤ 65535 →
    (s.hif.arg0 = 0 → Answers (exec (.rxFrame len) s) s s [] s.cfg.results.invalidArgument 0 0) ∧
    (s.hif.arg0 ≠ 0 → len ≠ 0 → GoodFrame s →
      (derive s.cfg (cursorCount s) len.toNat = none →
        Answers (exec (.rxFrame len) s) s (peeked s) (countTrace s) s.cfg.results.invalidSize 0 0) ∧
      (∀ rl cl, derive s.cfg (cursorCount s) len.toNat = some (rl, cl) →
        (2 ^ 32 < s.hif.arg0.toNat + cl → exec (.rxFrame len) s = .refused .outsideRegion) ∧
        (s.hif.arg0.toNat + cl ≤ 2 ^ 32 →
          Answers (exec (.rxFrame len) s) s
            (hwrite s.hif.arg0.toNat (((peekBytes (cursorCount s + 4) s).drop 4).take cl)
              (hwrite s.bufs.rxScratch.toNat (peekBytes (cursorCount s + 4) s) (consumed (cursorCount s) s)))
            (countTrace s ++ [blkRdObs s .rxData (peekBytes (cursorCount s + 4) s)] ++ reprobeTrace s (cursorCount s))
            s.cfg.results.ok (BitVec.ofNat 32 cl) (BitVec.ofNat 32 rl)))) ∧
    (∀ cl bc, s.hif.arg0 ≠ 0 → cl = (hread32 s s.hif.arg0.toNat).toNat → bc = (hread32 s (s.hif.arg0.toNat + 4)).toNat →
      (s.hif.arg0 ∉ s.bufs.hdrValid → exec (.rxFrame 0) s = .refused .headerNotValid) ∧
      (s.hif.arg0 ∈ s.bufs.hdrValid → s.cfg.maxFrame + s.cfg.rxHdrOverhead + s.cfg.crcLen < bc →
        exec (.rxFrame 0) s = .refused .outsideRegion) ∧
      (s.hif.arg0 ∈ s.bufs.hdrValid → bc ≤ s.cfg.maxFrame + s.cfg.rxHdrOverhead + s.cfg.crcLen → resetting s = false →
        autoReturn s = true →
        (bc < cl ∨ s.cfg.maxFrame + s.cfg.rxHdrOverhead < cl ∨ 2 ^ 32 < s.hif.arg0.toNat + cl →
          exec (.rxFrame 0) s = .refused .outsideRegion) ∧
        (cl ≤ bc → cl ≤ s.cfg.maxFrame + s.cfg.rxHdrOverhead → s.hif.arg0.toNat + cl ≤ 2 ^ 32 →
          Answers (exec (.rxFrame 0) s) s
            (hwrite s.hif.arg0.toNat (((peekBytes (bc + 4) s).drop 4).take cl)
              (hwrite s.bufs.rxScratch.toNat (peekBytes (bc + 4) s) (consumed bc s)))
            ([blkRdObs s .rxData (peekBytes (bc + 4) s)] ++ reprobeTrace s bc)
            s.cfg.results.ok (BitVec.ofNat 32 cl) (hread32 s (s.hif.arg0.toNat + 4) - BitVec.ofNat 32 s.cfg.crcLen))))

/-- A buffer that ALLOC answers is not null, 4-aligned, inside HMEM, and shares no byte with a live allocation or with the
operand buffer of the operation that HCTX executes; it becomes a live allocation of the size and owner asked for, and
an answer of null allocates nothing. Free removes the buffer. HOST and UP store nothing where a buffer of the block's
stands or past HMEM; elsewhere, apart from an executing operand buffer, exactly the bytes given are stored, and inside
one bytes of any value (treatment U28). Only a delivery buffer that HOST or UP was given is released, and then it is
free. Construction with a broken constraint gives no instance. Otherwise the k-th answer is the environment's, or a
free value where it has none ready; where the first answers are ones ALLOC may give and the next is null, or none
ALLOC may give, exactly those made are freed, the latest first, and there is no instance; where ALLOC may give all of
them there is one, its buffers stand where ALLOC answered, in order, and are the block's, and the rest is as the
construction reset leaves it. The model's choices: that an answer that is none of ALLOC's counts as null and that
answers not ready are free values (log 8), the conditions of configValid that R10 does not give (log 10), and how a
store and an operation that share bytes mix (log 17). Rests on 10_state.md R21; 20_memory.md R74; 20_memory.md R76;
43_dma_ring.md R193; 44_drainer.md R244; 60_exceptions.md R305; 70_reset_and_hazards.md R341;
93_implementation_defined.md U26, U28, U29. -/
def Obligations.Ownership : Prop :=
  (∀ (s t : State) (n : Nat) (o : Owner) (a : Word), alloc n o s = (some a, t) →
    a ≠ 0 ∧ a.toNat % 4 = 0 ∧ a.toNat + n ≤ 2 ^ 32 ∧
    (∀ x ∈ s.allocs, a.toNat + n ≤ x.addr.toNat ∨ x.addr.toNat + x.size ≤ a.toNat) ∧
    (∀ p k, operandBuffer s = (p, k) → k = 0 ∨ a.toNat + n ≤ p ∨ p + k ≤ a.toNat) ∧
    t = { s with allocs := s.allocs ++ [⟨a, n, o⟩], env := t.env }) ∧
  (∀ (s t : State) (n : Nat) (o : Owner), alloc n o s = (none, t) → t = { s with env := t.env }) ∧
  (∀ (s : State) (a : Word), (freeAlloc a s).allocs = s.allocs.filter (fun x => x.addr != a)) ∧
  (∀ (s : State) (a : Word) (bs : List Byte), bs ≠ [] →
    (2 ^ 32 < a.toNat + bs.length ∨ (∃ x ∈ s.allocs, (x.owner = .block ∨ x.owner = .drainer) ∧
        a.toNat < x.addr.toNat + x.size ∧ x.addr.toNat < a.toNat + bs.length) →
      agentStep (.memStore a bs) s = .next s) ∧
    (a.toNat + bs.length ≤ 2 ^ 32 → (∀ x ∈ s.allocs, x.owner = .host ∨ x.owner = .up ∨
        a.toNat + bs.length ≤ x.addr.toNat ∨ x.addr.toNat + x.size ≤ a.toNat) → Memory.wf s = true →
      ∃ t, agentStep (.memStore a bs) s = .next t ∧ SameMemoryExcept a.toNat bs.length s t ∧
        t.allocs = s.allocs ∧ t.dev = s.dev ∧ t.mreg = s.mreg ∧
        (∀ p k, operandBuffer s = (p, k) → ∀ i, i < bs.length → k = 0 ∨ a.toNat + i < p ∨ p + k ≤ a.toNat + i →
          hbyte t (a.toNat + i) = bs.getD i 0))) ∧
  (∀ (s : State) (a : Word),
    ((∃ x ∈ s.allocs, x.addr = a ∧ (x.owner = .host ∨ x.owner = .up)) → agentStep (.release a) s = .next (freeAlloc a s)) ∧
    ((∀ x ∈ s.allocs, x.addr = a → x.owner = .block ∨ x.owner = .drainer) → agentStep (.release a) s = .next s)) ∧
  (∀ (c : Config) (answers : List (Option Word)),
    (configValid c = false → construct c answers = .error .badConfig) ∧
    (configValid c = true → ∀ e, construct c answers = .error e → ∃ freed, e = .noMemory freed ∧
      freed.length < (constructionSizes c).length) ∧
    (configValid c = true → ∀ (sizes : List Nat) (as : List Word), sizes = constructionSizes c → Admitted sizes as →
      (∀ k, k < as.length → constructionAnswer answers k = some (as.getD k 0)) →
      (as.length < sizes.length → (∀ b, constructionAnswer answers as.length = some b → ¬MayAnswer sizes as b) →
        construct c answers = .error (.noMemory as.reverse)) ∧
      (as.length = sizes.length → ∃ s, construct c answers = .ok s ∧
        s.allocs = List.zipWith (fun a n => ⟨a, n, .block⟩) as sizes ∧
        (c.variant = .bus → s.bufs = { rxScratch := as.getD 0 0, txScratch := as.getD 1 0 }) ∧
        (c.variant = .dma → s.bufs = {
          rxRingBase := as.getD 0 0, txRingBase := as.getD 1 0
          rxb := (as.drop 2).take c.rxDescN, txb := as.drop (2 + c.rxDescN) }) ∧
        s = { State.blank c with allocs := s.allocs, bufs := s.bufs, env := s.env })) ∧
    (∀ s, construct c answers = .ok s → s.cfg = c ∧ s.allocs.map Alloc.size = constructionSizes c ∧
      ∀ x ∈ s.allocs, x.owner = .block))

/-- With a good frame at the cursor RX_FLUSH peeks its header, moves the cursor past it round the ring without reading its
data, re-probes FRAMES_REMAIN and returns Ok; nothing else changes. Rests on 42_rx_bus.md R172; 42_rx_bus.md R169;
42_rx_bus.md R173; 42_rx_bus.md R175. -/
def Obligations.RxFlushBus : Prop :=
  ∀ s : State, Ready .rxFlush s → GoodFrame s → CursorsInRing s →
    Answers (exec .rxFlush s) s (skipped (cursorCount s) s)
      (countTrace s ++ skipTrace s (cursorCount s) ++ reprobeTrace s (cursorCount s)) s.cfg.results.ok 0 0

/-- Where RX_ALLOC finds a good frame and no memory, the following RX_FLUSH returns Ok with the cursor advanced by the
byte count + 4 round the ring, and the next RX_COUNT returns 0 when the byte there is 0, or the byte count in the
header there when it is 1 and the frame is not erroneous. Rests on 42_rx_bus.md R176; 42_rx_bus.md R170; 42_rx_bus.md
R172. -/
def Obligations.NeverStuck : Prop :=
  ∀ (s : State) (len : BitVec 16) (rl cl p : Nat) (v : State), Ready .rxAlloc s → GoodFrame s → CursorsInRing s →
    derive s.cfg (cursorCount s) len.toNat = some (rl, cl) →
    alloc (s.cfg.maxFrame + s.cfg.rxHdrOverhead) .block (peeked s) = (none, v) →
    p = s.cfg.rxMemStart + (s.dev.rxRp.toNat + cursorCount s + 4 - s.cfg.rxMemStart) %
      (s.cfg.rxMemEnd - s.cfg.rxMemStart) →
    ∃ t, exec (.rxAlloc len) s = .next t ∧ t.hif.result = s.cfg.results.noMemory ∧ t.dev.rxRp = s.dev.rxRp ∧
      ∃ u, exec .rxFlush t = .next u ∧ u.hif.result = s.cfg.results.ok ∧ u.dev.rxRp.toNat = p ∧
        (rxByte u p = 0 → ∃ w, exec .rxCount u = .next w ∧ w.hif.result = s.cfg.results.ok ∧ w.hif.rdata0 = 0) ∧
        (rxByte u p = 1 → erroneous s.cfg (headerStatus (cursorHeader u)) = false →
          ∃ w, exec .rxCount u = .next w ∧ w.hif.result = s.cfg.results.ok ∧ w.hif.rdata0 = BitVec.ofNat 32 (cursorCount u))

/-- With reception enabled and at least 4 + length + 1 bytes free from the write cursor forward to the read cursor (all of
the ring when the two agree), FrameArrive stores the ready flag 1, the status byte, the length low byte first and the
frame at the write cursor round the ring, advances it by 4 + length, stores 0 there, sets INT_STAT.PR and leaves every
other byte of the ring as it was; IRQ_PEND is latched exactly when IRQ_EN is 1 and PR makes the pin active. Without
room, however long the frame, it counts a dropped frame and stores nothing; with reception disabled it changes
nothing. An echo on offer under LOOPBACK arrives in the same way once reception is enabled, and stays on offer until
then, which is the model's choice (log 25). Rests on 20_memory.md R77; 10_state.md R33; 43_dma_ring.md R221;
45_mac_interface.md R275; 60_exceptions.md R311. -/
def Obligations.FrameArrives : Prop :=
  ∀ (s : State) (frame : List Byte) (st causes : Byte) (size free : Nat), s.cfg.variant = .bus → CursorsInRing s →
    Memory.wf s = true → 1 ≤ frame.length → size = s.cfg.rxMemEnd - s.cfg.rxMemStart →
    free = (if s.dev.rxWp.toNat < s.dev.rxRp.toNat then s.dev.rxRp.toNat - s.dev.rxWp.toNat
      else size - (s.dev.rxWp.toNat - s.dev.rxRp.toNat)) →
    (s.dev.rxCtrl.getLsbD 0 = false → agentStep (.frameArrive frame st causes) s = .next s ∧
      agentStep (.offerArrives causes) s = .next s) ∧
    (s.dev.rxCtrl.getLsbD 0 = true → free < frame.length + 5 →
      ∃ t, agentStep (.frameArrive frame st causes) s = .next t ∧
        t.dev = { s.dev with rxDropped := s.dev.rxDropped + 1, intStat := s.dev.intStat ||| (causes &&& 0x3E) } ∧
        t = { s with dev := t.dev, flags.irqPend := t.flags.irqPend }) ∧
    (s.dev.rxCtrl.getLsbD 0 = true → frame.length + 5 ≤ free →
      ∃ t, agentStep (.frameArrive frame st causes) s = .next t ∧
        t.dev.rxWp.toNat = s.cfg.rxMemStart + (s.dev.rxWp.toNat - s.cfg.rxMemStart + 4 + frame.length) % size ∧
        (∀ i, i < 4 + frame.length → rxByte t (s.cfg.rxMemStart + (s.dev.rxWp.toNat - s.cfg.rxMemStart + i) % size) =
          ([0x01, st, BitVec.ofNat 8 frame.length, BitVec.ofNat 8 (frame.length / 256)] ++ frame).getD i 0) ∧
        rxByte t t.dev.rxWp.toNat = 0 ∧
        (∀ i, 4 + frame.length < i → i < size →
          rxByte t (s.cfg.rxMemStart + (s.dev.rxWp.toNat - s.cfg.rxMemStart + i) % size) =
          rxByte s (s.cfg.rxMemStart + (s.dev.rxWp.toNat - s.cfg.rxMemStart + i) % size)) ∧
        (∀ a, a < s.cfg.rxMemStart ∨ s.cfg.rxMemEnd ≤ a → rxByte t a = rxByte s a) ∧
        (t.flags.irqPend = true ↔ s.flags.irqPend = true ∨ (s.flags.irqEn = true ∧
          s.dev.intStat &&& s.dev.intMask &&& 0x3F = 0 ∧ s.dev.intMask.getLsbD 0 = true)) ∧
        t = { s with
          dev := { s.dev with rxWp := t.dev.rxWp, rxMem := t.dev.rxMem, intStat := s.dev.intStat ||| 0x01 }
          flags.irqPend := t.flags.irqPend }) ∧
    (∀ rest, s.env.offers = (frame, st) :: rest → s.dev.rxCtrl.getLsbD 0 = true →
      agentStep (.offerArrives causes) s =
        agentStep (.frameArrive frame st causes) { s with env.offers := rest })

/-! ## The descriptor rings (43_dma_ring.md) -/

/-- With the two rings apart and inside HMEM, after ResetDescChain the four words of receive descriptor i are OWN alone,
RCH with the buffer size, its buffer's address and the next descriptor's address round the ring; those of transmit
descriptor i are TCH alone, 0, its buffer's address and the next one's; both indices and FRAMES_REMAIN are 0, FREE_RX
is RX_DESC_N, the base registers hold the ring addresses, and no byte outside the rings has changed. Rests on
43_dma_ring.md R191; 43_dma_ring.md R192; 43_dma_ring.md R193; 43_dma_ring.md R195; 20_memory.md R61. -/
def Obligations.RingBuilt : Prop :=
  ∀ s : State, Memory.wf s = true →
    s.bufs.rxRingBase.toNat + 16 * s.cfg.rxDescN ≤ 2 ^ 32 → s.bufs.txRingBase.toNat + 16 * s.cfg.txDescN ≤ 2 ^ 32 →
    (s.bufs.rxRingBase.toNat + 16 * s.cfg.rxDescN ≤ s.bufs.txRingBase.toNat ∨
      s.bufs.txRingBase.toNat + 16 * s.cfg.txDescN ≤ s.bufs.rxRingBase.toNat) →
    (∀ i, i < s.cfg.rxDescN →
      hread32 (chainBuilt s) (s.bufs.rxRingBase.toNat + 16 * i) = 0x80000000 ∧
      hread32 (chainBuilt s) (s.bufs.rxRingBase.toNat + 16 * i + 4) = 0x00004000 ||| BitVec.ofNat 32 s.cfg.dmaBufSize ∧
      hread32 (chainBuilt s) (s.bufs.rxRingBase.toNat + 16 * i + 8) = s.bufs.rxb.getD i 0 ∧
      (hread32 (chainBuilt s) (s.bufs.rxRingBase.toNat + 16 * i + 12)).toNat =
        s.bufs.rxRingBase.toNat + 16 * ((i + 1) % s.cfg.rxDescN)) ∧
    (∀ i, i < s.cfg.txDescN →
      hread32 (chainBuilt s) (s.bufs.txRingBase.toNat + 16 * i) = 0x00100000 ∧
      hread32 (chainBuilt s) (s.bufs.txRingBase.toNat + 16 * i + 4) = 0 ∧
      hread32 (chainBuilt s) (s.bufs.txRingBase.toNat + 16 * i + 8) = s.bufs.txb.getD i 0 ∧
      (hread32 (chainBuilt s) (s.bufs.txRingBase.toNat + 16 * i + 12)).toNat =
        s.bufs.txRingBase.toNat + 16 * ((i + 1) % s.cfg.txDescN)) ∧
    (chainBuilt s).bufs = { s.bufs with rxIdx := 0, txIdx := 0 } ∧
    (chainBuilt s).flags = { s.flags with framesRemain := 0, freeRx := s.cfg.rxDescN } ∧
    (chainBuilt s).mreg = { s.mreg with
      rxBase := s.bufs.rxRingBase &&& 0xFFFFFFFC, txBase := s.bufs.txRingBase &&& 0xFFFFFFFC } ∧
    (∀ a, a < 2 ^ 32 →
      ¬(s.bufs.rxRingBase.toNat ≤ a ∧ a < s.bufs.rxRingBase.toNat + 16 * s.cfg.rxDescN) →
      ¬(s.bufs.txRingBase.toNat ≤ a ∧ a < s.bufs.txRingBase.toNat + 16 * s.cfg.txDescN) →
      hbyte (chainBuilt s) a = hbyte s a)

/-- A null buffer is InvalidArgument with nothing touched. Where the walk from rx_idx meets `used` CPU-owned descriptors
and no complete frame, RX_FRAME returns Ok with 0, 0 and reports no frame and RX_DESC_N less used. Where the first
complete frame takes `seg` of them, each segment's bytes of the copy length are copied in order to A0 and its
descriptor is given back, rx_idx moves past the frame, one poll demand is made, FRAMES_REMAIN is the number of other
complete frames met and FREE_RX is RX_DESC_N less the descriptors not given back; the result is InvalidSize with data
0, 0 when the frame is longer than the buffer, else Ok with the copy length and the frame length. Nothing else
changes. Bytes to copy that run past HMEM at A0, or past the segments' buffers, are refused where they are accessed
(treatment U11). Rests on 43_dma_ring.md R208; 43_dma_ring.md R210; 43_dma_ring.md R212; 43_dma_ring.md R201;
10_state.md R40; 30_encoding.md R105; 93_implementation_defined.md U11. -/
def Obligations.RxFrameDma : Prop :=
  ∀ (s : State) (len : BitVec 16), Ready .rxFrame s → s.cfg.variant = .dma → BuffersInHmem s →
    (s.hif.arg0 = 0 → Answers (exec (.rxFrame len) s) s s [] s.cfg.results.invalidArgument 0 0) ∧
    (s.hif.arg0 ≠ 0 → ∀ used, CpuOwned s used → (∀ j, j < used → rxDescLs (rxW0 s j) = false) →
      Answers (exec (.rxFrame len) s) s
        { s with flags := { s.flags with framesRemain := 0, freeRx := s.cfg.rxDescN - used } } [] s.cfg.results.ok 0 0) ∧
    (s.hif.arg0 ≠ 0 → ∀ used seg rl cl, FirstFrame s used seg → rl = firstLength s seg → cl = min rl len.toNat →
      (seg * s.cfg.dmaBufSize < cl ∨ 2 ^ 32 < s.hif.arg0.toNat + cl → exec (.rxFrame len) s = .refused .outsideRegion) ∧
      (cl ≤ seg * s.cfg.dmaBufSize → s.hif.arg0.toNat + cl ≤ 2 ^ 32 →
        Answers (exec (.rxFrame len) s) s
          (ringReported s used seg ((List.range seg).foldl (takeSegment s s.hif.arg0.toNat seg cl) s))
          [.mWrite .rxPoll 1]
          (if len.toNat < rl then s.cfg.results.invalidSize else s.cfg.results.ok)
          (if len.toNat < rl then 0 else BitVec.ofNat 32 cl)
          (if len.toNat < rl then 0 else BitVec.ofNat 32 rl)))

/-- With no complete frame among the CPU-owned descriptors RX_FLUSH returns Ok, reports, and writes no descriptor;
otherwise it gives exactly the first frame's descriptors back, moves rx_idx past it, makes one poll demand, and
reports the frames and descriptors that are left. No buffer byte is read or written. Rests on 43_dma_ring.md R208;
43_dma_ring.md R211; 43_dma_ring.md R212; 43_dma_ring.md R201. -/
def Obligations.RxFlushDma : Prop :=
  ∀ s : State, Ready .rxFlush s → s.cfg.variant = .dma →
    (∀ used, CpuOwned s used → (∀ j, j < used → rxDescLs (rxW0 s j) = false) →
      Answers (exec .rxFlush s) s
        { s with flags := { s.flags with framesRemain := 0, freeRx := s.cfg.rxDescN - used } } [] s.cfg.results.ok 0 0) ∧
    (∀ used seg, FirstFrame s used seg →
      Answers (exec .rxFlush s) s
        (ringReported s used seg ((List.range seg).foldl (giveSegment s) s)) [.mWrite .rxPoll 1] s.cfg.results.ok 0 0)

/-- While the fetcher is not running or RE is 0 an offered frame is only counted as dropped. While another frame is being
stored it is not taken. A frame above 16383 bytes or larger than the whole ring is dropped. Otherwise the availability
check walks the descriptors from the current one by their next addresses: where the k-th is the first at which the
sizes reach the frame's length and all k are the engine's, the frame is taken for k segments; where the first that is
not the engine's comes earlier, the frame is dropped, RU is set and the fetcher suspends, and no descriptor is
written. An echo that LOOPBACK put on offer is offered in the same way, and is gone but where it is not taken: it then
stays on offer, which is the model's choice (log 25). Rests on 43_dma_ring.md R200; 43_dma_ring.md R202;
43_dma_ring.md R204; 43_dma_ring.md R221. -/
def Obligations.DmaReceiveBegins : Prop :=
  ∀ (s : State) (f : List Byte) (d : Nat → Nat) (k : Nat), s.cfg.variant = .dma → f ≠ [] →
    d 0 = s.dma.rxCur.toNat → (∀ i, d (i + 1) = (hread32 s (d i + 12)).toNat) →
    (s.dma.rxState ≠ .running ∨ s.mreg.macConfig.getLsbD 2 = false →
      agentStep (.dmaRxBegin f) s = .next { s with dev.rxDropped := s.dev.rxDropped + 1 }) ∧
    (s.dma.rxState = .running → s.mreg.macConfig.getLsbD 2 = true → s.dma.rxInflight.isSome = true →
      agentStep (.dmaRxBegin f) s = .next s) ∧
    (s.dma.rxState = .running → s.mreg.macConfig.getLsbD 2 = true → s.dma.rxInflight = none →
      (16383 < f.length ∨ s.cfg.rxDescN * s.cfg.dmaBufSize < f.length →
        agentStep (.dmaRxBegin f) s = .next { s with dev.rxDropped := s.dev.rxDropped + 1 }) ∧
      (f.length ≤ 16383 → f.length ≤ s.cfg.rxDescN * s.cfg.dmaBufSize → k < s.cfg.rxDescN →
        (∀ i, i < k → descOwn (hread32 s (d i)) = true ∧
          ((List.range (i + 1)).map (fun n => descSize (hread32 s (d n + 4)))).sum < f.length) →
        (descOwn (hread32 s (d k)) = true →
            f.length ≤ ((List.range (k + 1)).map (fun n => descSize (hread32 s (d n + 4)))).sum →
          agentStep (.dmaRxBegin f) s = .next { s with dma.rxInflight := some ⟨f, 0, k + 1, 0⟩ }) ∧
        (descOwn (hread32 s (d k)) = false →
          agentStep (.dmaRxBegin f) s = .next { s with
            dev.rxDropped := s.dev.rxDropped + 1
            mreg.status := s.mreg.status ||| 0x00000080
            dma.rxState := .suspended }))) ∧
    (∀ (st causes : Byte) (rest : List (List Byte × Byte)), s.env.offers = (f, st) :: rest →
      (s.dma.rxState = .running → s.mreg.macConfig.getLsbD 2 = true → s.dma.rxInflight.isSome = true →
        agentStep (.offerArrives causes) s = .next s) ∧
      (s.dma.rxState ≠ .running ∨ s.mreg.macConfig.getLsbD 2 = false ∨ s.dma.rxInflight = none →
        agentStep (.offerArrives causes) s = agentStep (.dmaRxBegin f) { s with env.offers := rest }))

/-- With segment j of k still to store, DmaRxSeg stores the frame's next bytes, at most the descriptor's size, at its
buffer, then writes its first word with OWN 0, FS exactly for the first segment and LS and the frame length exactly
for the last; the current descriptor becomes the next, and after the last segment nothing is in flight and RI is set.
With nothing in flight it changes nothing. Rests on 43_dma_ring.md R191; 43_dma_ring.md R203. -/
def Obligations.DmaReceiveStores : Prop :=
  ∀ (s : State) (f : Inflight), s.cfg.variant = .dma →
    (s.dma.rxInflight = none → agentStep .dmaRxSeg s = .next s) ∧
    (s.dma.rxInflight = some f → f.done < f.need → f.frame.length < 2 ^ 14 → ∃ w0 t,
      agentStep .dmaRxSeg s = .next t ∧
      descOwn w0 = false ∧ w0.getLsbD 9 = decide (f.done = 0) ∧ rxDescLs w0 = decide (f.done + 1 = f.need) ∧
      rxDescFl w0 = (if f.done + 1 = f.need then f.frame.length else 0) ∧
      t.hmem = (hwrite32 s.dma.rxCur.toNat w0 (hwrite (hread32 s (s.dma.rxCur.toNat + 8)).toNat
        ((f.frame.drop f.off).take (descSize (hread32 s (s.dma.rxCur.toNat + 4)))) s)).hmem ∧
      t.dma.rxCur = hread32 s (s.dma.rxCur.toNat + 12) ∧
      (f.done + 1 < f.need → t.dma.rxInflight =
          some ⟨f.frame, f.done + 1, f.need, f.off + descSize (hread32 s (s.dma.rxCur.toNat + 4))⟩ ∧
        t.mreg = s.mreg) ∧
      (f.done + 1 = f.need → t.dma.rxInflight = none ∧
        t.mreg = { s.mreg with status := s.mreg.status ||| 0x00000040 }) ∧
      t = { s with hmem := t.hmem, dma := { s.dma with rxCur := t.dma.rxCur, rxInflight := t.dma.rxInflight }, mreg := t.mreg })

/-- While the fetcher runs and owns the current descriptor, DmaTxSeg appends its bytes to the frame being gathered and
clears OWN, its other bits unchanged, moving on to the next descriptor; at the last segment with TE = 1 the frame goes
to the wire, TI is set when IC is 1, and the gathering starts over; under LOOPBACK the frame is then on offer to the
receive side with CRC_LEN bytes of any value after it. Where the fetcher does not own the descriptor, DmaTxSuspend
suspends it. Rests on 43_dma_ring.md R192; 43_dma_ring.md R220; 43_dma_ring.md R221. -/
def Obligations.DmaTransmits : Prop :=
  ∀ (s : State) (w0 : Word) (bytes : List Byte), s.cfg.variant = .dma → s.dma.txState = .running →
    w0 = hread32 s s.dma.txCur.toNat →
    bytes = s.dma.txInflight ++ hread s (hread32 s (s.dma.txCur.toNat + 8)).toNat
      (descSize (hread32 s (s.dma.txCur.toNat + 4))) →
    (w0.getLsbD 31 = true →
      ∃ t, agentStep .dmaTxSeg s = .next t ∧
        t.hmem = (hwrite32 s.dma.txCur.toNat (w0 &&& 0x7FFFFFFF) s).hmem ∧
        t.dma.txCur = hread32 s (s.dma.txCur.toNat + 12) ∧
        (w0.getLsbD 29 = true → s.mreg.macConfig.getLsbD 3 = true →
          t.dma.txInflight = [] ∧ t.trace = s.trace ++ [.sent bytes] ∧
          t.mreg = { s.mreg with status := if w0.getLsbD 30 then s.mreg.status ||| 0x00000001 else s.mreg.status } ∧
          (s.cfg.loopback = false → t.env = s.env) ∧
          (s.cfg.loopback = true → ∃ crc : List Byte, crc.length = s.cfg.crcLen ∧
            t.env = { s.env with offers := s.env.offers ++ [(bytes ++ crc, 0x00)], free := s.env.free + s.cfg.crcLen })) ∧
        (w0.getLsbD 29 = false ∨ s.mreg.macConfig.getLsbD 3 = false →
          t.dma.txInflight = bytes ∧ t.trace = s.trace ∧ t.mreg = s.mreg ∧ t.env = s.env) ∧
        t = { s with
          hmem := t.hmem, trace := t.trace, mreg := t.mreg, env := t.env
          dma := { s.dma with txCur := t.dma.txCur, txInflight := t.dma.txInflight } }) ∧
    (w0.getLsbD 31 = false → agentStep .dmaTxSeg s = .next s ∧
      agentStep .dmaTxSuspend s = .next { s with dma.txState := .suspended })

/-! ## The MAC capability interface (45_mac_interface.md) -/

/-- Where the software reset completes before the first poll, INIT enables the interrupt, notifies LowLevelInit, writes
NCR, reads it clear, and reads the four identity bytes. When they equal CHIP_ID it writes INIT_SEQ in order, reads
PAR0 to PAR5 and completes with Ok, life initialized and addr what the controller holds; a write of INIT_SEQ that the
controller refuses is refused. When they differ it disables and clears the interrupt, notifies Deinit and completes
with InvalidVersion, life unchanged. Where the reset never completes it polls n times, n the first with n polls of the
interval not below the timeout, and completes with Timeout in the same way. The identity the attached controller
reports is the model's parameter (log 12); what the reset leaves of the receive memory and of the device's hidden
state rests on logs 16 and 21 as well. Rests on 45_mac_interface.md R252; 45_mac_interface.md R253;
45_mac_interface.md R254; 45_mac_interface.md R255; 70_reset_and_hazards.md R342; 70_reset_and_hazards.md R370. -/
def Obligations.InitBus : Prop :=
  ∀ s : State, s.cfg.variant = .bus →
    (∀ (mem : Cells 8) (r : State), Scheduled .init s (schedule 4 (.resetComplete mem)) → r = afterResetBus mem s →
      (s.cfg.ctrlVid = s.cfg.chipVid → s.cfg.ctrlPid = s.cfg.chipPid →
        (∀ p, programBus s.cfg.initSeqBus r = .ok p → resetting p = false →
          Answers (exec .init s) s { p with inst := { p.inst with addr := p.dev.par, life := .initialized } }
            (initTraceBus s [resetRead mem s] ++ identityTrace s ++
              s.cfg.initSeqBus.map (fun e => .regWr e.1 e.2) ++ addressTrace s p.dev.par) s.cfg.results.ok 0 0) ∧
        (∀ e, programBus s.cfg.initSeqBus r = .error e → exec .init s = .refused e)) ∧
      (s.cfg.ctrlVid ≠ s.cfg.chipVid ∨ s.cfg.ctrlPid ≠ s.cfg.chipPid →
        Answers (exec .init s) s (interruptsOff r)
          (initTraceBus s [resetRead mem s] ++ identityTrace s ++ [.notify .deinit]) s.cfg.results.invalidVersion 0 0)) ∧
    (∀ n, Ready .init s → ResetPolls s n →
      Answers (exec .init s) s
        { interruptsOff s with dev.ncr := 1, env.free := s.env.free + n }
        (initTraceBus s ((List.range n).map (fun i => (Config.freeByte (s.env.free + i) &&& 0xFE) ||| 1)) ++
          [.notify .deinit]) s.cfg.results.timeout 0 0)

/-- Where the software reset completes before the first poll, INIT enables the interrupt, notifies LowLevelInit, writes
DMA_BUSMODE and reads it clear, writes INIT_SEQ in order, builds both rings, reads the two address registers and
completes with Ok, life initialized and addr the six bytes they hold; there is no identity check. Where the reset
never completes it polls n times, disables the interrupt, notifies Deinit and completes with Timeout, life unchanged.
That the software reset resets the PHY group under DMA too is the model's reading (log 20). Rests on 43_dma_ring.md
R195; 45_mac_interface.md R253; 45_mac_interface.md R254; 70_reset_and_hazards.md R342; 70_reset_and_hazards.md R370. -/
def Obligations.InitDma : Prop :=
  ∀ s : State, s.cfg.variant = .dma → 1 ≤ s.cfg.rxDescN → 1 ≤ s.cfg.txDescN →
    (∀ (mem : Cells 8) (p : State), Scheduled .init s (schedule 3 (.resetComplete mem)) →
      p = programDma s.cfg.initSeqDma (afterResetDma s) → resetting p = false →
      Answers (exec .init s) s
        { chainBuilt p with
          inst := { p.inst with addr := macOfWords p.mreg.macAddrLo p.mreg.macAddrHi, life := .initialized } }
        ([.notify .lowLevelInit, .mWrite .busMode 1, .mRead .busMode 0] ++
          s.cfg.initSeqDma.map (fun e => .mWrite e.1 e.2) ++ chainTrace p ++
          [.mRead .macAddrLo p.mreg.macAddrLo, .mRead .macAddrHi p.mreg.macAddrHi]) s.cfg.results.ok 0 0) ∧
    (∀ n, Ready .init s → ResetPolls s n →
      Answers (exec .init s) s
        { interruptsOff s with mreg.busMode := 1, env.free := s.env.free + n }
        ([.notify .lowLevelInit, .mWrite .busMode 1] ++
          (List.range n).map (fun i => .mRead .busMode ((Config.freeWord (s.env.free + i) &&& 0xFFFFFFFE) ||| 1)) ++
          [.notify .deinit]) s.cfg.results.timeout 0 0)

/-- With nothing beside it and no software reset in progress, START completes with Ok and life started, having reset the
pointers (BUS) or built the rings (DMA), set the masks, enabled reception (and, under DMA, both fetchers) and IRQ_EN;
STOP completes with Ok and life stopped, having masked the causes, disabled reception, reset the pointers (BUS) or
stopped the fetchers (DMA) and cleared IRQ_EN and FRAMES_REMAIN; DEINIT does what STOP does, clears IRQ_EN and the
pending latch, notifies Deinit and completes with Ok and life deinitialized. SET_LINK up while started and SET_LINK
down while not started make no access and only set LINK; otherwise SET_LINK up does what START does, SET_LINK down
what STOP does, and LINK is then the argument. The transactions are those of the rules, in their order, and nothing
else changes. That a pointer reset by the host leaves the header of the buffer that the drainer owns as valid as it
was is the model's reading (log 21). Rests on 45_mac_interface.md R251; 45_mac_interface.md R256; 45_mac_interface.md
R257; 45_mac_interface.md R258; 45_mac_interface.md R259; 43_dma_ring.md R195; 70_reset_and_hazards.md R343. -/
def Obligations.StartStop : Prop :=
  ∀ s : State,
    (Ready .setLink s → s.inst.life = .started →
      Answers (exec (.setLink true) s) s { s with flags.link := true } [] s.cfg.results.ok 0 0) ∧
    (Ready .setLink s → s.inst.life ≠ .started →
      Answers (exec (.setLink false) s) s { s with flags.link := false } [] s.cfg.results.ok 0 0) ∧
    (resetting s = false → (s.cfg.variant = .dma → 1 ≤ s.cfg.rxDescN ∧ 1 ≤ s.cfg.txDescN) →
      (Ready .start s → Answers (exec .start s) s (setLife .started (started s)) (startTrace s) s.cfg.results.ok 0 0) ∧
      (Ready .stop s → Answers (exec .stop s) s (setLife .stopped (stopped s)) (stopTrace s) s.cfg.results.ok 0 0) ∧
      (Ready .deinit s → Answers (exec .deinit s) s (setLife .deinitialized (interruptsOff (stopped s)))
        (stopTrace s ++ [.notify .deinit]) s.cfg.results.ok 0 0) ∧
      (Ready .setLink s → s.inst.life ≠ .started →
        Answers (exec (.setLink true) s) s { setLife .started (started s) with flags.link := true } (startTrace s) s.cfg.results.ok 0 0) ∧
      (Ready .setLink s → s.inst.life = .started →
        Answers (exec (.setLink false) s) s { setLife .stopped (stopped s) with flags.link := false } (stopTrace s) s.cfg.results.ok 0 0))

/-- With the lock free DEL completes with Ok: the worker has ended, WAKE and IRQ_EN are 0, life is destroyed, and the
allocations left are those that were neither a drainer's delivery buffer nor a buffer the instance was built with;
HMEM and the controller are untouched. While the worker holds the lock its first step changes nothing. Afterwards the
worker and the interrupt handler take no step, a write of CMD is ignored, and HSTAT reads the lifecycle code 5. That
WSTATE and IRQ_PEND stay as they were is the model's choice (log 27). Rests on 44_drainer.md R245; 45_mac_interface.md
R251; 45_mac_interface.md R267; 10_state.md R29; 60_exceptions.md R321. -/
def Obligations.DelReleasesAll : Prop :=
  (∀ s : State, Ready .del s → ∃ t, exec .del s = .next t ∧ Reports s.cfg.results.ok 0 0 t ∧ t.trace = s.trace ++ [.result s.cfg.results.ok 0 0] ∧
    t.inst = { s.inst with life := .destroyed } ∧ t.wctx = { s.wctx with pc := .ended } ∧
    t.flags = { s.flags with wake := false, irqEn := false } ∧
    t.allocs = s.allocs.filter (fun x => !((s.allocs.any fun y => y.addr == x.addr && y.owner == .drainer) ||
      ((instanceBuffers s).contains x.addr && ownedBy .block s x.addr))) ∧
    t = { s with
      hctx := t.hctx, hif := t.hif, trace := t.trace, inst := t.inst, wctx := t.wctx, flags := t.flags
      allocs := t.allocs, drain.buf := t.drain.buf, bufs.hdrValid := t.bufs.hdrValid } ∧
    t.hif.arg0 = s.hif.arg0 ∧ t.hif.arg1 = s.hif.arg1 ∧
    agentStep (.ctx .W) t = .next t ∧ agentStep .irq t = .next t ∧ (∀ w, hostWrite t.cfg.hifs.cmd w t = .next t) ∧
    (hstat t).extractLsb' 2 3 = 5) ∧
  (∀ s : State, s.hctx.pc = .op .del .s0 → s.lock = some .W → agentStep (.ctx .H) s = .next s)

/-- SET_ADDR with A1[31:16] not 0 is InvalidArgument and changes nothing. Otherwise the six bytes a[0..3] = the bytes of
ARG0 from the least significant on and a[4..5] = those of ARG1 go to PAR0 to PAR5 in order (BUS) or to MAC_ADDR_HI,
then MAC_ADDR_LO (DMA), and to the instance's address; nothing else changes. GET_ADDR makes no access and returns the
instance's bytes 3 to 0 in RDATA0 and 5 and 4 in the low half of RDATA1. Rests on 30_encoding.md R97; 30_encoding.md
R105; 45_mac_interface.md R260; 45_mac_interface.md R261. -/
def Obligations.StationAddress : Prop :=
  ∀ s : State,
    (Ready .setAddr s →
      (s.hif.arg1.extractLsb' 16 16 ≠ 0 → Answers (exec .setAddr s) s s [] s.cfg.results.invalidArgument 0 0) ∧
      (∀ a : Mac, s.hif.arg1.extractLsb' 16 16 = 0 →
        a = ⟨s.hif.arg0.extractLsb' 0 8, s.hif.arg0.extractLsb' 8 8, s.hif.arg0.extractLsb' 16 8, s.hif.arg0.extractLsb' 24 8,
          s.hif.arg1.extractLsb' 0 8, s.hif.arg1.extractLsb' 8 8⟩ →
        (s.cfg.variant = .bus → Answers (exec .setAddr s) s { s with dev.par := a, inst.addr := a }
          [wrObs s (.par 0) a.b0, wrObs s (.par 1) a.b1, wrObs s (.par 2) a.b2, wrObs s (.par 3) a.b3, wrObs s (.par 4) a.b4,
            wrObs s (.par 5) a.b5] s.cfg.results.ok 0 0) ∧
        (s.cfg.variant = .dma → Answers (exec .setAddr s) s
          { s with inst.addr := a, mreg := { s.mreg with macAddrHi := s.hif.arg1, macAddrLo := s.hif.arg0 } }
          [.mWrite .macAddrHi s.hif.arg1, .mWrite .macAddrLo s.hif.arg0] s.cfg.results.ok 0 0))) ∧
    (Ready .getAddr s → Answers (exec .getAddr s) s s [] s.cfg.results.ok
      (s.inst.addr.b3 ++ s.inst.addr.b2 ++ s.inst.addr.b1 ++ s.inst.addr.b0) ((0 : Half) ++ s.inst.addr.b5 ++ s.inst.addr.b4))

/-- With no software reset in progress each completes with Ok. SET_SPEED and SET_DUPLEX make no access under BUS and set
or clear FES, DM of MAC_CONFIG under DMA; SET_PROMISC sets or clears PRMSC of RX_CTRL (BUS) or PR of MAC_FFILT (DMA);
SET_FLOWCTRL makes no access and leaves DO_FC alone; SET_PEER_PAUSE sets or clears FCEN (BUS) or TFE and RFE with FCB
written 0 (DMA) by the agreement of cfg_fc and the argument, which DO_FC then holds. Each records its argument in the
instance, makes one read and one write of its register where it makes any, and changes nothing else. Rests on
45_mac_interface.md R262; 45_mac_interface.md R263; 45_mac_interface.md R264; 45_mac_interface.md R265;
45_mac_interface.md R266; 70_reset_and_hazards.md R355. -/
def Obligations.ConfigurationFlags : Prop :=
  ∀ (s : State) (f en : Bool) (v w : Word) (b : Byte), resetting s = false →
    (Ready .setSpeed s → s.cfg.variant = .bus → Answers (exec (.setSpeed f) s) s { s with inst.cfgSpeed := f } [] s.cfg.results.ok 0 0) ∧
    (Ready .setSpeed s → s.cfg.variant = .dma → v = s.mreg.macConfig →
      w = (if f then v ||| 0x00004000 else v &&& ~~~0x00004000) →
      Answers (exec (.setSpeed f) s) s { s with inst.cfgSpeed := f, mreg.macConfig := w }
        [.mRead .macConfig v, .mWrite .macConfig w] s.cfg.results.ok 0 0) ∧
    (Ready .setDuplex s → s.cfg.variant = .bus → Answers (exec (.setDuplex f) s) s { s with inst.cfgDuplex := f } [] s.cfg.results.ok 0 0) ∧
    (Ready .setDuplex s → s.cfg.variant = .dma → v = s.mreg.macConfig →
      w = (if f then v ||| 0x00000800 else v &&& ~~~0x00000800) →
      Answers (exec (.setDuplex f) s) s { s with inst.cfgDuplex := f, mreg.macConfig := w }
        [.mRead .macConfig v, .mWrite .macConfig w] s.cfg.results.ok 0 0) ∧
    (Ready .setPromisc s → s.cfg.variant = .bus → b = (if f then s.dev.rxCtrl ||| 0x02 else s.dev.rxCtrl &&& 0xFD) →
      Answers (exec (.setPromisc f) s) s { s with inst.cfgPromisc := f, dev.rxCtrl := b }
        [rdObs s .rxCtrl s.dev.rxCtrl, wrObs s .rxCtrl b] s.cfg.results.ok 0 0) ∧
    (Ready .setPromisc s → s.cfg.variant = .dma → v = s.mreg.macFfilt →
      w = (if f then v ||| 0x1 else v &&& ~~~0x1) →
      Answers (exec (.setPromisc f) s) s { s with inst.cfgPromisc := f, mreg.macFfilt := w }
        [.mRead .macFfilt v, .mWrite .macFfilt w] s.cfg.results.ok 0 0) ∧
    (Ready .setFlowCtrl s → Answers (exec (.setFlowCtrl f) s) s { s with inst.cfgFc := f } [] s.cfg.results.ok 0 0) ∧
    (Ready .setPeerPause s → en = (s.inst.cfgFc && f) → s.cfg.variant = .bus →
      b = (if en then s.dev.fcCtrl ||| 0x01 else s.dev.fcCtrl &&& 0xFE) →
      Answers (exec (.setPeerPause f) s) s { s with inst.peerPause := f, flags.doFc := en, dev.fcCtrl := b }
        [rdObs s .fcCtrl s.dev.fcCtrl, wrObs s .fcCtrl b] s.cfg.results.ok 0 0) ∧
    (Ready .setPeerPause s → en = (s.inst.cfgFc && f) → s.cfg.variant = .dma → v = s.mreg.macFlowCtrl →
      w = (if en then (v &&& ~~~0x1) ||| 0x6 else v &&& ~~~0x7) →
      Answers (exec (.setPeerPause f) s) s { s with inst.peerPause := f, flags.doFc := en, mreg.macFlowCtrl := w }
        [.mRead .macFlowCtrl v, .mWrite .macFlowCtrl w] s.cfg.results.ok 0 0)

/-- In both variants a null source, a length of 0 and a length above MAX_FRAME are InvalidArgument with nothing accessed.
With TXREQ set through all N_TX_POLL reads the result is InvalidState, those reads are made and nothing changes. With
TXREQ clear at the first read the operation completes with Ok: the length registers hold len, the bytes at A0 are
copied to the staging buffer and staged in the controller, which latches the first len staged bytes as the frame;
TXREQ is set, and nothing else changes; a source that runs past HMEM is refused where its bytes are read (treatment
U11). Where the frame in flight completes after j + 1 reads of TXREQ, j + 1 below N_TX_POLL, the operation goes on
from the state that leaves. Rests on 20_memory.md R63; 20_memory.md R80; 45_mac_interface.md R270; 45_mac_interface.md
R271; 45_mac_interface.md R272; 10_state.md R40; 93_implementation_defined.md U11. -/
def Obligations.TxFrameBus : Prop :=
  ∀ (s : State) (len : BitVec 16),
    (Ready .txFrame s → s.hif.arg0 = 0 ∨ len = 0 ∨ s.cfg.maxFrame < len.toNat →
      Answers (exec (.txFrame len) s) s s [] s.cfg.results.invalidArgument 0 0) ∧
    (s.hif.arg0 ≠ 0 → len ≠ 0 → len.toNat ≤ s.cfg.maxFrame → s.cfg.variant = .bus → resetting s = false →
      s.cfg.nTxPoll < 2 ^ 32 → BuffersInHmem s →
      (Ready .txFrame s → 0 < s.cfg.nTxPoll → s.dev.txCtrl.getLsbD 0 = true →
        Answers (exec (.txFrame len) s) s s (List.replicate s.cfg.nTxPoll (rdObs s .txCtrl s.dev.txCtrl))
          s.cfg.results.invalidState 0 0) ∧
      (Ready .txFrame s → 0 < s.cfg.nTxPoll → s.dev.txCtrl.getLsbD 0 = false →
        2 ^ 32 < s.hif.arg0.toNat + len.toNat → exec (.txFrame len) s = .refused .outsideRegion) ∧
      (∀ bytes, Ready .txFrame s → 0 < s.cfg.nTxPoll → s.dev.txCtrl.getLsbD 0 = false →
        s.hif.arg0.toNat + len.toNat ≤ 2 ^ 32 → bytes = hread s s.hif.arg0.toNat len.toNat →
        Answers (exec (.txFrame len) s) s
          { hwrite s.bufs.txScratch.toNat bytes s with
            dev := { s.dev with
              txLenL := len.extractLsb' 0 8
              txLenH := len.extractLsb' 8 8
              txLatched := some ((s.dev.txStage ++ bytes).take len.toNat)
              txStage := []
              txCtrl := s.dev.txCtrl ||| 0x01 } }
          [rdObs s .txCtrl s.dev.txCtrl, wrObs s .txLenL (len.extractLsb' 0 8), wrObs s .txLenH (len.extractLsb' 8 8),
            blkWrObs s .txData bytes, rdObs s .txCtrl s.dev.txCtrl, wrObs s .txCtrl (s.dev.txCtrl ||| 0x01)]
          s.cfg.results.ok 0 0) ∧
      (∀ (j : Nat) (causes : Byte), Scheduled .txFrame s (schedule (2 * (j + 1)) (.txComplete causes)) →
        j + 1 < s.cfg.nTxPoll → s.dev.txCtrl.getLsbD 0 = true → s.hif.arg0.toNat + len.toNat ≤ 2 ^ 32 →
        ∃ t, exec (.txFrame len) s = .next t ∧ t.hif.result = s.cfg.results.ok ∧ t.hctx.pc = .idle ∧
          t.dev.txLatched = some ((s.dev.txStage ++ hread s s.hif.arg0.toNat len.toNat).take len.toNat) ∧
          t.dev.txCtrl.getLsbD 0 = true ∧ t.dev.txStage = [] ∧
          t.trace = s.trace ++ List.replicate (j + 1) (rdObs s .txCtrl s.dev.txCtrl) ++ [.sent (s.dev.txLatched.getD [])] ++
            [rdObs s .txCtrl (s.dev.txCtrl &&& 0xFE), wrObs s .txLenL (len.extractLsb' 0 8),
              wrObs s .txLenH (len.extractLsb' 8 8), blkWrObs s .txData (hread s s.hif.arg0.toNat len.toNat),
              rdObs s .txCtrl (s.dev.txCtrl &&& 0xFE), wrObs s .txCtrl ((s.dev.txCtrl &&& 0xFE) ||| 0x01),
              .result s.cfg.results.ok 0 0]))

/-- With k the ceiling of the length over the buffer size: where the first of the k descriptors from tx_idx on that the
engine owns is descriptor m, the result is InvalidState and nothing changes. Where it owns none of them the operation
completes with Ok: each segment's bytes are copied to its transmit buffer and its length written, the descriptors are
handed over from the last to the first, with FS on the first and LS and IC on the last, tx_idx moves past them, and
one poll demand is made; nothing else changes. A source that runs past HMEM is refused where its bytes are read
(treatment U11). Rests on 43_dma_ring.md R192; 45_mac_interface.md R270; 45_mac_interface.md R273; 45_mac_interface.md
R274; 10_state.md R40; 93_implementation_defined.md U11. -/
def Obligations.TxFrameDma : Prop :=
  ∀ (s : State) (len : BitVec 16) (k : Nat), Ready .txFrame s → s.cfg.variant = .dma → s.hif.arg0 ≠ 0 → len ≠ 0 →
    len.toNat ≤ s.cfg.maxFrame → BuffersInHmem s → 0 < s.cfg.dmaBufSize →
    s.cfg.maxFrame ≤ s.cfg.txDescN * s.cfg.dmaBufSize → 0 < s.cfg.nTxPoll → s.cfg.nTxPoll < 2 ^ 32 →
    k = (len.toNat + s.cfg.dmaBufSize - 1) / s.cfg.dmaBufSize →
    (∀ m, m < k → (∀ j, j < m → descOwn (hread32 s (txdAddr s (txSlot s j))) = false) →
      descOwn (hread32 s (txdAddr s (txSlot s m))) = true →
      Answers (exec (.txFrame len) s) s s [] s.cfg.results.invalidState 0 0) ∧
    ((∀ j, j < k → descOwn (hread32 s (txdAddr s (txSlot s j))) = false) →
      (2 ^ 32 < s.hif.arg0.toNat + len.toNat → exec (.txFrame len) s = .refused .outsideRegion) ∧
      (s.hif.arg0.toNat + len.toNat ≤ 2 ^ 32 →
        Answers (exec (.txFrame len) s) s (frameBound s s.hif.arg0.toNat len.toNat) [.mWrite .txPoll 0]
          s.cfg.results.ok 0 0))

/-! ## The drainer (44_drainer.md) -/

/-- At W0 with WAKE = 1 the worker clears WAKE and enters draining at B0 (BUS) or I0 (DMA) in one step. With WAKE = 0 it
goes to B0 exactly under BUS with IRQ_EN = 1 and the line active, and otherwise nothing changes. B0 reads INT_STAT and
B1 writes the byte read back; the burst goes on to I0 when its bit 0 is set and returns to waiting otherwise. After a
lock timeout at B0 the next step logs it and the one after returns the worker to waiting; after one at B1 the next
step logs it and the burst goes on with the byte that was read, to I0 or to the step that returns to waiting. Rests on
44_drainer.md R230; 44_drainer.md R231; 44_drainer.md R232; 44_drainer.md R233. -/
def Obligations.Waiting : Prop :=
  ∀ s : State,
    (s.wctx.pc = .drain .w0 →
      (s.flags.wake = true → agentStep (.ctx .W) s = .next { s with
        flags.wake := false
        wstate := .draining
        wctx.pc := .drain (match s.cfg.variant with | .bus => .b0 | .dma => .i0) }) ∧
      (s.flags.wake = false → s.cfg.variant = .bus → s.flags.irqEn = true →
        s.dev.intStat &&& s.dev.intMask &&& 0x3F ≠ 0 →
        agentStep (.ctx .W) s = .next { s with wstate := .draining, wctx.pc := .drain .b0 }) ∧
      (s.flags.wake = false →
        s.cfg.variant = .dma ∨ s.flags.irqEn = false ∨ s.dev.intStat &&& s.dev.intMask &&& 0x3F = 0 →
        agentStep (.ctx .W) s = .next s)) ∧
    (s.wctx.pc = .drain .b0 → s.cfg.variant = .bus →
      (s.lock = some .W → resetting s = false → agentStep (.ctx .W) s = .next { s with
        lock := none
        wctx := { s.wctx with x := { s.wctx.x with t := some (s.dev.intStat.zeroExtend 32) }, pc := .drain .b1 }
        trace := s.trace ++ [rdObs s .intStat s.dev.intStat] }) ∧
      (s.lock = some .H → andThen (agentStep (.lockTimeout .W) s) (agentStep (.ctx .W)) = .next { s with
        wctx.pc := .drain .rest, log := s.log ++ [⟨.W, .readIntStatus⟩] })) ∧
    (s.wctx.pc = .drain .rest → agentStep (.ctx .W) s = .next { s with wstate := .waiting, wctx.pc := .drain .w0 }) ∧
    (∀ b : Byte, s.wctx.pc = .drain .b1 → s.cfg.variant = .bus → s.wctx.x.t = some (b.zeroExtend 32) →
      (s.lock = some .W → ∃ t, agentStep (.ctx .W) s = .next t ∧ t.dev.intStat = s.dev.intStat &&& ~~~b ∧
        t.trace = s.trace ++ [wrObs s .intStat b] ∧ t.lock = none ∧
        (b.getLsbD 0 = true → t.wctx.pc = .drain .i0 ∧ t.wstate = s.wstate) ∧
        (b.getLsbD 0 = false → t.wctx.pc = .drain .w0 ∧ t.wstate = .waiting) ∧
        t = { s with
          dev.intStat := t.dev.intStat, trace := t.trace, lock := none, wctx.pc := t.wctx.pc, wstate := t.wstate
          flags.irqPend := t.flags.irqPend }) ∧
      (s.lock = some .H → andThen (agentStep (.lockTimeout .W) s) (agentStep (.ctx .W)) = .next { s with
        log := s.log ++ [⟨.W, .clearIntStatus⟩]
        wctx.pc := if b.getLsbD 0 then .drain .i0 else .drain .rest }))

/-- BUS: I0 issues RX_ALLOC MAX_FRAME, I1 RX_FRAME 0 into the buffer (refused at F0 where its header is not valid,
treatment U14), I3 RX_FLUSH. DMA: I0 allocates RX_BUF_SIZE bytes, I1 issues RX_FRAME MAX_FRAME into the buffer, I3
RX_FLUSH. I2 delivers the copied length; when the mediator takes the buffer it is the mediator's and the drainer holds
none. Under BUS RX_ALLOC leads on with its buffer and frame length, or with none to the loop test; RX_FRAME to I2
unless it copied less than that length; RX_FLUSH to the loop test. Each failure leads to its log step (NoMemory,
InvalidSize, Timeout and any other error, Fail, of RX_ALLOC; any error of RX_FRAME; Timeout and any other, Fail, of
RX_FLUSH), and that on: to a flush exactly after NoMemory or InvalidSize of RX_ALLOC, an error of RX_FRAME under BUS
(whose buffer is freed first) and a null allocation under DMA; a truncated or undelivered frame's buffer is only
freed; after Timeout of RX_ALLOC or RX_FLUSH the step after the log sets FRAMES_REMAIN to 1; after Fail the loop test
is next. DMA frees the buffer on zero length and on an error. The loop test returns to waiting exactly when
FRAMES_REMAIN is 0. That the argument words an operation does not take are latched as 0 is the model's choice (log
39). Rests on 44_drainer.md R234; 44_drainer.md R235; 44_drainer.md R238; 44_drainer.md R239; 44_drainer.md R240;
44_drainer.md R241; 44_drainer.md R244; 42_rx_bus.md R170; 42_rx_bus.md R171; 43_dma_ring.md R210. -/
def Obligations.Iteration : Prop :=
  (∀ (s : State) (x : Regs), s.cfg.variant = .bus →
    (s.wctx.pc = .drain .i0 →
      x = { cw := some (encodeWord s.cfg.opcodes (.rxAlloc (BitVec.ofNat 16 s.cfg.maxFrame))), a0 := some 0, a1 := some 0 } →
      agentStep (.ctx .W) s = .next { s with wctx := ⟨x, {}, .op .rxAlloc .c0⟩ }) ∧
    (∀ a, s.wctx.pc = .drain .i1 → s.drain.buf = some a →
      x = { cw := some (encodeWord s.cfg.opcodes (.rxFrame 0)), a0 := some a, a1 := some 0 } →
      agentStep (.ctx .W) s = .next { s with wctx := ⟨x, {}, .op .rxFrame .f0⟩ }) ∧
    (∀ a, s.wctx.pc = .op .rxFrame .f0 → s.wctx.x.a0 = some a → a ≠ 0 → a ∉ s.bufs.hdrValid →
      agentStep (.ctx .W) s = .refused .headerNotValid) ∧
    (s.wctx.pc = .drain .i3 → x = { cw := some (encodeWord s.cfg.opcodes .rxFlush), a0 := some 0, a1 := some 0 } →
      agentStep (.ctx .W) s = .next { s with wctx := ⟨x, {}, .op .rxFlush .c0⟩ })) ∧
  (∀ (s : State) (x : Regs), s.cfg.variant = .dma →
    (∀ v, s.wctx.pc = .drain .i0 →
      (∀ a, alloc (s.cfg.maxFrame + s.cfg.rxHdrOverhead) .drainer s = (some a, v) →
        agentStep (.ctx .W) s = .next { v with drain.buf := some a, wctx.pc := .drain .i1 }) ∧
      (alloc (s.cfg.maxFrame + s.cfg.rxHdrOverhead) .drainer s = (none, v) →
        agentStep (.ctx .W) s = .next { v with wctx.pc := .drain (.log .noMemForBuffer) })) ∧
    (∀ a, s.wctx.pc = .drain .i1 → s.drain.buf = some a →
      x = { cw := some (encodeWord s.cfg.opcodes (.rxFrame (BitVec.ofNat 16 s.cfg.maxFrame))), a0 := some a, a1 := some 0 } →
      agentStep (.ctx .W) s = .next { s with wctx := ⟨x, {}, .op .rxFrame .l1⟩ }) ∧
    (s.wctx.pc = .drain .i3 → x = { cw := some (encodeWord s.cfg.opcodes .rxFlush), a0 := some 0, a1 := some 0 } →
      agentStep (.ctx .W) s = .next { s with wctx := ⟨x, {}, .op .rxFlush .l1⟩ })) ∧
  (∀ (s : State) (buf : Word), s.wctx.pc = .drain .i2 → s.drain.buf = some buf →
    (∀ rest, s.env.deliverAnswers = true :: rest → ∃ t, agentStep (.ctx .W) s = .next t ∧
      t.drain.buf = none ∧ t.trace = s.trace ++ [.deliver buf s.drain.cl true] ∧
      (∀ x ∈ t.allocs, x.addr = buf → x.owner = .up) ∧ t.allocs.map Alloc.addr = s.allocs.map Alloc.addr ∧
      t.wctx.pc = .drain (match s.cfg.variant with | .bus => .i5 | .dma => .i4) ∧
      t.hmem = s.hmem ∧ t.flags = s.flags ∧ t.log = s.log) ∧
    (∀ rest, s.env.deliverAnswers = false :: rest → agentStep (.ctx .W) s = .next { s with
      env.deliverAnswers := rest, trace := s.trace ++ [.deliver buf s.drain.cl false]
      wctx.pc := .drain (.log .stackInputFailed) })) ∧
  (∀ (s : State) (buf : Word) (d e : DLabel), (d, e) ∈ [(DLabel.freeI3, DLabel.i3), (.freeI4, .i4), (.freeI5, .i5)] →
    s.wctx.pc = .drain d → s.drain.buf = some buf → ∃ t, agentStep (.ctx .W) s = .next t ∧
      t.drain.buf = none ∧ t.wctx.pc = .drain e ∧ t.allocs = s.allocs.filter (fun x => x.addr != buf) ∧
      t = { s with
        drain.buf := none, wctx.pc := t.wctx.pc, allocs := t.allocs, bufs.hdrValid := t.bufs.hdrValid }) ∧
  (∀ (s : State) (x : LogText), s.wctx.pc = .drain (.log x) →
    (∀ d, (x, d) ∈ [(LogText.noMemForBuffer, DLabel.i3), (.invalidFrameLength, .i3), (.frameReadFailed, .freeI3),
        (.rxFail, .i5), (.flushFail, .i5)] →
      agentStep (.ctx .W) s = .next { s with log := s.log ++ [⟨.W, x⟩], wctx.pc := .drain d }) ∧
    (x ∈ [LogText.frameTruncated, .stackInputFailed] → agentStep (.ctx .W) s = .next { s with
      log := s.log ++ [⟨.W, x⟩], wctx.pc := .drain (match s.cfg.variant with | .bus => .freeI5 | .dma => .freeI4) }) ∧
    (x ∈ [LogText.rxTimeout, .flushTimeout] → agentStep (.ctx .W) s = .next { s with
      log := s.log ++ [⟨.W, x⟩], wctx.pc := .drain .remain })) ∧
  (∀ s : State, s.wctx.pc = .drain .remain →
    agentStep (.ctx .W) s = .next { s with flags.framesRemain := 1, wctx.pc := .drain .i5 }) ∧
  (∀ (s : State) (m : Op) (r : Except (Err × Word) (Word × Word)) (t : State), workerOp m = true → t = drainReturn m r s →
    (s.cfg.variant = .bus →
      (t.wctx.pc = .drain (.log .noMemForBuffer) ↔ m = .rxAlloc ∧ ∃ w, r = .error (.noMemory, w)) ∧
      (t.wctx.pc = .drain (.log .invalidFrameLength) ↔ m = .rxAlloc ∧ ∃ w, r = .error (.invalidSize, w)) ∧
      (t.wctx.pc = .drain (.log .rxTimeout) ↔ m = .rxAlloc ∧ ∃ w, r = .error (.timeout, w)) ∧
      (t.wctx.pc = .drain (.log .rxFail) ↔
        m = .rxAlloc ∧ ∃ e w, r = .error (e, w) ∧ e ≠ .noMemory ∧ e ≠ .invalidSize ∧ e ≠ .timeout) ∧
      (t.wctx.pc = .drain (.log .frameReadFailed) ↔ m = .rxFrame ∧ ∃ x, r = .error x) ∧
      (t.wctx.pc = .drain (.log .flushTimeout) ↔ m = .rxFlush ∧ ∃ w, r = .error (.timeout, w)) ∧
      (t.wctx.pc = .drain (.log .flushFail) ↔ m = .rxFlush ∧ ∃ e w, r = .error (e, w) ∧ e ≠ .timeout) ∧
      (t.wctx.pc = .drain .i5 ↔ (m = .rxAlloc ∧ ∃ rl, r = .ok (0, rl)) ∨ (m = .rxFlush ∧ ∃ x, r = .ok x)) ∧
      (∀ rl, m = .rxAlloc → r = .ok (0, rl) → t.drain.buf = none) ∧
      (t.wctx.pc = .drain .i1 ↔ m = .rxAlloc ∧ ∃ a rl, r = .ok (a, rl) ∧ a ≠ 0) ∧
      (∀ a rl, m = .rxAlloc → r = .ok (a, rl) → a ≠ 0 → t.drain.buf = some a ∧ t.drain.rl = rl.toNat) ∧
      (t.wctx.pc = .drain .i2 ↔ m = .rxFrame ∧ ∃ cl w, r = .ok (cl, w) ∧ s.drain.rl ≤ cl.toNat) ∧
      (t.wctx.pc = .drain (.log .frameTruncated) ↔ m = .rxFrame ∧ ∃ cl w, r = .ok (cl, w) ∧ cl.toNat < s.drain.rl) ∧
      (∀ cl w, m = .rxFrame → r = .ok (cl, w) → t.drain.buf = s.drain.buf ∧ t.drain.cl = cl.toNat) ∧
      t.wctx.pc ≠ .drain .i3 ∧ t.wctx.pc ≠ .drain .freeI3) ∧
    (s.cfg.variant = .dma →
      (t.wctx.pc = .drain .i2 ↔ m = .rxFrame ∧ ∃ cl rl, r = .ok (cl, rl) ∧ cl ≠ 0) ∧
      (t.wctx.pc = .drain .freeI4 ↔ m = .rxFrame ∧ ∃ rl, r = .ok (0, rl)) ∧
      (t.wctx.pc = .drain (.log .frameTruncated) ↔ m = .rxFrame ∧ ∃ x, r = .error x) ∧
      (m = .rxFlush → t.wctx.pc = .drain .i4) ∧
      t.wctx.pc ≠ .drain .i3 ∧ t.wctx.pc ≠ .drain .freeI3 ∧ t.wctx.pc ≠ .drain (.log .noMemForBuffer) ∧
      t.wctx.pc ≠ .drain (.log .invalidFrameLength)) ∧
    t = { s with wctx.pc := t.wctx.pc, drain := t.drain }) ∧
  (∀ s : State, s.wctx.pc = .drain .i5 →
    (s.flags.framesRemain = 0 → agentStep (.ctx .W) s = .next { s with wctx.pc := .drain .w0, wstate := .waiting }) ∧
    (s.flags.framesRemain ≠ 0 → agentStep (.ctx .W) s = .next { s with wctx.pc := .drain .i0 }))

/-- At I4, the label every DMA iteration reaches before its loop test, the worker goes on to SendPause(1) exactly when
DO_FC is 1, FREE_RX is below low_wm and FRAMES_REMAIN is above 0; otherwise to SendPause(0) exactly when FREE_RX is
above high_wm or FRAMES_REMAIN is 0, whatever DO_FC is; otherwise to the loop test with nothing changed, PAUSE
included. The comparisons are strict, and with low_wm at most high_wm the two conditions exclude each other. Under DMA
the loop test, by itself at I5 or with the last line of SendPause at the label pause, is reached from I4's otherwise
branch and from E1 alone, E1 from E0 and E0 from I4 alone, but for six labels that only BUS uses, which no step under
DMA enters and to which no issued operation returns; nor does one return to I5 or to SendPause. Formalises R236. -/
def Obligations.FlowControlDecision : Prop :=
  (∀ s : State, s.wctx.pc = .drain .i4 →
    (s.flags.doFc = true → s.flags.freeRx < s.inst.lowWm.toNat → 0 < s.flags.framesRemain →
      agentStep (.ctx .W) s = .next { s with wctx.pc := .drain .e0, drain.pauseArg := true }) ∧
    (¬(s.flags.doFc = true ∧ s.flags.freeRx < s.inst.lowWm.toNat ∧ 0 < s.flags.framesRemain) →
      (s.inst.highWm.toNat < s.flags.freeRx ∨ s.flags.framesRemain = 0 →
        agentStep (.ctx .W) s = .next { s with wctx.pc := .drain .e0, drain.pauseArg := false }) ∧
      (s.flags.freeRx ≤ s.inst.highWm.toNat → s.flags.framesRemain ≠ 0 →
        agentStep (.ctx .W) s = .next { s with wctx.pc := .drain .i5 }))) ∧
  (∀ s : State, s.inst.lowWm.toNat ≤ s.inst.highWm.toNat →
    ¬((s.flags.doFc = true ∧ s.flags.freeRx < s.inst.lowWm.toNat ∧ 0 < s.flags.framesRemain) ∧
      (s.inst.highWm.toNat < s.flags.freeRx ∨ s.flags.framesRemain = 0))) ∧
  (∀ (busOnly : List DLabel) (s : State), s.cfg.variant = .dma →
    busOnly = [.freeI5, .remain, .log .rxFail, .log .rxTimeout, .log .flushTimeout, .log .flushFail] →
    (∀ (t : State) (d : DLabel), s.wctx.pc = .drain d → agentStep (.ctx .W) s = .next t →
      (t.wctx.pc = .drain .i5 → d = .i4 ∨ d ∈ busOnly) ∧ (t.wctx.pc = .drain .pause → d = .e1) ∧
      (t.wctx.pc = .drain .e1 → d = .e0) ∧ (t.wctx.pc = .drain .e0 → d = .i4) ∧
      (∀ b ∈ busOnly, t.wctx.pc = .drain b → d ∈ busOnly)) ∧
    (∀ (m : Op) (r : Except (Err × Word) (Word × Word)), ∀ x ∈ DLabel.i5 :: .pause :: .e1 :: .e0 :: busOnly,
      (drainReturn m r s).wctx.pc ≠ .drain x))

/-- E0 and E1 read MAC_FLOWCTRL and write it back with PAUSE_QUANTA or 0 as the pause time and FCB set, the other low bits
kept, and PAUSE becomes the argument with the loop test that follows. While FCB is set PauseSent clears it and sends
one pause frame carrying the pause time exactly when TFE is 1. Over every step of every agent, in the states that
StepKeeps keeps, PAUSE changes only in that step of the worker; WAKE goes from 0 to 1 only in IrqHandler, and from 1
to 0 only in the worker's step at W0 or in DEL's first step. Rests on 44_drainer.md R237; 60_exceptions.md R314;
10_state.md R28; 44_drainer.md R231; 45_mac_interface.md R267. -/
def Obligations.PauseFrames : Prop :=
  (∀ s : State, s.wctx.pc = .drain .e0 → resetting s = false → ∃ t u,
    andThen (agentStep (.ctx .W) s) (agentStep (.ctx .W)) = .next t ∧
    t.mreg.macFlowCtrl.extractLsb' 16 16 = (if s.drain.pauseArg then s.cfg.pauseQuanta else 0) ∧
    t.mreg.macFlowCtrl.extractLsb' 1 15 = s.mreg.macFlowCtrl.extractLsb' 1 15 ∧ t.mreg.macFlowCtrl.getLsbD 0 = true ∧
    t.wctx.pc = .drain .pause ∧
    t.trace = s.trace ++ [.mRead .macFlowCtrl s.mreg.macFlowCtrl, .mWrite .macFlowCtrl t.mreg.macFlowCtrl] ∧
    t = { s with wctx := t.wctx, trace := t.trace, mreg.macFlowCtrl := t.mreg.macFlowCtrl } ∧
    agentStep (.ctx .W) t = .next u ∧
    u = { t with
      flags.pause := s.drain.pauseArg
      wctx.pc := if s.flags.framesRemain = 0 then .drain .w0 else .drain .i0
      wstate := if s.flags.framesRemain = 0 then .waiting else s.wstate }) ∧
  (∀ s : State, s.cfg.variant = .dma → s.mreg.macFlowCtrl.getLsbD 0 = true → agentStep .pauseSent s = .next { s with
    mreg.macFlowCtrl := s.mreg.macFlowCtrl &&& 0xFFFFFFFE
    trace := s.trace ++ (if s.mreg.macFlowCtrl.getLsbD 1 then [.pauseSent (s.mreg.macFlowCtrl.extractLsb' 16 16)] else []) }) ∧
  (∀ (s t : State) (a : AgentStep), HostPc s → WorkerConfined s → agentStep a s = .next t →
    (t.flags.pause ≠ s.flags.pause → a = .ctx .W ∧ s.wctx.pc = .drain .pause) ∧
    (s.flags.wake = false → t.flags.wake = true → a = .irq) ∧
    (s.flags.wake = true → t.flags.wake = false →
      (a = .ctx .W ∧ s.wctx.pc = .drain .w0) ∨ (a = .ctx .H ∧ s.hctx.pc = .op .del .s0)))

/-! ## Errors, interrupts and resets (60_exceptions.md, 70_reset_and_hazards.md) -/

/-- When IRQ_PEND is 1, whatever step any other agent takes next, IrqHandler under BUS clears the local latch and sets
WAKE, leaving INT_STAT alone; under DMA it clears every bit of DMA_STATUS, by a read and a write traced in that step,
and sets WAKE. Nothing else of the state changes: no working register, no counter, no buffer, no ring. When IRQ_PEND
is 0 it is not enabled and changes nothing. Under DMA IRQ_PEND is the level dma_irq and IRQ_EN. That the two accesses
under DMA stand in the trace with the bits that were held is the model's choice (log 29). Rests on 60_exceptions.md
R312; 60_exceptions.md R313; 60_exceptions.md R325. -/
def Obligations.InterruptHandler : Prop :=
  ∀ s : State, s.inst.life ≠ .destroyed →
    (s.cfg.variant = .bus → s.flags.irqPend = true →
      agentStep .irq s = .next { s with flags := { s.flags with irqPend := false, wake := true } }) ∧
    (s.cfg.variant = .dma → s.mreg.status &&& s.mreg.intEn &&& 0xC1 ≠ 0 → s.flags.irqEn = true →
      ∃ t, agentStep .irq s = .next t ∧ t = { s with mreg.status := 0, flags.wake := true, trace := t.trace } ∧
        t.trace = s.trace ++ [.mRead .status s.mreg.status, .mWrite .status s.mreg.status]) ∧
    (irqPending s = false → agentStep .irq s = .next s) ∧
    (irqPending s = true ↔ (s.cfg.variant = .bus ∧ s.flags.irqPend = true) ∨
      (s.cfg.variant = .dma ∧ s.mreg.status &&& s.mreg.intEn &&& 0xC1 ≠ 0 ∧ s.flags.irqEn = true))

/-- The seven result codes are by default those of the table, no two alike and none that of Ok. An error raised in a host
operation other than INIT and DEINIT completes it in the same step: RESULT is the code, RDATA0 is 0, RDATA1 the datum,
and everything the operation did stays done. In INIT it goes on to disable the interrupt, clear the pending latch and
notify Deinit, a step each, in DEINIT to the deregistration, and then completes with the code. An error in an
operation the worker executes changes no host register. That the codes are parameters is R9's; that those of every
valid configuration are distinct and none is Ok's is the model's condition on them (mapsValid), log 10. Rests on
60_exceptions.md R291; 60_exceptions.md R300; 60_exceptions.md R301; 60_exceptions.md R304; 45_mac_interface.md R253;
45_mac_interface.md R256. -/
def Obligations.ErrorTaken : Prop :=
  (errCode {} .fail = 0xFFFFFFFF ∧ errCode {} .noMemory = 0x101 ∧ errCode {} .invalidArgument = 0x102 ∧
    errCode {} .invalidState = 0x103 ∧ errCode {} .invalidSize = 0x104 ∧ errCode {} .timeout = 0x107 ∧
    errCode {} .invalidVersion = 0x10A ∧ ({} : ResultMap).ok = 0) ∧
  (∀ (c : Config), configValid c = true →
    (∀ e e', errCode c.results e = errCode c.results e' → e = e') ∧ (∀ e, errCode c.results e ≠ c.results.ok)) ∧
  (∀ (s : State) (m : Op) (e : Err) (w code : Word), code = errCode s.cfg.results e →
    (m ≠ .init → m ≠ .deinit → ∃ t, raiseErr .H m e w s = .next t ∧ Reports code 0 w t ∧ OnlyHost s t ∧
      t.trace = s.trace ++ [.result code 0 w] ∧ t.log = s.log) ∧
    (∃ t, andThen (raiseErr .H .init e w s) (fun a => andThen (agentStep (.ctx .H) a) (fun b =>
        andThen (agentStep (.ctx .H) b) (agentStep (.ctx .H)))) = .next t ∧
      Reports code 0 0 t ∧ OnlyHost (interruptsOff s) t ∧ t.trace = s.trace ++ [.notify .deinit, .result code 0 0]) ∧
    (∃ t, andThen (raiseErr .H .deinit e w s) (fun a => andThen (agentStep (.ctx .H) a) (fun b =>
        andThen (agentStep (.ctx .H) b) (agentStep (.ctx .H)))) = .next t ∧
      Reports code 0 0 t ∧ OnlyHost (setLife .deinitialized (interruptsOff s)) t ∧
      t.trace = s.trace ++ [.notify .deinit, .result code 0 0]) ∧
    (∀ t, raiseErr .W m e w s = .next t → t.hif = s.hif ∧ t.hctx = s.hctx ∧ t.inst = s.inst ∧ t.trace = s.trace ∧
      t.dev = s.dev ∧ t.hmem = s.hmem))

/-- While the reset bit reads 1, ResetComplete under BUS gives every controller register its reset value, the two PHY data
registers and the receive latch any value, and the address bytes FACTORY_ADDR; both cursors go to the start of the
ring, which then holds 0x00 there; the staging memory and the latched frame are gone, no PHY transaction is in flight,
no frame counts as dropped; the line is inactive. Under DMA every mapped register has its reset value, the hidden
state of both fetchers is that after construction, the PHY group is reset as under BUS, no frame counts as dropped,
and the rest of the controller is kept. HMEM, the PHY registers and the block's own state are unchanged, but that no
delivery-buffer header is valid any longer under BUS. With the bit 0 nothing changes. The model's readings: the PHY
group under DMA too (log 20); the count of dropped frames and the fetchers' addresses with the hidden state (log 16);
the headers (log 21). Rests on 45_mac_interface.md R254; 70_reset_and_hazards.md R340; 70_reset_and_hazards.md R342;
10_state.md R33; 10_state.md R36; 10_state.md R42. -/
def Obligations.ControllerReset : Prop :=
  ∀ (s : State) (mem : Cells 8),
    (resetting s = false → agentStep (.resetComplete mem) s = .next s) ∧
    (s.dev.ncr.getLsbD 0 = true → s.cfg.variant = .bus → ∃ t, agentStep (.resetComplete mem) s = .next t ∧
      t.dev.ncr = 0 ∧ t.dev.txCtrl = 0 ∧ t.dev.rxCtrl = 0 ∧ t.dev.fcCtrl = 0 ∧ phyCmdByte t.dev = 0 ∧ t.dev.phyAddr = 0 ∧
      t.dev.phyDatL = Config.freeByte s.env.free ∧ t.dev.phyDatH = Config.freeByte (s.env.free + 1) ∧
      t.dev.rxLatch = Config.freeByte (s.env.free + 2) ∧ t.dev.par = s.cfg.factoryAddr ∧ t.dev.ptrCtrl = 0 ∧
      t.dev.txLenL = 0 ∧ t.dev.txLenH = 0 ∧ t.dev.intStat = 0 ∧ t.dev.intMask = 0 ∧
      t.dev.txStage = [] ∧ t.dev.txLatched = none ∧ t.dev.phyOp = none ∧ t.dev.rxDropped = 0 ∧
      t.dev.rxRp = BitVec.ofNat 16 s.cfg.rxMemStart ∧ t.dev.rxWp = BitVec.ofNat 16 s.cfg.rxMemStart ∧
      t.dev.rxrpHold = BitVec.ofNat 8 (s.cfg.rxMemStart / 256) ∧ Cells.get t.dev.rxMem s.cfg.rxMemStart = 0 ∧
      t = { s with dev := t.dev, env.free := t.env.free, bufs.hdrValid := [] }) ∧
    (s.mreg.busMode.getLsbD 0 = true → s.cfg.variant = .dma → ∃ t, agentStep (.resetComplete mem) s = .next t ∧
      t.mreg.busMode = 0 ∧ t.mreg.rxBase = 0 ∧ t.mreg.txBase = 0 ∧ t.mreg.status = 0 ∧ t.mreg.opMode = 0 ∧ t.mreg.intEn = 0 ∧
      t.mreg.macConfig = 0 ∧ t.mreg.macFfilt = 0 ∧ t.mreg.macFlowCtrl = 0 ∧
      t.mreg.macAddrLo = s.cfg.factoryAddr.b3 ++ s.cfg.factoryAddr.b2 ++ s.cfg.factoryAddr.b1 ++ s.cfg.factoryAddr.b0 ∧
      t.mreg.macAddrHi = (0 : Half) ++ s.cfg.factoryAddr.b5 ++ s.cfg.factoryAddr.b4 ∧
      t.dma.rxState = .stopped ∧ t.dma.txState = .stopped ∧ t.dma.rxInflight = none ∧ t.dma.txInflight = [] ∧
      t.dma.rxCur = 0 ∧ t.dma.txCur = 0 ∧
      t.dev = { s.dev with
        phySel := false, phyAddr := 0, phyDatL := Config.freeByte s.env.free, phyDatH := Config.freeByte (s.env.free + 1)
        phyOp := none, rxDropped := 0 } ∧
      t = { s with dev := t.dev, mreg := t.mreg, dma := t.dma, env.free := t.env.free })

/-- In the reset state the lifecycle is uninitialized, the address zero, every configuration flag, LINK, PAUSE, WAKE,
IRQ_PEND, IRQ_EN, DO_FC and FRAMES_REMAIN 0, FREE_RX is RX_DESC_N, the lock free, both indices 0, the results and DONE
0, HSTAT 0, both contexts where the rules put them, the working registers unwritten, the log empty, the watermarks and
the reset timeout the parameters, INT_MASK and DMA_INTEN 0, and memory lists nothing. The invariants hold there. The
model's choices: the BUS variant with the default parameters (log 2), the registers the spec leaves unspecified (log
3), memory that reads 0 where nothing is listed (log 4), the placing of the two scratch buffers (log 5), and an empty
bus port, environment and agenda (log 1). Rests on 10_state.md R27; 10_state.md R45; 70_reset_and_hazards.md R340;
70_reset_and_hazards.md R341. -/
def Obligations.ResetState : Prop :=
  State.reset.inst = {
    life := .uninitialized, addr := ⟨0, 0, 0, 0, 0, 0⟩, cfgFc := false, peerPause := false,
    cfgPromisc := false, cfgSpeed := false, cfgDuplex := false, swResetTimeoutMs := 100, lowWm := 3, highWm := 6 } ∧
  State.reset.flags = {
    wake := false, irqPend := false, irqEn := false, framesRemain := 0,
    freeRx := State.reset.cfg.rxDescN, pause := false, doFc := false, link := false } ∧
  State.reset.lock = none ∧ State.reset.bufs.rxIdx = 0 ∧ State.reset.bufs.txIdx = 0 ∧
  State.reset.hif.result = 0 ∧ State.reset.hif.rdata0 = 0 ∧ State.reset.hif.rdata1 = 0 ∧ State.reset.hif.done = false ∧
  hstat State.reset = 0 ∧ State.reset.hctx = { pc := .idle } ∧ State.reset.wctx = { pc := .drain .w0 } ∧
  State.reset.wstate = .waiting ∧ State.reset.log = [] ∧ State.reset.dev.intMask = 0 ∧ State.reset.mreg.intEn = 0 ∧
  State.reset.dev.ncr = 0 ∧ State.reset.dev.rxRp = 0x0C00 ∧ State.reset.dev.rxWp = 0x0C00 ∧
  State.reset.hmem = [] ∧ State.reset.dev.rxMem = [] ∧ State.reset.phyReg = [] ∧
  Memory.wf State.reset = true ∧ FixedFields State.reset ∧ CursorsInRing State.reset ∧ NoLockUnderDma State.reset ∧
  HostPc State.reset ∧ WorkerConfined State.reset ∧ BuffersInHmem State.reset ∧
  ResultCode State.reset.cfg.results State.reset.hif.result ∧ State.reset.cfg.variant = .bus ∧ State.reset.agenda = [] ∧
  configValid State.reset.cfg = true ∧
  construct {} [some 0x10000000, some 0x10001000] = .ok State.reset

/-- From every state in which HCTX is idle or in an operation and WCTX is in the drainer, in an operation the drainer
issues, or ended, a step, whatever it runs, leaves the configuration as it is, keeps the two contexts so, keeps every
memory in its canonical form, the fixed register fields as the register tables say they read, the receive cursors in
the ring, no lock under DMA, the instance's buffers inside HMEM, and RESULT one of the result codes. Rests on
10_state.md R26; 10_state.md R33; 10_state.md R36; 20_memory.md R66; 20_memory.md R70; 60_exceptions.md R291;
60_exceptions.md R320. -/
def Obligations.StepKeeps : Prop :=
  ∀ s t : State, HostPc s → WorkerConfined s → step s = .next t →
    HostPc t ∧ WorkerConfined t ∧ t.cfg = s.cfg ∧
    (Memory.wf s = true → Memory.wf t = true) ∧
    (FixedFields s → FixedFields t) ∧
    (CursorsInRing s → CursorsInRing t) ∧
    (NoLockUnderDma s → NoLockUnderDma t) ∧
    (BuffersInHmem s → BuffersInHmem t) ∧
    (ResultCode s.cfg.results s.hif.result → ResultCode t.cfg.results t.hif.result)

end
end

