-- ==== Sys2Proof/Laws/Outcome.lean ====
section
/-! SUPPORT. How outcomes compose: the equations of `andThen`, `need`, `accept`, and what every next state of a composed
outcome has. -/

namespace Sys2Proof.Machine

@[simp] theorem andThen_next (s : State) (k : State → Out) : andThen (.next s) k = k s := rfl
@[simp] theorem andThen_fault (f : Fault) (k : State → Out) : andThen (.fault f) k = .fault f := rfl
@[simp] theorem andThen_refused (r : Refusal) (k : State → Out) : andThen (.refused r) k = .refused r := rfl
@[simp] theorem need_some {α : Type} (a : α) (k : α → Out) : need (some a) k = k a := rfl
@[simp] theorem need_none {α : Type} (k : α → Out) : need none k = .fault .unwrittenRegister := rfl
@[simp] theorem needAct_some {α : Type} (a : α) (k : α → Act) : needAct (some a) k = k a := rfl
@[simp] theorem needAct_none {α : Type} (k : α → Act) : needAct none k = .plain (.fault .unwrittenRegister) := rfl
@[simp] theorem accept_ok {α : Type} (a : α) (k : α → Out) : accept (.ok a) k = k a := rfl
@[simp] theorem accept_error {α : Type} (r : Refusal) (k : α → Out) : accept (.error r) k = .refused r := rfl

/-- What follows a step starts where the step ended. -/
theorem andThen_eq_next {o : Out} {k : State → Out} {t : State} :
    andThen o k = .next t ↔ ∃ s, o = .next s ∧ k s = .next t := by
  cases o <;> simp [andThen]

theorem need_eq_next {α : Type} {v : Option α} {k : α → Out} {t : State} :
    need v k = .next t ↔ ∃ a, v = some a ∧ k a = .next t := by
  cases v <;> simp [need]

theorem accept_eq_next {α : Type} {e : Except Refusal α} {k : α → Out} {t : State} :
    accept e k = .next t ↔ ∃ a, e = .ok a ∧ k a = .next t := by
  cases e <;> simp [accept]

theorem ensures_next {s : State} {P : State → Prop} (h : P s) : Ensures (.next s) P := by
  intro t ht; cases ht; exact h

theorem ensures_fault {f : Fault} {P : State → Prop} : Ensures (.fault f) P := by intro t ht; cases ht

theorem ensures_refused {r : Refusal} {P : State → Prop} : Ensures (.refused r) P := by intro t ht; cases ht

theorem ensures_need {α : Type} {v : Option α} {k : α → Out} {P : State → Prop}
    (h : ∀ a, v = some a → Ensures (k a) P) : Ensures (need v k) P := by
  cases v with
  | none => exact ensures_fault
  | some a => exact h a rfl

theorem ensures_accept {α : Type} {e : Except Refusal α} {k : α → Out} {P : State → Prop}
    (h : ∀ a, e = .ok a → Ensures (k a) P) : Ensures (accept e k) P := by
  cases e with
  | error r => exact ensures_refused
  | ok a => exact h a rfl

theorem ensures_andThen {o : Out} {k : State → Out} {P Q : State → Prop}
    (h : Ensures o P) (hk : ∀ s, P s → Ensures (k s) Q) : Ensures (andThen o k) Q := by
  cases o with
  | next s => exact hk s (h s rfl)
  | fault f => exact ensures_fault
  | refused r => exact ensures_refused

end Sys2Proof.Machine
end

