-- ==== Sys2Proof/Laws/State.lean ====
section
/-! SUPPORT. One lemma for each named update and each field: what the update writes, and that it writes nothing else, so that no
later proof unfolds a record update. -/

namespace Sys2Proof.Machine

/-! ## Contexts: an update of one context touches nothing else -/

@[simp] theorem setCtx_cfg (c : CtxId) (x : Ctx) (s : State) : (setCtx c x s).cfg = s.cfg := by cases c <;> rfl
@[simp] theorem setCtx_hif (c : CtxId) (x : Ctx) (s : State) : (setCtx c x s).hif = s.hif := by cases c <;> rfl
@[simp] theorem setCtx_wstate (c : CtxId) (x : Ctx) (s : State) : (setCtx c x s).wstate = s.wstate := by cases c <;> rfl
@[simp] theorem setCtx_drain (c : CtxId) (x : Ctx) (s : State) : (setCtx c x s).drain = s.drain := by cases c <;> rfl
@[simp] theorem setCtx_flags (c : CtxId) (x : Ctx) (s : State) : (setCtx c x s).flags = s.flags := by cases c <;> rfl
@[simp] theorem setCtx_lock (c : CtxId) (x : Ctx) (s : State) : (setCtx c x s).lock = s.lock := by cases c <;> rfl
@[simp] theorem setCtx_inst (c : CtxId) (x : Ctx) (s : State) : (setCtx c x s).inst = s.inst := by cases c <;> rfl
@[simp] theorem setCtx_bufs (c : CtxId) (x : Ctx) (s : State) : (setCtx c x s).bufs = s.bufs := by cases c <;> rfl
@[simp] theorem setCtx_allocs (c : CtxId) (x : Ctx) (s : State) : (setCtx c x s).allocs = s.allocs := by cases c <;> rfl
@[simp] theorem setCtx_dev (c : CtxId) (x : Ctx) (s : State) : (setCtx c x s).dev = s.dev := by cases c <;> rfl
@[simp] theorem setCtx_mreg (c : CtxId) (x : Ctx) (s : State) : (setCtx c x s).mreg = s.mreg := by cases c <;> rfl
@[simp] theorem setCtx_dma (c : CtxId) (x : Ctx) (s : State) : (setCtx c x s).dma = s.dma := by cases c <;> rfl
@[simp] theorem setCtx_phyReg (c : CtxId) (x : Ctx) (s : State) : (setCtx c x s).phyReg = s.phyReg := by cases c <;> rfl
@[simp] theorem setCtx_hmem (c : CtxId) (x : Ctx) (s : State) : (setCtx c x s).hmem = s.hmem := by cases c <;> rfl
@[simp] theorem setCtx_bus (c : CtxId) (x : Ctx) (s : State) : (setCtx c x s).bus = s.bus := by cases c <;> rfl
@[simp] theorem setCtx_env (c : CtxId) (x : Ctx) (s : State) : (setCtx c x s).env = s.env := by cases c <;> rfl
@[simp] theorem setCtx_log (c : CtxId) (x : Ctx) (s : State) : (setCtx c x s).log = s.log := by cases c <;> rfl
@[simp] theorem setCtx_trace (c : CtxId) (x : Ctx) (s : State) : (setCtx c x s).trace = s.trace := by cases c <;> rfl
@[simp] theorem setCtx_agenda (c : CtxId) (x : Ctx) (s : State) : (setCtx c x s).agenda = s.agenda := by cases c <;> rfl
@[simp] theorem modX_cfg (c : CtxId) (f : Regs → Regs) (s : State) : (modX c f s).cfg = s.cfg := by cases c <;> rfl
@[simp] theorem modX_hif (c : CtxId) (f : Regs → Regs) (s : State) : (modX c f s).hif = s.hif := by cases c <;> rfl
@[simp] theorem modX_wstate (c : CtxId) (f : Regs → Regs) (s : State) : (modX c f s).wstate = s.wstate := by cases c <;> rfl
@[simp] theorem modX_drain (c : CtxId) (f : Regs → Regs) (s : State) : (modX c f s).drain = s.drain := by cases c <;> rfl
@[simp] theorem modX_flags (c : CtxId) (f : Regs → Regs) (s : State) : (modX c f s).flags = s.flags := by cases c <;> rfl
@[simp] theorem modX_lock (c : CtxId) (f : Regs → Regs) (s : State) : (modX c f s).lock = s.lock := by cases c <;> rfl
@[simp] theorem modX_inst (c : CtxId) (f : Regs → Regs) (s : State) : (modX c f s).inst = s.inst := by cases c <;> rfl
@[simp] theorem modX_bufs (c : CtxId) (f : Regs → Regs) (s : State) : (modX c f s).bufs = s.bufs := by cases c <;> rfl
@[simp] theorem modX_allocs (c : CtxId) (f : Regs → Regs) (s : State) : (modX c f s).allocs = s.allocs := by cases c <;> rfl
@[simp] theorem modX_dev (c : CtxId) (f : Regs → Regs) (s : State) : (modX c f s).dev = s.dev := by cases c <;> rfl
@[simp] theorem modX_mreg (c : CtxId) (f : Regs → Regs) (s : State) : (modX c f s).mreg = s.mreg := by cases c <;> rfl
@[simp] theorem modX_dma (c : CtxId) (f : Regs → Regs) (s : State) : (modX c f s).dma = s.dma := by cases c <;> rfl
@[simp] theorem modX_phyReg (c : CtxId) (f : Regs → Regs) (s : State) : (modX c f s).phyReg = s.phyReg := by cases c <;> rfl
@[simp] theorem modX_hmem (c : CtxId) (f : Regs → Regs) (s : State) : (modX c f s).hmem = s.hmem := by cases c <;> rfl
@[simp] theorem modX_bus (c : CtxId) (f : Regs → Regs) (s : State) : (modX c f s).bus = s.bus := by cases c <;> rfl
@[simp] theorem modX_env (c : CtxId) (f : Regs → Regs) (s : State) : (modX c f s).env = s.env := by cases c <;> rfl
@[simp] theorem modX_log (c : CtxId) (f : Regs → Regs) (s : State) : (modX c f s).log = s.log := by cases c <;> rfl
@[simp] theorem modX_trace (c : CtxId) (f : Regs → Regs) (s : State) : (modX c f s).trace = s.trace := by cases c <;> rfl
@[simp] theorem modX_agenda (c : CtxId) (f : Regs → Regs) (s : State) : (modX c f s).agenda = s.agenda := by cases c <;> rfl
@[simp] theorem modSc_cfg (c : CtxId) (f : Scratch → Scratch) (s : State) : (modSc c f s).cfg = s.cfg := by cases c <;> rfl
@[simp] theorem modSc_hif (c : CtxId) (f : Scratch → Scratch) (s : State) : (modSc c f s).hif = s.hif := by cases c <;> rfl
@[simp] theorem modSc_wstate (c : CtxId) (f : Scratch → Scratch) (s : State) : (modSc c f s).wstate = s.wstate := by cases c <;> rfl
@[simp] theorem modSc_drain (c : CtxId) (f : Scratch → Scratch) (s : State) : (modSc c f s).drain = s.drain := by cases c <;> rfl
@[simp] theorem modSc_flags (c : CtxId) (f : Scratch → Scratch) (s : State) : (modSc c f s).flags = s.flags := by cases c <;> rfl
@[simp] theorem modSc_lock (c : CtxId) (f : Scratch → Scratch) (s : State) : (modSc c f s).lock = s.lock := by cases c <;> rfl
@[simp] theorem modSc_inst (c : CtxId) (f : Scratch → Scratch) (s : State) : (modSc c f s).inst = s.inst := by cases c <;> rfl
@[simp] theorem modSc_bufs (c : CtxId) (f : Scratch → Scratch) (s : State) : (modSc c f s).bufs = s.bufs := by cases c <;> rfl
@[simp] theorem modSc_allocs (c : CtxId) (f : Scratch → Scratch) (s : State) : (modSc c f s).allocs = s.allocs := by cases c <;> rfl
@[simp] theorem modSc_dev (c : CtxId) (f : Scratch → Scratch) (s : State) : (modSc c f s).dev = s.dev := by cases c <;> rfl
@[simp] theorem modSc_mreg (c : CtxId) (f : Scratch → Scratch) (s : State) : (modSc c f s).mreg = s.mreg := by cases c <;> rfl
@[simp] theorem modSc_dma (c : CtxId) (f : Scratch → Scratch) (s : State) : (modSc c f s).dma = s.dma := by cases c <;> rfl
@[simp] theorem modSc_phyReg (c : CtxId) (f : Scratch → Scratch) (s : State) : (modSc c f s).phyReg = s.phyReg := by cases c <;> rfl
@[simp] theorem modSc_hmem (c : CtxId) (f : Scratch → Scratch) (s : State) : (modSc c f s).hmem = s.hmem := by cases c <;> rfl
@[simp] theorem modSc_bus (c : CtxId) (f : Scratch → Scratch) (s : State) : (modSc c f s).bus = s.bus := by cases c <;> rfl
@[simp] theorem modSc_env (c : CtxId) (f : Scratch → Scratch) (s : State) : (modSc c f s).env = s.env := by cases c <;> rfl
@[simp] theorem modSc_log (c : CtxId) (f : Scratch → Scratch) (s : State) : (modSc c f s).log = s.log := by cases c <;> rfl
@[simp] theorem modSc_trace (c : CtxId) (f : Scratch → Scratch) (s : State) : (modSc c f s).trace = s.trace := by cases c <;> rfl
@[simp] theorem modSc_agenda (c : CtxId) (f : Scratch → Scratch) (s : State) : (modSc c f s).agenda = s.agenda := by cases c <;> rfl
@[simp] theorem setT_cfg (c : CtxId) (b : Byte) (s : State) : (setT c b s).cfg = s.cfg := by cases c <;> rfl
@[simp] theorem setT_hif (c : CtxId) (b : Byte) (s : State) : (setT c b s).hif = s.hif := by cases c <;> rfl
@[simp] theorem setT_wstate (c : CtxId) (b : Byte) (s : State) : (setT c b s).wstate = s.wstate := by cases c <;> rfl
@[simp] theorem setT_drain (c : CtxId) (b : Byte) (s : State) : (setT c b s).drain = s.drain := by cases c <;> rfl
@[simp] theorem setT_flags (c : CtxId) (b : Byte) (s : State) : (setT c b s).flags = s.flags := by cases c <;> rfl
@[simp] theorem setT_lock (c : CtxId) (b : Byte) (s : State) : (setT c b s).lock = s.lock := by cases c <;> rfl
@[simp] theorem setT_inst (c : CtxId) (b : Byte) (s : State) : (setT c b s).inst = s.inst := by cases c <;> rfl
@[simp] theorem setT_bufs (c : CtxId) (b : Byte) (s : State) : (setT c b s).bufs = s.bufs := by cases c <;> rfl
@[simp] theorem setT_allocs (c : CtxId) (b : Byte) (s : State) : (setT c b s).allocs = s.allocs := by cases c <;> rfl
@[simp] theorem setT_dev (c : CtxId) (b : Byte) (s : State) : (setT c b s).dev = s.dev := by cases c <;> rfl
@[simp] theorem setT_mreg (c : CtxId) (b : Byte) (s : State) : (setT c b s).mreg = s.mreg := by cases c <;> rfl
@[simp] theorem setT_dma (c : CtxId) (b : Byte) (s : State) : (setT c b s).dma = s.dma := by cases c <;> rfl
@[simp] theorem setT_phyReg (c : CtxId) (b : Byte) (s : State) : (setT c b s).phyReg = s.phyReg := by cases c <;> rfl
@[simp] theorem setT_hmem (c : CtxId) (b : Byte) (s : State) : (setT c b s).hmem = s.hmem := by cases c <;> rfl
@[simp] theorem setT_bus (c : CtxId) (b : Byte) (s : State) : (setT c b s).bus = s.bus := by cases c <;> rfl
@[simp] theorem setT_env (c : CtxId) (b : Byte) (s : State) : (setT c b s).env = s.env := by cases c <;> rfl
@[simp] theorem setT_log (c : CtxId) (b : Byte) (s : State) : (setT c b s).log = s.log := by cases c <;> rfl
@[simp] theorem setT_trace (c : CtxId) (b : Byte) (s : State) : (setT c b s).trace = s.trace := by cases c <;> rfl
@[simp] theorem setT_agenda (c : CtxId) (b : Byte) (s : State) : (setT c b s).agenda = s.agenda := by cases c <;> rfl
@[simp] theorem setTw_cfg (c : CtxId) (v : Word) (s : State) : (setTw c v s).cfg = s.cfg := by cases c <;> rfl
@[simp] theorem setTw_hif (c : CtxId) (v : Word) (s : State) : (setTw c v s).hif = s.hif := by cases c <;> rfl
@[simp] theorem setTw_wstate (c : CtxId) (v : Word) (s : State) : (setTw c v s).wstate = s.wstate := by cases c <;> rfl
@[simp] theorem setTw_drain (c : CtxId) (v : Word) (s : State) : (setTw c v s).drain = s.drain := by cases c <;> rfl
@[simp] theorem setTw_flags (c : CtxId) (v : Word) (s : State) : (setTw c v s).flags = s.flags := by cases c <;> rfl
@[simp] theorem setTw_lock (c : CtxId) (v : Word) (s : State) : (setTw c v s).lock = s.lock := by cases c <;> rfl
@[simp] theorem setTw_inst (c : CtxId) (v : Word) (s : State) : (setTw c v s).inst = s.inst := by cases c <;> rfl
@[simp] theorem setTw_bufs (c : CtxId) (v : Word) (s : State) : (setTw c v s).bufs = s.bufs := by cases c <;> rfl
@[simp] theorem setTw_allocs (c : CtxId) (v : Word) (s : State) : (setTw c v s).allocs = s.allocs := by cases c <;> rfl
@[simp] theorem setTw_dev (c : CtxId) (v : Word) (s : State) : (setTw c v s).dev = s.dev := by cases c <;> rfl
@[simp] theorem setTw_mreg (c : CtxId) (v : Word) (s : State) : (setTw c v s).mreg = s.mreg := by cases c <;> rfl
@[simp] theorem setTw_dma (c : CtxId) (v : Word) (s : State) : (setTw c v s).dma = s.dma := by cases c <;> rfl
@[simp] theorem setTw_phyReg (c : CtxId) (v : Word) (s : State) : (setTw c v s).phyReg = s.phyReg := by cases c <;> rfl
@[simp] theorem setTw_hmem (c : CtxId) (v : Word) (s : State) : (setTw c v s).hmem = s.hmem := by cases c <;> rfl
@[simp] theorem setTw_bus (c : CtxId) (v : Word) (s : State) : (setTw c v s).bus = s.bus := by cases c <;> rfl
@[simp] theorem setTw_env (c : CtxId) (v : Word) (s : State) : (setTw c v s).env = s.env := by cases c <;> rfl
@[simp] theorem setTw_log (c : CtxId) (v : Word) (s : State) : (setTw c v s).log = s.log := by cases c <;> rfl
@[simp] theorem setTw_trace (c : CtxId) (v : Word) (s : State) : (setTw c v s).trace = s.trace := by cases c <;> rfl
@[simp] theorem setTw_agenda (c : CtxId) (v : Word) (s : State) : (setTw c v s).agenda = s.agenda := by cases c <;> rfl
@[simp] theorem setV_cfg (c : CtxId) (v : Word) (s : State) : (setV c v s).cfg = s.cfg := by cases c <;> rfl
@[simp] theorem setV_hif (c : CtxId) (v : Word) (s : State) : (setV c v s).hif = s.hif := by cases c <;> rfl
@[simp] theorem setV_wstate (c : CtxId) (v : Word) (s : State) : (setV c v s).wstate = s.wstate := by cases c <;> rfl
@[simp] theorem setV_drain (c : CtxId) (v : Word) (s : State) : (setV c v s).drain = s.drain := by cases c <;> rfl
@[simp] theorem setV_flags (c : CtxId) (v : Word) (s : State) : (setV c v s).flags = s.flags := by cases c <;> rfl
@[simp] theorem setV_lock (c : CtxId) (v : Word) (s : State) : (setV c v s).lock = s.lock := by cases c <;> rfl
@[simp] theorem setV_inst (c : CtxId) (v : Word) (s : State) : (setV c v s).inst = s.inst := by cases c <;> rfl
@[simp] theorem setV_bufs (c : CtxId) (v : Word) (s : State) : (setV c v s).bufs = s.bufs := by cases c <;> rfl
@[simp] theorem setV_allocs (c : CtxId) (v : Word) (s : State) : (setV c v s).allocs = s.allocs := by cases c <;> rfl
@[simp] theorem setV_dev (c : CtxId) (v : Word) (s : State) : (setV c v s).dev = s.dev := by cases c <;> rfl
@[simp] theorem setV_mreg (c : CtxId) (v : Word) (s : State) : (setV c v s).mreg = s.mreg := by cases c <;> rfl
@[simp] theorem setV_dma (c : CtxId) (v : Word) (s : State) : (setV c v s).dma = s.dma := by cases c <;> rfl
@[simp] theorem setV_phyReg (c : CtxId) (v : Word) (s : State) : (setV c v s).phyReg = s.phyReg := by cases c <;> rfl
@[simp] theorem setV_hmem (c : CtxId) (v : Word) (s : State) : (setV c v s).hmem = s.hmem := by cases c <;> rfl
@[simp] theorem setV_bus (c : CtxId) (v : Word) (s : State) : (setV c v s).bus = s.bus := by cases c <;> rfl
@[simp] theorem setV_env (c : CtxId) (v : Word) (s : State) : (setV c v s).env = s.env := by cases c <;> rfl
@[simp] theorem setV_log (c : CtxId) (v : Word) (s : State) : (setV c v s).log = s.log := by cases c <;> rfl
@[simp] theorem setV_trace (c : CtxId) (v : Word) (s : State) : (setV c v s).trace = s.trace := by cases c <;> rfl
@[simp] theorem setV_agenda (c : CtxId) (v : Word) (s : State) : (setV c v s).agenda = s.agenda := by cases c <;> rfl
@[simp] theorem setN_cfg (c : CtxId) (v : Word) (s : State) : (setN c v s).cfg = s.cfg := by cases c <;> rfl
@[simp] theorem setN_hif (c : CtxId) (v : Word) (s : State) : (setN c v s).hif = s.hif := by cases c <;> rfl
@[simp] theorem setN_wstate (c : CtxId) (v : Word) (s : State) : (setN c v s).wstate = s.wstate := by cases c <;> rfl
@[simp] theorem setN_drain (c : CtxId) (v : Word) (s : State) : (setN c v s).drain = s.drain := by cases c <;> rfl
@[simp] theorem setN_flags (c : CtxId) (v : Word) (s : State) : (setN c v s).flags = s.flags := by cases c <;> rfl
@[simp] theorem setN_lock (c : CtxId) (v : Word) (s : State) : (setN c v s).lock = s.lock := by cases c <;> rfl
@[simp] theorem setN_inst (c : CtxId) (v : Word) (s : State) : (setN c v s).inst = s.inst := by cases c <;> rfl
@[simp] theorem setN_bufs (c : CtxId) (v : Word) (s : State) : (setN c v s).bufs = s.bufs := by cases c <;> rfl
@[simp] theorem setN_allocs (c : CtxId) (v : Word) (s : State) : (setN c v s).allocs = s.allocs := by cases c <;> rfl
@[simp] theorem setN_dev (c : CtxId) (v : Word) (s : State) : (setN c v s).dev = s.dev := by cases c <;> rfl
@[simp] theorem setN_mreg (c : CtxId) (v : Word) (s : State) : (setN c v s).mreg = s.mreg := by cases c <;> rfl
@[simp] theorem setN_dma (c : CtxId) (v : Word) (s : State) : (setN c v s).dma = s.dma := by cases c <;> rfl
@[simp] theorem setN_phyReg (c : CtxId) (v : Word) (s : State) : (setN c v s).phyReg = s.phyReg := by cases c <;> rfl
@[simp] theorem setN_hmem (c : CtxId) (v : Word) (s : State) : (setN c v s).hmem = s.hmem := by cases c <;> rfl
@[simp] theorem setN_bus (c : CtxId) (v : Word) (s : State) : (setN c v s).bus = s.bus := by cases c <;> rfl
@[simp] theorem setN_env (c : CtxId) (v : Word) (s : State) : (setN c v s).env = s.env := by cases c <;> rfl
@[simp] theorem setN_log (c : CtxId) (v : Word) (s : State) : (setN c v s).log = s.log := by cases c <;> rfl
@[simp] theorem setN_trace (c : CtxId) (v : Word) (s : State) : (setN c v s).trace = s.trace := by cases c <;> rfl
@[simp] theorem setN_agenda (c : CtxId) (v : Word) (s : State) : (setN c v s).agenda = s.agenda := by cases c <;> rfl
@[simp] theorem setP_cfg (c : CtxId) (v : Word) (s : State) : (setP c v s).cfg = s.cfg := by cases c <;> rfl
@[simp] theorem setP_hif (c : CtxId) (v : Word) (s : State) : (setP c v s).hif = s.hif := by cases c <;> rfl
@[simp] theorem setP_wstate (c : CtxId) (v : Word) (s : State) : (setP c v s).wstate = s.wstate := by cases c <;> rfl
@[simp] theorem setP_drain (c : CtxId) (v : Word) (s : State) : (setP c v s).drain = s.drain := by cases c <;> rfl
@[simp] theorem setP_flags (c : CtxId) (v : Word) (s : State) : (setP c v s).flags = s.flags := by cases c <;> rfl
@[simp] theorem setP_lock (c : CtxId) (v : Word) (s : State) : (setP c v s).lock = s.lock := by cases c <;> rfl
@[simp] theorem setP_inst (c : CtxId) (v : Word) (s : State) : (setP c v s).inst = s.inst := by cases c <;> rfl
@[simp] theorem setP_bufs (c : CtxId) (v : Word) (s : State) : (setP c v s).bufs = s.bufs := by cases c <;> rfl
@[simp] theorem setP_allocs (c : CtxId) (v : Word) (s : State) : (setP c v s).allocs = s.allocs := by cases c <;> rfl
@[simp] theorem setP_dev (c : CtxId) (v : Word) (s : State) : (setP c v s).dev = s.dev := by cases c <;> rfl
@[simp] theorem setP_mreg (c : CtxId) (v : Word) (s : State) : (setP c v s).mreg = s.mreg := by cases c <;> rfl
@[simp] theorem setP_dma (c : CtxId) (v : Word) (s : State) : (setP c v s).dma = s.dma := by cases c <;> rfl
@[simp] theorem setP_phyReg (c : CtxId) (v : Word) (s : State) : (setP c v s).phyReg = s.phyReg := by cases c <;> rfl
@[simp] theorem setP_hmem (c : CtxId) (v : Word) (s : State) : (setP c v s).hmem = s.hmem := by cases c <;> rfl
@[simp] theorem setP_bus (c : CtxId) (v : Word) (s : State) : (setP c v s).bus = s.bus := by cases c <;> rfl
@[simp] theorem setP_env (c : CtxId) (v : Word) (s : State) : (setP c v s).env = s.env := by cases c <;> rfl
@[simp] theorem setP_log (c : CtxId) (v : Word) (s : State) : (setP c v s).log = s.log := by cases c <;> rfl
@[simp] theorem setP_trace (c : CtxId) (v : Word) (s : State) : (setP c v s).trace = s.trace := by cases c <;> rfl
@[simp] theorem setP_agenda (c : CtxId) (v : Word) (s : State) : (setP c v s).agenda = s.agenda := by cases c <;> rfl
@[simp] theorem setAcc_cfg (c : CtxId) (v : Word) (s : State) : (setAcc c v s).cfg = s.cfg := by cases c <;> rfl
@[simp] theorem setAcc_hif (c : CtxId) (v : Word) (s : State) : (setAcc c v s).hif = s.hif := by cases c <;> rfl
@[simp] theorem setAcc_wstate (c : CtxId) (v : Word) (s : State) : (setAcc c v s).wstate = s.wstate := by cases c <;> rfl
@[simp] theorem setAcc_drain (c : CtxId) (v : Word) (s : State) : (setAcc c v s).drain = s.drain := by cases c <;> rfl
@[simp] theorem setAcc_flags (c : CtxId) (v : Word) (s : State) : (setAcc c v s).flags = s.flags := by cases c <;> rfl
@[simp] theorem setAcc_lock (c : CtxId) (v : Word) (s : State) : (setAcc c v s).lock = s.lock := by cases c <;> rfl
@[simp] theorem setAcc_inst (c : CtxId) (v : Word) (s : State) : (setAcc c v s).inst = s.inst := by cases c <;> rfl
@[simp] theorem setAcc_bufs (c : CtxId) (v : Word) (s : State) : (setAcc c v s).bufs = s.bufs := by cases c <;> rfl
@[simp] theorem setAcc_allocs (c : CtxId) (v : Word) (s : State) : (setAcc c v s).allocs = s.allocs := by cases c <;> rfl
@[simp] theorem setAcc_dev (c : CtxId) (v : Word) (s : State) : (setAcc c v s).dev = s.dev := by cases c <;> rfl
@[simp] theorem setAcc_mreg (c : CtxId) (v : Word) (s : State) : (setAcc c v s).mreg = s.mreg := by cases c <;> rfl
@[simp] theorem setAcc_dma (c : CtxId) (v : Word) (s : State) : (setAcc c v s).dma = s.dma := by cases c <;> rfl
@[simp] theorem setAcc_phyReg (c : CtxId) (v : Word) (s : State) : (setAcc c v s).phyReg = s.phyReg := by cases c <;> rfl
@[simp] theorem setAcc_hmem (c : CtxId) (v : Word) (s : State) : (setAcc c v s).hmem = s.hmem := by cases c <;> rfl
@[simp] theorem setAcc_bus (c : CtxId) (v : Word) (s : State) : (setAcc c v s).bus = s.bus := by cases c <;> rfl
@[simp] theorem setAcc_env (c : CtxId) (v : Word) (s : State) : (setAcc c v s).env = s.env := by cases c <;> rfl
@[simp] theorem setAcc_log (c : CtxId) (v : Word) (s : State) : (setAcc c v s).log = s.log := by cases c <;> rfl
@[simp] theorem setAcc_trace (c : CtxId) (v : Word) (s : State) : (setAcc c v s).trace = s.trace := by cases c <;> rfl
@[simp] theorem setAcc_agenda (c : CtxId) (v : Word) (s : State) : (setAcc c v s).agenda = s.agenda := by cases c <;> rfl
@[simp] theorem setPc_cfg (c : CtxId) (p : Pc) (s : State) : (setPc c p s).cfg = s.cfg := by cases c <;> rfl
@[simp] theorem setPc_hif (c : CtxId) (p : Pc) (s : State) : (setPc c p s).hif = s.hif := by cases c <;> rfl
@[simp] theorem setPc_wstate (c : CtxId) (p : Pc) (s : State) : (setPc c p s).wstate = s.wstate := by cases c <;> rfl
@[simp] theorem setPc_drain (c : CtxId) (p : Pc) (s : State) : (setPc c p s).drain = s.drain := by cases c <;> rfl
@[simp] theorem setPc_flags (c : CtxId) (p : Pc) (s : State) : (setPc c p s).flags = s.flags := by cases c <;> rfl
@[simp] theorem setPc_lock (c : CtxId) (p : Pc) (s : State) : (setPc c p s).lock = s.lock := by cases c <;> rfl
@[simp] theorem setPc_inst (c : CtxId) (p : Pc) (s : State) : (setPc c p s).inst = s.inst := by cases c <;> rfl
@[simp] theorem setPc_bufs (c : CtxId) (p : Pc) (s : State) : (setPc c p s).bufs = s.bufs := by cases c <;> rfl
@[simp] theorem setPc_allocs (c : CtxId) (p : Pc) (s : State) : (setPc c p s).allocs = s.allocs := by cases c <;> rfl
@[simp] theorem setPc_dev (c : CtxId) (p : Pc) (s : State) : (setPc c p s).dev = s.dev := by cases c <;> rfl
@[simp] theorem setPc_mreg (c : CtxId) (p : Pc) (s : State) : (setPc c p s).mreg = s.mreg := by cases c <;> rfl
@[simp] theorem setPc_dma (c : CtxId) (p : Pc) (s : State) : (setPc c p s).dma = s.dma := by cases c <;> rfl
@[simp] theorem setPc_phyReg (c : CtxId) (p : Pc) (s : State) : (setPc c p s).phyReg = s.phyReg := by cases c <;> rfl
@[simp] theorem setPc_hmem (c : CtxId) (p : Pc) (s : State) : (setPc c p s).hmem = s.hmem := by cases c <;> rfl
@[simp] theorem setPc_bus (c : CtxId) (p : Pc) (s : State) : (setPc c p s).bus = s.bus := by cases c <;> rfl
@[simp] theorem setPc_env (c : CtxId) (p : Pc) (s : State) : (setPc c p s).env = s.env := by cases c <;> rfl
@[simp] theorem setPc_log (c : CtxId) (p : Pc) (s : State) : (setPc c p s).log = s.log := by cases c <;> rfl
@[simp] theorem setPc_trace (c : CtxId) (p : Pc) (s : State) : (setPc c p s).trace = s.trace := by cases c <;> rfl
@[simp] theorem setPc_agenda (c : CtxId) (p : Pc) (s : State) : (setPc c p s).agenda = s.agenda := by cases c <;> rfl
@[simp] theorem goto_cfg (c : CtxId) (m : Op) (l : Label) (s : State) : (goto c m l s).cfg = s.cfg := by cases c <;> rfl
@[simp] theorem goto_hif (c : CtxId) (m : Op) (l : Label) (s : State) : (goto c m l s).hif = s.hif := by cases c <;> rfl
@[simp] theorem goto_wstate (c : CtxId) (m : Op) (l : Label) (s : State) : (goto c m l s).wstate = s.wstate := by cases c <;> rfl
@[simp] theorem goto_drain (c : CtxId) (m : Op) (l : Label) (s : State) : (goto c m l s).drain = s.drain := by cases c <;> rfl
@[simp] theorem goto_flags (c : CtxId) (m : Op) (l : Label) (s : State) : (goto c m l s).flags = s.flags := by cases c <;> rfl
@[simp] theorem goto_lock (c : CtxId) (m : Op) (l : Label) (s : State) : (goto c m l s).lock = s.lock := by cases c <;> rfl
@[simp] theorem goto_inst (c : CtxId) (m : Op) (l : Label) (s : State) : (goto c m l s).inst = s.inst := by cases c <;> rfl
@[simp] theorem goto_bufs (c : CtxId) (m : Op) (l : Label) (s : State) : (goto c m l s).bufs = s.bufs := by cases c <;> rfl
@[simp] theorem goto_allocs (c : CtxId) (m : Op) (l : Label) (s : State) : (goto c m l s).allocs = s.allocs := by cases c <;> rfl
@[simp] theorem goto_dev (c : CtxId) (m : Op) (l : Label) (s : State) : (goto c m l s).dev = s.dev := by cases c <;> rfl
@[simp] theorem goto_mreg (c : CtxId) (m : Op) (l : Label) (s : State) : (goto c m l s).mreg = s.mreg := by cases c <;> rfl
@[simp] theorem goto_dma (c : CtxId) (m : Op) (l : Label) (s : State) : (goto c m l s).dma = s.dma := by cases c <;> rfl
@[simp] theorem goto_phyReg (c : CtxId) (m : Op) (l : Label) (s : State) : (goto c m l s).phyReg = s.phyReg := by cases c <;> rfl
@[simp] theorem goto_hmem (c : CtxId) (m : Op) (l : Label) (s : State) : (goto c m l s).hmem = s.hmem := by cases c <;> rfl
@[simp] theorem goto_bus (c : CtxId) (m : Op) (l : Label) (s : State) : (goto c m l s).bus = s.bus := by cases c <;> rfl
@[simp] theorem goto_env (c : CtxId) (m : Op) (l : Label) (s : State) : (goto c m l s).env = s.env := by cases c <;> rfl
@[simp] theorem goto_log (c : CtxId) (m : Op) (l : Label) (s : State) : (goto c m l s).log = s.log := by cases c <;> rfl
@[simp] theorem goto_trace (c : CtxId) (m : Op) (l : Label) (s : State) : (goto c m l s).trace = s.trace := by cases c <;> rfl
@[simp] theorem goto_agenda (c : CtxId) (m : Op) (l : Label) (s : State) : (goto c m l s).agenda = s.agenda := by cases c <;> rfl
@[simp] theorem latch_cfg (c : CtxId) (w a0 a1 : Word) (s : State) : (latch c w a0 a1 s).cfg = s.cfg := by cases c <;> rfl
@[simp] theorem latch_hif (c : CtxId) (w a0 a1 : Word) (s : State) : (latch c w a0 a1 s).hif = s.hif := by cases c <;> rfl
@[simp] theorem latch_wstate (c : CtxId) (w a0 a1 : Word) (s : State) : (latch c w a0 a1 s).wstate = s.wstate := by cases c <;> rfl
@[simp] theorem latch_drain (c : CtxId) (w a0 a1 : Word) (s : State) : (latch c w a0 a1 s).drain = s.drain := by cases c <;> rfl
@[simp] theorem latch_flags (c : CtxId) (w a0 a1 : Word) (s : State) : (latch c w a0 a1 s).flags = s.flags := by cases c <;> rfl
@[simp] theorem latch_lock (c : CtxId) (w a0 a1 : Word) (s : State) : (latch c w a0 a1 s).lock = s.lock := by cases c <;> rfl
@[simp] theorem latch_inst (c : CtxId) (w a0 a1 : Word) (s : State) : (latch c w a0 a1 s).inst = s.inst := by cases c <;> rfl
@[simp] theorem latch_bufs (c : CtxId) (w a0 a1 : Word) (s : State) : (latch c w a0 a1 s).bufs = s.bufs := by cases c <;> rfl
@[simp] theorem latch_allocs (c : CtxId) (w a0 a1 : Word) (s : State) : (latch c w a0 a1 s).allocs = s.allocs := by cases c <;> rfl
@[simp] theorem latch_dev (c : CtxId) (w a0 a1 : Word) (s : State) : (latch c w a0 a1 s).dev = s.dev := by cases c <;> rfl
@[simp] theorem latch_mreg (c : CtxId) (w a0 a1 : Word) (s : State) : (latch c w a0 a1 s).mreg = s.mreg := by cases c <;> rfl
@[simp] theorem latch_dma (c : CtxId) (w a0 a1 : Word) (s : State) : (latch c w a0 a1 s).dma = s.dma := by cases c <;> rfl
@[simp] theorem latch_phyReg (c : CtxId) (w a0 a1 : Word) (s : State) : (latch c w a0 a1 s).phyReg = s.phyReg := by cases c <;> rfl
@[simp] theorem latch_hmem (c : CtxId) (w a0 a1 : Word) (s : State) : (latch c w a0 a1 s).hmem = s.hmem := by cases c <;> rfl
@[simp] theorem latch_bus (c : CtxId) (w a0 a1 : Word) (s : State) : (latch c w a0 a1 s).bus = s.bus := by cases c <;> rfl
@[simp] theorem latch_env (c : CtxId) (w a0 a1 : Word) (s : State) : (latch c w a0 a1 s).env = s.env := by cases c <;> rfl
@[simp] theorem latch_log (c : CtxId) (w a0 a1 : Word) (s : State) : (latch c w a0 a1 s).log = s.log := by cases c <;> rfl
@[simp] theorem latch_trace (c : CtxId) (w a0 a1 : Word) (s : State) : (latch c w a0 a1 s).trace = s.trace := by cases c <;> rfl
@[simp] theorem latch_agenda (c : CtxId) (w a0 a1 : Word) (s : State) : (latch c w a0 a1 s).agenda = s.agenda := by cases c <;> rfl
@[simp] theorem setI_cfg (c : CtxId) (i : Nat) (s : State) : (setI c i s).cfg = s.cfg := by cases c <;> rfl
@[simp] theorem setI_hif (c : CtxId) (i : Nat) (s : State) : (setI c i s).hif = s.hif := by cases c <;> rfl
@[simp] theorem setI_wstate (c : CtxId) (i : Nat) (s : State) : (setI c i s).wstate = s.wstate := by cases c <;> rfl
@[simp] theorem setI_drain (c : CtxId) (i : Nat) (s : State) : (setI c i s).drain = s.drain := by cases c <;> rfl
@[simp] theorem setI_flags (c : CtxId) (i : Nat) (s : State) : (setI c i s).flags = s.flags := by cases c <;> rfl
@[simp] theorem setI_lock (c : CtxId) (i : Nat) (s : State) : (setI c i s).lock = s.lock := by cases c <;> rfl
@[simp] theorem setI_inst (c : CtxId) (i : Nat) (s : State) : (setI c i s).inst = s.inst := by cases c <;> rfl
@[simp] theorem setI_bufs (c : CtxId) (i : Nat) (s : State) : (setI c i s).bufs = s.bufs := by cases c <;> rfl
@[simp] theorem setI_allocs (c : CtxId) (i : Nat) (s : State) : (setI c i s).allocs = s.allocs := by cases c <;> rfl
@[simp] theorem setI_dev (c : CtxId) (i : Nat) (s : State) : (setI c i s).dev = s.dev := by cases c <;> rfl
@[simp] theorem setI_mreg (c : CtxId) (i : Nat) (s : State) : (setI c i s).mreg = s.mreg := by cases c <;> rfl
@[simp] theorem setI_dma (c : CtxId) (i : Nat) (s : State) : (setI c i s).dma = s.dma := by cases c <;> rfl
@[simp] theorem setI_phyReg (c : CtxId) (i : Nat) (s : State) : (setI c i s).phyReg = s.phyReg := by cases c <;> rfl
@[simp] theorem setI_hmem (c : CtxId) (i : Nat) (s : State) : (setI c i s).hmem = s.hmem := by cases c <;> rfl
@[simp] theorem setI_bus (c : CtxId) (i : Nat) (s : State) : (setI c i s).bus = s.bus := by cases c <;> rfl
@[simp] theorem setI_env (c : CtxId) (i : Nat) (s : State) : (setI c i s).env = s.env := by cases c <;> rfl
@[simp] theorem setI_log (c : CtxId) (i : Nat) (s : State) : (setI c i s).log = s.log := by cases c <;> rfl
@[simp] theorem setI_trace (c : CtxId) (i : Nat) (s : State) : (setI c i s).trace = s.trace := by cases c <;> rfl
@[simp] theorem setI_agenda (c : CtxId) (i : Nat) (s : State) : (setI c i s).agenda = s.agenda := by cases c <;> rfl
@[simp] theorem setJ_cfg (c : CtxId) (i : Nat) (s : State) : (setJ c i s).cfg = s.cfg := by cases c <;> rfl
@[simp] theorem setJ_hif (c : CtxId) (i : Nat) (s : State) : (setJ c i s).hif = s.hif := by cases c <;> rfl
@[simp] theorem setJ_wstate (c : CtxId) (i : Nat) (s : State) : (setJ c i s).wstate = s.wstate := by cases c <;> rfl
@[simp] theorem setJ_drain (c : CtxId) (i : Nat) (s : State) : (setJ c i s).drain = s.drain := by cases c <;> rfl
@[simp] theorem setJ_flags (c : CtxId) (i : Nat) (s : State) : (setJ c i s).flags = s.flags := by cases c <;> rfl
@[simp] theorem setJ_lock (c : CtxId) (i : Nat) (s : State) : (setJ c i s).lock = s.lock := by cases c <;> rfl
@[simp] theorem setJ_inst (c : CtxId) (i : Nat) (s : State) : (setJ c i s).inst = s.inst := by cases c <;> rfl
@[simp] theorem setJ_bufs (c : CtxId) (i : Nat) (s : State) : (setJ c i s).bufs = s.bufs := by cases c <;> rfl
@[simp] theorem setJ_allocs (c : CtxId) (i : Nat) (s : State) : (setJ c i s).allocs = s.allocs := by cases c <;> rfl
@[simp] theorem setJ_dev (c : CtxId) (i : Nat) (s : State) : (setJ c i s).dev = s.dev := by cases c <;> rfl
@[simp] theorem setJ_mreg (c : CtxId) (i : Nat) (s : State) : (setJ c i s).mreg = s.mreg := by cases c <;> rfl
@[simp] theorem setJ_dma (c : CtxId) (i : Nat) (s : State) : (setJ c i s).dma = s.dma := by cases c <;> rfl
@[simp] theorem setJ_phyReg (c : CtxId) (i : Nat) (s : State) : (setJ c i s).phyReg = s.phyReg := by cases c <;> rfl
@[simp] theorem setJ_hmem (c : CtxId) (i : Nat) (s : State) : (setJ c i s).hmem = s.hmem := by cases c <;> rfl
@[simp] theorem setJ_bus (c : CtxId) (i : Nat) (s : State) : (setJ c i s).bus = s.bus := by cases c <;> rfl
@[simp] theorem setJ_env (c : CtxId) (i : Nat) (s : State) : (setJ c i s).env = s.env := by cases c <;> rfl
@[simp] theorem setJ_log (c : CtxId) (i : Nat) (s : State) : (setJ c i s).log = s.log := by cases c <;> rfl
@[simp] theorem setJ_trace (c : CtxId) (i : Nat) (s : State) : (setJ c i s).trace = s.trace := by cases c <;> rfl
@[simp] theorem setJ_agenda (c : CtxId) (i : Nat) (s : State) : (setJ c i s).agenda = s.agenda := by cases c <;> rfl
@[simp] theorem setK_cfg (c : CtxId) (i : Nat) (s : State) : (setK c i s).cfg = s.cfg := by cases c <;> rfl
@[simp] theorem setK_hif (c : CtxId) (i : Nat) (s : State) : (setK c i s).hif = s.hif := by cases c <;> rfl
@[simp] theorem setK_wstate (c : CtxId) (i : Nat) (s : State) : (setK c i s).wstate = s.wstate := by cases c <;> rfl
@[simp] theorem setK_drain (c : CtxId) (i : Nat) (s : State) : (setK c i s).drain = s.drain := by cases c <;> rfl
@[simp] theorem setK_flags (c : CtxId) (i : Nat) (s : State) : (setK c i s).flags = s.flags := by cases c <;> rfl
@[simp] theorem setK_lock (c : CtxId) (i : Nat) (s : State) : (setK c i s).lock = s.lock := by cases c <;> rfl
@[simp] theorem setK_inst (c : CtxId) (i : Nat) (s : State) : (setK c i s).inst = s.inst := by cases c <;> rfl
@[simp] theorem setK_bufs (c : CtxId) (i : Nat) (s : State) : (setK c i s).bufs = s.bufs := by cases c <;> rfl
@[simp] theorem setK_allocs (c : CtxId) (i : Nat) (s : State) : (setK c i s).allocs = s.allocs := by cases c <;> rfl
@[simp] theorem setK_dev (c : CtxId) (i : Nat) (s : State) : (setK c i s).dev = s.dev := by cases c <;> rfl
@[simp] theorem setK_mreg (c : CtxId) (i : Nat) (s : State) : (setK c i s).mreg = s.mreg := by cases c <;> rfl
@[simp] theorem setK_dma (c : CtxId) (i : Nat) (s : State) : (setK c i s).dma = s.dma := by cases c <;> rfl
@[simp] theorem setK_phyReg (c : CtxId) (i : Nat) (s : State) : (setK c i s).phyReg = s.phyReg := by cases c <;> rfl
@[simp] theorem setK_hmem (c : CtxId) (i : Nat) (s : State) : (setK c i s).hmem = s.hmem := by cases c <;> rfl
@[simp] theorem setK_bus (c : CtxId) (i : Nat) (s : State) : (setK c i s).bus = s.bus := by cases c <;> rfl
@[simp] theorem setK_env (c : CtxId) (i : Nat) (s : State) : (setK c i s).env = s.env := by cases c <;> rfl
@[simp] theorem setK_log (c : CtxId) (i : Nat) (s : State) : (setK c i s).log = s.log := by cases c <;> rfl
@[simp] theorem setK_trace (c : CtxId) (i : Nat) (s : State) : (setK c i s).trace = s.trace := by cases c <;> rfl
@[simp] theorem setK_agenda (c : CtxId) (i : Nat) (s : State) : (setK c i s).agenda = s.agenda := by cases c <;> rfl
@[simp] theorem setBytes_cfg (c : CtxId) (bs : List Byte) (s : State) : (setBytes c bs s).cfg = s.cfg := by cases c <;> rfl
@[simp] theorem setBytes_hif (c : CtxId) (bs : List Byte) (s : State) : (setBytes c bs s).hif = s.hif := by cases c <;> rfl
@[simp] theorem setBytes_wstate (c : CtxId) (bs : List Byte) (s : State) : (setBytes c bs s).wstate = s.wstate := by cases c <;> rfl
@[simp] theorem setBytes_drain (c : CtxId) (bs : List Byte) (s : State) : (setBytes c bs s).drain = s.drain := by cases c <;> rfl
@[simp] theorem setBytes_flags (c : CtxId) (bs : List Byte) (s : State) : (setBytes c bs s).flags = s.flags := by cases c <;> rfl
@[simp] theorem setBytes_lock (c : CtxId) (bs : List Byte) (s : State) : (setBytes c bs s).lock = s.lock := by cases c <;> rfl
@[simp] theorem setBytes_inst (c : CtxId) (bs : List Byte) (s : State) : (setBytes c bs s).inst = s.inst := by cases c <;> rfl
@[simp] theorem setBytes_bufs (c : CtxId) (bs : List Byte) (s : State) : (setBytes c bs s).bufs = s.bufs := by cases c <;> rfl
@[simp] theorem setBytes_allocs (c : CtxId) (bs : List Byte) (s : State) : (setBytes c bs s).allocs = s.allocs := by cases c <;> rfl
@[simp] theorem setBytes_dev (c : CtxId) (bs : List Byte) (s : State) : (setBytes c bs s).dev = s.dev := by cases c <;> rfl
@[simp] theorem setBytes_mreg (c : CtxId) (bs : List Byte) (s : State) : (setBytes c bs s).mreg = s.mreg := by cases c <;> rfl
@[simp] theorem setBytes_dma (c : CtxId) (bs : List Byte) (s : State) : (setBytes c bs s).dma = s.dma := by cases c <;> rfl
@[simp] theorem setBytes_phyReg (c : CtxId) (bs : List Byte) (s : State) : (setBytes c bs s).phyReg = s.phyReg := by cases c <;> rfl
@[simp] theorem setBytes_hmem (c : CtxId) (bs : List Byte) (s : State) : (setBytes c bs s).hmem = s.hmem := by cases c <;> rfl
@[simp] theorem setBytes_bus (c : CtxId) (bs : List Byte) (s : State) : (setBytes c bs s).bus = s.bus := by cases c <;> rfl
@[simp] theorem setBytes_env (c : CtxId) (bs : List Byte) (s : State) : (setBytes c bs s).env = s.env := by cases c <;> rfl
@[simp] theorem setBytes_log (c : CtxId) (bs : List Byte) (s : State) : (setBytes c bs s).log = s.log := by cases c <;> rfl
@[simp] theorem setBytes_trace (c : CtxId) (bs : List Byte) (s : State) : (setBytes c bs s).trace = s.trace := by cases c <;> rfl
@[simp] theorem setBytes_agenda (c : CtxId) (bs : List Byte) (s : State) : (setBytes c bs s).agenda = s.agenda := by cases c <;> rfl
@[simp] theorem setPos_cfg (c : CtxId) (p : Nat) (s : State) : (setPos c p s).cfg = s.cfg := by cases c <;> rfl
@[simp] theorem setPos_hif (c : CtxId) (p : Nat) (s : State) : (setPos c p s).hif = s.hif := by cases c <;> rfl
@[simp] theorem setPos_wstate (c : CtxId) (p : Nat) (s : State) : (setPos c p s).wstate = s.wstate := by cases c <;> rfl
@[simp] theorem setPos_drain (c : CtxId) (p : Nat) (s : State) : (setPos c p s).drain = s.drain := by cases c <;> rfl
@[simp] theorem setPos_flags (c : CtxId) (p : Nat) (s : State) : (setPos c p s).flags = s.flags := by cases c <;> rfl
@[simp] theorem setPos_lock (c : CtxId) (p : Nat) (s : State) : (setPos c p s).lock = s.lock := by cases c <;> rfl
@[simp] theorem setPos_inst (c : CtxId) (p : Nat) (s : State) : (setPos c p s).inst = s.inst := by cases c <;> rfl
@[simp] theorem setPos_bufs (c : CtxId) (p : Nat) (s : State) : (setPos c p s).bufs = s.bufs := by cases c <;> rfl
@[simp] theorem setPos_allocs (c : CtxId) (p : Nat) (s : State) : (setPos c p s).allocs = s.allocs := by cases c <;> rfl
@[simp] theorem setPos_dev (c : CtxId) (p : Nat) (s : State) : (setPos c p s).dev = s.dev := by cases c <;> rfl
@[simp] theorem setPos_mreg (c : CtxId) (p : Nat) (s : State) : (setPos c p s).mreg = s.mreg := by cases c <;> rfl
@[simp] theorem setPos_dma (c : CtxId) (p : Nat) (s : State) : (setPos c p s).dma = s.dma := by cases c <;> rfl
@[simp] theorem setPos_phyReg (c : CtxId) (p : Nat) (s : State) : (setPos c p s).phyReg = s.phyReg := by cases c <;> rfl
@[simp] theorem setPos_hmem (c : CtxId) (p : Nat) (s : State) : (setPos c p s).hmem = s.hmem := by cases c <;> rfl
@[simp] theorem setPos_bus (c : CtxId) (p : Nat) (s : State) : (setPos c p s).bus = s.bus := by cases c <;> rfl
@[simp] theorem setPos_env (c : CtxId) (p : Nat) (s : State) : (setPos c p s).env = s.env := by cases c <;> rfl
@[simp] theorem setPos_log (c : CtxId) (p : Nat) (s : State) : (setPos c p s).log = s.log := by cases c <;> rfl
@[simp] theorem setPos_trace (c : CtxId) (p : Nat) (s : State) : (setPos c p s).trace = s.trace := by cases c <;> rfl
@[simp] theorem setPos_agenda (c : CtxId) (p : Nat) (s : State) : (setPos c p s).agenda = s.agenda := by cases c <;> rfl

/-! ## Contexts: what the update leaves in the context -/

@[simp] theorem ctxOf_setCtx (c : CtxId) (x : Ctx) (s : State) : ctxOf c (setCtx c x s) = x := by cases c <;> rfl
@[simp] theorem ctxOf_H (s : State) : ctxOf .H s = s.hctx := rfl
@[simp] theorem ctxOf_W (s : State) : ctxOf .W s = s.wctx := rfl
@[simp] theorem setCtx_H_wctx (x : Ctx) (s : State) : (setCtx .H x s).wctx = s.wctx := rfl
@[simp] theorem setCtx_W_hctx (x : Ctx) (s : State) : (setCtx .W x s).hctx = s.hctx := rfl
@[simp] theorem modX_H_wctx (f : Regs → Regs) (s : State) : (modX .H f s).wctx = s.wctx := rfl
@[simp] theorem modX_W_hctx (f : Regs → Regs) (s : State) : (modX .W f s).hctx = s.hctx := rfl
@[simp] theorem modSc_H_wctx (f : Scratch → Scratch) (s : State) : (modSc .H f s).wctx = s.wctx := rfl
@[simp] theorem modSc_W_hctx (f : Scratch → Scratch) (s : State) : (modSc .W f s).hctx = s.hctx := rfl
@[simp] theorem setT_H_wctx (b : Byte) (s : State) : (setT .H b s).wctx = s.wctx := rfl
@[simp] theorem setT_W_hctx (b : Byte) (s : State) : (setT .W b s).hctx = s.hctx := rfl
@[simp] theorem setTw_H_wctx (v : Word) (s : State) : (setTw .H v s).wctx = s.wctx := rfl
@[simp] theorem setTw_W_hctx (v : Word) (s : State) : (setTw .W v s).hctx = s.hctx := rfl
@[simp] theorem setV_H_wctx (v : Word) (s : State) : (setV .H v s).wctx = s.wctx := rfl
@[simp] theorem setV_W_hctx (v : Word) (s : State) : (setV .W v s).hctx = s.hctx := rfl
@[simp] theorem setN_H_wctx (v : Word) (s : State) : (setN .H v s).wctx = s.wctx := rfl
@[simp] theorem setN_W_hctx (v : Word) (s : State) : (setN .W v s).hctx = s.hctx := rfl
@[simp] theorem setP_H_wctx (v : Word) (s : State) : (setP .H v s).wctx = s.wctx := rfl
@[simp] theorem setP_W_hctx (v : Word) (s : State) : (setP .W v s).hctx = s.hctx := rfl
@[simp] theorem setAcc_H_wctx (v : Word) (s : State) : (setAcc .H v s).wctx = s.wctx := rfl
@[simp] theorem setAcc_W_hctx (v : Word) (s : State) : (setAcc .W v s).hctx = s.hctx := rfl
@[simp] theorem setPc_H_wctx (p : Pc) (s : State) : (setPc .H p s).wctx = s.wctx := rfl
@[simp] theorem setPc_W_hctx (p : Pc) (s : State) : (setPc .W p s).hctx = s.hctx := rfl
@[simp] theorem goto_H_wctx (m : Op) (l : Label) (s : State) : (goto .H m l s).wctx = s.wctx := rfl
@[simp] theorem goto_W_hctx (m : Op) (l : Label) (s : State) : (goto .W m l s).hctx = s.hctx := rfl
@[simp] theorem latch_H_wctx (w a0 a1 : Word) (s : State) : (latch .H w a0 a1 s).wctx = s.wctx := rfl
@[simp] theorem latch_W_hctx (w a0 a1 : Word) (s : State) : (latch .W w a0 a1 s).hctx = s.hctx := rfl
@[simp] theorem setI_H_wctx (i : Nat) (s : State) : (setI .H i s).wctx = s.wctx := rfl
@[simp] theorem setI_W_hctx (i : Nat) (s : State) : (setI .W i s).hctx = s.hctx := rfl
@[simp] theorem setJ_H_wctx (i : Nat) (s : State) : (setJ .H i s).wctx = s.wctx := rfl
@[simp] theorem setJ_W_hctx (i : Nat) (s : State) : (setJ .W i s).hctx = s.hctx := rfl
@[simp] theorem setK_H_wctx (i : Nat) (s : State) : (setK .H i s).wctx = s.wctx := rfl
@[simp] theorem setK_W_hctx (i : Nat) (s : State) : (setK .W i s).hctx = s.hctx := rfl
@[simp] theorem setBytes_H_wctx (bs : List Byte) (s : State) : (setBytes .H bs s).wctx = s.wctx := rfl
@[simp] theorem setBytes_W_hctx (bs : List Byte) (s : State) : (setBytes .W bs s).hctx = s.hctx := rfl
@[simp] theorem setPos_H_wctx (p : Nat) (s : State) : (setPos .H p s).wctx = s.wctx := rfl
@[simp] theorem setPos_W_hctx (p : Nat) (s : State) : (setPos .W p s).hctx = s.hctx := rfl
@[simp] theorem scOf_modX (c : CtxId) (f : Regs → Regs) (s : State) (d : CtxId) : scOf d (modX c f s) = scOf d s := by cases c <;> cases d <;> rfl
@[simp] theorem xOf_modX (c : CtxId) (f : Regs → Regs) (s : State) : xOf c (modX c f s) = f (xOf c s) := by cases c <;> rfl
@[simp] theorem pc_modX (c : CtxId) (f : Regs → Regs) (s : State) (d : CtxId) : (ctxOf d (modX c f s)).pc = (ctxOf d s).pc := by cases c <;> cases d <;> rfl
@[simp] theorem xOf_modSc (c : CtxId) (f : Scratch → Scratch) (s : State) (d : CtxId) : xOf d (modSc c f s) = xOf d s := by cases c <;> cases d <;> rfl
@[simp] theorem scOf_modSc (c : CtxId) (f : Scratch → Scratch) (s : State) : scOf c (modSc c f s) = f (scOf c s) := by cases c <;> rfl
@[simp] theorem pc_modSc (c : CtxId) (f : Scratch → Scratch) (s : State) (d : CtxId) : (ctxOf d (modSc c f s)).pc = (ctxOf d s).pc := by cases c <;> cases d <;> rfl
@[simp] theorem scOf_setT (c : CtxId) (b : Byte) (s : State) (d : CtxId) : scOf d (setT c b s) = scOf d s := by cases c <;> cases d <;> rfl
@[simp] theorem xOf_setT (c : CtxId) (b : Byte) (s : State) : xOf c (setT c b s) = { xOf c s with t := some (zextByte b) } := by cases c <;> rfl
@[simp] theorem pc_setT (c : CtxId) (b : Byte) (s : State) (d : CtxId) : (ctxOf d (setT c b s)).pc = (ctxOf d s).pc := by cases c <;> cases d <;> rfl
@[simp] theorem scOf_setTw (c : CtxId) (v : Word) (s : State) (d : CtxId) : scOf d (setTw c v s) = scOf d s := by cases c <;> cases d <;> rfl
@[simp] theorem xOf_setTw (c : CtxId) (v : Word) (s : State) : xOf c (setTw c v s) = { xOf c s with t := some v } := by cases c <;> rfl
@[simp] theorem pc_setTw (c : CtxId) (v : Word) (s : State) (d : CtxId) : (ctxOf d (setTw c v s)).pc = (ctxOf d s).pc := by cases c <;> cases d <;> rfl
@[simp] theorem scOf_setV (c : CtxId) (v : Word) (s : State) (d : CtxId) : scOf d (setV c v s) = scOf d s := by cases c <;> cases d <;> rfl
@[simp] theorem xOf_setV (c : CtxId) (v : Word) (s : State) : xOf c (setV c v s) = { xOf c s with v := some v } := by cases c <;> rfl
@[simp] theorem pc_setV (c : CtxId) (v : Word) (s : State) (d : CtxId) : (ctxOf d (setV c v s)).pc = (ctxOf d s).pc := by cases c <;> cases d <;> rfl
@[simp] theorem scOf_setN (c : CtxId) (v : Word) (s : State) (d : CtxId) : scOf d (setN c v s) = scOf d s := by cases c <;> cases d <;> rfl
@[simp] theorem xOf_setN (c : CtxId) (v : Word) (s : State) : xOf c (setN c v s) = { xOf c s with n := some v } := by cases c <;> rfl
@[simp] theorem pc_setN (c : CtxId) (v : Word) (s : State) (d : CtxId) : (ctxOf d (setN c v s)).pc = (ctxOf d s).pc := by cases c <;> cases d <;> rfl
@[simp] theorem scOf_setP (c : CtxId) (v : Word) (s : State) (d : CtxId) : scOf d (setP c v s) = scOf d s := by cases c <;> cases d <;> rfl
@[simp] theorem xOf_setP (c : CtxId) (v : Word) (s : State) : xOf c (setP c v s) = { xOf c s with p := some v } := by cases c <;> rfl
@[simp] theorem pc_setP (c : CtxId) (v : Word) (s : State) (d : CtxId) : (ctxOf d (setP c v s)).pc = (ctxOf d s).pc := by cases c <;> cases d <;> rfl
@[simp] theorem scOf_setAcc (c : CtxId) (v : Word) (s : State) (d : CtxId) : scOf d (setAcc c v s) = scOf d s := by cases c <;> cases d <;> rfl
@[simp] theorem xOf_setAcc (c : CtxId) (v : Word) (s : State) : xOf c (setAcc c v s) = { xOf c s with acc := some v } := by cases c <;> rfl
@[simp] theorem pc_setAcc (c : CtxId) (v : Word) (s : State) (d : CtxId) : (ctxOf d (setAcc c v s)).pc = (ctxOf d s).pc := by cases c <;> cases d <;> rfl
@[simp] theorem xOf_setPc (c : CtxId) (p : Pc) (s : State) (d : CtxId) : xOf d (setPc c p s) = xOf d s := by cases c <;> cases d <;> rfl
@[simp] theorem scOf_setPc (c : CtxId) (p : Pc) (s : State) (d : CtxId) : scOf d (setPc c p s) = scOf d s := by cases c <;> cases d <;> rfl
@[simp] theorem pc_setPc (c : CtxId) (p : Pc) (s : State) : (ctxOf c (setPc c p s)).pc = p := by cases c <;> rfl
@[simp] theorem hctx_pc_setPc (p : Pc) (s : State) : (setPc .H p s).hctx.pc = p := rfl
@[simp] theorem xOf_goto (c : CtxId) (m : Op) (l : Label) (s : State) (d : CtxId) : xOf d (goto c m l s) = xOf d s := by cases c <;> cases d <;> rfl
@[simp] theorem scOf_goto (c : CtxId) (m : Op) (l : Label) (s : State) (d : CtxId) : scOf d (goto c m l s) = scOf d s := by cases c <;> cases d <;> rfl
@[simp] theorem pc_goto (c : CtxId) (m : Op) (l : Label) (s : State) : (ctxOf c (goto c m l s)).pc = .op m l := by cases c <;> rfl
@[simp] theorem hctx_pc_goto (m : Op) (l : Label) (s : State) : (goto .H m l s).hctx.pc = .op m l := rfl
@[simp] theorem xOf_setI (c : CtxId) (i : Nat) (s : State) (d : CtxId) : xOf d (setI c i s) = xOf d s := by cases c <;> cases d <;> rfl
@[simp] theorem scOf_setI (c : CtxId) (i : Nat) (s : State) : scOf c (setI c i s) = { scOf c s with i := some i } := by cases c <;> rfl
@[simp] theorem pc_setI (c : CtxId) (i : Nat) (s : State) (d : CtxId) : (ctxOf d (setI c i s)).pc = (ctxOf d s).pc := by cases c <;> cases d <;> rfl
@[simp] theorem xOf_setJ (c : CtxId) (i : Nat) (s : State) (d : CtxId) : xOf d (setJ c i s) = xOf d s := by cases c <;> cases d <;> rfl
@[simp] theorem scOf_setJ (c : CtxId) (i : Nat) (s : State) : scOf c (setJ c i s) = { scOf c s with j := some i } := by cases c <;> rfl
@[simp] theorem pc_setJ (c : CtxId) (i : Nat) (s : State) (d : CtxId) : (ctxOf d (setJ c i s)).pc = (ctxOf d s).pc := by cases c <;> cases d <;> rfl
@[simp] theorem xOf_setK (c : CtxId) (i : Nat) (s : State) (d : CtxId) : xOf d (setK c i s) = xOf d s := by cases c <;> cases d <;> rfl
@[simp] theorem scOf_setK (c : CtxId) (i : Nat) (s : State) : scOf c (setK c i s) = { scOf c s with k := some i } := by cases c <;> rfl
@[simp] theorem pc_setK (c : CtxId) (i : Nat) (s : State) (d : CtxId) : (ctxOf d (setK c i s)).pc = (ctxOf d s).pc := by cases c <;> cases d <;> rfl
@[simp] theorem xOf_setBytes (c : CtxId) (bs : List Byte) (s : State) (d : CtxId) : xOf d (setBytes c bs s) = xOf d s := by cases c <;> cases d <;> rfl
@[simp] theorem scOf_setBytes (c : CtxId) (bs : List Byte) (s : State) : scOf c (setBytes c bs s) = { scOf c s with bytes := some bs, pos := 0 } := by cases c <;> rfl
@[simp] theorem pc_setBytes (c : CtxId) (bs : List Byte) (s : State) (d : CtxId) : (ctxOf d (setBytes c bs s)).pc = (ctxOf d s).pc := by cases c <;> cases d <;> rfl
@[simp] theorem xOf_setPos (c : CtxId) (p : Nat) (s : State) (d : CtxId) : xOf d (setPos c p s) = xOf d s := by cases c <;> cases d <;> rfl
@[simp] theorem scOf_setPos (c : CtxId) (p : Nat) (s : State) : scOf c (setPos c p s) = { scOf c s with pos := p } := by cases c <;> rfl
@[simp] theorem pc_setPos (c : CtxId) (p : Nat) (s : State) (d : CtxId) : (ctxOf d (setPos c p s)).pc = (ctxOf d s).pc := by cases c <;> cases d <;> rfl
@[simp] theorem hctx_pc_modX (f : Regs → Regs) (s : State) : (modX .H f s).hctx.pc = s.hctx.pc := rfl
@[simp] theorem hctx_pc_modSc (f : Scratch → Scratch) (s : State) : (modSc .H f s).hctx.pc = s.hctx.pc := rfl
@[simp] theorem hctx_pc_setT (b : Byte) (s : State) : (setT .H b s).hctx.pc = s.hctx.pc := rfl
@[simp] theorem hctx_pc_setTw (v : Word) (s : State) : (setTw .H v s).hctx.pc = s.hctx.pc := rfl
@[simp] theorem hctx_pc_setV (v : Word) (s : State) : (setV .H v s).hctx.pc = s.hctx.pc := rfl
@[simp] theorem hctx_pc_setN (v : Word) (s : State) : (setN .H v s).hctx.pc = s.hctx.pc := rfl
@[simp] theorem hctx_pc_setP (v : Word) (s : State) : (setP .H v s).hctx.pc = s.hctx.pc := rfl
@[simp] theorem hctx_pc_setAcc (v : Word) (s : State) : (setAcc .H v s).hctx.pc = s.hctx.pc := rfl
@[simp] theorem hctx_pc_setI (i : Nat) (s : State) : (setI .H i s).hctx.pc = s.hctx.pc := rfl
@[simp] theorem hctx_pc_setJ (i : Nat) (s : State) : (setJ .H i s).hctx.pc = s.hctx.pc := rfl
@[simp] theorem hctx_pc_setK (i : Nat) (s : State) : (setK .H i s).hctx.pc = s.hctx.pc := rfl
@[simp] theorem hctx_pc_setBytes (bs : List Byte) (s : State) : (setBytes .H bs s).hctx.pc = s.hctx.pc := rfl
@[simp] theorem hctx_pc_setPos (p : Nat) (s : State) : (setPos .H p s).hctx.pc = s.hctx.pc := rfl
@[simp] theorem xOf_latch (c : CtxId) (w a0 a1 : Word) (s : State) : xOf c (latch c w a0 a1 s) = { cw := some w, a0 := some a0, a1 := some a1 } := by cases c <;> rfl
@[simp] theorem scOf_latch (c : CtxId) (w a0 a1 : Word) (s : State) : scOf c (latch c w a0 a1 s) = {} := by cases c <;> rfl
@[simp] theorem pc_latch (c : CtxId) (w a0 a1 : Word) (s : State) (d : CtxId) : (ctxOf d (latch c w a0 a1 s)).pc = (ctxOf d s).pc := by cases c <;> cases d <;> rfl
@[simp] theorem hctx_pc_latch (w a0 a1 : Word) (s : State) : (latch .H w a0 a1 s).hctx.pc = s.hctx.pc := rfl
@[simp] theorem xOf_lock (c : CtxId) (o : Option CtxId) (s : State) : xOf c { s with lock := o } = xOf c s := by cases c <;> rfl
@[simp] theorem scOf_lock (c : CtxId) (o : Option CtxId) (s : State) : scOf c { s with lock := o } = scOf c s := by cases c <;> rfl

/-! ## Updates of one part of the state -/

@[simp] theorem logEntry_cfg (c : CtxId) (t : LogText) (s : State) : (logEntry c t s).cfg = s.cfg := rfl
@[simp] theorem logEntry_hif (c : CtxId) (t : LogText) (s : State) : (logEntry c t s).hif = s.hif := rfl
@[simp] theorem logEntry_hctx (c : CtxId) (t : LogText) (s : State) : (logEntry c t s).hctx = s.hctx := rfl
@[simp] theorem logEntry_wctx (c : CtxId) (t : LogText) (s : State) : (logEntry c t s).wctx = s.wctx := rfl
@[simp] theorem logEntry_wstate (c : CtxId) (t : LogText) (s : State) : (logEntry c t s).wstate = s.wstate := rfl
@[simp] theorem logEntry_drain (c : CtxId) (t : LogText) (s : State) : (logEntry c t s).drain = s.drain := rfl
@[simp] theorem logEntry_flags (c : CtxId) (t : LogText) (s : State) : (logEntry c t s).flags = s.flags := rfl
@[simp] theorem logEntry_lock (c : CtxId) (t : LogText) (s : State) : (logEntry c t s).lock = s.lock := rfl
@[simp] theorem logEntry_inst (c : CtxId) (t : LogText) (s : State) : (logEntry c t s).inst = s.inst := rfl
@[simp] theorem logEntry_bufs (c : CtxId) (t : LogText) (s : State) : (logEntry c t s).bufs = s.bufs := rfl
@[simp] theorem logEntry_allocs (c : CtxId) (t : LogText) (s : State) : (logEntry c t s).allocs = s.allocs := rfl
@[simp] theorem logEntry_dev (c : CtxId) (t : LogText) (s : State) : (logEntry c t s).dev = s.dev := rfl
@[simp] theorem logEntry_mreg (c : CtxId) (t : LogText) (s : State) : (logEntry c t s).mreg = s.mreg := rfl
@[simp] theorem logEntry_dma (c : CtxId) (t : LogText) (s : State) : (logEntry c t s).dma = s.dma := rfl
@[simp] theorem logEntry_phyReg (c : CtxId) (t : LogText) (s : State) : (logEntry c t s).phyReg = s.phyReg := rfl
@[simp] theorem logEntry_hmem (c : CtxId) (t : LogText) (s : State) : (logEntry c t s).hmem = s.hmem := rfl
@[simp] theorem logEntry_bus (c : CtxId) (t : LogText) (s : State) : (logEntry c t s).bus = s.bus := rfl
@[simp] theorem logEntry_env (c : CtxId) (t : LogText) (s : State) : (logEntry c t s).env = s.env := rfl
@[simp] theorem logEntry_trace (c : CtxId) (t : LogText) (s : State) : (logEntry c t s).trace = s.trace := rfl
@[simp] theorem logEntry_agenda (c : CtxId) (t : LogText) (s : State) : (logEntry c t s).agenda = s.agenda := rfl
@[simp] theorem observe_cfg (o : Obs) (s : State) : (observe o s).cfg = s.cfg := rfl
@[simp] theorem observe_hif (o : Obs) (s : State) : (observe o s).hif = s.hif := rfl
@[simp] theorem observe_hctx (o : Obs) (s : State) : (observe o s).hctx = s.hctx := rfl
@[simp] theorem observe_wctx (o : Obs) (s : State) : (observe o s).wctx = s.wctx := rfl
@[simp] theorem observe_wstate (o : Obs) (s : State) : (observe o s).wstate = s.wstate := rfl
@[simp] theorem observe_drain (o : Obs) (s : State) : (observe o s).drain = s.drain := rfl
@[simp] theorem observe_flags (o : Obs) (s : State) : (observe o s).flags = s.flags := rfl
@[simp] theorem observe_lock (o : Obs) (s : State) : (observe o s).lock = s.lock := rfl
@[simp] theorem observe_inst (o : Obs) (s : State) : (observe o s).inst = s.inst := rfl
@[simp] theorem observe_bufs (o : Obs) (s : State) : (observe o s).bufs = s.bufs := rfl
@[simp] theorem observe_allocs (o : Obs) (s : State) : (observe o s).allocs = s.allocs := rfl
@[simp] theorem observe_dev (o : Obs) (s : State) : (observe o s).dev = s.dev := rfl
@[simp] theorem observe_mreg (o : Obs) (s : State) : (observe o s).mreg = s.mreg := rfl
@[simp] theorem observe_dma (o : Obs) (s : State) : (observe o s).dma = s.dma := rfl
@[simp] theorem observe_phyReg (o : Obs) (s : State) : (observe o s).phyReg = s.phyReg := rfl
@[simp] theorem observe_hmem (o : Obs) (s : State) : (observe o s).hmem = s.hmem := rfl
@[simp] theorem observe_bus (o : Obs) (s : State) : (observe o s).bus = s.bus := rfl
@[simp] theorem observe_env (o : Obs) (s : State) : (observe o s).env = s.env := rfl
@[simp] theorem observe_log (o : Obs) (s : State) : (observe o s).log = s.log := rfl
@[simp] theorem observe_agenda (o : Obs) (s : State) : (observe o s).agenda = s.agenda := rfl
@[simp] theorem notify_cfg (n : Notice) (s : State) : (notify n s).cfg = s.cfg := rfl
@[simp] theorem notify_hif (n : Notice) (s : State) : (notify n s).hif = s.hif := rfl
@[simp] theorem notify_hctx (n : Notice) (s : State) : (notify n s).hctx = s.hctx := rfl
@[simp] theorem notify_wctx (n : Notice) (s : State) : (notify n s).wctx = s.wctx := rfl
@[simp] theorem notify_wstate (n : Notice) (s : State) : (notify n s).wstate = s.wstate := rfl
@[simp] theorem notify_drain (n : Notice) (s : State) : (notify n s).drain = s.drain := rfl
@[simp] theorem notify_flags (n : Notice) (s : State) : (notify n s).flags = s.flags := rfl
@[simp] theorem notify_lock (n : Notice) (s : State) : (notify n s).lock = s.lock := rfl
@[simp] theorem notify_inst (n : Notice) (s : State) : (notify n s).inst = s.inst := rfl
@[simp] theorem notify_bufs (n : Notice) (s : State) : (notify n s).bufs = s.bufs := rfl
@[simp] theorem notify_allocs (n : Notice) (s : State) : (notify n s).allocs = s.allocs := rfl
@[simp] theorem notify_dev (n : Notice) (s : State) : (notify n s).dev = s.dev := rfl
@[simp] theorem notify_mreg (n : Notice) (s : State) : (notify n s).mreg = s.mreg := rfl
@[simp] theorem notify_dma (n : Notice) (s : State) : (notify n s).dma = s.dma := rfl
@[simp] theorem notify_phyReg (n : Notice) (s : State) : (notify n s).phyReg = s.phyReg := rfl
@[simp] theorem notify_hmem (n : Notice) (s : State) : (notify n s).hmem = s.hmem := rfl
@[simp] theorem notify_bus (n : Notice) (s : State) : (notify n s).bus = s.bus := rfl
@[simp] theorem notify_env (n : Notice) (s : State) : (notify n s).env = s.env := rfl
@[simp] theorem notify_log (n : Notice) (s : State) : (notify n s).log = s.log := rfl
@[simp] theorem notify_agenda (n : Notice) (s : State) : (notify n s).agenda = s.agenda := rfl
@[simp] theorem hwrite_cfg (a : Nat) (bs : List Byte) (s : State) : (hwrite a bs s).cfg = s.cfg := rfl
@[simp] theorem hwrite_hif (a : Nat) (bs : List Byte) (s : State) : (hwrite a bs s).hif = s.hif := rfl
@[simp] theorem hwrite_hctx (a : Nat) (bs : List Byte) (s : State) : (hwrite a bs s).hctx = s.hctx := rfl
@[simp] theorem hwrite_wctx (a : Nat) (bs : List Byte) (s : State) : (hwrite a bs s).wctx = s.wctx := rfl
@[simp] theorem hwrite_wstate (a : Nat) (bs : List Byte) (s : State) : (hwrite a bs s).wstate = s.wstate := rfl
@[simp] theorem hwrite_drain (a : Nat) (bs : List Byte) (s : State) : (hwrite a bs s).drain = s.drain := rfl
@[simp] theorem hwrite_flags (a : Nat) (bs : List Byte) (s : State) : (hwrite a bs s).flags = s.flags := rfl
@[simp] theorem hwrite_lock (a : Nat) (bs : List Byte) (s : State) : (hwrite a bs s).lock = s.lock := rfl
@[simp] theorem hwrite_inst (a : Nat) (bs : List Byte) (s : State) : (hwrite a bs s).inst = s.inst := rfl
@[simp] theorem hwrite_bufs (a : Nat) (bs : List Byte) (s : State) : (hwrite a bs s).bufs = s.bufs := rfl
@[simp] theorem hwrite_allocs (a : Nat) (bs : List Byte) (s : State) : (hwrite a bs s).allocs = s.allocs := rfl
@[simp] theorem hwrite_dev (a : Nat) (bs : List Byte) (s : State) : (hwrite a bs s).dev = s.dev := rfl
@[simp] theorem hwrite_mreg (a : Nat) (bs : List Byte) (s : State) : (hwrite a bs s).mreg = s.mreg := rfl
@[simp] theorem hwrite_dma (a : Nat) (bs : List Byte) (s : State) : (hwrite a bs s).dma = s.dma := rfl
@[simp] theorem hwrite_phyReg (a : Nat) (bs : List Byte) (s : State) : (hwrite a bs s).phyReg = s.phyReg := rfl
@[simp] theorem hwrite_bus (a : Nat) (bs : List Byte) (s : State) : (hwrite a bs s).bus = s.bus := rfl
@[simp] theorem hwrite_env (a : Nat) (bs : List Byte) (s : State) : (hwrite a bs s).env = s.env := rfl
@[simp] theorem hwrite_log (a : Nat) (bs : List Byte) (s : State) : (hwrite a bs s).log = s.log := rfl
@[simp] theorem hwrite_trace (a : Nat) (bs : List Byte) (s : State) : (hwrite a bs s).trace = s.trace := rfl
@[simp] theorem hwrite_agenda (a : Nat) (bs : List Byte) (s : State) : (hwrite a bs s).agenda = s.agenda := rfl
@[simp] theorem hwrite32_cfg (a : Nat) (v : Word) (s : State) : (hwrite32 a v s).cfg = s.cfg := rfl
@[simp] theorem hwrite32_hif (a : Nat) (v : Word) (s : State) : (hwrite32 a v s).hif = s.hif := rfl
@[simp] theorem hwrite32_hctx (a : Nat) (v : Word) (s : State) : (hwrite32 a v s).hctx = s.hctx := rfl
@[simp] theorem hwrite32_wctx (a : Nat) (v : Word) (s : State) : (hwrite32 a v s).wctx = s.wctx := rfl
@[simp] theorem hwrite32_wstate (a : Nat) (v : Word) (s : State) : (hwrite32 a v s).wstate = s.wstate := rfl
@[simp] theorem hwrite32_drain (a : Nat) (v : Word) (s : State) : (hwrite32 a v s).drain = s.drain := rfl
@[simp] theorem hwrite32_flags (a : Nat) (v : Word) (s : State) : (hwrite32 a v s).flags = s.flags := rfl
@[simp] theorem hwrite32_lock (a : Nat) (v : Word) (s : State) : (hwrite32 a v s).lock = s.lock := rfl
@[simp] theorem hwrite32_inst (a : Nat) (v : Word) (s : State) : (hwrite32 a v s).inst = s.inst := rfl
@[simp] theorem hwrite32_bufs (a : Nat) (v : Word) (s : State) : (hwrite32 a v s).bufs = s.bufs := rfl
@[simp] theorem hwrite32_allocs (a : Nat) (v : Word) (s : State) : (hwrite32 a v s).allocs = s.allocs := rfl
@[simp] theorem hwrite32_dev (a : Nat) (v : Word) (s : State) : (hwrite32 a v s).dev = s.dev := rfl
@[simp] theorem hwrite32_mreg (a : Nat) (v : Word) (s : State) : (hwrite32 a v s).mreg = s.mreg := rfl
@[simp] theorem hwrite32_dma (a : Nat) (v : Word) (s : State) : (hwrite32 a v s).dma = s.dma := rfl
@[simp] theorem hwrite32_phyReg (a : Nat) (v : Word) (s : State) : (hwrite32 a v s).phyReg = s.phyReg := rfl
@[simp] theorem hwrite32_bus (a : Nat) (v : Word) (s : State) : (hwrite32 a v s).bus = s.bus := rfl
@[simp] theorem hwrite32_env (a : Nat) (v : Word) (s : State) : (hwrite32 a v s).env = s.env := rfl
@[simp] theorem hwrite32_log (a : Nat) (v : Word) (s : State) : (hwrite32 a v s).log = s.log := rfl
@[simp] theorem hwrite32_trace (a : Nat) (v : Word) (s : State) : (hwrite32 a v s).trace = s.trace := rfl
@[simp] theorem hwrite32_agenda (a : Nat) (v : Word) (s : State) : (hwrite32 a v s).agenda = s.agenda := rfl
@[simp] theorem addAlloc_cfg (a : Word) (n : Nat) (o : Owner) (s : State) : (addAlloc a n o s).cfg = s.cfg := rfl
@[simp] theorem addAlloc_hif (a : Word) (n : Nat) (o : Owner) (s : State) : (addAlloc a n o s).hif = s.hif := rfl
@[simp] theorem addAlloc_hctx (a : Word) (n : Nat) (o : Owner) (s : State) : (addAlloc a n o s).hctx = s.hctx := rfl
@[simp] theorem addAlloc_wctx (a : Word) (n : Nat) (o : Owner) (s : State) : (addAlloc a n o s).wctx = s.wctx := rfl
@[simp] theorem addAlloc_wstate (a : Word) (n : Nat) (o : Owner) (s : State) : (addAlloc a n o s).wstate = s.wstate := rfl
@[simp] theorem addAlloc_drain (a : Word) (n : Nat) (o : Owner) (s : State) : (addAlloc a n o s).drain = s.drain := rfl
@[simp] theorem addAlloc_flags (a : Word) (n : Nat) (o : Owner) (s : State) : (addAlloc a n o s).flags = s.flags := rfl
@[simp] theorem addAlloc_lock (a : Word) (n : Nat) (o : Owner) (s : State) : (addAlloc a n o s).lock = s.lock := rfl
@[simp] theorem addAlloc_inst (a : Word) (n : Nat) (o : Owner) (s : State) : (addAlloc a n o s).inst = s.inst := rfl
@[simp] theorem addAlloc_bufs (a : Word) (n : Nat) (o : Owner) (s : State) : (addAlloc a n o s).bufs = s.bufs := rfl
@[simp] theorem addAlloc_dev (a : Word) (n : Nat) (o : Owner) (s : State) : (addAlloc a n o s).dev = s.dev := rfl
@[simp] theorem addAlloc_mreg (a : Word) (n : Nat) (o : Owner) (s : State) : (addAlloc a n o s).mreg = s.mreg := rfl
@[simp] theorem addAlloc_dma (a : Word) (n : Nat) (o : Owner) (s : State) : (addAlloc a n o s).dma = s.dma := rfl
@[simp] theorem addAlloc_phyReg (a : Word) (n : Nat) (o : Owner) (s : State) : (addAlloc a n o s).phyReg = s.phyReg := rfl
@[simp] theorem addAlloc_hmem (a : Word) (n : Nat) (o : Owner) (s : State) : (addAlloc a n o s).hmem = s.hmem := rfl
@[simp] theorem addAlloc_bus (a : Word) (n : Nat) (o : Owner) (s : State) : (addAlloc a n o s).bus = s.bus := rfl
@[simp] theorem addAlloc_env (a : Word) (n : Nat) (o : Owner) (s : State) : (addAlloc a n o s).env = s.env := rfl
@[simp] theorem addAlloc_log (a : Word) (n : Nat) (o : Owner) (s : State) : (addAlloc a n o s).log = s.log := rfl
@[simp] theorem addAlloc_trace (a : Word) (n : Nat) (o : Owner) (s : State) : (addAlloc a n o s).trace = s.trace := rfl
@[simp] theorem addAlloc_agenda (a : Word) (n : Nat) (o : Owner) (s : State) : (addAlloc a n o s).agenda = s.agenda := rfl
@[simp] theorem freeAlloc_cfg (a : Word) (s : State) : (freeAlloc a s).cfg = s.cfg := rfl
@[simp] theorem freeAlloc_hif (a : Word) (s : State) : (freeAlloc a s).hif = s.hif := rfl
@[simp] theorem freeAlloc_hctx (a : Word) (s : State) : (freeAlloc a s).hctx = s.hctx := rfl
@[simp] theorem freeAlloc_wctx (a : Word) (s : State) : (freeAlloc a s).wctx = s.wctx := rfl
@[simp] theorem freeAlloc_wstate (a : Word) (s : State) : (freeAlloc a s).wstate = s.wstate := rfl
@[simp] theorem freeAlloc_drain (a : Word) (s : State) : (freeAlloc a s).drain = s.drain := rfl
@[simp] theorem freeAlloc_flags (a : Word) (s : State) : (freeAlloc a s).flags = s.flags := rfl
@[simp] theorem freeAlloc_lock (a : Word) (s : State) : (freeAlloc a s).lock = s.lock := rfl
@[simp] theorem freeAlloc_inst (a : Word) (s : State) : (freeAlloc a s).inst = s.inst := rfl
@[simp] theorem freeAlloc_dev (a : Word) (s : State) : (freeAlloc a s).dev = s.dev := rfl
@[simp] theorem freeAlloc_mreg (a : Word) (s : State) : (freeAlloc a s).mreg = s.mreg := rfl
@[simp] theorem freeAlloc_dma (a : Word) (s : State) : (freeAlloc a s).dma = s.dma := rfl
@[simp] theorem freeAlloc_phyReg (a : Word) (s : State) : (freeAlloc a s).phyReg = s.phyReg := rfl
@[simp] theorem freeAlloc_hmem (a : Word) (s : State) : (freeAlloc a s).hmem = s.hmem := rfl
@[simp] theorem freeAlloc_bus (a : Word) (s : State) : (freeAlloc a s).bus = s.bus := rfl
@[simp] theorem freeAlloc_env (a : Word) (s : State) : (freeAlloc a s).env = s.env := rfl
@[simp] theorem freeAlloc_log (a : Word) (s : State) : (freeAlloc a s).log = s.log := rfl
@[simp] theorem freeAlloc_trace (a : Word) (s : State) : (freeAlloc a s).trace = s.trace := rfl
@[simp] theorem freeAlloc_agenda (a : Word) (s : State) : (freeAlloc a s).agenda = s.agenda := rfl
@[simp] theorem giveAlloc_cfg (a : Word) (o : Owner) (s : State) : (giveAlloc a o s).cfg = s.cfg := rfl
@[simp] theorem giveAlloc_hif (a : Word) (o : Owner) (s : State) : (giveAlloc a o s).hif = s.hif := rfl
@[simp] theorem giveAlloc_hctx (a : Word) (o : Owner) (s : State) : (giveAlloc a o s).hctx = s.hctx := rfl
@[simp] theorem giveAlloc_wctx (a : Word) (o : Owner) (s : State) : (giveAlloc a o s).wctx = s.wctx := rfl
@[simp] theorem giveAlloc_wstate (a : Word) (o : Owner) (s : State) : (giveAlloc a o s).wstate = s.wstate := rfl
@[simp] theorem giveAlloc_drain (a : Word) (o : Owner) (s : State) : (giveAlloc a o s).drain = s.drain := rfl
@[simp] theorem giveAlloc_flags (a : Word) (o : Owner) (s : State) : (giveAlloc a o s).flags = s.flags := rfl
@[simp] theorem giveAlloc_lock (a : Word) (o : Owner) (s : State) : (giveAlloc a o s).lock = s.lock := rfl
@[simp] theorem giveAlloc_inst (a : Word) (o : Owner) (s : State) : (giveAlloc a o s).inst = s.inst := rfl
@[simp] theorem giveAlloc_bufs (a : Word) (o : Owner) (s : State) : (giveAlloc a o s).bufs = s.bufs := rfl
@[simp] theorem giveAlloc_dev (a : Word) (o : Owner) (s : State) : (giveAlloc a o s).dev = s.dev := rfl
@[simp] theorem giveAlloc_mreg (a : Word) (o : Owner) (s : State) : (giveAlloc a o s).mreg = s.mreg := rfl
@[simp] theorem giveAlloc_dma (a : Word) (o : Owner) (s : State) : (giveAlloc a o s).dma = s.dma := rfl
@[simp] theorem giveAlloc_phyReg (a : Word) (o : Owner) (s : State) : (giveAlloc a o s).phyReg = s.phyReg := rfl
@[simp] theorem giveAlloc_hmem (a : Word) (o : Owner) (s : State) : (giveAlloc a o s).hmem = s.hmem := rfl
@[simp] theorem giveAlloc_bus (a : Word) (o : Owner) (s : State) : (giveAlloc a o s).bus = s.bus := rfl
@[simp] theorem giveAlloc_env (a : Word) (o : Owner) (s : State) : (giveAlloc a o s).env = s.env := rfl
@[simp] theorem giveAlloc_log (a : Word) (o : Owner) (s : State) : (giveAlloc a o s).log = s.log := rfl
@[simp] theorem giveAlloc_trace (a : Word) (o : Owner) (s : State) : (giveAlloc a o s).trace = s.trace := rfl
@[simp] theorem giveAlloc_agenda (a : Word) (o : Owner) (s : State) : (giveAlloc a o s).agenda = s.agenda := rfl
@[simp] theorem setInt_cfg (x y : Byte) (s : State) : (setInt x y s).cfg = s.cfg := rfl
@[simp] theorem setInt_hif (x y : Byte) (s : State) : (setInt x y s).hif = s.hif := rfl
@[simp] theorem setInt_hctx (x y : Byte) (s : State) : (setInt x y s).hctx = s.hctx := rfl
@[simp] theorem setInt_wctx (x y : Byte) (s : State) : (setInt x y s).wctx = s.wctx := rfl
@[simp] theorem setInt_wstate (x y : Byte) (s : State) : (setInt x y s).wstate = s.wstate := rfl
@[simp] theorem setInt_drain (x y : Byte) (s : State) : (setInt x y s).drain = s.drain := rfl
@[simp] theorem setInt_lock (x y : Byte) (s : State) : (setInt x y s).lock = s.lock := rfl
@[simp] theorem setInt_inst (x y : Byte) (s : State) : (setInt x y s).inst = s.inst := rfl
@[simp] theorem setInt_bufs (x y : Byte) (s : State) : (setInt x y s).bufs = s.bufs := rfl
@[simp] theorem setInt_allocs (x y : Byte) (s : State) : (setInt x y s).allocs = s.allocs := rfl
@[simp] theorem setInt_mreg (x y : Byte) (s : State) : (setInt x y s).mreg = s.mreg := rfl
@[simp] theorem setInt_dma (x y : Byte) (s : State) : (setInt x y s).dma = s.dma := rfl
@[simp] theorem setInt_phyReg (x y : Byte) (s : State) : (setInt x y s).phyReg = s.phyReg := rfl
@[simp] theorem setInt_hmem (x y : Byte) (s : State) : (setInt x y s).hmem = s.hmem := rfl
@[simp] theorem setInt_bus (x y : Byte) (s : State) : (setInt x y s).bus = s.bus := rfl
@[simp] theorem setInt_env (x y : Byte) (s : State) : (setInt x y s).env = s.env := rfl
@[simp] theorem setInt_log (x y : Byte) (s : State) : (setInt x y s).log = s.log := rfl
@[simp] theorem setInt_trace (x y : Byte) (s : State) : (setInt x y s).trace = s.trace := rfl
@[simp] theorem setInt_agenda (x y : Byte) (s : State) : (setInt x y s).agenda = s.agenda := rfl
@[simp] theorem setCause_cfg (x : Byte) (s : State) : (setCause x s).cfg = s.cfg := rfl
@[simp] theorem setCause_hif (x : Byte) (s : State) : (setCause x s).hif = s.hif := rfl
@[simp] theorem setCause_hctx (x : Byte) (s : State) : (setCause x s).hctx = s.hctx := rfl
@[simp] theorem setCause_wctx (x : Byte) (s : State) : (setCause x s).wctx = s.wctx := rfl
@[simp] theorem setCause_wstate (x : Byte) (s : State) : (setCause x s).wstate = s.wstate := rfl
@[simp] theorem setCause_drain (x : Byte) (s : State) : (setCause x s).drain = s.drain := rfl
@[simp] theorem setCause_lock (x : Byte) (s : State) : (setCause x s).lock = s.lock := rfl
@[simp] theorem setCause_inst (x : Byte) (s : State) : (setCause x s).inst = s.inst := rfl
@[simp] theorem setCause_bufs (x : Byte) (s : State) : (setCause x s).bufs = s.bufs := rfl
@[simp] theorem setCause_allocs (x : Byte) (s : State) : (setCause x s).allocs = s.allocs := rfl
@[simp] theorem setCause_mreg (x : Byte) (s : State) : (setCause x s).mreg = s.mreg := rfl
@[simp] theorem setCause_dma (x : Byte) (s : State) : (setCause x s).dma = s.dma := rfl
@[simp] theorem setCause_phyReg (x : Byte) (s : State) : (setCause x s).phyReg = s.phyReg := rfl
@[simp] theorem setCause_hmem (x : Byte) (s : State) : (setCause x s).hmem = s.hmem := rfl
@[simp] theorem setCause_bus (x : Byte) (s : State) : (setCause x s).bus = s.bus := rfl
@[simp] theorem setCause_env (x : Byte) (s : State) : (setCause x s).env = s.env := rfl
@[simp] theorem setCause_log (x : Byte) (s : State) : (setCause x s).log = s.log := rfl
@[simp] theorem setCause_trace (x : Byte) (s : State) : (setCause x s).trace = s.trace := rfl
@[simp] theorem setCause_agenda (x : Byte) (s : State) : (setCause x s).agenda = s.agenda := rfl
@[simp] theorem moveCursor_cfg (a : Nat) (s : State) : (moveCursor a s).cfg = s.cfg := rfl
@[simp] theorem moveCursor_hif (a : Nat) (s : State) : (moveCursor a s).hif = s.hif := rfl
@[simp] theorem moveCursor_hctx (a : Nat) (s : State) : (moveCursor a s).hctx = s.hctx := rfl
@[simp] theorem moveCursor_wctx (a : Nat) (s : State) : (moveCursor a s).wctx = s.wctx := rfl
@[simp] theorem moveCursor_wstate (a : Nat) (s : State) : (moveCursor a s).wstate = s.wstate := rfl
@[simp] theorem moveCursor_drain (a : Nat) (s : State) : (moveCursor a s).drain = s.drain := rfl
@[simp] theorem moveCursor_flags (a : Nat) (s : State) : (moveCursor a s).flags = s.flags := rfl
@[simp] theorem moveCursor_lock (a : Nat) (s : State) : (moveCursor a s).lock = s.lock := rfl
@[simp] theorem moveCursor_inst (a : Nat) (s : State) : (moveCursor a s).inst = s.inst := rfl
@[simp] theorem moveCursor_allocs (a : Nat) (s : State) : (moveCursor a s).allocs = s.allocs := rfl
@[simp] theorem moveCursor_mreg (a : Nat) (s : State) : (moveCursor a s).mreg = s.mreg := rfl
@[simp] theorem moveCursor_dma (a : Nat) (s : State) : (moveCursor a s).dma = s.dma := rfl
@[simp] theorem moveCursor_phyReg (a : Nat) (s : State) : (moveCursor a s).phyReg = s.phyReg := rfl
@[simp] theorem moveCursor_hmem (a : Nat) (s : State) : (moveCursor a s).hmem = s.hmem := rfl
@[simp] theorem moveCursor_bus (a : Nat) (s : State) : (moveCursor a s).bus = s.bus := rfl
@[simp] theorem moveCursor_log (a : Nat) (s : State) : (moveCursor a s).log = s.log := rfl
@[simp] theorem moveCursor_trace (a : Nat) (s : State) : (moveCursor a s).trace = s.trace := rfl
@[simp] theorem moveCursor_agenda (a : Nat) (s : State) : (moveCursor a s).agenda = s.agenda := rfl
@[simp] theorem keepDrainHeader_cfg (before s : State) : (keepDrainHeader before s).cfg = s.cfg := by unfold keepDrainHeader; split <;> (try split) <;> rfl
@[simp] theorem keepDrainHeader_hif (before s : State) : (keepDrainHeader before s).hif = s.hif := by unfold keepDrainHeader; split <;> (try split) <;> rfl
@[simp] theorem keepDrainHeader_hctx (before s : State) : (keepDrainHeader before s).hctx = s.hctx := by unfold keepDrainHeader; split <;> (try split) <;> rfl
@[simp] theorem keepDrainHeader_wctx (before s : State) : (keepDrainHeader before s).wctx = s.wctx := by unfold keepDrainHeader; split <;> (try split) <;> rfl
@[simp] theorem keepDrainHeader_wstate (before s : State) : (keepDrainHeader before s).wstate = s.wstate := by unfold keepDrainHeader; split <;> (try split) <;> rfl
@[simp] theorem keepDrainHeader_drain (before s : State) : (keepDrainHeader before s).drain = s.drain := by unfold keepDrainHeader; split <;> (try split) <;> rfl
@[simp] theorem keepDrainHeader_flags (before s : State) : (keepDrainHeader before s).flags = s.flags := by unfold keepDrainHeader; split <;> (try split) <;> rfl
@[simp] theorem keepDrainHeader_lock (before s : State) : (keepDrainHeader before s).lock = s.lock := by unfold keepDrainHeader; split <;> (try split) <;> rfl
@[simp] theorem keepDrainHeader_inst (before s : State) : (keepDrainHeader before s).inst = s.inst := by unfold keepDrainHeader; split <;> (try split) <;> rfl
@[simp] theorem keepDrainHeader_allocs (before s : State) : (keepDrainHeader before s).allocs = s.allocs := by unfold keepDrainHeader; split <;> (try split) <;> rfl
@[simp] theorem keepDrainHeader_dev (before s : State) : (keepDrainHeader before s).dev = s.dev := by unfold keepDrainHeader; split <;> (try split) <;> rfl
@[simp] theorem keepDrainHeader_mreg (before s : State) : (keepDrainHeader before s).mreg = s.mreg := by unfold keepDrainHeader; split <;> (try split) <;> rfl
@[simp] theorem keepDrainHeader_dma (before s : State) : (keepDrainHeader before s).dma = s.dma := by unfold keepDrainHeader; split <;> (try split) <;> rfl
@[simp] theorem keepDrainHeader_phyReg (before s : State) : (keepDrainHeader before s).phyReg = s.phyReg := by unfold keepDrainHeader; split <;> (try split) <;> rfl
@[simp] theorem keepDrainHeader_hmem (before s : State) : (keepDrainHeader before s).hmem = s.hmem := by unfold keepDrainHeader; split <;> (try split) <;> rfl
@[simp] theorem keepDrainHeader_bus (before s : State) : (keepDrainHeader before s).bus = s.bus := by unfold keepDrainHeader; split <;> (try split) <;> rfl
@[simp] theorem keepDrainHeader_env (before s : State) : (keepDrainHeader before s).env = s.env := by unfold keepDrainHeader; split <;> (try split) <;> rfl
@[simp] theorem keepDrainHeader_log (before s : State) : (keepDrainHeader before s).log = s.log := by unfold keepDrainHeader; split <;> (try split) <;> rfl
@[simp] theorem keepDrainHeader_trace (before s : State) : (keepDrainHeader before s).trace = s.trace := by unfold keepDrainHeader; split <;> (try split) <;> rfl
@[simp] theorem keepDrainHeader_agenda (before s : State) : (keepDrainHeader before s).agenda = s.agenda := by unfold keepDrainHeader; split <;> (try split) <;> rfl
@[simp] theorem storeOutside_cfg (a : Nat) (bs : List Byte) (s : State) : (storeOutside a bs s).cfg = s.cfg := by unfold storeOutside; split <;> rfl
@[simp] theorem storeOutside_hif (a : Nat) (bs : List Byte) (s : State) : (storeOutside a bs s).hif = s.hif := by unfold storeOutside; split <;> rfl
@[simp] theorem storeOutside_wctx (a : Nat) (bs : List Byte) (s : State) : (storeOutside a bs s).wctx = s.wctx := by unfold storeOutside; split <;> rfl
@[simp] theorem storeOutside_wstate (a : Nat) (bs : List Byte) (s : State) : (storeOutside a bs s).wstate = s.wstate := by unfold storeOutside; split <;> rfl
@[simp] theorem storeOutside_drain (a : Nat) (bs : List Byte) (s : State) : (storeOutside a bs s).drain = s.drain := by unfold storeOutside; split <;> rfl
@[simp] theorem storeOutside_flags (a : Nat) (bs : List Byte) (s : State) : (storeOutside a bs s).flags = s.flags := by unfold storeOutside; split <;> rfl
@[simp] theorem storeOutside_lock (a : Nat) (bs : List Byte) (s : State) : (storeOutside a bs s).lock = s.lock := by unfold storeOutside; split <;> rfl
@[simp] theorem storeOutside_inst (a : Nat) (bs : List Byte) (s : State) : (storeOutside a bs s).inst = s.inst := by unfold storeOutside; split <;> rfl
@[simp] theorem storeOutside_bufs (a : Nat) (bs : List Byte) (s : State) : (storeOutside a bs s).bufs = s.bufs := by unfold storeOutside; split <;> rfl
@[simp] theorem storeOutside_allocs (a : Nat) (bs : List Byte) (s : State) : (storeOutside a bs s).allocs = s.allocs := by unfold storeOutside; split <;> rfl
@[simp] theorem storeOutside_dev (a : Nat) (bs : List Byte) (s : State) : (storeOutside a bs s).dev = s.dev := by unfold storeOutside; split <;> rfl
@[simp] theorem storeOutside_mreg (a : Nat) (bs : List Byte) (s : State) : (storeOutside a bs s).mreg = s.mreg := by unfold storeOutside; split <;> rfl
@[simp] theorem storeOutside_dma (a : Nat) (bs : List Byte) (s : State) : (storeOutside a bs s).dma = s.dma := by unfold storeOutside; split <;> rfl
@[simp] theorem storeOutside_phyReg (a : Nat) (bs : List Byte) (s : State) : (storeOutside a bs s).phyReg = s.phyReg := by unfold storeOutside; split <;> rfl
@[simp] theorem storeOutside_bus (a : Nat) (bs : List Byte) (s : State) : (storeOutside a bs s).bus = s.bus := by unfold storeOutside; split <;> rfl
@[simp] theorem storeOutside_log (a : Nat) (bs : List Byte) (s : State) : (storeOutside a bs s).log = s.log := by unfold storeOutside; split <;> rfl
@[simp] theorem storeOutside_trace (a : Nat) (bs : List Byte) (s : State) : (storeOutside a bs s).trace = s.trace := by unfold storeOutside; split <;> rfl
@[simp] theorem storeOutside_agenda (a : Nat) (bs : List Byte) (s : State) : (storeOutside a bs s).agenda = s.agenda := by unfold storeOutside; split <;> rfl
@[simp] theorem loadFrame_cfg (bs : List Byte) (s : State) : (loadFrame bs s).cfg = s.cfg := by unfold loadFrame; split <;> rfl
@[simp] theorem loadFrame_hif (bs : List Byte) (s : State) : (loadFrame bs s).hif = s.hif := by unfold loadFrame; split <;> rfl
@[simp] theorem loadFrame_hctx (bs : List Byte) (s : State) : (loadFrame bs s).hctx = s.hctx := by unfold loadFrame; split <;> rfl
@[simp] theorem loadFrame_wctx (bs : List Byte) (s : State) : (loadFrame bs s).wctx = s.wctx := by unfold loadFrame; split <;> rfl
@[simp] theorem loadFrame_wstate (bs : List Byte) (s : State) : (loadFrame bs s).wstate = s.wstate := by unfold loadFrame; split <;> rfl
@[simp] theorem loadFrame_drain (bs : List Byte) (s : State) : (loadFrame bs s).drain = s.drain := by unfold loadFrame; split <;> rfl
@[simp] theorem loadFrame_flags (bs : List Byte) (s : State) : (loadFrame bs s).flags = s.flags := by unfold loadFrame; split <;> rfl
@[simp] theorem loadFrame_lock (bs : List Byte) (s : State) : (loadFrame bs s).lock = s.lock := by unfold loadFrame; split <;> rfl
@[simp] theorem loadFrame_inst (bs : List Byte) (s : State) : (loadFrame bs s).inst = s.inst := by unfold loadFrame; split <;> rfl
@[simp] theorem loadFrame_bufs (bs : List Byte) (s : State) : (loadFrame bs s).bufs = s.bufs := by unfold loadFrame; split <;> rfl
@[simp] theorem loadFrame_allocs (bs : List Byte) (s : State) : (loadFrame bs s).allocs = s.allocs := by unfold loadFrame; split <;> rfl
@[simp] theorem loadFrame_dev (bs : List Byte) (s : State) : (loadFrame bs s).dev = s.dev := by unfold loadFrame; split <;> rfl
@[simp] theorem loadFrame_mreg (bs : List Byte) (s : State) : (loadFrame bs s).mreg = s.mreg := by unfold loadFrame; split <;> rfl
@[simp] theorem loadFrame_dma (bs : List Byte) (s : State) : (loadFrame bs s).dma = s.dma := by unfold loadFrame; split <;> rfl
@[simp] theorem loadFrame_phyReg (bs : List Byte) (s : State) : (loadFrame bs s).phyReg = s.phyReg := by unfold loadFrame; split <;> rfl
@[simp] theorem loadFrame_hmem (bs : List Byte) (s : State) : (loadFrame bs s).hmem = s.hmem := by unfold loadFrame; split <;> rfl
@[simp] theorem loadFrame_env (bs : List Byte) (s : State) : (loadFrame bs s).env = s.env := by unfold loadFrame; split <;> rfl
@[simp] theorem loadFrame_log (bs : List Byte) (s : State) : (loadFrame bs s).log = s.log := by unfold loadFrame; split <;> rfl
@[simp] theorem loadFrame_trace (bs : List Byte) (s : State) : (loadFrame bs s).trace = s.trace := by unfold loadFrame; split <;> rfl
@[simp] theorem loadFrame_agenda (bs : List Byte) (s : State) : (loadFrame bs s).agenda = s.agenda := by unfold loadFrame; split <;> rfl
@[simp] theorem resetRxPointer_cfg (s : State) : (resetRxPointer s).cfg = s.cfg := rfl
@[simp] theorem resetRxPointer_hif (s : State) : (resetRxPointer s).hif = s.hif := rfl
@[simp] theorem resetRxPointer_hctx (s : State) : (resetRxPointer s).hctx = s.hctx := rfl
@[simp] theorem resetRxPointer_wctx (s : State) : (resetRxPointer s).wctx = s.wctx := rfl
@[simp] theorem resetRxPointer_wstate (s : State) : (resetRxPointer s).wstate = s.wstate := rfl
@[simp] theorem resetRxPointer_drain (s : State) : (resetRxPointer s).drain = s.drain := rfl
@[simp] theorem resetRxPointer_flags (s : State) : (resetRxPointer s).flags = s.flags := rfl
@[simp] theorem resetRxPointer_lock (s : State) : (resetRxPointer s).lock = s.lock := rfl
@[simp] theorem resetRxPointer_inst (s : State) : (resetRxPointer s).inst = s.inst := rfl
@[simp] theorem resetRxPointer_allocs (s : State) : (resetRxPointer s).allocs = s.allocs := rfl
@[simp] theorem resetRxPointer_mreg (s : State) : (resetRxPointer s).mreg = s.mreg := rfl
@[simp] theorem resetRxPointer_dma (s : State) : (resetRxPointer s).dma = s.dma := rfl
@[simp] theorem resetRxPointer_phyReg (s : State) : (resetRxPointer s).phyReg = s.phyReg := rfl
@[simp] theorem resetRxPointer_hmem (s : State) : (resetRxPointer s).hmem = s.hmem := rfl
@[simp] theorem resetRxPointer_bus (s : State) : (resetRxPointer s).bus = s.bus := rfl
@[simp] theorem resetRxPointer_log (s : State) : (resetRxPointer s).log = s.log := rfl
@[simp] theorem resetRxPointer_trace (s : State) : (resetRxPointer s).trace = s.trace := rfl
@[simp] theorem resetRxPointer_agenda (s : State) : (resetRxPointer s).agenda = s.agenda := rfl
@[simp] theorem requestTx_cfg (b : Byte) (s : State) : (requestTx b s).cfg = s.cfg := rfl
@[simp] theorem requestTx_hif (b : Byte) (s : State) : (requestTx b s).hif = s.hif := rfl
@[simp] theorem requestTx_hctx (b : Byte) (s : State) : (requestTx b s).hctx = s.hctx := rfl
@[simp] theorem requestTx_wctx (b : Byte) (s : State) : (requestTx b s).wctx = s.wctx := rfl
@[simp] theorem requestTx_wstate (b : Byte) (s : State) : (requestTx b s).wstate = s.wstate := rfl
@[simp] theorem requestTx_drain (b : Byte) (s : State) : (requestTx b s).drain = s.drain := rfl
@[simp] theorem requestTx_flags (b : Byte) (s : State) : (requestTx b s).flags = s.flags := rfl
@[simp] theorem requestTx_lock (b : Byte) (s : State) : (requestTx b s).lock = s.lock := rfl
@[simp] theorem requestTx_inst (b : Byte) (s : State) : (requestTx b s).inst = s.inst := rfl
@[simp] theorem requestTx_bufs (b : Byte) (s : State) : (requestTx b s).bufs = s.bufs := rfl
@[simp] theorem requestTx_allocs (b : Byte) (s : State) : (requestTx b s).allocs = s.allocs := rfl
@[simp] theorem requestTx_mreg (b : Byte) (s : State) : (requestTx b s).mreg = s.mreg := rfl
@[simp] theorem requestTx_dma (b : Byte) (s : State) : (requestTx b s).dma = s.dma := rfl
@[simp] theorem requestTx_phyReg (b : Byte) (s : State) : (requestTx b s).phyReg = s.phyReg := rfl
@[simp] theorem requestTx_hmem (b : Byte) (s : State) : (requestTx b s).hmem = s.hmem := rfl
@[simp] theorem requestTx_bus (b : Byte) (s : State) : (requestTx b s).bus = s.bus := rfl
@[simp] theorem requestTx_log (b : Byte) (s : State) : (requestTx b s).log = s.log := rfl
@[simp] theorem requestTx_trace (b : Byte) (s : State) : (requestTx b s).trace = s.trace := rfl
@[simp] theorem requestTx_agenda (b : Byte) (s : State) : (requestTx b s).agenda = s.agenda := rfl
@[simp] theorem stageTx_cfg (bs : List Byte) (s : State) : (stageTx bs s).cfg = s.cfg := rfl
@[simp] theorem stageTx_hif (bs : List Byte) (s : State) : (stageTx bs s).hif = s.hif := rfl
@[simp] theorem stageTx_hctx (bs : List Byte) (s : State) : (stageTx bs s).hctx = s.hctx := rfl
@[simp] theorem stageTx_wctx (bs : List Byte) (s : State) : (stageTx bs s).wctx = s.wctx := rfl
@[simp] theorem stageTx_wstate (bs : List Byte) (s : State) : (stageTx bs s).wstate = s.wstate := rfl
@[simp] theorem stageTx_drain (bs : List Byte) (s : State) : (stageTx bs s).drain = s.drain := rfl
@[simp] theorem stageTx_flags (bs : List Byte) (s : State) : (stageTx bs s).flags = s.flags := rfl
@[simp] theorem stageTx_lock (bs : List Byte) (s : State) : (stageTx bs s).lock = s.lock := rfl
@[simp] theorem stageTx_inst (bs : List Byte) (s : State) : (stageTx bs s).inst = s.inst := rfl
@[simp] theorem stageTx_bufs (bs : List Byte) (s : State) : (stageTx bs s).bufs = s.bufs := rfl
@[simp] theorem stageTx_allocs (bs : List Byte) (s : State) : (stageTx bs s).allocs = s.allocs := rfl
@[simp] theorem stageTx_mreg (bs : List Byte) (s : State) : (stageTx bs s).mreg = s.mreg := rfl
@[simp] theorem stageTx_dma (bs : List Byte) (s : State) : (stageTx bs s).dma = s.dma := rfl
@[simp] theorem stageTx_phyReg (bs : List Byte) (s : State) : (stageTx bs s).phyReg = s.phyReg := rfl
@[simp] theorem stageTx_hmem (bs : List Byte) (s : State) : (stageTx bs s).hmem = s.hmem := rfl
@[simp] theorem stageTx_bus (bs : List Byte) (s : State) : (stageTx bs s).bus = s.bus := rfl
@[simp] theorem stageTx_env (bs : List Byte) (s : State) : (stageTx bs s).env = s.env := rfl
@[simp] theorem stageTx_log (bs : List Byte) (s : State) : (stageTx bs s).log = s.log := rfl
@[simp] theorem stageTx_trace (bs : List Byte) (s : State) : (stageTx bs s).trace = s.trace := rfl
@[simp] theorem stageTx_agenda (bs : List Byte) (s : State) : (stageTx bs s).agenda = s.agenda := rfl
@[simp] theorem mregWrite_cfg (r : MReg) (v : Word) (s : State) : (mregWrite r v s).cfg = s.cfg := by cases r <;> simp only [mregWrite, pollTx, pollRx, switchRx, switchTx] <;> (repeat' split) <;> rfl
@[simp] theorem mregWrite_hif (r : MReg) (v : Word) (s : State) : (mregWrite r v s).hif = s.hif := by cases r <;> simp only [mregWrite, pollTx, pollRx, switchRx, switchTx] <;> (repeat' split) <;> rfl
@[simp] theorem mregWrite_hctx (r : MReg) (v : Word) (s : State) : (mregWrite r v s).hctx = s.hctx := by cases r <;> simp only [mregWrite, pollTx, pollRx, switchRx, switchTx] <;> (repeat' split) <;> rfl
@[simp] theorem mregWrite_wctx (r : MReg) (v : Word) (s : State) : (mregWrite r v s).wctx = s.wctx := by cases r <;> simp only [mregWrite, pollTx, pollRx, switchRx, switchTx] <;> (repeat' split) <;> rfl
@[simp] theorem mregWrite_wstate (r : MReg) (v : Word) (s : State) : (mregWrite r v s).wstate = s.wstate := by cases r <;> simp only [mregWrite, pollTx, pollRx, switchRx, switchTx] <;> (repeat' split) <;> rfl
@[simp] theorem mregWrite_drain (r : MReg) (v : Word) (s : State) : (mregWrite r v s).drain = s.drain := by cases r <;> simp only [mregWrite, pollTx, pollRx, switchRx, switchTx] <;> (repeat' split) <;> rfl
@[simp] theorem mregWrite_flags (r : MReg) (v : Word) (s : State) : (mregWrite r v s).flags = s.flags := by cases r <;> simp only [mregWrite, pollTx, pollRx, switchRx, switchTx] <;> (repeat' split) <;> rfl
@[simp] theorem mregWrite_lock (r : MReg) (v : Word) (s : State) : (mregWrite r v s).lock = s.lock := by cases r <;> simp only [mregWrite, pollTx, pollRx, switchRx, switchTx] <;> (repeat' split) <;> rfl
@[simp] theorem mregWrite_inst (r : MReg) (v : Word) (s : State) : (mregWrite r v s).inst = s.inst := by cases r <;> simp only [mregWrite, pollTx, pollRx, switchRx, switchTx] <;> (repeat' split) <;> rfl
@[simp] theorem mregWrite_bufs (r : MReg) (v : Word) (s : State) : (mregWrite r v s).bufs = s.bufs := by cases r <;> simp only [mregWrite, pollTx, pollRx, switchRx, switchTx] <;> (repeat' split) <;> rfl
@[simp] theorem mregWrite_allocs (r : MReg) (v : Word) (s : State) : (mregWrite r v s).allocs = s.allocs := by cases r <;> simp only [mregWrite, pollTx, pollRx, switchRx, switchTx] <;> (repeat' split) <;> rfl
@[simp] theorem mregWrite_phyReg (r : MReg) (v : Word) (s : State) : (mregWrite r v s).phyReg = s.phyReg := by cases r <;> simp only [mregWrite, pollTx, pollRx, switchRx, switchTx] <;> (repeat' split) <;> rfl
@[simp] theorem mregWrite_hmem (r : MReg) (v : Word) (s : State) : (mregWrite r v s).hmem = s.hmem := by cases r <;> simp only [mregWrite, pollTx, pollRx, switchRx, switchTx] <;> (repeat' split) <;> rfl
@[simp] theorem mregWrite_bus (r : MReg) (v : Word) (s : State) : (mregWrite r v s).bus = s.bus := by cases r <;> simp only [mregWrite, pollTx, pollRx, switchRx, switchTx] <;> (repeat' split) <;> rfl
@[simp] theorem mregWrite_env (r : MReg) (v : Word) (s : State) : (mregWrite r v s).env = s.env := by cases r <;> simp only [mregWrite, pollTx, pollRx, switchRx, switchTx] <;> (repeat' split) <;> rfl
@[simp] theorem mregWrite_log (r : MReg) (v : Word) (s : State) : (mregWrite r v s).log = s.log := by cases r <;> simp only [mregWrite, pollTx, pollRx, switchRx, switchTx] <;> (repeat' split) <;> rfl
@[simp] theorem mregWrite_trace (r : MReg) (v : Word) (s : State) : (mregWrite r v s).trace = s.trace := by cases r <;> simp only [mregWrite, pollTx, pollRx, switchRx, switchTx] <;> (repeat' split) <;> rfl
@[simp] theorem mregWrite_agenda (r : MReg) (v : Word) (s : State) : (mregWrite r v s).agenda = s.agenda := by cases r <;> simp only [mregWrite, pollTx, pollRx, switchRx, switchTx] <;> (repeat' split) <;> rfl
@[simp] theorem completeHost_cfg (c x y : Word) (s : State) : (completeHost c x y s).cfg = s.cfg := rfl
@[simp] theorem completeHost_wctx (c x y : Word) (s : State) : (completeHost c x y s).wctx = s.wctx := rfl
@[simp] theorem completeHost_wstate (c x y : Word) (s : State) : (completeHost c x y s).wstate = s.wstate := rfl
@[simp] theorem completeHost_drain (c x y : Word) (s : State) : (completeHost c x y s).drain = s.drain := rfl
@[simp] theorem completeHost_flags (c x y : Word) (s : State) : (completeHost c x y s).flags = s.flags := rfl
@[simp] theorem completeHost_lock (c x y : Word) (s : State) : (completeHost c x y s).lock = s.lock := rfl
@[simp] theorem completeHost_inst (c x y : Word) (s : State) : (completeHost c x y s).inst = s.inst := rfl
@[simp] theorem completeHost_bufs (c x y : Word) (s : State) : (completeHost c x y s).bufs = s.bufs := rfl
@[simp] theorem completeHost_allocs (c x y : Word) (s : State) : (completeHost c x y s).allocs = s.allocs := rfl
@[simp] theorem completeHost_dev (c x y : Word) (s : State) : (completeHost c x y s).dev = s.dev := rfl
@[simp] theorem completeHost_mreg (c x y : Word) (s : State) : (completeHost c x y s).mreg = s.mreg := rfl
@[simp] theorem completeHost_dma (c x y : Word) (s : State) : (completeHost c x y s).dma = s.dma := rfl
@[simp] theorem completeHost_phyReg (c x y : Word) (s : State) : (completeHost c x y s).phyReg = s.phyReg := rfl
@[simp] theorem completeHost_hmem (c x y : Word) (s : State) : (completeHost c x y s).hmem = s.hmem := rfl
@[simp] theorem completeHost_bus (c x y : Word) (s : State) : (completeHost c x y s).bus = s.bus := rfl
@[simp] theorem completeHost_env (c x y : Word) (s : State) : (completeHost c x y s).env = s.env := rfl
@[simp] theorem completeHost_log (c x y : Word) (s : State) : (completeHost c x y s).log = s.log := rfl
@[simp] theorem completeHost_agenda (c x y : Word) (s : State) : (completeHost c x y s).agenda = s.agenda := rfl
@[simp] theorem drainTo_cfg (d : DLabel) (s : State) : (drainTo d s).cfg = s.cfg := rfl
@[simp] theorem drainTo_hif (d : DLabel) (s : State) : (drainTo d s).hif = s.hif := rfl
@[simp] theorem drainTo_hctx (d : DLabel) (s : State) : (drainTo d s).hctx = s.hctx := rfl
@[simp] theorem drainTo_wstate (d : DLabel) (s : State) : (drainTo d s).wstate = s.wstate := rfl
@[simp] theorem drainTo_drain (d : DLabel) (s : State) : (drainTo d s).drain = s.drain := rfl
@[simp] theorem drainTo_flags (d : DLabel) (s : State) : (drainTo d s).flags = s.flags := rfl
@[simp] theorem drainTo_lock (d : DLabel) (s : State) : (drainTo d s).lock = s.lock := rfl
@[simp] theorem drainTo_inst (d : DLabel) (s : State) : (drainTo d s).inst = s.inst := rfl
@[simp] theorem drainTo_bufs (d : DLabel) (s : State) : (drainTo d s).bufs = s.bufs := rfl
@[simp] theorem drainTo_allocs (d : DLabel) (s : State) : (drainTo d s).allocs = s.allocs := rfl
@[simp] theorem drainTo_dev (d : DLabel) (s : State) : (drainTo d s).dev = s.dev := rfl
@[simp] theorem drainTo_mreg (d : DLabel) (s : State) : (drainTo d s).mreg = s.mreg := rfl
@[simp] theorem drainTo_dma (d : DLabel) (s : State) : (drainTo d s).dma = s.dma := rfl
@[simp] theorem drainTo_phyReg (d : DLabel) (s : State) : (drainTo d s).phyReg = s.phyReg := rfl
@[simp] theorem drainTo_hmem (d : DLabel) (s : State) : (drainTo d s).hmem = s.hmem := rfl
@[simp] theorem drainTo_bus (d : DLabel) (s : State) : (drainTo d s).bus = s.bus := rfl
@[simp] theorem drainTo_env (d : DLabel) (s : State) : (drainTo d s).env = s.env := rfl
@[simp] theorem drainTo_log (d : DLabel) (s : State) : (drainTo d s).log = s.log := rfl
@[simp] theorem drainTo_trace (d : DLabel) (s : State) : (drainTo d s).trace = s.trace := rfl
@[simp] theorem drainTo_agenda (d : DLabel) (s : State) : (drainTo d s).agenda = s.agenda := rfl
@[simp] theorem drainWait_cfg (s : State) : (drainWait s).cfg = s.cfg := rfl
@[simp] theorem drainWait_hif (s : State) : (drainWait s).hif = s.hif := rfl
@[simp] theorem drainWait_hctx (s : State) : (drainWait s).hctx = s.hctx := rfl
@[simp] theorem drainWait_drain (s : State) : (drainWait s).drain = s.drain := rfl
@[simp] theorem drainWait_flags (s : State) : (drainWait s).flags = s.flags := rfl
@[simp] theorem drainWait_lock (s : State) : (drainWait s).lock = s.lock := rfl
@[simp] theorem drainWait_inst (s : State) : (drainWait s).inst = s.inst := rfl
@[simp] theorem drainWait_bufs (s : State) : (drainWait s).bufs = s.bufs := rfl
@[simp] theorem drainWait_allocs (s : State) : (drainWait s).allocs = s.allocs := rfl
@[simp] theorem drainWait_dev (s : State) : (drainWait s).dev = s.dev := rfl
@[simp] theorem drainWait_mreg (s : State) : (drainWait s).mreg = s.mreg := rfl
@[simp] theorem drainWait_dma (s : State) : (drainWait s).dma = s.dma := rfl
@[simp] theorem drainWait_phyReg (s : State) : (drainWait s).phyReg = s.phyReg := rfl
@[simp] theorem drainWait_hmem (s : State) : (drainWait s).hmem = s.hmem := rfl
@[simp] theorem drainWait_bus (s : State) : (drainWait s).bus = s.bus := rfl
@[simp] theorem drainWait_env (s : State) : (drainWait s).env = s.env := rfl
@[simp] theorem drainWait_log (s : State) : (drainWait s).log = s.log := rfl
@[simp] theorem drainWait_trace (s : State) : (drainWait s).trace = s.trace := rfl
@[simp] theorem drainWait_agenda (s : State) : (drainWait s).agenda = s.agenda := rfl
@[simp] theorem drainFrom_cfg (d : DLabel) (s : State) : (drainFrom d s).cfg = s.cfg := rfl
@[simp] theorem drainFrom_hif (d : DLabel) (s : State) : (drainFrom d s).hif = s.hif := rfl
@[simp] theorem drainFrom_hctx (d : DLabel) (s : State) : (drainFrom d s).hctx = s.hctx := rfl
@[simp] theorem drainFrom_drain (d : DLabel) (s : State) : (drainFrom d s).drain = s.drain := rfl
@[simp] theorem drainFrom_flags (d : DLabel) (s : State) : (drainFrom d s).flags = s.flags := rfl
@[simp] theorem drainFrom_lock (d : DLabel) (s : State) : (drainFrom d s).lock = s.lock := rfl
@[simp] theorem drainFrom_inst (d : DLabel) (s : State) : (drainFrom d s).inst = s.inst := rfl
@[simp] theorem drainFrom_bufs (d : DLabel) (s : State) : (drainFrom d s).bufs = s.bufs := rfl
@[simp] theorem drainFrom_allocs (d : DLabel) (s : State) : (drainFrom d s).allocs = s.allocs := rfl
@[simp] theorem drainFrom_dev (d : DLabel) (s : State) : (drainFrom d s).dev = s.dev := rfl
@[simp] theorem drainFrom_mreg (d : DLabel) (s : State) : (drainFrom d s).mreg = s.mreg := rfl
@[simp] theorem drainFrom_dma (d : DLabel) (s : State) : (drainFrom d s).dma = s.dma := rfl
@[simp] theorem drainFrom_phyReg (d : DLabel) (s : State) : (drainFrom d s).phyReg = s.phyReg := rfl
@[simp] theorem drainFrom_hmem (d : DLabel) (s : State) : (drainFrom d s).hmem = s.hmem := rfl
@[simp] theorem drainFrom_bus (d : DLabel) (s : State) : (drainFrom d s).bus = s.bus := rfl
@[simp] theorem drainFrom_env (d : DLabel) (s : State) : (drainFrom d s).env = s.env := rfl
@[simp] theorem drainFrom_log (d : DLabel) (s : State) : (drainFrom d s).log = s.log := rfl
@[simp] theorem drainFrom_trace (d : DLabel) (s : State) : (drainFrom d s).trace = s.trace := rfl
@[simp] theorem drainFrom_agenda (d : DLabel) (s : State) : (drainFrom d s).agenda = s.agenda := rfl
@[simp] theorem setRemain_cfg (n : Nat) (s : State) : (setRemain n s).cfg = s.cfg := rfl
@[simp] theorem setRemain_hif (n : Nat) (s : State) : (setRemain n s).hif = s.hif := rfl
@[simp] theorem setRemain_hctx (n : Nat) (s : State) : (setRemain n s).hctx = s.hctx := rfl
@[simp] theorem setRemain_wctx (n : Nat) (s : State) : (setRemain n s).wctx = s.wctx := rfl
@[simp] theorem setRemain_wstate (n : Nat) (s : State) : (setRemain n s).wstate = s.wstate := rfl
@[simp] theorem setRemain_drain (n : Nat) (s : State) : (setRemain n s).drain = s.drain := rfl
@[simp] theorem setRemain_lock (n : Nat) (s : State) : (setRemain n s).lock = s.lock := rfl
@[simp] theorem setRemain_inst (n : Nat) (s : State) : (setRemain n s).inst = s.inst := rfl
@[simp] theorem setRemain_bufs (n : Nat) (s : State) : (setRemain n s).bufs = s.bufs := rfl
@[simp] theorem setRemain_allocs (n : Nat) (s : State) : (setRemain n s).allocs = s.allocs := rfl
@[simp] theorem setRemain_dev (n : Nat) (s : State) : (setRemain n s).dev = s.dev := rfl
@[simp] theorem setRemain_mreg (n : Nat) (s : State) : (setRemain n s).mreg = s.mreg := rfl
@[simp] theorem setRemain_dma (n : Nat) (s : State) : (setRemain n s).dma = s.dma := rfl
@[simp] theorem setRemain_phyReg (n : Nat) (s : State) : (setRemain n s).phyReg = s.phyReg := rfl
@[simp] theorem setRemain_hmem (n : Nat) (s : State) : (setRemain n s).hmem = s.hmem := rfl
@[simp] theorem setRemain_bus (n : Nat) (s : State) : (setRemain n s).bus = s.bus := rfl
@[simp] theorem setRemain_env (n : Nat) (s : State) : (setRemain n s).env = s.env := rfl
@[simp] theorem setRemain_log (n : Nat) (s : State) : (setRemain n s).log = s.log := rfl
@[simp] theorem setRemain_trace (n : Nat) (s : State) : (setRemain n s).trace = s.trace := rfl
@[simp] theorem setRemain_agenda (n : Nat) (s : State) : (setRemain n s).agenda = s.agenda := rfl
@[simp] theorem report_cfg (n m : Nat) (s : State) : (report n m s).cfg = s.cfg := rfl
@[simp] theorem report_hif (n m : Nat) (s : State) : (report n m s).hif = s.hif := rfl
@[simp] theorem report_hctx (n m : Nat) (s : State) : (report n m s).hctx = s.hctx := rfl
@[simp] theorem report_wctx (n m : Nat) (s : State) : (report n m s).wctx = s.wctx := rfl
@[simp] theorem report_wstate (n m : Nat) (s : State) : (report n m s).wstate = s.wstate := rfl
@[simp] theorem report_drain (n m : Nat) (s : State) : (report n m s).drain = s.drain := rfl
@[simp] theorem report_lock (n m : Nat) (s : State) : (report n m s).lock = s.lock := rfl
@[simp] theorem report_inst (n m : Nat) (s : State) : (report n m s).inst = s.inst := rfl
@[simp] theorem report_bufs (n m : Nat) (s : State) : (report n m s).bufs = s.bufs := rfl
@[simp] theorem report_allocs (n m : Nat) (s : State) : (report n m s).allocs = s.allocs := rfl
@[simp] theorem report_dev (n m : Nat) (s : State) : (report n m s).dev = s.dev := rfl
@[simp] theorem report_mreg (n m : Nat) (s : State) : (report n m s).mreg = s.mreg := rfl
@[simp] theorem report_dma (n m : Nat) (s : State) : (report n m s).dma = s.dma := rfl
@[simp] theorem report_phyReg (n m : Nat) (s : State) : (report n m s).phyReg = s.phyReg := rfl
@[simp] theorem report_hmem (n m : Nat) (s : State) : (report n m s).hmem = s.hmem := rfl
@[simp] theorem report_bus (n m : Nat) (s : State) : (report n m s).bus = s.bus := rfl
@[simp] theorem report_env (n m : Nat) (s : State) : (report n m s).env = s.env := rfl
@[simp] theorem report_log (n m : Nat) (s : State) : (report n m s).log = s.log := rfl
@[simp] theorem report_trace (n m : Nat) (s : State) : (report n m s).trace = s.trace := rfl
@[simp] theorem report_agenda (n m : Nat) (s : State) : (report n m s).agenda = s.agenda := rfl
@[simp] theorem setLife_cfg (l : Life) (s : State) : (setLife l s).cfg = s.cfg := rfl
@[simp] theorem setLife_hif (l : Life) (s : State) : (setLife l s).hif = s.hif := rfl
@[simp] theorem setLife_hctx (l : Life) (s : State) : (setLife l s).hctx = s.hctx := rfl
@[simp] theorem setLife_wctx (l : Life) (s : State) : (setLife l s).wctx = s.wctx := rfl
@[simp] theorem setLife_wstate (l : Life) (s : State) : (setLife l s).wstate = s.wstate := rfl
@[simp] theorem setLife_drain (l : Life) (s : State) : (setLife l s).drain = s.drain := rfl
@[simp] theorem setLife_flags (l : Life) (s : State) : (setLife l s).flags = s.flags := rfl
@[simp] theorem setLife_lock (l : Life) (s : State) : (setLife l s).lock = s.lock := rfl
@[simp] theorem setLife_bufs (l : Life) (s : State) : (setLife l s).bufs = s.bufs := rfl
@[simp] theorem setLife_allocs (l : Life) (s : State) : (setLife l s).allocs = s.allocs := rfl
@[simp] theorem setLife_dev (l : Life) (s : State) : (setLife l s).dev = s.dev := rfl
@[simp] theorem setLife_mreg (l : Life) (s : State) : (setLife l s).mreg = s.mreg := rfl
@[simp] theorem setLife_dma (l : Life) (s : State) : (setLife l s).dma = s.dma := rfl
@[simp] theorem setLife_phyReg (l : Life) (s : State) : (setLife l s).phyReg = s.phyReg := rfl
@[simp] theorem setLife_hmem (l : Life) (s : State) : (setLife l s).hmem = s.hmem := rfl
@[simp] theorem setLife_bus (l : Life) (s : State) : (setLife l s).bus = s.bus := rfl
@[simp] theorem setLife_env (l : Life) (s : State) : (setLife l s).env = s.env := rfl
@[simp] theorem setLife_log (l : Life) (s : State) : (setLife l s).log = s.log := rfl
@[simp] theorem setLife_trace (l : Life) (s : State) : (setLife l s).trace = s.trace := rfl
@[simp] theorem setLife_agenda (l : Life) (s : State) : (setLife l s).agenda = s.agenda := rfl
@[simp] theorem setAddrByte_cfg (i : Nat) (b : Byte) (s : State) : (setAddrByte i b s).cfg = s.cfg := rfl
@[simp] theorem setAddrByte_hif (i : Nat) (b : Byte) (s : State) : (setAddrByte i b s).hif = s.hif := rfl
@[simp] theorem setAddrByte_hctx (i : Nat) (b : Byte) (s : State) : (setAddrByte i b s).hctx = s.hctx := rfl
@[simp] theorem setAddrByte_wctx (i : Nat) (b : Byte) (s : State) : (setAddrByte i b s).wctx = s.wctx := rfl
@[simp] theorem setAddrByte_wstate (i : Nat) (b : Byte) (s : State) : (setAddrByte i b s).wstate = s.wstate := rfl
@[simp] theorem setAddrByte_drain (i : Nat) (b : Byte) (s : State) : (setAddrByte i b s).drain = s.drain := rfl
@[simp] theorem setAddrByte_flags (i : Nat) (b : Byte) (s : State) : (setAddrByte i b s).flags = s.flags := rfl
@[simp] theorem setAddrByte_lock (i : Nat) (b : Byte) (s : State) : (setAddrByte i b s).lock = s.lock := rfl
@[simp] theorem setAddrByte_bufs (i : Nat) (b : Byte) (s : State) : (setAddrByte i b s).bufs = s.bufs := rfl
@[simp] theorem setAddrByte_allocs (i : Nat) (b : Byte) (s : State) : (setAddrByte i b s).allocs = s.allocs := rfl
@[simp] theorem setAddrByte_dev (i : Nat) (b : Byte) (s : State) : (setAddrByte i b s).dev = s.dev := rfl
@[simp] theorem setAddrByte_mreg (i : Nat) (b : Byte) (s : State) : (setAddrByte i b s).mreg = s.mreg := rfl
@[simp] theorem setAddrByte_dma (i : Nat) (b : Byte) (s : State) : (setAddrByte i b s).dma = s.dma := rfl
@[simp] theorem setAddrByte_phyReg (i : Nat) (b : Byte) (s : State) : (setAddrByte i b s).phyReg = s.phyReg := rfl
@[simp] theorem setAddrByte_hmem (i : Nat) (b : Byte) (s : State) : (setAddrByte i b s).hmem = s.hmem := rfl
@[simp] theorem setAddrByte_bus (i : Nat) (b : Byte) (s : State) : (setAddrByte i b s).bus = s.bus := rfl
@[simp] theorem setAddrByte_env (i : Nat) (b : Byte) (s : State) : (setAddrByte i b s).env = s.env := rfl
@[simp] theorem setAddrByte_log (i : Nat) (b : Byte) (s : State) : (setAddrByte i b s).log = s.log := rfl
@[simp] theorem setAddrByte_trace (i : Nat) (b : Byte) (s : State) : (setAddrByte i b s).trace = s.trace := rfl
@[simp] theorem setAddrByte_agenda (i : Nat) (b : Byte) (s : State) : (setAddrByte i b s).agenda = s.agenda := rfl
@[simp] theorem stopFlags_cfg (s : State) : (stopFlags s).cfg = s.cfg := by unfold stopFlags; split <;> rfl
@[simp] theorem stopFlags_hif (s : State) : (stopFlags s).hif = s.hif := by unfold stopFlags; split <;> rfl
@[simp] theorem stopFlags_hctx (s : State) : (stopFlags s).hctx = s.hctx := by unfold stopFlags; split <;> rfl
@[simp] theorem stopFlags_wctx (s : State) : (stopFlags s).wctx = s.wctx := by unfold stopFlags; split <;> rfl
@[simp] theorem stopFlags_wstate (s : State) : (stopFlags s).wstate = s.wstate := by unfold stopFlags; split <;> rfl
@[simp] theorem stopFlags_drain (s : State) : (stopFlags s).drain = s.drain := by unfold stopFlags; split <;> rfl
@[simp] theorem stopFlags_lock (s : State) : (stopFlags s).lock = s.lock := by unfold stopFlags; split <;> rfl
@[simp] theorem stopFlags_inst (s : State) : (stopFlags s).inst = s.inst := by unfold stopFlags; split <;> rfl
@[simp] theorem stopFlags_bufs (s : State) : (stopFlags s).bufs = s.bufs := by unfold stopFlags; split <;> rfl
@[simp] theorem stopFlags_allocs (s : State) : (stopFlags s).allocs = s.allocs := by unfold stopFlags; split <;> rfl
@[simp] theorem stopFlags_dev (s : State) : (stopFlags s).dev = s.dev := by unfold stopFlags; split <;> rfl
@[simp] theorem stopFlags_mreg (s : State) : (stopFlags s).mreg = s.mreg := by unfold stopFlags; split <;> rfl
@[simp] theorem stopFlags_dma (s : State) : (stopFlags s).dma = s.dma := by unfold stopFlags; split <;> rfl
@[simp] theorem stopFlags_phyReg (s : State) : (stopFlags s).phyReg = s.phyReg := by unfold stopFlags; split <;> rfl
@[simp] theorem stopFlags_hmem (s : State) : (stopFlags s).hmem = s.hmem := by unfold stopFlags; split <;> rfl
@[simp] theorem stopFlags_bus (s : State) : (stopFlags s).bus = s.bus := by unfold stopFlags; split <;> rfl
@[simp] theorem stopFlags_env (s : State) : (stopFlags s).env = s.env := by unfold stopFlags; split <;> rfl
@[simp] theorem stopFlags_log (s : State) : (stopFlags s).log = s.log := by unfold stopFlags; split <;> rfl
@[simp] theorem stopFlags_trace (s : State) : (stopFlags s).trace = s.trace := by unfold stopFlags; split <;> rfl
@[simp] theorem stopFlags_agenda (s : State) : (stopFlags s).agenda = s.agenda := by unfold stopFlags; split <;> rfl
@[simp] theorem passToCaller_cfg (c : CtxId) (a : Word) (s : State) : (passToCaller c a s).cfg = s.cfg := by cases c <;> rfl
@[simp] theorem passToCaller_hif (c : CtxId) (a : Word) (s : State) : (passToCaller c a s).hif = s.hif := by cases c <;> rfl
@[simp] theorem passToCaller_hctx (c : CtxId) (a : Word) (s : State) : (passToCaller c a s).hctx = s.hctx := by cases c <;> rfl
@[simp] theorem passToCaller_wctx (c : CtxId) (a : Word) (s : State) : (passToCaller c a s).wctx = s.wctx := by cases c <;> rfl
@[simp] theorem passToCaller_wstate (c : CtxId) (a : Word) (s : State) : (passToCaller c a s).wstate = s.wstate := by cases c <;> rfl
@[simp] theorem passToCaller_drain (c : CtxId) (a : Word) (s : State) : (passToCaller c a s).drain = s.drain := by cases c <;> rfl
@[simp] theorem passToCaller_flags (c : CtxId) (a : Word) (s : State) : (passToCaller c a s).flags = s.flags := by cases c <;> rfl
@[simp] theorem passToCaller_lock (c : CtxId) (a : Word) (s : State) : (passToCaller c a s).lock = s.lock := by cases c <;> rfl
@[simp] theorem passToCaller_inst (c : CtxId) (a : Word) (s : State) : (passToCaller c a s).inst = s.inst := by cases c <;> rfl
@[simp] theorem passToCaller_bufs (c : CtxId) (a : Word) (s : State) : (passToCaller c a s).bufs = s.bufs := by cases c <;> rfl
@[simp] theorem passToCaller_dev (c : CtxId) (a : Word) (s : State) : (passToCaller c a s).dev = s.dev := by cases c <;> rfl
@[simp] theorem passToCaller_mreg (c : CtxId) (a : Word) (s : State) : (passToCaller c a s).mreg = s.mreg := by cases c <;> rfl
@[simp] theorem passToCaller_dma (c : CtxId) (a : Word) (s : State) : (passToCaller c a s).dma = s.dma := by cases c <;> rfl
@[simp] theorem passToCaller_phyReg (c : CtxId) (a : Word) (s : State) : (passToCaller c a s).phyReg = s.phyReg := by cases c <;> rfl
@[simp] theorem passToCaller_hmem (c : CtxId) (a : Word) (s : State) : (passToCaller c a s).hmem = s.hmem := by cases c <;> rfl
@[simp] theorem passToCaller_bus (c : CtxId) (a : Word) (s : State) : (passToCaller c a s).bus = s.bus := by cases c <;> rfl
@[simp] theorem passToCaller_env (c : CtxId) (a : Word) (s : State) : (passToCaller c a s).env = s.env := by cases c <;> rfl
@[simp] theorem passToCaller_log (c : CtxId) (a : Word) (s : State) : (passToCaller c a s).log = s.log := by cases c <;> rfl
@[simp] theorem passToCaller_trace (c : CtxId) (a : Word) (s : State) : (passToCaller c a s).trace = s.trace := by cases c <;> rfl
@[simp] theorem passToCaller_agenda (c : CtxId) (a : Word) (s : State) : (passToCaller c a s).agenda = s.agenda := by cases c <;> rfl
@[simp] theorem startFlagsBus_cfg (s : State) : (startFlagsBus s).cfg = s.cfg := rfl
@[simp] theorem startFlagsBus_hif (s : State) : (startFlagsBus s).hif = s.hif := rfl
@[simp] theorem startFlagsBus_hctx (s : State) : (startFlagsBus s).hctx = s.hctx := rfl
@[simp] theorem startFlagsBus_wctx (s : State) : (startFlagsBus s).wctx = s.wctx := rfl
@[simp] theorem startFlagsBus_wstate (s : State) : (startFlagsBus s).wstate = s.wstate := rfl
@[simp] theorem startFlagsBus_drain (s : State) : (startFlagsBus s).drain = s.drain := rfl
@[simp] theorem startFlagsBus_lock (s : State) : (startFlagsBus s).lock = s.lock := rfl
@[simp] theorem startFlagsBus_inst (s : State) : (startFlagsBus s).inst = s.inst := rfl
@[simp] theorem startFlagsBus_bufs (s : State) : (startFlagsBus s).bufs = s.bufs := rfl
@[simp] theorem startFlagsBus_allocs (s : State) : (startFlagsBus s).allocs = s.allocs := rfl
@[simp] theorem startFlagsBus_dev (s : State) : (startFlagsBus s).dev = s.dev := rfl
@[simp] theorem startFlagsBus_mreg (s : State) : (startFlagsBus s).mreg = s.mreg := rfl
@[simp] theorem startFlagsBus_dma (s : State) : (startFlagsBus s).dma = s.dma := rfl
@[simp] theorem startFlagsBus_phyReg (s : State) : (startFlagsBus s).phyReg = s.phyReg := rfl
@[simp] theorem startFlagsBus_hmem (s : State) : (startFlagsBus s).hmem = s.hmem := rfl
@[simp] theorem startFlagsBus_bus (s : State) : (startFlagsBus s).bus = s.bus := rfl
@[simp] theorem startFlagsBus_env (s : State) : (startFlagsBus s).env = s.env := rfl
@[simp] theorem startFlagsBus_log (s : State) : (startFlagsBus s).log = s.log := rfl
@[simp] theorem startFlagsBus_trace (s : State) : (startFlagsBus s).trace = s.trace := rfl
@[simp] theorem startFlagsBus_agenda (s : State) : (startFlagsBus s).agenda = s.agenda := rfl
@[simp] theorem startFlagsDma_cfg (s : State) : (startFlagsDma s).cfg = s.cfg := rfl
@[simp] theorem startFlagsDma_hif (s : State) : (startFlagsDma s).hif = s.hif := rfl
@[simp] theorem startFlagsDma_hctx (s : State) : (startFlagsDma s).hctx = s.hctx := rfl
@[simp] theorem startFlagsDma_wctx (s : State) : (startFlagsDma s).wctx = s.wctx := rfl
@[simp] theorem startFlagsDma_wstate (s : State) : (startFlagsDma s).wstate = s.wstate := rfl
@[simp] theorem startFlagsDma_drain (s : State) : (startFlagsDma s).drain = s.drain := rfl
@[simp] theorem startFlagsDma_lock (s : State) : (startFlagsDma s).lock = s.lock := rfl
@[simp] theorem startFlagsDma_inst (s : State) : (startFlagsDma s).inst = s.inst := rfl
@[simp] theorem startFlagsDma_bufs (s : State) : (startFlagsDma s).bufs = s.bufs := rfl
@[simp] theorem startFlagsDma_allocs (s : State) : (startFlagsDma s).allocs = s.allocs := rfl
@[simp] theorem startFlagsDma_dev (s : State) : (startFlagsDma s).dev = s.dev := rfl
@[simp] theorem startFlagsDma_mreg (s : State) : (startFlagsDma s).mreg = s.mreg := rfl
@[simp] theorem startFlagsDma_dma (s : State) : (startFlagsDma s).dma = s.dma := rfl
@[simp] theorem startFlagsDma_phyReg (s : State) : (startFlagsDma s).phyReg = s.phyReg := rfl
@[simp] theorem startFlagsDma_hmem (s : State) : (startFlagsDma s).hmem = s.hmem := rfl
@[simp] theorem startFlagsDma_bus (s : State) : (startFlagsDma s).bus = s.bus := rfl
@[simp] theorem startFlagsDma_env (s : State) : (startFlagsDma s).env = s.env := rfl
@[simp] theorem startFlagsDma_log (s : State) : (startFlagsDma s).log = s.log := rfl
@[simp] theorem startFlagsDma_trace (s : State) : (startFlagsDma s).trace = s.trace := rfl
@[simp] theorem startFlagsDma_agenda (s : State) : (startFlagsDma s).agenda = s.agenda := rfl
@[simp] theorem endWorker_cfg (s : State) : (endWorker s).cfg = s.cfg := rfl
@[simp] theorem endWorker_hif (s : State) : (endWorker s).hif = s.hif := rfl
@[simp] theorem endWorker_hctx (s : State) : (endWorker s).hctx = s.hctx := rfl
@[simp] theorem endWorker_wstate (s : State) : (endWorker s).wstate = s.wstate := rfl
@[simp] theorem endWorker_drain (s : State) : (endWorker s).drain = s.drain := rfl
@[simp] theorem endWorker_lock (s : State) : (endWorker s).lock = s.lock := rfl
@[simp] theorem endWorker_inst (s : State) : (endWorker s).inst = s.inst := rfl
@[simp] theorem endWorker_bufs (s : State) : (endWorker s).bufs = s.bufs := rfl
@[simp] theorem endWorker_allocs (s : State) : (endWorker s).allocs = s.allocs := rfl
@[simp] theorem endWorker_dev (s : State) : (endWorker s).dev = s.dev := rfl
@[simp] theorem endWorker_mreg (s : State) : (endWorker s).mreg = s.mreg := rfl
@[simp] theorem endWorker_dma (s : State) : (endWorker s).dma = s.dma := rfl
@[simp] theorem endWorker_phyReg (s : State) : (endWorker s).phyReg = s.phyReg := rfl
@[simp] theorem endWorker_hmem (s : State) : (endWorker s).hmem = s.hmem := rfl
@[simp] theorem endWorker_bus (s : State) : (endWorker s).bus = s.bus := rfl
@[simp] theorem endWorker_env (s : State) : (endWorker s).env = s.env := rfl
@[simp] theorem endWorker_log (s : State) : (endWorker s).log = s.log := rfl
@[simp] theorem endWorker_trace (s : State) : (endWorker s).trace = s.trace := rfl
@[simp] theorem endWorker_agenda (s : State) : (endWorker s).agenda = s.agenda := rfl
@[simp] theorem issueIllegal_cfg (s : State) : (issueIllegal s).cfg = s.cfg := rfl
@[simp] theorem issueIllegal_wctx (s : State) : (issueIllegal s).wctx = s.wctx := rfl
@[simp] theorem issueIllegal_wstate (s : State) : (issueIllegal s).wstate = s.wstate := rfl
@[simp] theorem issueIllegal_drain (s : State) : (issueIllegal s).drain = s.drain := rfl
@[simp] theorem issueIllegal_flags (s : State) : (issueIllegal s).flags = s.flags := rfl
@[simp] theorem issueIllegal_lock (s : State) : (issueIllegal s).lock = s.lock := rfl
@[simp] theorem issueIllegal_inst (s : State) : (issueIllegal s).inst = s.inst := rfl
@[simp] theorem issueIllegal_bufs (s : State) : (issueIllegal s).bufs = s.bufs := rfl
@[simp] theorem issueIllegal_allocs (s : State) : (issueIllegal s).allocs = s.allocs := rfl
@[simp] theorem issueIllegal_dev (s : State) : (issueIllegal s).dev = s.dev := rfl
@[simp] theorem issueIllegal_mreg (s : State) : (issueIllegal s).mreg = s.mreg := rfl
@[simp] theorem issueIllegal_dma (s : State) : (issueIllegal s).dma = s.dma := rfl
@[simp] theorem issueIllegal_phyReg (s : State) : (issueIllegal s).phyReg = s.phyReg := rfl
@[simp] theorem issueIllegal_hmem (s : State) : (issueIllegal s).hmem = s.hmem := rfl
@[simp] theorem issueIllegal_bus (s : State) : (issueIllegal s).bus = s.bus := rfl
@[simp] theorem issueIllegal_env (s : State) : (issueIllegal s).env = s.env := rfl
@[simp] theorem issueIllegal_log (s : State) : (issueIllegal s).log = s.log := rfl
@[simp] theorem issueIllegal_agenda (s : State) : (issueIllegal s).agenda = s.agenda := rfl

/-! ## What these updates write -/

@[simp] theorem observe_trace (o : Obs) (s : State) : (observe o s).trace = s.trace ++ [o] := rfl
@[simp] theorem logEntry_log (c : CtxId) (t : LogText) (s : State) : (logEntry c t s).log = s.log ++ [⟨c, t⟩] := rfl
@[simp] theorem hwrite_hmem (a : Nat) (bs : List Byte) (s : State) : (hwrite a bs s).hmem = storeBytes s.hmem a bs := rfl
@[simp] theorem setInt_intStat (x y : Byte) (s : State) : (setInt x y s).dev.intStat = x := rfl
@[simp] theorem setInt_intMask (x y : Byte) (s : State) : (setInt x y s).dev.intMask = y := rfl
@[simp] theorem moveCursor_rxRp (a : Nat) (s : State) : (moveCursor a s).dev.rxRp = BitVec.ofNat 16 a := rfl
@[simp] theorem moveCursor_rxMem (a : Nat) (s : State) : (moveCursor a s).dev.rxMem = s.dev.rxMem := rfl
@[simp] theorem moveCursor_hdrValid (a : Nat) (s : State) : (moveCursor a s).bufs.hdrValid = [] := rfl
@[simp] theorem completeHost_pc (c x y : Word) (s : State) : (completeHost c x y s).hctx.pc = .idle := rfl
@[simp] theorem completeHost_result (c x y : Word) (s : State) : (completeHost c x y s).hif.result = c := rfl
@[simp] theorem completeHost_rdata0 (c x y : Word) (s : State) : (completeHost c x y s).hif.rdata0 = x := rfl
@[simp] theorem completeHost_rdata1 (c x y : Word) (s : State) : (completeHost c x y s).hif.rdata1 = y := rfl
@[simp] theorem completeHost_done (c x y : Word) (s : State) : (completeHost c x y s).hif.done = true := rfl
@[simp] theorem completeHost_hbusy (c x y : Word) (s : State) : hbusy (completeHost c x y s) = false := rfl
@[simp] theorem drainTo_pc (d : DLabel) (s : State) : (drainTo d s).wctx.pc = .drain d := rfl
@[simp] theorem drainWait_pc (s : State) : (drainWait s).wctx.pc = .drain .w0 := rfl
@[simp] theorem drainWait_wstate (s : State) : (drainWait s).wstate = .waiting := rfl
@[simp] theorem setRemain_framesRemain (n : Nat) (s : State) : (setRemain n s).flags.framesRemain = n := rfl
@[simp] theorem report_framesRemain (n m : Nat) (s : State) : (report n m s).flags.framesRemain = n := rfl
@[simp] theorem report_freeRx (n m : Nat) (s : State) : (report n m s).flags.freeRx = s.cfg.rxDescN - m := rfl
@[simp] theorem setLife_life (l : Life) (s : State) : (setLife l s).inst.life = l := rfl
@[simp] theorem endWorker_pc (s : State) : (endWorker s).wctx.pc = .ended := rfl

end Sys2Proof.Machine
end

