-- ==== Sys2Proof/Laws/Access.lean ====
section
/-! SUPPORT. What an access to a controller register or port can change: the controller, the draw counter, the interrupt
latch, and the record of valid headers. -/

namespace Sys2Proof.Machine

/-- `u` is `s` but for the controller, the environment, the flags and the buffers' record. -/
structure DevOnly (s u : State) : Prop where
  eq : u = { s with dev := u.dev, env := u.env, flags := u.flags, bufs := u.bufs }

namespace DevOnly
variable {s u v : State}

theorem of_eq (h : u = { s with dev := u.dev, env := u.env, flags := u.flags, bufs := u.bufs }) : DevOnly s u := ⟨h⟩
theorem refl (s : State) : DevOnly s s := ⟨rfl⟩
theorem trans (h : DevOnly s u) (k : DevOnly u v) : DevOnly s v := ⟨by rw [k.eq, h.eq]⟩

theorem cfg (h : DevOnly s u) : u.cfg = s.cfg := by rw [h.eq]
theorem hif (h : DevOnly s u) : u.hif = s.hif := by rw [h.eq]
theorem hctx (h : DevOnly s u) : u.hctx = s.hctx := by rw [h.eq]
theorem wctx (h : DevOnly s u) : u.wctx = s.wctx := by rw [h.eq]
theorem wstate (h : DevOnly s u) : u.wstate = s.wstate := by rw [h.eq]
theorem drain (h : DevOnly s u) : u.drain = s.drain := by rw [h.eq]
theorem lock (h : DevOnly s u) : u.lock = s.lock := by rw [h.eq]
theorem inst (h : DevOnly s u) : u.inst = s.inst := by rw [h.eq]
theorem allocs (h : DevOnly s u) : u.allocs = s.allocs := by rw [h.eq]
theorem mreg (h : DevOnly s u) : u.mreg = s.mreg := by rw [h.eq]
theorem dma (h : DevOnly s u) : u.dma = s.dma := by rw [h.eq]
theorem phyReg (h : DevOnly s u) : u.phyReg = s.phyReg := by rw [h.eq]
theorem hmem (h : DevOnly s u) : u.hmem = s.hmem := by rw [h.eq]
theorem bus (h : DevOnly s u) : u.bus = s.bus := by rw [h.eq]
theorem log (h : DevOnly s u) : u.log = s.log := by rw [h.eq]
theorem trace (h : DevOnly s u) : u.trace = s.trace := by rw [h.eq]
theorem agenda (h : DevOnly s u) : u.agenda = s.agenda := by rw [h.eq]

end DevOnly

variable {s u : State}

theorem devOnly_portPeek {n : Nat} {bs : List Byte} (h : portPeek n s = .ok (bs, u)) : DevOnly s u := by
  unfold portPeek at h
  split at h
  · cases h
  · cases h; exact .refl _

theorem devOnly_portTake {n : Nat} {bs : List Byte} (h : portTake n s = .ok (bs, u)) : DevOnly s u := by
  unfold portTake at h
  split at h
  · cases h
  · cases h; exact ⟨rfl⟩

theorem devOnly_devReadRaw {r : CReg} {b : Byte} (h : devReadRaw r s = .ok (b, u)) : DevOnly s u := by
  cases r
  case rxPeekN =>
    simp only [devReadRaw] at h
    cases hp : portPeek 1 s with
    | error e => rw [hp] at h; cases h
    | ok x => rw [hp] at h; cases h; exact devOnly_portPeek hp
  case rxData =>
    simp only [devReadRaw] at h
    cases hp : portTake 1 s with
    | error e => rw [hp] at h; cases h
    | ok x => rw [hp] at h; cases h; exact devOnly_portTake hp
  all_goals (cases h; exact ⟨rfl⟩)

theorem devOnly_devRead {r : CReg} {b : Byte} (h : devRead r s = .ok (b, u)) : DevOnly s u := by
  unfold devRead at h
  split at h
  · cases h
  · rename_i b' s' hr
    split at h
    · cases h; exact (devOnly_devReadRaw hr).trans ⟨rfl⟩
    · cases h; exact devOnly_devReadRaw hr

theorem devOnly_devReadIdx {i : BitVec 7} {b : Byte} (h : devReadIdx i s = .ok (b, u)) : DevOnly s u := by
  unfold devReadIdx at h
  split at h
  · exact devOnly_devRead h
  · cases h; exact ⟨rfl⟩

theorem devOnly_requestTx (b : Byte) : DevOnly s (requestTx b s) := ⟨rfl⟩

theorem devOnly_devWrite {r : CReg} {b : Byte} (h : devWrite r b s = .ok u) : DevOnly s u := by
  cases r
  case txCtrl =>
    simp only [devWrite] at h
    split at h <;> cases h <;> exact ⟨rfl⟩
  case phyCmd =>
    simp only [devWrite, writePhyCmd] at h
    split at h
    · cases h; exact ⟨rfl⟩
    · split at h
      · cases h
      · split at h
        · cases h
        · cases h; exact ⟨rfl⟩
  case ptrCtrl =>
    simp only [devWrite] at h
    cases h
    by_cases h0 : b.getLsbD 0 = true <;> by_cases h1 : b.getLsbD 1 = true <;> simp only [h0, h1] <;> exact ⟨rfl⟩
  case rxrpL =>
    simp only [devWrite] at h
    split at h
    · cases h; exact ⟨rfl⟩
    · cases h
  all_goals (cases h; exact ⟨rfl⟩)

theorem devOnly_devWriteIdx {i : BitVec 7} {b : Byte} (h : devWriteIdx i b s = .ok u) : DevOnly s u := by
  unfold devWriteIdx at h
  split at h
  · exact devOnly_devWrite h
  · cases h; exact .refl _

theorem devOnly_devBlockReadRaw {r : CReg} {n : Nat} {bs : List Byte} (h : devBlockReadRaw r n s = .ok (bs, u)) :
    DevOnly s u := by
  have one : ∀ q : CReg, (devReadRaw q s).map (fun x => ([x.1], x.2)) = .ok (bs, u) → DevOnly s u := by
    intro q hq
    cases hp : devReadRaw q s with
    | error e => rw [hp] at hq; cases hq
    | ok x => rw [hp] at hq; cases hq; exact devOnly_devReadRaw hp
  unfold devBlockReadRaw at h
  split at h
  · split at h
    · exact devOnly_portPeek h
    · cases h
  · split at h
    · exact devOnly_portTake h
    · cases h
  · split at h
    · exact one _ h
    · cases h

theorem devOnly_devBlockRead {r : CReg} {n : Nat} {bs : List Byte} (h : devBlockRead r n s = .ok (bs, u)) :
    DevOnly s u := by
  unfold devBlockRead at h
  split at h
  · cases h
  · rename_i bs' s' hr
    split at h
    · cases h; exact (devOnly_devBlockReadRaw hr).trans ⟨rfl⟩
    · cases h; exact devOnly_devBlockReadRaw hr

theorem devOnly_devBlockWrite {r : CReg} {bs : List Byte} (h : devBlockWrite r bs s = .ok u) : DevOnly s u := by
  unfold devBlockWrite at h
  split at h
  · cases h
  · split at h
    · cases h; exact ⟨rfl⟩
    · cases h
  · exact devOnly_devWrite h
  · cases h

/-- The register that an index names has that index. -/
theorem index_of_ofIndex {c : Config} {i : BitVec 7} {r : CReg} (h : CReg.ofIndex c i = some r) :
    r.index c.cregs = i := by
  unfold CReg.ofIndex at h
  have := List.find?_some h
  simp only [Bool.and_eq_true, beq_iff_eq] at this
  exact this.1

/-- Every register is in the list. -/
theorem mem_all (r : CReg) : r ∈ CReg.all := by
  cases r <;> first | decide | (rename_i i; revert i; decide)

/-- Where no two registers share an index, the index of a register that exists names it. -/
theorem ofIndex_index {c : Config} (hd : DistinctRegs c.cregs) {r : CReg} (h : c.variant = .bus ∨ r.inPhyGroup = true) :
    CReg.ofIndex c (r.index c.cregs) = some r := by
  cases hf : CReg.ofIndex c (r.index c.cregs) with
  | none =>
    unfold CReg.ofIndex at hf
    have := List.find?_eq_none.mp hf r (mem_all r)
    rcases h with h | h <;> simp [h] at this
  | some q => rw [hd q r (index_of_ofIndex hf)]

/-- The default indices are distinct. -/
theorem distinctRegs_default : DistinctRegs {} := by
  intro r q h
  cases r <;> cases q <;> first | rfl | (revert h; decide) |
    (rename_i i; revert i; decide) | (rename_i i j; revert i j; decide)

/-- `keepDrainHeader` touches the record of valid headers only. -/
theorem devOnly_keepDrainHeader (before : State) : DevOnly s (keepDrainHeader before s) := by
  unfold keepDrainHeader
  split
  · split
    · exact ⟨rfl⟩
    · exact .refl _
  · exact .refl _

end Sys2Proof.Machine
end

