-- ==== Sys2Proof/Laws/Cells.lean ====
section
/-! SUPPORT. Sparse storage: read after write, that a write keeps the canonical form, that storages which read alike are equal;
then the same for byte strings in HMEM. -/

namespace Sys2Proof.Machine

variable {w : Nat}

@[simp] theorem Cells.get_nil (a : Nat) : Cells.get ([] : Cells w) a = blankCell w := rfl

theorem Cells.get_cons (k : Nat) (v : BitVec w) (m : Cells w) (a : Nat) :
    Cells.get ((k, v) :: m) a = if k = a then v else Cells.get m a := rfl

/-- The canonical form of a list with a head. -/
theorem Cells.wf_cons {k : Nat} {v : BitVec w} {m : Cells w} :
    Cells.wf ((k, v) :: m) = true ↔ v ≠ blankCell w ∧ (∀ c ∈ m, k < c.1) ∧ Cells.wf m = true := by
  simp [Cells.wf, and_assoc]

/-- A key below every listed key is not listed. -/
theorem Cells.get_below {m : Cells w} {a : Nat} (h : ∀ c ∈ m, a < c.1) : Cells.get m a = blankCell w := by
  induction m with
  | nil => rfl
  | cons c m ih =>
    obtain ⟨k, v⟩ := c
    have hk : a < k := h (k, v) (by simp)
    rw [Cells.get_cons, if_neg (by omega), ih (fun c hc => h c (by simp [hc]))]

/-- The keys of a storage after a write are the written key and old keys. -/
theorem Cells.mem_set {m : Cells w} {a : Nat} {b : BitVec w} {c : Nat × BitVec w}
    (h : c ∈ Cells.set m a b) : c = (a, b) ∨ c ∈ m := by
  induction m with
  | nil => unfold Cells.set at h; split at h <;> simp_all
  | cons d m ih =>
    obtain ⟨k, v⟩ := d
    unfold Cells.set at h
    split at h
    · split at h <;> simp_all
    · split at h
      · split at h
        · exact .inr (by simp [h])
        · simp only [List.mem_cons] at h
          rcases h with h | h
          · exact .inl h
          · exact .inr (by simp [h])
      · simp only [List.mem_cons] at h
        rcases h with h | h
        · exact .inr (by simp [h])
        · rcases ih h with h | h
          · exact .inl h
          · exact .inr (by simp [h])

/-- A write keeps the canonical form. -/
theorem Cells.wf_set {m : Cells w} (h : Cells.wf m = true) (a : Nat) (b : BitVec w) :
    Cells.wf (Cells.set m a b) = true := by
  induction m with
  | nil =>
    unfold Cells.set
    split
    · rfl
    · rename_i hb; exact Cells.wf_cons.mpr ⟨hb, by simp, rfl⟩
  | cons d m ih =>
    obtain ⟨k, v⟩ := d
    obtain ⟨hv, hk, hm⟩ := Cells.wf_cons.mp h
    unfold Cells.set
    split
    · rename_i hak
      split
      · exact h
      · rename_i hb
        refine Cells.wf_cons.mpr ⟨hb, fun c hc => ?_, h⟩
        rcases List.mem_cons.mp hc with rfl | hc
        · exact hak
        · exact Nat.lt_trans hak (hk c hc)
    · split
      · rename_i hak; subst hak
        split
        · exact hm
        · rename_i hb; exact Cells.wf_cons.mpr ⟨hb, hk, hm⟩
      · refine Cells.wf_cons.mpr ⟨hv, fun c hc => ?_, ih hm⟩
        rcases Cells.mem_set hc with rfl | hc
        · show k < a; omega
        · exact hk c hc

/-- Read after write. -/
theorem Cells.get_set {m : Cells w} (h : Cells.wf m = true) (a : Nat) (b : BitVec w) (k : Nat) :
    Cells.get (Cells.set m a b) k = if k = a then b else Cells.get m k := by
  induction m with
  | nil =>
    unfold Cells.set
    split
    · rename_i hb; subst hb; simp
    · rw [Cells.get_cons]; simp [eq_comm]
  | cons d m ih =>
    obtain ⟨i, v⟩ := d
    obtain ⟨hv, hi, hm⟩ := Cells.wf_cons.mp h
    unfold Cells.set
    split
    · rename_i hai
      have hbelow : Cells.get ((i, v) :: m) a = blankCell w := by
        refine Cells.get_below (fun c hc => ?_)
        rcases List.mem_cons.mp hc with rfl | hc
        · exact hai
        · exact Nat.lt_trans hai (hi c hc)
      split
      · rename_i hb; subst hb
        split
        · rename_i hk; subst hk; exact hbelow
        · rfl
      · rw [Cells.get_cons]; simp [eq_comm]
    · split
      · rename_i hai; subst hai
        split
        · rename_i hb; subst hb
          split
          · rename_i hk; subst hk; exact Cells.get_below hi
          · rename_i hk; rw [Cells.get_cons, if_neg (fun e => hk e.symm)]
        · rw [Cells.get_cons, Cells.get_cons]
          split
          · rename_i hk; simp [hk]
          · rename_i hk; rw [if_neg (fun e => hk e.symm)]
      · rename_i h1 h2
        rw [Cells.get_cons, Cells.get_cons, ih hm]
        by_cases hk : k = a
        · subst hk; simp [show ¬ i = k from fun e => h2 e.symm]
        · simp [hk]

/-- The canonical form of any list is canonical. -/
theorem Cells.wf_canon (m : Cells w) : Cells.wf (Cells.canon m) = true := by
  induction m with
  | nil => rfl
  | cons c m ih => obtain ⟨k, v⟩ := c; exact Cells.wf_set ih k v

/-- Canonical storages that read alike are equal. -/
theorem Cells.ext_get {m n : Cells w} (hm : Cells.wf m = true) (hn : Cells.wf n = true)
    (h : ∀ a, Cells.get m a = Cells.get n a) : m = n := by
  induction m generalizing n with
  | nil =>
    cases n with
    | nil => rfl
    | cons c n =>
      obtain ⟨k, v⟩ := c
      have := h k
      simp [Cells.get_cons] at this
      exact absurd this.symm (Cells.wf_cons.mp hn).1
  | cons c m ih =>
    obtain ⟨k, v⟩ := c
    obtain ⟨hv, hk, hm'⟩ := Cells.wf_cons.mp hm
    cases n with
    | nil =>
      have := h k
      simp [Cells.get_cons] at this
      exact absurd this hv
    | cons d n =>
      obtain ⟨j, u⟩ := d
      obtain ⟨hu, hj, hn'⟩ := Cells.wf_cons.mp hn
      have hkj : k = j := by
        rcases Nat.lt_trichotomy k j with hlt | heq | hgt
        · have := h k
          rw [Cells.get_cons, if_pos rfl, Cells.get_below (m := (j, u) :: n)] at this
          · exact absurd this hv
          · intro c hc
            rcases List.mem_cons.mp hc with rfl | hc
            · exact hlt
            · exact Nat.lt_trans hlt (hj c hc)
        · exact heq
        · have := h j
          rw [Cells.get_cons (k := j), if_pos rfl, Cells.get_below (m := (k, v) :: m)] at this
          · exact absurd this.symm hu
          · intro c hc
            rcases List.mem_cons.mp hc with rfl | hc
            · exact hgt
            · exact Nat.lt_trans hgt (hk c hc)
      subst hkj
      have hvu : v = u := by have := h k; simpa [Cells.get_cons] using this
      subst hvu
      rw [ih hm' hn' (fun a => ?_)]
      by_cases ha : k = a
      · subst ha; rw [Cells.get_below hk, Cells.get_below hj]
      · have := h a; simpa [Cells.get_cons, ha] using this

/-! ## Byte strings in HMEM (20_memory.md R61, R63) -/

theorem storeBytes_wf {m : Cells 8} (h : Cells.wf m = true) (a : Nat) (bs : List Byte) :
    Cells.wf (storeBytes m a bs) = true := by
  induction bs generalizing m a with
  | nil => exact h
  | cons b bs ih => exact ih (Cells.wf_set h _ _) _

/-- A byte outside the stored string reads as before. -/
theorem get_storeBytes_other {m : Cells 8} (h : Cells.wf m = true) (a : Nat) (bs : List Byte) (k : Nat)
    (hk : ∀ i, i < bs.length → k ≠ (a + i) % hmemSize) :
    Cells.get (storeBytes m a bs) k = Cells.get m k := by
  induction bs generalizing m a with
  | nil => rfl
  | cons b bs ih =>
    rw [storeBytes, ih (Cells.wf_set h _ _), Cells.get_set h, if_neg]
    · simpa using hk 0 (by simp)
    · intro i hi
      have := hk (i + 1) (by simpa using hi)
      rwa [← Nat.add_assoc, Nat.add_right_comm] at this

/-- A byte of the stored string reads as stored, when the string is no longer than the memory. -/
theorem get_storeBytes_same {m : Cells 8} (h : Cells.wf m = true) (a : Nat) (bs : List Byte)
    (hlen : bs.length ≤ hmemSize) (i : Nat) (hi : i < bs.length) :
    Cells.get (storeBytes m a bs) ((a + i) % hmemSize) = bs[i] := by
  induction bs generalizing m a i with
  | nil => simp at hi
  | cons b bs ih =>
    have hlen' : bs.length + 1 ≤ hmemSize := by simpa using hlen
    cases i with
    | zero =>
      rw [storeBytes, get_storeBytes_other (Cells.wf_set h _ _), Cells.get_set h]
      · simp
      · intro j hj heq
        have h1 := Nat.mod_add_div (a + 0) hmemSize
        have h2 := Nat.mod_add_div (a + 1 + j) hmemSize
        rw [heq] at h1
        have hpos : 0 < hmemSize := by decide
        generalize (a + 0) / hmemSize = q1 at h1
        generalize (a + 1 + j) / hmemSize = q2 at h2
        generalize (a + 1 + j) % hmemSize = r at h1 h2
        have hq : q1 < q2 := by
          rcases Nat.lt_or_ge q1 q2 with hq | hq
          · exact hq
          · have := Nat.mul_le_mul_left hmemSize hq; omega
        have := Nat.mul_le_mul_left hmemSize (Nat.succ_le_of_lt hq)
        rw [Nat.mul_succ] at this
        omega
    | succ i =>
      have := ih (Cells.wf_set h (a % hmemSize) b) (a + 1) (by omega) i (by simpa using hi)
      simpa [storeBytes, Nat.add_assoc, Nat.add_comm 1] using this

theorem hbyte_hwrite_other {s : State} (h : Cells.wf s.hmem = true) (a : Nat) (bs : List Byte) (k : Nat)
    (hk : ∀ i, i < bs.length → k % hmemSize ≠ (a + i) % hmemSize) :
    hbyte (hwrite a bs s) k = hbyte s k :=
  get_storeBytes_other h a bs _ hk

theorem hbyte_hwrite_same {s : State} (h : Cells.wf s.hmem = true) (a : Nat) (bs : List Byte)
    (hlen : bs.length ≤ hmemSize) (i : Nat) (hi : i < bs.length) :
    hbyte (hwrite a bs s) (a + i) = bs[i] :=
  get_storeBytes_same h a bs hlen i hi

end Sys2Proof.Machine
end

