-- ==== Sys2Proof/Laws/Encoding.lean ====
section
/-! SUPPORT. The fields of an encoded command word: what an operation reads of the word it was issued with. -/

namespace Sys2Proof

variable (m : OpcodeMap)

theorem packWord_toNat {op : BitVec 6} {operand : Nat} (hn : operand < 2 ^ 26) :
    (packWord op operand).toNat = op.toNat * 2 ^ 26 + operand := by
  rw [packWord, BitVec.toNat_ofNat, Nat.mod_eq_of_lt (by omega)]

section
variable {op : BitVec 6} {operand : Nat}

theorem packWord_op (hn : operand < 2 ^ 26) : Field.op (packWord op operand) = op := by
  apply BitVec.eq_of_toNat_eq
  rw [Field.op, BitVec.extractLsb'_toNat, packWord_toNat hn, Nat.shiftRight_eq_div_pow]; omega

theorem packWord_extract (hn : operand < 2 ^ 26) (i n : Nat) :
    ((packWord op operand).extractLsb' i n).toNat = (op.toNat * 2 ^ 26 + operand) / 2 ^ i % 2 ^ n := by
  rw [BitVec.extractLsb'_toNat, packWord_toNat hn, Nat.shiftRight_eq_div_pow]

end

/-! ## Format R -/

@[simp] theorem reg7_regRd (reg : BitVec 7) : Field.reg7 (encodeWord m (.regRd reg)) = reg := by
  apply BitVec.eq_of_toNat_eq
  rw [Field.reg7, encodeWord, packWord_extract (by omega)]; omega

@[simp] theorem reg7_regWr (reg : BitVec 7) (d : BitVec 8) : Field.reg7 (encodeWord m (.regWr reg d)) = reg := by
  apply BitVec.eq_of_toNat_eq
  rw [Field.reg7, encodeWord, packWord_extract (by omega)]; omega

@[simp] theorem data_regWr (reg : BitVec 7) (d : BitVec 8) : Field.data (encodeWord m (.regWr reg d)) = d := by
  apply BitVec.eq_of_toNat_eq
  rw [Field.data, encodeWord, packWord_extract (by omega)]; omega

/-! ## Format L -/

theorem low16_packWord {op : BitVec 6} (len : BitVec 16) : Field.low16 (packWord op len.toNat) = len := by
  apply BitVec.eq_of_toNat_eq
  rw [Field.low16, packWord_extract (by omega)]; omega

@[simp] theorem low16_memRd (len : BitVec 16) : Field.low16 (encodeWord m (.memRd len)) = len := low16_packWord len
@[simp] theorem low16_memWr (len : BitVec 16) : Field.low16 (encodeWord m (.memWr len)) = len := low16_packWord len
@[simp] theorem low16_rxAlloc (len : BitVec 16) : Field.low16 (encodeWord m (.rxAlloc len)) = len := low16_packWord len
@[simp] theorem low16_rxFrame (len : BitVec 16) : Field.low16 (encodeWord m (.rxFrame len)) = len := low16_packWord len
@[simp] theorem low16_txFrame (len : BitVec 16) : Field.low16 (encodeWord m (.txFrame len)) = len := low16_packWord len

@[simp] theorem cwLen_memRd (len : BitVec 16) : Machine.cwLen (encodeWord m (.memRd len)) = len.toNat := by simp [Machine.cwLen]
@[simp] theorem cwLen_memWr (len : BitVec 16) : Machine.cwLen (encodeWord m (.memWr len)) = len.toNat := by simp [Machine.cwLen]
@[simp] theorem cwLen_rxAlloc (len : BitVec 16) : Machine.cwLen (encodeWord m (.rxAlloc len)) = len.toNat := by simp [Machine.cwLen]
@[simp] theorem cwLen_rxFrame (len : BitVec 16) : Machine.cwLen (encodeWord m (.rxFrame len)) = len.toNat := by simp [Machine.cwLen]
@[simp] theorem cwLen_txFrame (len : BitVec 16) : Machine.cwLen (encodeWord m (.txFrame len)) = len.toNat := by simp [Machine.cwLen]

theorem low16_rxFlush : Machine.cwLen (encodeWord m .rxFlush) = 0 := by
  rw [Machine.cwLen, Field.low16, encodeWord, packWord_extract (by omega)]; omega

/-! ## Format P -/

@[simp] theorem phy_phyWr (p r : BitVec 5) (v : BitVec 16) : Field.phy (encodeWord m (.phyWr p r v)) = p := by
  apply BitVec.eq_of_toNat_eq
  rw [Field.phy, encodeWord, packWord_extract (by omega)]; omega

@[simp] theorem reg5_phyWr (p r : BitVec 5) (v : BitVec 16) : Field.reg5 (encodeWord m (.phyWr p r v)) = r := by
  apply BitVec.eq_of_toNat_eq
  rw [Field.reg5, encodeWord, packWord_extract (by omega)]; omega

@[simp] theorem low16_phyWr (p r : BitVec 5) (v : BitVec 16) : Field.low16 (encodeWord m (.phyWr p r v)) = v := by
  apply BitVec.eq_of_toNat_eq
  rw [Field.low16, encodeWord, packWord_extract (by omega)]; omega

@[simp] theorem phy_phyRd (p r : BitVec 5) (d : Bool) : Field.phy (encodeWord m (.phyRd p r d)) = p := by
  have := Bool.toNat_lt d
  apply BitVec.eq_of_toNat_eq
  rw [Field.phy, encodeWord, packWord_extract (by omega)]; omega

@[simp] theorem reg5_phyRd (p r : BitVec 5) (d : Bool) : Field.reg5 (encodeWord m (.phyRd p r d)) = r := by
  have := Bool.toNat_lt d
  apply BitVec.eq_of_toNat_eq
  rw [Field.reg5, encodeWord, packWord_extract (by omega)]; omega

/-! ## Format C and `DV` -/

theorem flag_packWord {op : BitVec 6} {operand : Nat} (hn : operand < 2 ^ 26) :
    Field.flag (packWord op operand) = (operand % 2 == 1) := by
  rw [Field.flag, BitVec.getLsbD, packWord_toNat hn, Nat.testBit_zero]
  have : (op.toNat * 2 ^ 26 + operand) % 2 = operand % 2 := by omega
  rw [this]; rfl

@[simp] theorem flag_phyRd (p r : BitVec 5) (d : Bool) : Machine.cwFlag (encodeWord m (.phyRd p r d)) = d := by
  have := Bool.toNat_lt d
  rw [Machine.cwFlag, encodeWord, flag_packWord (by omega)]
  have : (p.toNat * 2 ^ 21 + r.toNat * 2 ^ 16 + d.toNat) % 2 = d.toNat := by omega
  rw [this]; cases d <;> rfl

@[simp] theorem flag_setLink (f : Bool) : Machine.cwFlag (encodeWord m (.setLink f)) = f := by
  rw [Machine.cwFlag, encodeWord, flag_packWord (by cases f <;> decide)]; cases f <;> rfl
@[simp] theorem flag_setSpeed (f : Bool) : Machine.cwFlag (encodeWord m (.setSpeed f)) = f := by
  rw [Machine.cwFlag, encodeWord, flag_packWord (by cases f <;> decide)]; cases f <;> rfl
@[simp] theorem flag_setDuplex (f : Bool) : Machine.cwFlag (encodeWord m (.setDuplex f)) = f := by
  rw [Machine.cwFlag, encodeWord, flag_packWord (by cases f <;> decide)]; cases f <;> rfl
@[simp] theorem flag_setPromisc (f : Bool) : Machine.cwFlag (encodeWord m (.setPromisc f)) = f := by
  rw [Machine.cwFlag, encodeWord, flag_packWord (by cases f <;> decide)]; cases f <;> rfl
@[simp] theorem flag_setFlowCtrl (f : Bool) : Machine.cwFlag (encodeWord m (.setFlowCtrl f)) = f := by
  rw [Machine.cwFlag, encodeWord, flag_packWord (by cases f <;> decide)]; cases f <;> rfl
@[simp] theorem flag_setPeerPause (f : Bool) : Machine.cwFlag (encodeWord m (.setPeerPause f)) = f := by
  rw [Machine.cwFlag, encodeWord, flag_packWord (by cases f <;> decide)]; cases f <;> rfl

end Sys2Proof
end

