-- ==== Sys2Proof/Laws/Run.lean ====
section
/-! SUPPORT. A host operation step by step: its issue, one lemma for each kind of step that `callLoop` takes, and that fuel
beyond the operation's end changes nothing. -/

namespace Sys2Proof.Machine

@[simp] theorem hbusy_goto (m : Op) (l : Label) (s : State) : hbusy (goto .H m l s) = true := rfl

theorem hbusy_of_pc {s : State} {m : Op} {l : Label} (h : s.hctx.pc = .op m l) : hbusy s = true := by
  simp [hbusy, h]

/-- The loop ends where HCTX is idle. -/
theorem callLoop_done {s : State} (h : hbusy s = false) (n : Nat) : callLoop n s = .next s := by
  cases n <;> simp [callLoop, h]

/-- A turn of the loop with no agent scheduled. -/
theorem callLoop_advance {s : State} (h : hbusy s = true) (ha : NoAgent s) (n : Nat) :
    callLoop (n + 1) s = andThen (advance s) (callLoop n) := by
  rw [callLoop, if_neg (by simp [h])]
  split
  · rename_i a rest heq; exact absurd heq (ha a rest)
  · rfl

/-- A turn of the loop with an agent scheduled. -/
theorem callLoop_agent {s : State} (h : hbusy s = true) {a : AgentStep} {rest : List Event}
    (ha : s.agenda = .agent a :: rest) (n : Nat) :
    callLoop (n + 1) s = andThen (agentStep a { s with agenda := rest }) (callLoop n) := by
  rw [callLoop, if_neg (by simp [h]), ha]

/-- A step that is no bus transaction. -/
theorem callLoop_plain {s : State} {m : Op} {l : Label} {o : Out} (hpc : s.hctx.pc = .op m l) (ha : NoAgent s)
    (hact : opAct .H m l s = .plain o) (n : Nat) : callLoop (n + 1) s = andThen o (callLoop n) := by
  rw [callLoop_advance (hbusy_of_pc hpc) ha]
  simp [advance, ctxEnabled, ctxStep, ctxAct, hpc, hact]

/-- A bus transaction of HCTX with the lock free: `Acquire`, then `Transfer`. -/
theorem callLoop_bus {s : State} {m : Op} {l : Label} {f : State → Out} (hpc : s.hctx.pc = .op m l) (ha : NoAgent s)
    (hv : s.cfg.variant = .bus) (hl : s.lock = none) (hact : opAct .H m l s = .bus f)
    (hact' : opAct .H m l { s with lock := some .H } = .bus f) (n : Nat) :
    callLoop (n + 2) s = andThen (f s) (callLoop n) := by
  rw [callLoop_advance (hbusy_of_pc hpc) ha]
  have h1 : advance s = .next { s with lock := some .H } := by
    simp [advance, ctxEnabled, ctxStep, ctxAct, hpc, hact, hl, busStep, hv]
  rw [h1, andThen_next, callLoop_advance (s := { s with lock := some .H }) (hbusy_of_pc (m := m) (l := l) hpc) ha]
  have h2 : advance { s with lock := some .H } = f { s with lock := none } := by
    simp [advance, ctxEnabled, ctxStep, ctxAct, hpc, hact', busStep, hv, other]
  rw [h2]
  have h3 : ({ s with lock := none } : State) = s := by rw [← hl]
  rw [h3]

/-- A register access of HCTX under DMA: one step. -/
theorem callLoop_dma {s : State} {m : Op} {l : Label} {f : State → Out} (hpc : s.hctx.pc = .op m l) (ha : NoAgent s)
    (hv : s.cfg.variant = .dma) (hact : opAct .H m l s = .bus f) (n : Nat) :
    callLoop (n + 1) s = andThen (f s) (callLoop n) := by
  rw [callLoop_advance (hbusy_of_pc hpc) ha]
  simp [advance, ctxEnabled, ctxStep, ctxAct, hpc, hact, busStep, hv]

/-- Fuel beyond the operation's end changes nothing. -/
theorem callLoop_mono {n m : Nat} {s t : State} (h : callLoop n s = .next t) (ht : hbusy t = false) (hnm : n ≤ m) :
    callLoop m s = .next t := by
  induction n generalizing s m with
  | zero =>
    simp only [callLoop, Host.Outcome.next.injEq] at h
    subst h
    exact callLoop_done ht m
  | succ n ih =>
    cases m with
    | zero => omega
    | succ m =>
      rw [callLoop] at h ⊢
      split at h
      · rename_i hb; rw [if_pos hb]; exact h
      · rename_i hb
        rw [if_neg hb]
        split at h
        · obtain ⟨u, hu, hk⟩ := andThen_eq_next.mp h
          rw [andThen_eq_next]; exact ⟨u, hu, ih hk (by omega)⟩
        · obtain ⟨u, hu, hk⟩ := andThen_eq_next.mp h
          rw [andThen_eq_next]; exact ⟨u, hu, ih hk (by omega)⟩

theorem callFuel_ge (s : State) : 256 ≤ callFuel s := by unfold callFuel; omega

/-- The issue of an operation that the block takes. -/
theorem issue_taken {m : Op} {i : Instr} {s : State} (hidle : hbusy s = false) (he : i.existsIn s.cfg.variant = true)
    (hw : i.wellFormed s.cfg.cregs = true) (ha : admitted m s.inst.life = true) :
    issue m i s = opEntry .H m (issued i s) := by
  have hd : s.inst.life ≠ .destroyed := by
    intro h
    rw [h] at ha
    cases m <;> simp [admitted, lifeUp] at ha
  simp [issue, hd, hidle, he, hw, ha]

/-- A host operation from its own steps: what `n` turns of the loop reach. -/
theorem hostCall_of {m : Op} {i : Instr} {s t : State} {n : Nat} (hidle : hbusy s = false)
    (he : i.existsIn s.cfg.variant = true) (hw : i.wellFormed s.cfg.cregs = true) (ha : admitted m s.inst.life = true)
    (h : andThen (opEntry .H m (issued i s)) (callLoop n) = .next t) (ht : hbusy t = false) (hn : n ≤ callFuel s) :
    hostCall m i s = .next t := by
  obtain ⟨u, hu, hk⟩ := andThen_eq_next.mp h
  rw [hostCall, issue_taken hidle he hw ha, hu, andThen_next]
  exact callLoop_mono hk ht hn

end Sys2Proof.Machine
end

