-- ==== Sys2Proof/Laws/HostRun.lean ====
section
/-! SUPPORT. Running a host operation by its steps. `withHost` is a state seen as the rest of the machine with a host part; every
operation on the rest commutes with it, so that a run is followed on the rest alone. `Reaches` is what the loop of a call
comes to. -/

namespace Sys2Proof.Machine

/-- `u` with another host part: HCTX, the host's registers, the trace. -/
def withHost (x : Ctx) (h : Hif) (tr : List Obs) (u : State) : State := { u with hctx := x, hif := h, trace := tr }

variable (x : Ctx) (h : Hif) (tr : List Obs) (u : State)

@[simp] theorem withHost_cfg : (withHost x h tr u).cfg = u.cfg := rfl
@[simp] theorem withHost_hif : (withHost x h tr u).hif = h := rfl
@[simp] theorem withHost_hctx : (withHost x h tr u).hctx = x := rfl
@[simp] theorem withHost_wctx : (withHost x h tr u).wctx = u.wctx := rfl
@[simp] theorem withHost_wstate : (withHost x h tr u).wstate = u.wstate := rfl
@[simp] theorem withHost_drain : (withHost x h tr u).drain = u.drain := rfl
@[simp] theorem withHost_flags : (withHost x h tr u).flags = u.flags := rfl
@[simp] theorem withHost_lock : (withHost x h tr u).lock = u.lock := rfl
@[simp] theorem withHost_inst : (withHost x h tr u).inst = u.inst := rfl
@[simp] theorem withHost_bufs : (withHost x h tr u).bufs = u.bufs := rfl
@[simp] theorem withHost_allocs : (withHost x h tr u).allocs = u.allocs := rfl
@[simp] theorem withHost_dev : (withHost x h tr u).dev = u.dev := rfl
@[simp] theorem withHost_mreg : (withHost x h tr u).mreg = u.mreg := rfl
@[simp] theorem withHost_dma : (withHost x h tr u).dma = u.dma := rfl
@[simp] theorem withHost_phyReg : (withHost x h tr u).phyReg = u.phyReg := rfl
@[simp] theorem withHost_hmem : (withHost x h tr u).hmem = u.hmem := rfl
@[simp] theorem withHost_bus : (withHost x h tr u).bus = u.bus := rfl
@[simp] theorem withHost_env : (withHost x h tr u).env = u.env := rfl
@[simp] theorem withHost_log : (withHost x h tr u).log = u.log := rfl
@[simp] theorem withHost_trace : (withHost x h tr u).trace = tr := rfl
@[simp] theorem withHost_agenda : (withHost x h tr u).agenda = u.agenda := rfl

theorem withHost_self : withHost u.hctx u.hif u.trace u = u := rfl

/-- Every state is one with its own host part. -/
theorem onlyHost_withHost (ha : h.arg0 = u.hif.arg0) (hb : h.arg1 = u.hif.arg1) (hd : h.hostData = u.hif.hostData) :
    OnlyHost u (withHost x h tr u) := ⟨rfl, ha, hb, hd⟩

/-! ## The host's own part -/

section own
variable (r : Regs) (sc : Scratch) (pc : Pc)

@[simp] theorem modX_host (f : Regs → Regs) : modX .H f (withHost ⟨r, sc, pc⟩ h tr u) = withHost ⟨f r, sc, pc⟩ h tr u := rfl
@[simp] theorem modSc_host (f : Scratch → Scratch) :
    modSc .H f (withHost ⟨r, sc, pc⟩ h tr u) = withHost ⟨r, f sc, pc⟩ h tr u := rfl
@[simp] theorem setT_host (b : Byte) :
    setT .H b (withHost ⟨r, sc, pc⟩ h tr u) = withHost ⟨{ r with t := some (zextByte b) }, sc, pc⟩ h tr u := rfl
@[simp] theorem setTw_host (v : Word) :
    setTw .H v (withHost ⟨r, sc, pc⟩ h tr u) = withHost ⟨{ r with t := some v }, sc, pc⟩ h tr u := rfl
@[simp] theorem setV_host (v : Word) :
    setV .H v (withHost ⟨r, sc, pc⟩ h tr u) = withHost ⟨{ r with v := some v }, sc, pc⟩ h tr u := rfl
@[simp] theorem setN_host (v : Word) :
    setN .H v (withHost ⟨r, sc, pc⟩ h tr u) = withHost ⟨{ r with n := some v }, sc, pc⟩ h tr u := rfl
@[simp] theorem setP_host (v : Word) :
    setP .H v (withHost ⟨r, sc, pc⟩ h tr u) = withHost ⟨{ r with p := some v }, sc, pc⟩ h tr u := rfl
@[simp] theorem setAcc_host (v : Word) :
    setAcc .H v (withHost ⟨r, sc, pc⟩ h tr u) = withHost ⟨{ r with acc := some v }, sc, pc⟩ h tr u := rfl
@[simp] theorem goto_host (m : Op) (l : Label) :
    goto .H m l (withHost ⟨r, sc, pc⟩ h tr u) = withHost ⟨r, sc, .op m l⟩ h tr u := rfl
@[simp] theorem toLabel_host (m : Op) (l : Label) :
    toLabel .H m l (withHost ⟨r, sc, pc⟩ h tr u) = .next (withHost ⟨r, sc, .op m l⟩ h tr u) := rfl
@[simp] theorem setBytes_host (bs : List Byte) : setBytes .H bs (withHost ⟨r, sc, pc⟩ h tr u) =
    withHost ⟨r, { sc with bytes := some bs, pos := 0 }, pc⟩ h tr u := rfl
@[simp] theorem setPos_host (p : Nat) : setPos .H p (withHost ⟨r, sc, pc⟩ h tr u) =
    withHost ⟨r, { sc with pos := p }, pc⟩ h tr u := rfl
@[simp] theorem xOf_host : xOf .H (withHost ⟨r, sc, pc⟩ h tr u) = r := rfl
@[simp] theorem scOf_host : scOf .H (withHost ⟨r, sc, pc⟩ h tr u) = sc := rfl
@[simp] theorem observe_host (o : Obs) : observe o (withHost x h tr u) = withHost x h (tr ++ [o]) u := rfl

@[simp] theorem completeHost_host (a b d : Word) : completeHost a b d (withHost ⟨r, sc, pc⟩ h tr u) =
    withHost ⟨r, sc, .idle⟩ { h with result := a, rdata0 := b, rdata1 := d, done := true } (tr ++ [.result a b d]) u := rfl

@[simp] theorem finish_host (m : Op) (b d : Word) : finish .H m b d (withHost ⟨r, sc, pc⟩ h tr u) =
    .next (withHost ⟨r, sc, .idle⟩ { h with result := u.cfg.results.ok, rdata0 := b, rdata1 := d, done := true }
      (tr ++ [.result u.cfg.results.ok b d]) u) := rfl

@[simp] theorem endWithError_host (m : Op) (e : Err) (d : Word) :
    endWithError .H m e d (withHost ⟨r, sc, pc⟩ h tr u) =
    .next (withHost ⟨r, sc, .idle⟩ { h with result := errCode u.cfg.results e, rdata0 := 0, rdata1 := d, done := true }
      (tr ++ [.result (errCode u.cfg.results e) 0 d]) u) := rfl

end own

/-! ## The rest commutes with the host part -/

/-- An answer with its state put back under a host part. -/
def hostPair {α : Type} (p : α × State) : α × State := (p.1, withHost x h tr p.2)

@[simp] theorem drawByte_host : drawByte (withHost x h tr u) = ((drawByte u).1, withHost x h tr (drawByte u).2) := rfl
@[simp] theorem drawBytes_host (n : Nat) :
    drawBytes n (withHost x h tr u) = ((drawBytes n u).1, withHost x h tr (drawBytes n u).2) := rfl
@[simp] theorem drawWord_host : drawWord (withHost x h tr u) = ((drawWord u).1, withHost x h tr (drawWord u).2) := rfl
@[simp] theorem hbyte_host (a : Nat) : hbyte (withHost x h tr u) a = hbyte u a := rfl
@[simp] theorem hread_host (a n : Nat) : hread (withHost x h tr u) a n = hread u a n := rfl
@[simp] theorem hread32_host (a : Nat) : hread32 (withHost x h tr u) a = hread32 u a := rfl
@[simp] theorem hwrite_host (a : Nat) (bs : List Byte) :
    hwrite a bs (withHost x h tr u) = withHost x h tr (hwrite a bs u) := rfl
@[simp] theorem hwrite32_host (a : Nat) (v : Word) :
    hwrite32 a v (withHost x h tr u) = withHost x h tr (hwrite32 a v u) := rfl
@[simp] theorem logEntry_host (c : CtxId) (t : LogText) :
    logEntry c t (withHost x h tr u) = withHost x h tr (logEntry c t u) := rfl
@[simp] theorem resetting_host : resetting (withHost x h tr u) = resetting u := rfl
@[simp] theorem freeAlloc_host (a : Word) : freeAlloc a (withHost x h tr u) = withHost x h tr (freeAlloc a u) := rfl
@[simp] theorem setLife_host (l : Life) : setLife l (withHost x h tr u) = withHost x h tr (setLife l u) := rfl
@[simp] theorem giveAlloc_host (a : Word) (o : Owner) :
    giveAlloc a o (withHost x h tr u) = withHost x h tr (giveAlloc a o u) := rfl
@[simp] theorem passToCaller_host (c : CtxId) (a : Word) :
    passToCaller c a (withHost x h tr u) = withHost x h tr (passToCaller c a u) := by cases c <;> rfl
@[simp] theorem stopFlags_host : stopFlags (withHost x h tr u) = withHost x h tr (stopFlags u) := by
  unfold stopFlags; simp only [withHost_cfg]; split <;> rfl
@[simp] theorem setRemain_host (n : Nat) : setRemain n (withHost x h tr u) = withHost x h tr (setRemain n u) := rfl
@[simp] theorem report_host (n k : Nat) : report n k (withHost x h tr u) = withHost x h tr (report n k u) := rfl
@[simp] theorem setAddrByte_host (i : Nat) (b : Byte) :
    setAddrByte i b (withHost x h tr u) = withHost x h tr (setAddrByte i b u) := rfl
@[simp] theorem notify_host (n : Notice) : notify n (withHost x h tr u) = withHost x h (tr ++ [.notify n]) u := rfl
@[simp] theorem moveCursor_host (a : Nat) : moveCursor a (withHost x h tr u) = withHost x h tr (moveCursor a u) := rfl
@[simp] theorem resetRxPointer_host : resetRxPointer (withHost x h tr u) = withHost x h tr (resetRxPointer u) := rfl
@[simp] theorem setInt_host (a b : Byte) : setInt a b (withHost x h tr u) = withHost x h tr (setInt a b u) := rfl
@[simp] theorem requestTx_host (b : Byte) : requestTx b (withHost x h tr u) = withHost x h tr (requestTx b u) := rfl
@[simp] theorem stageTx_host (bs : List Byte) : stageTx bs (withHost x h tr u) = withHost x h tr (stageTx bs u) := rfl
@[simp] theorem rxdAddr_host (i : Nat) : rxdAddr (withHost x h tr u) i = rxdAddr u i := rfl
@[simp] theorem txdAddr_host (i : Nat) : txdAddr (withHost x h tr u) i = txdAddr u i := rfl
@[simp] theorem rxBuf_host (i : Nat) : rxBuf (withHost x h tr u) i = rxBuf u i := rfl
@[simp] theorem txBuf_host (i : Nat) : txBuf (withHost x h tr u) i = txBuf u i := rfl
@[simp] theorem txSlot_host (i : Nat) : txSlot (withHost x h tr u) i = txSlot u i := rfl
@[simp] theorem walkIdx_host (r : Regs) (sc : Scratch) (pc : Pc) :
    walkIdx .H (withHost ⟨r, sc, pc⟩ h tr u) = sc.i.getD u.bufs.rxIdx := rfl

/-- A host part whose operation takes no operand buffer. -/
def NoOperand (x : Ctx) (c : Config) : Prop := ∀ s : State, s.hctx = x → s.cfg = c → (operandBuffer s).2 = 0

theorem noOperand_op {r : Regs} {sc : Scratch} {m : Op} {l : Label} {c : Config}
    (hm : ∀ n, operandLength c m n = 0) : NoOperand ⟨r, sc, .op m l⟩ c := by
  intro s hs hc
  unfold operandBuffer
  rw [hs, hc]
  split
  · rename_i h1 _ _; injection h1 with h1 h2; subst h1; exact hm _
  · rfl

theorem noOperand_idle {r : Regs} {sc : Scratch} {c : Config} : NoOperand ⟨r, sc, .idle⟩ c := by
  intro s hs _
  unfold operandBuffer
  rw [hs]

theorem meetsOperand_false {s : State} (hx : NoOperand s.hctx s.cfg) (a n : Nat) : meetsOperand s a n = false := by
  simp [meetsOperand, hx s rfl rfl]

theorem admissible_host {x u} (hx : NoOperand x u.cfg) (hu : NoOperand u.hctx u.cfg) (n : Nat) (a : Word) :
    admissible (withHost x h tr u) n a = admissible u n a := by
  unfold admissible
  rw [meetsOperand_false (s := withHost x h tr u) hx, meetsOperand_false hu]; rfl

/-- ALLOC's answer does not depend on the host part, where neither operation has an operand buffer. -/
theorem alloc_host {x u} (n : Nat) (o : Owner) (hx : NoOperand x u.cfg) (hu : NoOperand u.hctx u.cfg) :
    alloc n o (withHost x h tr u) = ((alloc n o u).1, withHost x h tr (alloc n o u).2) := by
  have ha : nextAllocAnswer (withHost x h tr u) =
      ((nextAllocAnswer u).1, withHost x h tr (nextAllocAnswer u).2) := by
    rcases hu : u.env.allocAnswers with _ | ⟨a, rest⟩
    · simp only [nextAllocAnswer, withHost_env, hu]; rfl
    · simp only [nextAllocAnswer, withHost_env, hu]; rfl
  have hc : (nextAllocAnswer u).2.cfg = u.cfg ∧ (nextAllocAnswer u).2.hctx = u.hctx := by
    unfold nextAllocAnswer; split <;> exact ⟨rfl, rfl⟩
  unfold alloc
  rw [ha]
  revert hc
  rcases nextAllocAnswer u with ⟨_ | a, v⟩
  · intro _; rfl
  · rintro ⟨h1, h2⟩
    have := admissible_host h tr (x := x) (u := v) (h1 ▸ hx) (by rw [h1, h2]; exact hu) n a
    by_cases hv : admissible v n a = true
    · simp only [this, hv, if_true]; rfl
    · simp only [this, hv]; rfl

@[simp] theorem keepDrainHeader_host (x' : Ctx) (h' : Hif) (tr' : List Obs) (b : State) :
    keepDrainHeader (withHost x' h' tr' b) (withHost x h tr u) = withHost x h tr (keepDrainHeader b u) := by
  unfold keepDrainHeader
  simp only [withHost_drain, withHost_bufs]
  split
  · rw [apply_ite (withHost x h tr)]; rfl
  · rfl

/-! ## Byte strings -/

theorem hread_append (s : State) (a i k : Nat) : hread s a i ++ hread s (a + i) k = hread s a (i + k) := by
  simp only [hread, List.range_add, List.map_append, List.map_map]
  congr 1
  exact List.map_congr_left (fun j _ => by simp [Nat.add_assoc])

@[simp] theorem hread_length (s : State) (a n : Nat) : (hread s a n).length = n := by simp [hread]

theorem storeBytes_append (m : Cells 8) (a : Nat) (bs cs : List Byte) :
    storeBytes m a (bs ++ cs) = storeBytes (storeBytes m a bs) (a + bs.length) cs := by
  induction bs generalizing m a with
  | nil => rfl
  | cons b bs ih => simp only [List.cons_append, storeBytes, ih, List.length_cons]; congr 1; omega

theorem hwrite_append (a : Nat) (bs cs : List Byte) (s : State) :
    hwrite (a + bs.length) cs (hwrite a bs s) = hwrite a (bs ++ cs) s := by
  simp only [hwrite, storeBytes_append]

theorem blur_untouched {c : CtxId} {s : State} (h : (scOf c s).touched = []) (a : Nat) (bs : List Byte) :
    blur c a bs s = (bs, s) := by
  induction bs generalizing a with
  | nil => rfl
  | cons b bs ih => simp [blur, wasTouched, h, ih]

theorem stringUnit_pos {a n : Nat} (h : 0 < n) : 0 < stringUnit a n := by
  unfold stringUnit; split <;> omega

theorem portPeek_host (n : Nat) :
    portPeek n (withHost x h tr u) = (portPeek n u).map (hostPair x h tr) := by
  unfold portPeek
  rw [apply_ite (Except.map (hostPair x h tr))]; rfl

theorem portTake_host (n : Nat) :
    portTake n (withHost x h tr u) = (portTake n u).map (hostPair x h tr) := by
  unfold portTake
  rw [apply_ite (Except.map (hostPair x h tr))]; rfl

theorem devReadRaw_host (r : CReg) :
    devReadRaw r (withHost x h tr u) = (devReadRaw r u).map (hostPair x h tr) := by
  cases r
  case rxPeekN => simp only [devReadRaw, portPeek_host]; cases portPeek 1 u <;> rfl
  case rxData => simp only [devReadRaw, portTake_host]; cases portTake 1 u <;> rfl
  all_goals rfl

theorem devRead_host (r : CReg) :
    devRead r (withHost x h tr u) = (devRead r u).map (hostPair x h tr) := by
  unfold devRead
  rw [devReadRaw_host]
  rcases devReadRaw r u with e | ⟨b, v⟩
  · rfl
  · simp only [Except.map, hostPair, resetting_host]
    by_cases hx : (resetting u && r != .ncr) = true
    · simp only [hx, if_true]; rfl
    · simp only [hx]; rfl

theorem devWrite_host (r : CReg) (b : Byte) :
    devWrite r b (withHost x h tr u) = (devWrite r b u).map (withHost x h tr) := by
  cases r
  case txCtrl => simp only [devWrite]; rw [apply_ite (Except.map (withHost x h tr))]; rfl
  case phyCmd =>
    simp only [devWrite, writePhyCmd]
    rw [apply_ite (Except.map (withHost x h tr)), apply_ite (Except.map (withHost x h tr)),
      apply_ite (Except.map (withHost x h tr))]
    rfl
  case ptrCtrl =>
    simp only [devWrite, Except.map]
    by_cases h0 : b.getLsbD 0 = true <;> by_cases h1 : b.getLsbD 1 = true <;> simp only [h0, h1] <;> rfl
  case rxrpL => simp only [devWrite]; rw [apply_ite (Except.map (withHost x h tr))]; rfl
  all_goals rfl

theorem devBlockReadRaw_host (r : CReg) (n : Nat) :
    devBlockReadRaw r n (withHost x h tr u) = (devBlockReadRaw r n u).map (hostPair x h tr) := by
  unfold devBlockReadRaw
  split
  · rw [apply_ite (Except.map (hostPair x h tr)), portPeek_host]; rfl
  · rw [apply_ite (Except.map (hostPair x h tr)), portTake_host]; rfl
  · rw [apply_ite (Except.map (hostPair x h tr)), devReadRaw_host]
    cases devReadRaw r u <;> rfl

theorem devBlockRead_host (r : CReg) (n : Nat) :
    devBlockRead r n (withHost x h tr u) = (devBlockRead r n u).map (hostPair x h tr) := by
  unfold devBlockRead
  rw [devBlockReadRaw_host]
  rcases devBlockReadRaw r n u with e | ⟨bs, v⟩
  · rfl
  · simp only [Except.map, hostPair, resetting_host]
    by_cases hx : (resetting u && r != .ncr) = true
    · simp only [hx, if_true]; rfl
    · simp only [hx]; rfl

theorem devBlockWrite_host (r : CReg) (bs : List Byte) :
    devBlockWrite r bs (withHost x h tr u) = (devBlockWrite r bs u).map (withHost x h tr) := by
  unfold devBlockWrite
  split
  · rfl
  · rw [apply_ite (Except.map (withHost x h tr))]; rfl
  · exact devWrite_host x h tr u _ _
  · rfl

theorem devReadIdx_host (i : BitVec 7) :
    devReadIdx i (withHost x h tr u) = (devReadIdx i u).map (hostPair x h tr) := by
  unfold devReadIdx
  simp only [withHost_cfg]
  split
  · exact devRead_host x h tr u _
  · rfl

theorem devWriteIdx_host (i : BitVec 7) (b : Byte) :
    devWriteIdx i b (withHost x h tr u) = (devWriteIdx i b u).map (withHost x h tr) := by
  unfold devWriteIdx
  simp only [withHost_cfg]
  split
  · exact devWrite_host x h tr u _ _
  · rfl

/-! ## Transactions of HCTX on the rest -/

@[simp] theorem regRead_host (r : CReg) (k : Byte → State → Out) : regRead r (withHost x h tr u) k =
    accept (devRead r u) (fun p => k p.1 (withHost x h (tr ++ [.regRd (r.index u.cfg.cregs) p.1]) p.2)) := by
  unfold regRead; rw [devRead_host]; cases devRead r u <;> rfl

@[simp] theorem regWrite_host (r : CReg) (b : Byte) (k : State → Out) : regWrite r b (withHost x h tr u) k =
    accept (devWrite r b u) (fun v => k (withHost x h (tr ++ [.regWr (r.index u.cfg.cregs) b]) v)) := by
  unfold regWrite; rw [devWrite_host]; cases devWrite r b u <;> rfl

@[simp] theorem regReadIdx_host (i : BitVec 7) (k : Byte → State → Out) : regReadIdx i (withHost x h tr u) k =
    accept (devReadIdx i u) (fun p => k p.1 (withHost x h (tr ++ [.regRd i p.1]) p.2)) := by
  unfold regReadIdx; rw [devReadIdx_host]; cases devReadIdx i u <;> rfl

@[simp] theorem regWriteIdx_host (i : BitVec 7) (b : Byte) (k : State → Out) : regWriteIdx i b (withHost x h tr u) k =
    accept (devWriteIdx i b u) (fun v => k (withHost x h (tr ++ [.regWr i b]) v)) := by
  unfold regWriteIdx; rw [devWriteIdx_host]; cases devWriteIdx i b u <;> rfl

@[simp] theorem blockRead_host (r : CReg) (n : Nat) (k : List Byte → State → Out) : blockRead r n (withHost x h tr u) k =
    accept (devBlockRead r n u) (fun p => k p.1 (withHost x h (tr ++ [.blkRd (r.index u.cfg.cregs) p.1]) p.2)) := by
  unfold blockRead; rw [devBlockRead_host]; cases devBlockRead r n u <;> rfl

@[simp] theorem blockWrite_host (r : CReg) (bs : List Byte) (k : State → Out) : blockWrite r bs (withHost x h tr u) k =
    accept (devBlockWrite r bs u) (fun v => k (withHost x h (tr ++ [.blkWr (r.index u.cfg.cregs) bs]) v)) := by
  unfold blockWrite; rw [devBlockWrite_host]; cases devBlockWrite r bs u <;> rfl

theorem mregRead_host (r : MReg) :
    mregRead r (withHost x h tr u) = ((mregRead r u).1, withHost x h tr (mregRead r u).2) := by
  have hv : mregValue r (withHost x h tr u) = ((mregValue r u).1, withHost x h tr (mregValue r u).2) := by
    cases r <;> rfl
  unfold mregRead
  simp only [hv, resetting_host, drawWord_host]
  by_cases hx : resetting u = true
  · simp only [hx, if_true]
    by_cases hr : r = .busMode
    · simp only [hr, if_true]
    · simp only [hr, if_false]
  · simp only [hx]; rfl

@[simp] theorem mRead_host (r : MReg) (k : Word → State → Out) : mRead r (withHost x h tr u) k =
    k (mregRead r u).1 (withHost x h (tr ++ [.mRead r (mregRead r u).1]) (mregRead r u).2) := by
  unfold mRead; rw [mregRead_host]; rfl

theorem mregWrite_host (r : MReg) (v : Word) :
    mregWrite r v (withHost x h tr u) = withHost x h tr (mregWrite r v u) := by
  cases r
  case txPoll => simp only [mregWrite, pollTx]; rw [apply_ite (withHost x h tr)]; rfl
  case rxPoll => simp only [mregWrite, pollRx]; rw [apply_ite (withHost x h tr)]; rfl
  case opMode =>
    have h1 (a b : Bool) (w : State) : switchRx a b (withHost x h tr w) = withHost x h tr (switchRx a b w) := by
      unfold switchRx; cases a <;> cases b <;> rfl
    have h2 (a b : Bool) (w : State) : switchTx a b (withHost x h tr w) = withHost x h tr (switchTx a b w) := by
      unfold switchTx; cases a <;> cases b <;> rfl
    simp only [mregWrite, withHost_mreg, h1, h2]; rfl
  all_goals rfl

@[simp] theorem mWrite_host (r : MReg) (v : Word) : mWrite r v (withHost x h tr u) =
    withHost x h (tr ++ [.mWrite r v]) (mregWrite r v u) := by
  unfold mWrite; rw [mregWrite_host]; rfl

/-! ## What the loop of a call comes to -/

/-- From `s` the loop comes to `t`, where HCTX is idle, within `n` turns. -/
def Reaches (n : Nat) (s t : State) : Prop := callLoop n s = .next t ∧ hbusy t = false

theorem reaches_done {s : State} (hb : hbusy s = false) : Reaches 0 s s := ⟨callLoop_done hb 0, hb⟩

theorem reaches_mono {n m : Nat} {s t : State} (hr : Reaches n s t) (hnm : n ≤ m) : Reaches m s t :=
  ⟨callLoop_mono hr.1 hr.2 hnm, hr.2⟩

section steps
variable {x h tr u} {r : Regs} {sc : Scratch} {m : Op} {l : Label} {v t : State} {n : Nat}

/-- A transaction with nobody in the way, in either variant. -/
theorem reaches_tx {f : State → Out} (hl : u.lock = none) (hna : NoAgent u)
    (hact : ∀ k, opAct .H m l (withHost ⟨r, sc, .op m l⟩ h tr { u with lock := k }) = .bus f)
    (hf : f (withHost ⟨r, sc, .op m l⟩ h tr u) = .next v) (hr : Reaches n v t) :
    Reaches (n + 2) (withHost ⟨r, sc, .op m l⟩ h tr u) t := by
  cases hv : u.cfg.variant
  · refine ⟨?_, hr.2⟩
    rw [callLoop_bus (s := withHost ⟨r, sc, .op m l⟩ h tr u) (m := m) (l := l) rfl hna hv hl (hact u.lock) (hact (some .H)), hf]
    exact hr.1
  · refine ⟨?_, hr.2⟩
    have hr' := reaches_mono hr (Nat.le_succ n)
    rw [callLoop_dma (n := n + 1) (s := withHost ⟨r, sc, .op m l⟩ h tr u) (m := m) (l := l) rfl hna hv (hact u.lock), hf]
    exact hr'.1

/-- Any other step. -/
theorem reaches_plain (hna : NoAgent u) (hact : opAct .H m l (withHost ⟨r, sc, .op m l⟩ h tr u) = .plain (.next v))
    (hr : Reaches n v t) : Reaches (n + 1) (withHost ⟨r, sc, .op m l⟩ h tr u) t :=
  ⟨by rw [callLoop_plain (s := withHost ⟨r, sc, .op m l⟩ h tr u) (m := m) (l := l) rfl hna hact]; exact hr.1, hr.2⟩

/-- A step of an agent that the agenda puts here. -/
theorem reaches_agent {s : State} {a : AgentStep} {rest : List Event} (hb : hbusy s = true)
    (ha : s.agenda = .agent a :: rest) (hs : agentStep a { s with agenda := rest } = .next v) (hr : Reaches n v t) :
    Reaches (n + 1) s t :=
  ⟨by rw [callLoop_agent hb ha, hs]; exact hr.1, hr.2⟩

end steps

/-- What a command word's operands are when it is issued. -/
theorem issued_host (i : Instr) (s : State) : issued i s =
    withHost ⟨{ cw := some (encodeWord s.cfg.opcodes i), a0 := some s.hif.arg0, a1 := some s.hif.arg1 }, {}, s.hctx.pc⟩
      { s.hif with done := false } s.trace s := rfl

/-- A host operation that is admitted comes to what its steps come to. -/
theorem hostCall_reaches {m : Op} {i : Instr} {s v t : State} {n : Nat} (hq : Quiet s)
    (ha : admitted m s.inst.life = true) (he : i.existsIn s.cfg.variant = true) (hw : i.wellFormed s.cfg.cregs = true)
    (hv : opEntry .H m (issued i s) = .next v) (hr : Reaches n v t) (hn : n ≤ callFuel s) : hostCall m i s = .next t :=
  hostCall_of (by simp [hbusy, hq.1]) he hw ha (by rw [hv]; exact hr.1) hr.2 hn

/-- The outcome `o` of a step of HCTX leads, within `n` turns of the loop, to the end of the operation that was issued at
`s`: with the result given, the observable steps `obs`, and the rest of the machine `u`. -/
def Yields (n : Nat) (o : Out) (s u : State) (obs : List Obs) (code a b : Word) : Prop :=
  ∃ v r sc, o = .next v ∧ Reaches n v (withHost ⟨r, sc, .idle⟩
    { s.hif with done := true, result := code, rdata0 := a, rdata1 := b } (s.trace ++ obs ++ [.result code a b]) u)

section yields
variable {s w : State} {obs : List Obs} {code a b : Word} {n : Nat} {r : Regs} {sc : Scratch} {x : Ctx} {h : Hif}
variable {tr : List Obs} {u : State} {m : Op} {l : Label}

theorem yields_mono {k : Nat} {o : Out} (hy : Yields n o s w obs code a b) (hk : n ≤ k) : Yields k o s w obs code a b := by
  obtain ⟨v, r, sc, ho, hr⟩ := hy
  exact ⟨v, r, sc, ho, reaches_mono hr hk⟩

/-- The operation has ended. -/
theorem yields_done (hh : h = { s.hif with done := true, result := code, rdata0 := a, rdata1 := b })
    (ht : tr = s.trace ++ obs ++ [.result code a b]) :
    Yields n (.next (withHost ⟨r, sc, .idle⟩ h tr w)) s w obs code a b := by
  subst hh ht
  exact ⟨_, r, sc, rfl, reaches_mono (reaches_done rfl) (Nat.zero_le n)⟩

/-- A transaction with nobody in the way, in either variant. -/
theorem yields_tx {f : State → Out} (hl : u.lock = none) (hna : NoAgent u)
    (hact : ∀ k, opAct .H m l (withHost ⟨r, sc, .op m l⟩ h tr { u with lock := k }) = .bus f)
    (hy : Yields n (f (withHost ⟨r, sc, .op m l⟩ h tr u)) s w obs code a b) :
    Yields (n + 2) (.next (withHost ⟨r, sc, .op m l⟩ h tr u)) s w obs code a b := by
  obtain ⟨v, r', sc', ho, hr⟩ := hy
  exact ⟨_, r', sc', rfl, reaches_tx hl hna hact ho hr⟩

/-- Any other step. -/
theorem yields_plain {o : Out} (hna : NoAgent u) (hact : opAct .H m l (withHost ⟨r, sc, .op m l⟩ h tr u) = .plain o)
    (hy : Yields n o s w obs code a b) :
    Yields (n + 1) (.next (withHost ⟨r, sc, .op m l⟩ h tr u)) s w obs code a b := by
  obtain ⟨v, r', sc', rfl, hr⟩ := hy
  exact ⟨_, r', sc', rfl, reaches_plain hna hact hr⟩

/-- A step of an agent that the agenda puts here. -/
theorem yields_agent {t : State} {g : AgentStep} {rest : List Event} {o : Out} (hb : hbusy t = true)
    (ha : t.agenda = .agent g :: rest) (hs : agentStep g { t with agenda := rest } = o)
    (hy : Yields n o s w obs code a b) : Yields (n + 1) (.next t) s w obs code a b := by
  obtain ⟨v, r', sc', rfl, hr⟩ := hy
  exact ⟨_, r', sc', rfl, reaches_agent hb ha hs hr⟩

/-- `bytes <- MemRead(a, n)` to its end: the scratch holds the string. `got` of its bytes were gathered before. -/
theorem yields_readString_from {a k : Nat} {after : State → Out} (hna : NoAgent u) (hfit : a + k ≤ hmemSize)
    (hact : ∀ got, opAct .H m l (withHost ⟨r, { sc with bytes := some got, pos := 0 }, .op m l⟩ h tr u) =
      .plain (readString .H m l a k after (withHost ⟨r, { sc with bytes := some got, pos := 0 }, .op m l⟩ h tr u)))
    (hy : Yields n (after (withHost ⟨r, { sc with bytes := some (hread u a k), pos := 0 }, .op m l⟩ h tr u))
      s w obs code d b) (left got : Nat) (hl : got + left = k) :
    Yields (n + left + 1) (.next (withHost ⟨r, { sc with bytes := some (hread u a got), pos := 0 }, .op m l⟩ h tr u))
      s w obs code d b := by
  induction left using Nat.strongRecOn generalizing got with
  | _ left ih =>
    refine yields_plain hna (hact _) ?_
    simp only [readString, scOf_host, need_some, Nat.not_lt.mpr hfit, if_false, hread_length, setBytes_host, hread_host,
      hread_append, toLabel_host]
    by_cases hd : got + min (stringUnit a k) (k - got) < k
    · have hp := stringUnit_pos (a := a) (n := k) (by omega)
      rw [if_pos hd]
      exact yields_mono (ih (k - (got + min (stringUnit a k) (k - got))) (by omega) _ (by omega)) (by omega)
    · have : got + min (stringUnit a k) (k - got) = k := by omega
      rw [if_neg hd, this]
      exact yields_mono hy (by omega)

/-- The whole of it, from the first step on. -/
theorem yields_readString {a k : Nat} {after : State → Out} (hna : NoAgent u) (hfit : a + k ≤ hmemSize)
    (hact : ∀ got, opAct .H m l (withHost ⟨r, { sc with bytes := some got, pos := 0 }, .op m l⟩ h tr u) =
      .plain (readString .H m l a k after (withHost ⟨r, { sc with bytes := some got, pos := 0 }, .op m l⟩ h tr u)))
    (hy : Yields n (after (withHost ⟨r, { sc with bytes := some (hread u a k), pos := 0 }, .op m l⟩ h tr u))
      s w obs code d b) :
    Yields (n + k + 1) (.next (withHost ⟨r, { sc with bytes := some [], pos := 0 }, .op m l⟩ h tr u)) s w obs code d b :=
  yields_readString_from hna hfit hact hy k 0 (Nat.zero_add k)

/-- `MemWrite(a, n, bs)` to its end, where neither HOST nor UP stored into the operand buffer. `p` bytes were stored
before. -/
theorem yields_writeString_from {a : Nat} {bs : List Byte} {after : State → Out} (hna : NoAgent u)
    (hfit : a + bs.length ≤ hmemSize) (htouched : sc.touched = [])
    (hact : ∀ p, p ≤ bs.length →
      opAct .H m l (withHost ⟨r, { sc with pos := p }, .op m l⟩ h tr (hwrite a (bs.take p) u)) =
      .plain (writeString .H m l a bs after
        (withHost ⟨r, { sc with pos := p }, .op m l⟩ h tr (hwrite a (bs.take p) u))))
    (hy : Yields n (after (withHost ⟨r, { sc with pos := bs.length }, .op m l⟩ h tr (hwrite a bs u))) s w obs code d b)
    (left p : Nat) (hl : p + left = bs.length) :
    Yields (n + left + 1) (.next (withHost ⟨r, { sc with pos := p }, .op m l⟩ h tr (hwrite a (bs.take p) u)))
      s w obs code d b := by
  induction left using Nat.strongRecOn generalizing p with
  | _ left ih =>
    refine yields_plain (fun x y => hna x y) (hact p (by omega)) ?_
    have hb := blur_untouched (c := .H)
      (s := withHost ⟨r, { sc with pos := p }, .op m l⟩ h tr (hwrite a (bs.take p) u)) htouched
    have hw (q : Nat) (hq : p + q ≤ bs.length) :
        hwrite (a + p) ((bs.drop p).take q) (hwrite a (bs.take p) u) = hwrite a (bs.take (p + q)) u := by
      have := hwrite_append a (bs.take p) ((bs.drop p).take q) u
      rw [List.length_take, Nat.min_eq_left (by omega)] at this
      rw [this, List.take_add]
    simp only [writeString, scOf_host, Nat.not_lt.mpr hfit, if_false, hb, hwrite_host, setPos_host, toLabel_host]
    rw [hw _ (by omega)]
    by_cases hd : p + min (stringUnit a bs.length) (bs.length - p) < bs.length
    · have hp := stringUnit_pos (a := a) (n := bs.length) (by omega)
      rw [if_pos hd]
      exact yields_mono (ih (bs.length - (p + min (stringUnit a bs.length) (bs.length - p))) (by omega) _ (by omega))
        (by omega)
    · have : p + min (stringUnit a bs.length) (bs.length - p) = bs.length := by omega
      rw [if_neg hd, this, List.take_length]
      exact yields_mono hy (by omega)

/-- The whole of it, from the first step on. -/
theorem yields_writeString {a : Nat} {bs : List Byte} {after : State → Out} (hna : NoAgent u)
    (hfit : a + bs.length ≤ hmemSize) (htouched : sc.touched = [])
    (hact : ∀ p, p ≤ bs.length →
      opAct .H m l (withHost ⟨r, { sc with pos := p }, .op m l⟩ h tr (hwrite a (bs.take p) u)) =
      .plain (writeString .H m l a bs after
        (withHost ⟨r, { sc with pos := p }, .op m l⟩ h tr (hwrite a (bs.take p) u))))
    (hy : Yields n (after (withHost ⟨r, { sc with pos := bs.length }, .op m l⟩ h tr (hwrite a bs u))) s w obs code d b) :
    Yields (n + bs.length + 1) (.next (withHost ⟨r, { sc with pos := 0 }, .op m l⟩ h tr u)) s w obs code d b :=
  yields_writeString_from hna hfit htouched hact hy bs.length 0 (Nat.zero_add _)

/-- The agenda puts `k` steps of HCTX next, then `rest`. -/
def hostSteps (k : Nat) (rest : List Event) : List Event := List.replicate k (.agent (.ctx .H)) ++ rest

theorem schedule_eq (k : Nat) (g : AgentStep) : schedule k g = hostSteps k [.agent g] := rfl

theorem hostSteps_add (j k : Nat) (rest : List Event) : hostSteps (j + k) rest = hostSteps j (hostSteps k rest) := by
  simp only [hostSteps, ← List.append_assoc, List.replicate_append_replicate]

@[simp] theorem withHost_setAgenda (e : List Event) :
    { withHost x h tr u with agenda := e } = withHost x h tr { u with agenda := e } := rfl

theorem ctxStep_bus {t : State} {f : State → Out} (hpc : t.hctx.pc = .op m l) (ha : opAct .H m l t = .bus f) :
    ctxStep .H t = busStep .H f t := by
  simp only [ctxStep, ctxAct, ctxOf, hpc, ha]

theorem ctxStep_plain {t : State} {o : Out} (hpc : t.hctx.pc = .op m l) (ha : opAct .H m l t = .plain o) :
    ctxStep .H t = o := by
  simp only [ctxStep, ctxAct, ctxOf, hpc, ha]

theorem busStep_acquire {t : State} {f : State → Out} (hv : t.cfg.variant = .bus) (hl : t.lock = none) :
    busStep .H f t = .next { t with lock := some .H } := by
  simp only [busStep, hv, hl]

theorem busStep_transfer {t : State} {f : State → Out} (hv : t.cfg.variant = .bus) (hl : t.lock = some .H) :
    busStep .H f t = f { t with lock := none } := by
  simp only [busStep, hv, hl, if_true]

theorem busStep_dma {t : State} {f : State → Out} (hv : t.cfg.variant = .dma) : busStep .H f t = f t := by
  simp only [busStep, hv]

/-- A transaction whose steps the agenda gives to HCTX. -/
theorem yields_tx_scheduled {f : State → Out} {rest : List Event} (hl : u.lock = none)
    (hag : u.agenda = hostSteps (txSteps u.cfg.variant) rest)
    (hact : ∀ k e, opAct .H m l (withHost ⟨r, sc, .op m l⟩ h tr { u with lock := k, agenda := e }) = .bus f)
    (hy : Yields n (f (withHost ⟨r, sc, .op m l⟩ h tr { u with agenda := rest })) s w obs code a b) :
    Yields (n + 2) (.next (withHost ⟨r, sc, .op m l⟩ h tr u)) s w obs code a b := by
  cases hv : u.cfg.variant
  · rw [hv] at hag
    have hl' : withHost ⟨r, sc, .op m l⟩ h tr { u with agenda := rest } =
        { withHost ⟨r, sc, .op m l⟩ h tr { u with agenda := rest, lock := some .H } with lock := none } := by
      rw [← hl]; rfl
    rw [hl'] at hy
    refine yields_agent (n := n + 1) (g := .ctx .H) (rest := .agent (.ctx .H) :: rest) rfl
      (by simpa [hostSteps, txSteps] using hag) ?_
      (yields_agent (t := withHost ⟨r, sc, .op m l⟩ h tr { u with agenda := .agent (.ctx .H) :: rest, lock := some .H })
        (g := .ctx .H) (rest := rest) rfl rfl ?_ hy)
    · refine Eq.trans (ctxStep_bus (f := f) (m := m) (l := l) rfl ?_) (busStep_acquire hv hl)
      exact hact u.lock _
    · refine Eq.trans (ctxStep_bus (f := f) (m := m) (l := l) rfl ?_) (busStep_transfer (t := withHost ⟨r, sc, .op m l⟩ h tr
        { u with agenda := rest, lock := some .H }) hv rfl)
      exact hact (some .H) rest
  · rw [hv] at hag
    refine yields_mono (n := n + 1) ?_ (by omega)
    refine yields_agent (g := .ctx .H) (rest := rest) rfl (by simpa [hostSteps, txSteps] using hag) ?_ hy
    refine Eq.trans (ctxStep_bus (f := f) (m := m) (l := l) rfl ?_) (busStep_dma hv)
    exact hact u.lock rest

/-- Any other step that the agenda gives to HCTX. -/
theorem yields_plain_scheduled {o : Out} {rest : List Event} (hag : u.agenda = hostSteps 1 rest)
    (hact : opAct .H m l (withHost ⟨r, sc, .op m l⟩ h tr { u with agenda := rest }) = .plain o)
    (hy : Yields n o s w obs code a b) :
    Yields (n + 1) (.next (withHost ⟨r, sc, .op m l⟩ h tr u)) s w obs code a b := by
  exact yields_agent (g := .ctx .H) (rest := rest) rfl (by simpa [hostSteps] using hag) (ctxStep_plain rfl hact) hy

end yields

/-- A host operation that is admitted answers what its entry yields. -/
theorem answers_yields {m : Op} {i : Instr} {s u : State} {n : Nat} {obs : List Obs} {code a b : Word}
    (hidle : s.hctx.pc = .idle) (ha : admitted m s.inst.life = true) (he : i.existsIn s.cfg.variant = true)
    (hw : i.wellFormed s.cfg.cregs = true) (hu : u.hif = s.hif)
    (hy : Yields n (opEntry .H m (withHost
      ⟨{ cw := some (encodeWord s.cfg.opcodes i), a0 := some s.hif.arg0, a1 := some s.hif.arg1 }, {}, .idle⟩
      { s.hif with done := false } s.trace s)) s u obs code a b) (hn : n ≤ callFuel s) :
    Answers (hostCall m i s) s u obs code a b := by
  have hi := issued_host i s
  rw [hidle] at hi
  rw [← hi] at hy
  obtain ⟨v, r, sc, hv, hr⟩ := hy
  refine ⟨_, hostCall_of (by simp [hbusy, hidle]) he hw ha (by rw [hv]; exact hr.1) hr.2 hn, ⟨rfl, rfl, rfl, rfl, rfl⟩,
    onlyHost_withHost _ _ _ _ ?_ ?_ ?_, rfl⟩ <;> rw [hu]

end Sys2Proof.Machine
end

