-- ==== Sys2Proof/Laws/Keeps.lean ====
section
/-! SUPPORT. What a step of a context can do to the whole machine, said once: `Keeps c s t` holds of every two states between
which context `c` has taken steps. This file has it for the named updates and the shared operations; KeepsOps has it for the
steps of the operations. -/

namespace Sys2Proof.Machine

/-- What a counter of the context may name. -/
def PcOk : CtxId → Pc → Prop
  | .H, .idle => True
  | .H, .op _ _ => True
  | .W, .op m _ => workerOp m = true
  | .W, .drain _ => True
  | .W, .ended => True
  | _, _ => False

/-- The context may execute the operation (30_encoding.md R96, 60_exceptions.md R320). -/
def Legal (c : CtxId) (m : Op) : Prop := c = .W → workerOp m = true

theorem legal_H (m : Op) : Legal .H m := fun h => nomatch h

theorem pcOk_op {c : CtxId} {m : Op} (h : Legal c m) (l : Label) : PcOk c (.op m l) := by
  cases c
  · trivial
  · exact h rfl

structure Keeps (c : CtxId) (s t : State) : Prop where
  cfg : t.cfg = s.cfg
  mem : Memory.wf s = true → Memory.wf t = true
  fixed : FixedFields s → FixedFields t
  cursors : CursorsInRing s → CursorsInRing t
  places : BuffersInHmem s → BuffersInHmem t
  lock : NoLockUnderDma s → NoLockUnderDma t
  host : HostPc s → HostPc t
  worker : WorkerConfined s → WorkerConfined t
  code : ResultCode s.cfg.results s.hif.result → ResultCode s.cfg.results t.hif.result
  own : c = .W → t.hctx = s.hctx ∧ t.hif = s.hif ∧ t.inst = s.inst

variable {c : CtxId} {s t u : State}

theorem Keeps.refl : Keeps c s s :=
  ⟨rfl, id, id, id, id, id, id, id, id, fun _ => ⟨rfl, rfl, rfl⟩⟩

theorem Keeps.trans (h : Keeps c s t) (k : Keeps c t u) : Keeps c s u where
  cfg := k.cfg.trans h.cfg
  mem := fun x => k.mem (h.mem x)
  fixed := fun x => k.fixed (h.fixed x)
  cursors := fun x => k.cursors (h.cursors x)
  places := fun x => k.places (h.places x)
  lock := fun x => k.lock (h.lock x)
  host := fun x => k.host (h.host x)
  worker := fun x => k.worker (h.worker x)
  code := fun x => by have := k.code (by rw [h.cfg]; exact h.code x); rwa [h.cfg] at this
  own := fun x => by
    obtain ⟨a, b, d⟩ := h.own x
    obtain ⟨a', b', d'⟩ := k.own x
    exact ⟨a'.trans a, b'.trans b, d'.trans d⟩

/-- An update of fields that no invariant speaks of. -/
theorem Keeps.aside (h : t = { s with
    wstate := t.wstate, drain := t.drain, flags := t.flags, allocs := t.allocs, dma := t.dma,
    bufs := { s.bufs with rxIdx := t.bufs.rxIdx, txIdx := t.bufs.txIdx, hdrValid := t.bufs.hdrValid },
    bus := t.bus, env := t.env, log := t.log, trace := t.trace, agenda := t.agenda }) : Keeps c s t := by
  rw [h]; exact ⟨rfl, id, id, id, id, id, id, id, id, fun _ => ⟨rfl, rfl, rfl⟩⟩

/-- An update of a context that leaves its counter legal. -/
theorem Keeps.setCtx {x : Ctx} (h : x.pc = (ctxOf c s).pc ∨ PcOk c x.pc) : Keeps c s (setCtx c x s) := by
  cases c
  · refine ⟨rfl, id, id, id, id, id, ?_, id, id, fun e => nomatch e⟩
    intro hh
    rcases h with h | h
    · simpa [HostPc, h, ctxOf, Machine.setCtx] using hh
    · simp only [HostPc, Machine.setCtx]
      revert h; cases x.pc <;> simp [PcOk]
  · refine ⟨rfl, id, id, id, id, id, id, ?_, id, fun _ => ⟨rfl, rfl, rfl⟩⟩
    intro hh
    rcases h with h | h
    · simpa [WorkerConfined, h, ctxOf, Machine.setCtx] using hh
    · simp only [WorkerConfined, Machine.setCtx]
      revert h; cases x.pc <;> simp [PcOk]

/-- An update of the receive side's cursors and latch. -/
theorem Keeps.setDev {d : Dev} (hfix : d.ptrCtrl = s.dev.ptrCtrl ∨ d.ptrCtrl &&& 0x03 = 0)
    (hint : FixedFields s → d.intStat &&& 0xC0 = 0)
    (hmem : Cells.wf s.dev.rxMem = true → Cells.wf d.rxMem = true)
    (hcur : CursorsInRing s → inRing s.cfg d.rxRp.toNat = true ∧ inRing s.cfg d.rxWp.toNat = true) :
    Keeps c s { s with dev := d } := by
  refine ⟨rfl, ?_, ?_, ?_, id, id, id, id, id, fun _ => ⟨rfl, rfl, rfl⟩⟩
  · simp only [Memory.wf, Bool.and_eq_true]
    rintro ⟨⟨h1, h2⟩, h3⟩
    exact ⟨⟨h1, hmem h2⟩, h3⟩
  · intro h
    have hi := hint h
    obtain ⟨h1, h2, h3⟩ := h
    refine ⟨?_, hi, h3⟩
    rcases hfix with e | e
    · simpa [e] using h1
    · exact e
  · intro h
    obtain ⟨h3, h4⟩ := hcur h
    exact ⟨h.1, h.2.1, h3, h4⟩

/-- An update of the device that leaves the fixed fields, the cursors and the receive memory alone. -/
theorem Keeps.devAside {d : Dev} (h1 : d.ptrCtrl = s.dev.ptrCtrl) (h2 : d.intStat = s.dev.intStat)
    (h3 : d.rxMem = s.dev.rxMem) (h4 : d.rxRp = s.dev.rxRp) (h5 : d.rxWp = s.dev.rxWp) :
    Keeps c s { s with dev := d } :=
  Keeps.setDev (.inl h1) (fun h => by rw [h2]; exact h.2.1) (fun h => by rw [h3]; exact h)
    (fun h => by rw [h4, h5]; exact h.2.2)

/-- An update of the memory-mapped registers. -/
theorem Keeps.setMreg {m : MRegs} (h : FixedFields s →
    m.rxBase &&& 0x3 = 0 ∧ m.txBase &&& 0x3 = 0 ∧ m.status &&& 0xFFFFFF3E = 0) : Keeps c s { s with mreg := m } :=
  ⟨rfl, id, fun x => ⟨x.1, x.2.1, h x⟩, id, id, id, id, id, id, fun _ => ⟨rfl, rfl, rfl⟩⟩

theorem Keeps.mregAside {m : MRegs} (h1 : m.rxBase = s.mreg.rxBase) (h2 : m.txBase = s.mreg.txBase)
    (h3 : m.status = s.mreg.status) : Keeps c s { s with mreg := m } :=
  Keeps.setMreg (fun h => by rw [h1, h2, h3]; exact h.2.2)

/-- A store to HMEM. -/
theorem keeps_hwrite (a : Nat) (bs : List Byte) : Keeps c s (hwrite a bs s) := by
  refine ⟨rfl, ?_, id, id, id, id, id, id, id, fun _ => ⟨rfl, rfl, rfl⟩⟩
  simp only [Memory.wf, Bool.and_eq_true]
  rintro ⟨⟨h1, h2⟩, h3⟩
  exact ⟨⟨storeBytes_wf h1 a bs, h2⟩, h3⟩

theorem keeps_hwrite32 (a : Nat) (v : Word) : Keeps c s (hwrite32 a v s) := keeps_hwrite _ _

/-! ## Contexts -/

theorem keeps_modX (f : Regs → Regs) : Keeps c s (modX c f s) := Keeps.setCtx (.inl rfl)
theorem keeps_modSc (f : Scratch → Scratch) : Keeps c s (modSc c f s) := Keeps.setCtx (.inl rfl)
theorem keeps_latch (a b d : Word) : Keeps c s (latch c a b d s) := Keeps.setCtx (.inl rfl)
theorem keeps_setPc {p : Pc} (h : PcOk c p) : Keeps c s (setPc c p s) := Keeps.setCtx (.inr h)
theorem keeps_goto {m : Op} (h : Legal c m) (l : Label) : Keeps c s (goto c m l s) := keeps_setPc (pcOk_op h l)
theorem keeps_drainTo (d : DLabel) : Keeps .W s (drainTo d s) := keeps_setPc (c := .W) trivial

theorem ensures_toLabel {m : Op} (hm : Legal c m) (l : Label) (h : Keeps c s t) :
    Ensures (toLabel c m l t) (Keeps c s) := ensures_next (h.trans (keeps_goto hm l))

/-! ## The rest of the block -/

theorem keeps_observe (o : Obs) : Keeps c s (observe o s) := Keeps.aside rfl
theorem keeps_logEntry (d : CtxId) (x : LogText) : Keeps c s (logEntry d x s) := Keeps.aside rfl
theorem keeps_notify (n : Notice) : Keeps c s (notify n s) := Keeps.aside rfl
theorem keeps_drawByte : Keeps c s (drawByte s).2 := Keeps.aside rfl
theorem keeps_drawBytes (n : Nat) : Keeps c s (drawBytes n s).2 := Keeps.aside rfl
theorem keeps_drawWord : Keeps c s (drawWord s).2 := Keeps.aside rfl
theorem keeps_freeAlloc (a : Word) : Keeps c s (freeAlloc a s) := Keeps.aside rfl
theorem keeps_giveAlloc (a : Word) (o : Owner) : Keeps c s (giveAlloc a o s) := Keeps.aside rfl
theorem keeps_setRemain (n : Nat) : Keeps c s (setRemain n s) := Keeps.aside rfl
theorem keeps_report (n k : Nat) : Keeps c s (report n k s) := Keeps.aside rfl

theorem keeps_nextAllocAnswer : Keeps c s (nextAllocAnswer s).2 := by
  unfold nextAllocAnswer; split <;> exact Keeps.aside rfl

theorem keeps_alloc (n : Nat) (o : Owner) : Keeps c s (alloc n o s).2 := by
  have h := keeps_nextAllocAnswer (c := c) (s := s)
  unfold alloc
  split
  · rename_i heq; rw [heq] at h; exact h
  · rename_i heq; rw [heq] at h
    split
    · exact h.trans (Keeps.aside rfl)
    · exact h

theorem keeps_nextDeliverAnswer : Keeps c s (nextDeliverAnswer s).2 := by
  unfold nextDeliverAnswer; split <;> exact Keeps.aside rfl

/-! ## The controller -/

theorem and_and_eq_zero {n : Nat} {a b m : BitVec n} (h : a &&& m = 0) : a &&& b &&& m = 0 := by
  rw [BitVec.and_assoc, BitVec.and_comm b m, ← BitVec.and_assoc, h]; simp

theorem or_and_eq_zero {n : Nat} {a b m : BitVec n} (ha : a &&& m = 0) (hb : b &&& m = 0) : (a ||| b) &&& m = 0 := by
  rw [BitVec.and_comm, BitVec.and_or_distrib_left, BitVec.and_comm m a, BitVec.and_comm m b, ha, hb]; simp

theorem keeps_setInt {stat mask : Byte} (h : FixedFields s → stat &&& 0xC0 = 0) : Keeps c s (setInt stat mask s) :=
  (Keeps.setDev (d := { s.dev with intStat := stat, intMask := mask }) (.inl rfl) h id (fun h => h.2.2)).trans
    (Keeps.aside (by rfl))

theorem keeps_setCause (causes : Byte) : Keeps c s (setCause causes s) :=
  keeps_setInt (fun h => or_and_eq_zero h.2.1 (by rw [BitVec.and_assoc]; simp))

theorem inRing_ofNat {cfg : Config} {a : Nat} (hend : cfg.rxMemEnd ≤ 0x10000) (h : inRing cfg a = true) :
    inRing cfg (BitVec.ofNat 16 a).toNat = true := by
  have : a < 65536 := by simp only [inRing, Bool.and_eq_true, decide_eq_true_eq] at h; omega
  rw [BitVec.toNat_ofNat, Nat.mod_eq_of_lt (by omega)]; exact h

theorem inRing_start {cfg : Config} (h : cfg.rxMemStart < cfg.rxMemEnd) : inRing cfg cfg.rxMemStart = true := by
  simp [inRing, h]

theorem le_of_inRing {cfg : Config} {a : Nat} (h : inRing cfg a = true) : cfg.rxMemStart ≤ a := by
  simp only [inRing, Bool.and_eq_true, decide_eq_true_eq] at h; exact h.1

theorem inRing_ringWrap {cfg : Config} (h : cfg.rxMemStart < cfg.rxMemEnd) {a : Nat} (ha : cfg.rxMemStart ≤ a) :
    inRing cfg (ringWrap cfg a) = true := by
  have hm : (a - cfg.rxMemStart) % ringSize cfg < ringSize cfg := Nat.mod_lt _ (by unfold ringSize; omega)
  have he : cfg.rxMemStart + ringSize cfg = cfg.rxMemEnd := by unfold ringSize; omega
  unfold inRing ringWrap
  rw [Bool.and_eq_true, decide_eq_true_eq, decide_eq_true_eq]
  split <;> omega

theorem keeps_moveCursor {a : Nat} (h : CursorsInRing s → inRing s.cfg a = true) : Keeps c s (moveCursor a s) :=
  (Keeps.setDev (d := { s.dev with rxRp := BitVec.ofNat 16 a, rxLatch := Config.freeByte s.env.free }) (.inl rfl)
    (fun h => h.2.1) id (fun hc => ⟨inRing_ofNat hc.2.1 (h hc), hc.2.2.2⟩)).trans (Keeps.aside rfl)

theorem keeps_resetRxPointer : Keeps c s (resetRxPointer s) := by
  have h1 : Keeps c s (moveCursor s.cfg.rxMemStart s) := keeps_moveCursor (fun h => inRing_start h.1)
  refine h1.trans (Keeps.setDev (d := { (moveCursor s.cfg.rxMemStart s).dev with
    rxWp := _, rxMem := _ }) (.inl rfl) (fun h => h.2.1) (fun h => Cells.wf_set h _ _) ?_)
  intro h
  exact ⟨h.2.2.1, inRing_ofNat h.2.1 (inRing_start h.1)⟩

theorem keeps_keepDrainHeader {before : State} : Keeps c s (keepDrainHeader before s) := by
  unfold keepDrainHeader
  split
  · split
    · exact Keeps.aside rfl
    · exact Keeps.refl
  · exact Keeps.refl

/-! ## Byte strings of HMEM -/

theorem keeps_setBytes (bs : List Byte) : Keeps c s (setBytes c bs s) := keeps_modSc _
theorem keeps_setPos (p : Nat) : Keeps c s (setPos c p s) := keeps_modSc _

theorem keeps_blur (d : CtxId) (a : Nat) (bs : List Byte) : Keeps c s (blur d a bs s).2 := by
  induction bs generalizing a s with
  | nil => exact Keeps.refl
  | cons b bs ih =>
    unfold blur
    simp only
    split
    · exact keeps_drawByte.trans (ih _)
    · exact ih _

/-- A step of a byte-string read goes on from a state that the step leaves. -/
theorem ensures_readString {m : Op} (hm : Legal c m) {l : Label} {a n : Nat} {k : State → Out} (h : Keeps c s t)
    (hk : ∀ u, Keeps c s u → Ensures (k u) (Keeps c s)) : Ensures (readString c m l a n k t) (Keeps c s) := by
  unfold readString
  refine ensures_need fun got _ => ?_
  split
  · exact ensures_refused
  · have hs := h.trans (keeps_setBytes (s := t) (got ++ hread t (a + got.length) (min (stringUnit a n) (n - got.length))))
    simp only
    split
    · exact ensures_toLabel hm _ hs
    · exact hk _ hs

/-- The same of a byte-string write. -/
theorem ensures_writeString {m : Op} (hm : Legal c m) {l : Label} {a : Nat} {bs : List Byte} {k : State → Out}
    (h : Keeps c s t) (hk : ∀ u, Keeps c s u → Ensures (k u) (Keeps c s)) :
    Ensures (writeString c m l a bs k t) (Keeps c s) := by
  unfold writeString
  split
  · exact ensures_refused
  · simp only
    generalize hp : (scOf c t).pos = p
    generalize hu : min (stringUnit a bs.length) (bs.length - p) = u
    have hs := ((h.trans (keeps_blur c (a + p) ((bs.drop p).take u))).trans (keeps_hwrite (a + p)
      (blur c (a + p) ((bs.drop p).take u) t).1)).trans (keeps_setPos (p + u))
    split
    · exact ensures_toLabel hm _ hs
    · exact hk _ hs

/-- What the answer of an access leaves. -/
def OkKeeps {α : Type} (c : CtxId) (s : State) (f : α → State) (e : Except Refusal α) : Prop :=
  ∀ x, e = .ok x → Keeps c s (f x)

theorem keeps_portPeek (n : Nat) : OkKeeps c s Prod.snd (portPeek n s) := by
  intro x h; unfold portPeek at h; split at h <;> cases h; exact Keeps.refl

theorem keeps_portTake (n : Nat) : OkKeeps c s Prod.snd (portTake n s) := by
  intro x h; unfold portTake at h; split at h <;> cases h
  exact keeps_moveCursor (fun h => inRing_ringWrap h.1 (Nat.le_add_right_of_le (le_of_inRing h.2.2.1)))

theorem keeps_requestTx (b : Byte) : Keeps c s (requestTx b s) :=
  (keeps_drawBytes _).trans (Keeps.devAside rfl rfl rfl rfl rfl)

theorem keeps_stageTx (bs : List Byte) : Keeps c s (stageTx bs s) := Keeps.devAside rfl rfl rfl rfl rfl

theorem keeps_devReadRaw (r : CReg) : OkKeeps c s Prod.snd (devReadRaw r s) := by
  intro x h
  cases r
  case rxPeekN =>
    simp only [devReadRaw, Except.map] at h
    split at h <;> cases h
    rename_i heq; exact keeps_portPeek _ _ heq
  case rxData =>
    simp only [devReadRaw, Except.map] at h
    split at h <;> cases h
    rename_i heq; exact keeps_portTake _ _ heq
  case rxPeek => cases h; exact Keeps.devAside rfl rfl rfl rfl rfl
  all_goals (cases h; first | exact Keeps.refl | exact Keeps.aside rfl)

theorem keeps_devRead (r : CReg) : OkKeeps c s Prod.snd (devRead r s) := by
  intro x h
  unfold devRead at h
  split at h
  · cases h
  · rename_i heq
    have hk := keeps_devReadRaw (c := c) r _ heq
    split at h <;> cases h
    · exact hk.trans keeps_drawByte
    · exact hk

theorem keeps_writePhyCmd (b : Byte) : OkKeeps c s id (writePhyCmd b s) := by
  intro x h
  unfold writePhyCmd at h
  simp only at h
  repeat' (split at h)
  all_goals (cases h <;> exact Keeps.devAside rfl rfl rfl rfl rfl)

theorem keeps_devWrite (r : CReg) (b : Byte) : OkKeeps c s id (devWrite r b s) := by
  intro x h
  cases r
  case phyCmd => exact keeps_writePhyCmd b x h
  case txCtrl =>
    simp only [devWrite] at h
    split at h <;> cases h
    · exact keeps_requestTx _
    · exact Keeps.devAside rfl rfl rfl rfl rfl
  case ptrCtrl =>
    cases h
    have h1 : Keeps c s (if b.getLsbD 0 then resetRxPointer s else s) := by
      split
      · exact keeps_resetRxPointer
      · exact Keeps.refl
    generalize hu : (if b.getLsbD 0 then resetRxPointer s else s) = u at h1
    simp only [id_eq]
    have h2 : Keeps c s (if b.getLsbD 1 then { u with dev.txStage := [] } else u) := by
      split
      · exact h1.trans (Keeps.devAside rfl rfl rfl rfl rfl)
      · exact h1
    exact h2.trans (Keeps.setDev (.inr (by simp only; rw [BitVec.and_assoc]; simp)) (fun h => h.2.1) id (fun h => h.2.2))
  case rxrpL =>
    simp only [devWrite] at h
    split at h <;> cases h
    rename_i hr; exact keeps_moveCursor (fun _ => hr)
  case intStat => cases h; exact keeps_setInt (fun h => and_and_eq_zero h.2.1)
  case intMask => cases h; exact keeps_setInt (fun h => h.2.1)
  case txData => cases h; exact keeps_stageTx _
  all_goals (cases h; first | exact Keeps.refl | exact Keeps.devAside rfl rfl rfl rfl rfl)

theorem keeps_devBlockReadRaw (r : CReg) (n : Nat) : OkKeeps c s Prod.snd (devBlockReadRaw r n s) := by
  intro x h
  unfold devBlockReadRaw at h
  split at h
  · split at h
    · exact keeps_portPeek _ _ h
    · cases h
  · split at h
    · exact keeps_portTake _ _ h
    · cases h
  · split at h
    · simp only [Except.map] at h
      split at h <;> cases h
      rename_i hr; exact keeps_devReadRaw _ _ hr
    · cases h

theorem keeps_devBlockRead (r : CReg) (n : Nat) : OkKeeps c s Prod.snd (devBlockRead r n s) := by
  intro x h
  unfold devBlockRead at h
  split at h
  · cases h
  · rename_i heq
    have hk := keeps_devBlockReadRaw (c := c) r n _ heq
    split at h <;> cases h
    · exact hk.trans (keeps_drawBytes _)
    · exact hk

theorem keeps_devBlockWrite (r : CReg) (bs : List Byte) : OkKeeps c s id (devBlockWrite r bs s) := by
  intro x h
  unfold devBlockWrite at h
  split at h
  · cases h
  · split at h
    · cases h; exact keeps_stageTx _
    · cases h
  · exact keeps_devWrite _ _ _ h
  · cases h

theorem keeps_devReadIdx (i : BitVec 7) : OkKeeps c s Prod.snd (devReadIdx i s) := by
  intro x h
  unfold devReadIdx at h
  split at h
  · exact keeps_devRead _ _ h
  · cases h; exact keeps_drawByte

theorem keeps_devWriteIdx (i : BitVec 7) (b : Byte) : OkKeeps c s id (devWriteIdx i b s) := by
  intro x h
  unfold devWriteIdx at h
  split at h
  · exact keeps_devWrite _ _ _ h
  · cases h; exact Keeps.refl

/-! ## Transactions: what follows them starts from a state the access leaves -/

theorem ensures_regRead {r : CReg} {k : Byte → State → Out} (h : Keeps c s t)
    (hk : ∀ b u, Keeps c s u → Ensures (k b u) (Keeps c s)) : Ensures (regRead r t k) (Keeps c s) :=
  ensures_accept fun _ ha => hk _ _ ((h.trans (keeps_devRead r _ ha)).trans (keeps_observe _))

theorem ensures_regWrite {r : CReg} {b : Byte} {k : State → Out} (h : Keeps c s t)
    (hk : ∀ u, Keeps c s u → Ensures (k u) (Keeps c s)) : Ensures (regWrite r b t k) (Keeps c s) :=
  ensures_accept fun _ ha => hk _ ((h.trans (keeps_devWrite r b _ ha)).trans (keeps_observe _))

theorem ensures_regReadIdx {i : BitVec 7} {k : Byte → State → Out} (h : Keeps c s t)
    (hk : ∀ b u, Keeps c s u → Ensures (k b u) (Keeps c s)) : Ensures (regReadIdx i t k) (Keeps c s) :=
  ensures_accept fun _ ha => hk _ _ ((h.trans (keeps_devReadIdx i _ ha)).trans (keeps_observe _))

theorem ensures_regWriteIdx {i : BitVec 7} {b : Byte} {k : State → Out} (h : Keeps c s t)
    (hk : ∀ u, Keeps c s u → Ensures (k u) (Keeps c s)) : Ensures (regWriteIdx i b t k) (Keeps c s) :=
  ensures_accept fun _ ha => hk _ ((h.trans (keeps_devWriteIdx i b _ ha)).trans (keeps_observe _))

theorem ensures_blockRead {r : CReg} {n : Nat} {k : List Byte → State → Out} (h : Keeps c s t)
    (hk : ∀ b u, Keeps c s u → Ensures (k b u) (Keeps c s)) : Ensures (blockRead r n t k) (Keeps c s) :=
  ensures_accept fun _ ha => hk _ _ ((h.trans (keeps_devBlockRead r n _ ha)).trans (keeps_observe _))

theorem ensures_blockWrite {r : CReg} {bs : List Byte} {k : State → Out} (h : Keeps c s t)
    (hk : ∀ u, Keeps c s u → Ensures (k u) (Keeps c s)) : Ensures (blockWrite r bs t k) (Keeps c s) :=
  ensures_accept fun _ ha => hk _ ((h.trans (keeps_devBlockWrite r bs _ ha)).trans (keeps_observe _))

/-! ## MREG -/

theorem keeps_mregValue (r : MReg) : Keeps c s (mregValue r s).2 := by
  cases r <;> first | exact Keeps.refl | exact Keeps.aside rfl

theorem keeps_mregRead (r : MReg) : Keeps c s (mregRead r s).2 := by
  have h := keeps_mregValue (c := c) (s := s) r
  unfold mregRead
  simp only
  split
  · split <;> exact h.trans keeps_drawWord
  · exact h

theorem keeps_switchRx (a b : Bool) : Keeps c s (switchRx a b s) := by
  unfold switchRx
  split
  · exact Keeps.aside rfl
  · split
    · exact (Keeps.aside (t := { s with dma := { s.dma with rxInflight := none, rxState := .stopped } }) rfl).trans
        (Keeps.devAside rfl rfl rfl rfl rfl)
    · exact Keeps.refl

theorem keeps_switchTx (a b : Bool) : Keeps c s (switchTx a b s) := by
  unfold switchTx
  split
  · exact Keeps.aside rfl
  · split
    · exact Keeps.aside rfl
    · exact Keeps.refl

theorem keeps_mregWrite (r : MReg) (v : Word) : Keeps c s (mregWrite r v s) := by
  cases r
  case txPoll => unfold mregWrite pollTx; simp only; split <;> exact Keeps.aside rfl
  case rxPoll => unfold mregWrite pollRx; simp only; split <;> exact Keeps.aside rfl
  case rxBase =>
    exact Keeps.setMreg (fun h => ⟨by simp only; rw [BitVec.and_assoc]; simp, h.2.2.2.1, h.2.2.2.2⟩)
  case txBase =>
    exact Keeps.setMreg (fun h => ⟨h.2.2.1, by simp only; rw [BitVec.and_assoc]; simp, h.2.2.2.2⟩)
  case status => exact Keeps.setMreg (fun h => ⟨h.2.2.1, h.2.2.2.1, and_and_eq_zero h.2.2.2.2⟩)
  case opMode =>
    exact ((keeps_switchRx _ _).trans (keeps_switchTx _ _)).trans (Keeps.mregAside rfl rfl rfl)
  all_goals exact Keeps.mregAside rfl rfl rfl

theorem keeps_mWrite (r : MReg) (v : Word) : Keeps c s (mWrite r v s) := (keeps_mregWrite r v).trans (keeps_observe _)

theorem ensures_mRead {r : MReg} {k : Word → State → Out} (h : Keeps c s t)
    (hk : ∀ v u, Keeps c s u → Ensures (k v u) (Keeps c s)) : Ensures (mRead r t k) (Keeps c s) :=
  hk _ _ ((h.trans (keeps_mregRead r)).trans (keeps_observe _))

/-! ## How an operation ends -/

theorem resultCode_err (m : ResultMap) (e : Err) : ResultCode m (errCode m e) := .inr ⟨e, rfl⟩

theorem keeps_completeHost {w a b : Word} (h : ResultCode s.cfg.results w) : Keeps .H s (completeHost w a b s) := by
  refine ⟨rfl, id, id, id, id, id, fun _ => trivial, id, fun _ => h, fun e => nomatch e⟩

theorem keeps_drainWait : Keeps .W s (drainWait s) := (Keeps.aside rfl).trans (keeps_drainTo (s := { s with wstate := .waiting }) _)

theorem keeps_drainReturnBus (m : Op) (r : Except (Err × Word) (Word × Word)) : Keeps .W s (drainReturnBus m r s) := by
  unfold drainReturnBus
  split
  case h_6 => simp only; split <;> exact (Keeps.aside rfl).trans (keeps_drainTo (s := _) _)
  case h_1 => split <;> exact (Keeps.aside rfl).trans (keeps_drainTo (s := _) _)
  all_goals first
    | exact keeps_drainTo _
    | exact (Keeps.aside rfl).trans (keeps_drainTo (s := _) _)

theorem keeps_drainReturnDma (m : Op) (r : Except (Err × Word) (Word × Word)) : Keeps .W s (drainReturnDma m r s) := by
  unfold drainReturnDma
  split
  case h_1 => simp only; split <;> exact (Keeps.aside rfl).trans (keeps_drainTo (s := _) _)
  all_goals exact keeps_drainTo _

theorem keeps_drainReturn (m : Op) (r : Except (Err × Word) (Word × Word)) : Keeps .W s (drainReturn m r s) := by
  unfold drainReturn
  split
  · exact keeps_drainReturnBus _ _
  · exact keeps_drainReturnDma _ _

theorem ensures_finish (m : Op) (a b : Word) (h : Keeps c s t) : Ensures (finish c m a b t) (Keeps c s) := by
  cases c
  · exact ensures_next (h.trans (keeps_completeHost (.inl rfl)))
  · exact ensures_next (h.trans (keeps_drainReturn _ _))

theorem ensures_endWithError (m : Op) (e : Err) (w : Word) (h : Keeps c s t) :
    Ensures (endWithError c m e w t) (Keeps c s) := by
  cases c
  · exact ensures_next (h.trans (keeps_completeHost (resultCode_err _ e)))
  · exact ensures_next (h.trans (keeps_drainReturn _ _))

theorem ensures_raiseErr {m : Op} (hm : Legal c m) (e : Err) (w : Word) (h : Keeps c s t) :
    Ensures (raiseErr c m e w t) (Keeps c s) := by
  unfold raiseErr
  split
  · exact ensures_toLabel hm _ (h.trans (keeps_modSc _))
  · exact ensures_toLabel hm _ (h.trans (keeps_modSc _))
  · exact ensures_endWithError _ _ _ h

end Sys2Proof.Machine
end

