-- ==== Sys2Proof/Laws/KeepsOps.lean ====
section
/-! SUPPORT. `Keeps` for every step of every operation, of the drainer and of the other agents: one lemma for each definition of
the machine, in the order of its files. -/

namespace Sys2Proof.Machine

variable {c : CtxId} {s t u : State} {m : Op}

/-- What the step of a label leaves, whatever kind it is. -/
def ActKeeps (c : CtxId) (s : State) : Act → Prop
  | .bus f => ∀ t, Keeps c s t → Ensures (f t) (Keeps c s)
  | .plain o => Ensures o (Keeps c s)
  | .blocked => True

theorem actKeeps_noLabel : ActKeeps c s noLabel := ensures_fault

theorem actKeeps_needAct {α : Type} {v : Option α} {k : α → Act} (hk : ∀ a, ActKeeps c s (k a)) :
    ActKeeps c s (needAct v k) := by
  cases v with
  | none => exact ensures_fault
  | some a => exact hk a

theorem actKeeps_rdStep {r : CReg} {k : Byte → State → Out}
    (hk : ∀ b u, Keeps c s u → Ensures (k b u) (Keeps c s)) : ActKeeps c s (rdStep r k) :=
  fun _ h => ensures_regRead h hk

theorem actKeeps_wrStep {r : CReg} {b : Byte} {k : State → Out}
    (hk : ∀ u, Keeps c s u → Ensures (k u) (Keeps c s)) : ActKeeps c s (wrStep r b k) :=
  fun _ h => ensures_regWrite h hk

theorem Keeps.setT (b : Byte) (h : Keeps c s t) : Keeps c s (setT c b t) := h.trans (keeps_modX _)
theorem Keeps.setTw (b : Word) (h : Keeps c s t) : Keeps c s (setTw c b t) := h.trans (keeps_modX _)
theorem Keeps.setV (b : Word) (h : Keeps c s t) : Keeps c s (setV c b t) := h.trans (keeps_modX _)
theorem Keeps.setN (b : Word) (h : Keeps c s t) : Keeps c s (setN c b t) := h.trans (keeps_modX _)
theorem Keeps.setP (b : Word) (h : Keeps c s t) : Keeps c s (setP c b t) := h.trans (keeps_modX _)
theorem Keeps.setAcc (b : Word) (h : Keeps c s t) : Keeps c s (setAcc c b t) := h.trans (keeps_modX _)
theorem Keeps.sc (f : Scratch → Scratch) (h : Keeps c s t) : Keeps c s (modSc c f t) := h.trans (keeps_modSc f)
theorem Keeps.setI (i : Nat) (h : Keeps c s t) : Keeps c s (setI c i t) := h.trans (keeps_modSc _)
theorem Keeps.write (a : Nat) (bs : List Byte) (h : Keeps c s t) : Keeps c s (hwrite a bs t) := h.trans (keeps_hwrite a bs)
theorem Keeps.write32 (a : Nat) (v : Word) (h : Keeps c s t) : Keeps c s (hwrite32 a v t) := h.trans (keeps_hwrite32 a v)
theorem Keeps.cause (b : Byte) (h : Keeps c s t) : Keeps c s (setCause b t) := h.trans (keeps_setCause b)
theorem Keeps.mWrite (r : MReg) (v : Word) (h : Keeps c s t) : Keeps c s (mWrite r v t) := h.trans (keeps_mWrite r v)

theorem actKeeps_chain (hm : Legal c m) (l : Label) {k : State → Out}
    (hk : ∀ t, Keeps c s t → Ensures (k t) (Keeps c s)) : ActKeeps c s (chainAct c m l s k) := by
  have r : Keeps c s s := Keeps.refl
  unfold chainAct
  split
  case h_11 => exact actKeeps_noLabel
  case h_10 => exact hk _ (r.mWrite _ _)
  case h_9 => exact ensures_toLabel hm _ (Keeps.mWrite _ _ (Keeps.aside rfl))
  case h_4 =>
    refine ensures_need fun i _ => ?_
    unfold chainNext
    split <;> exact ensures_toLabel hm _ ((r.write32 _ _).setI _)
  case h_8 =>
    refine ensures_need fun i _ => ?_
    unfold chainNext
    split <;> exact ensures_toLabel hm _ ((r.write32 _ _).setI _)
  all_goals exact ensures_need fun i _ => ensures_toLabel hm _ (r.write32 _ _)

theorem actKeeps_resetPointers {k : State → Out} (hk : ∀ t, Keeps c s t → Ensures (k t) (Keeps c s)) :
    ActKeeps c s (resetPointers m k) := by
  refine fun t h => ensures_regWrite h fun u h => hk _ ?_
  split
  · exact h
  · exact h.trans keeps_keepDrainHeader

theorem actKeeps_stopSeq (hm : Legal c m) (l : Label) {k : State → Out}
    (hk : ∀ t, Keeps c s t → Ensures (k t) (Keeps c s)) : ActKeeps c s (stopSeqAct c m l s k) := by
  have r : Keeps c s s := Keeps.refl
  unfold stopSeqAct
  split
  · exact actKeeps_wrStep fun u h => ensures_toLabel hm _ h
  · exact actKeeps_rdStep fun b u h => ensures_toLabel hm _ (h.setT _)
  · exact fun t h => ensures_need fun i _ => ensures_regWrite h fun u h => ensures_toLabel hm _ h
  · exact actKeeps_resetPointers hk
  · exact ensures_toLabel hm _ (r.mWrite _ _)
  · exact ensures_mRead r fun v u h => ensures_toLabel hm _ (h.setV _)
  · exact ensures_need fun i _ => ensures_toLabel hm _ (r.mWrite _ _)
  · exact ensures_mRead r fun v u h => ensures_toLabel hm _ (h.setV _)
  · exact ensures_need fun i _ => ensures_toLabel hm _ (r.mWrite _ _)
  · exact hk _ (r.mWrite _ _)
  · exact actKeeps_noLabel

theorem keeps_stopFlags : Keeps c s (stopFlags s) := by
  unfold stopFlags; split <;> exact Keeps.aside rfl

theorem actKeeps_startSeq (hm : Legal c m) (l : Label) {k : State → Out}
    (hk : ∀ t, Keeps c s t → Ensures (k t) (Keeps c s)) : ActKeeps c s (startSeqAct c m l s k) := by
  have r : Keeps c s s := Keeps.refl
  unfold startSeqAct
  split
  · exact actKeeps_resetPointers fun u h => ensures_toLabel hm _ h
  · exact actKeeps_wrStep fun u h => ensures_toLabel hm _ h
  · exact actKeeps_wrStep fun u h => ensures_toLabel hm _ h
  · exact actKeeps_rdStep fun b u h => ensures_toLabel hm _ (h.setT _)
  · exact fun t h => ensures_need fun i _ => ensures_regWrite h fun u h => hk _ (h.trans (Keeps.aside rfl))
  · exact ensures_mRead r fun v u h => ensures_toLabel hm _ (h.setV _)
  · exact ensures_need fun i _ => ensures_toLabel hm _ (r.mWrite _ _)
  · exact ensures_mRead r fun v u h => ensures_toLabel hm _ (h.setV _)
  · exact ensures_need fun i _ => ensures_toLabel hm _ (r.mWrite _ _)
  · exact ensures_mRead r fun v u h => ensures_toLabel hm _ (h.setV _)
  · exact ensures_need fun i _ => ensures_toLabel hm _ (r.mWrite _ _)
  · exact ensures_toLabel hm _ (r.mWrite _ _)
  · exact hk _ ((r.mWrite _ _).trans (Keeps.aside rfl))
  · exact actKeeps_chain hm _ fun u h => ensures_toLabel hm _ h
  · exact actKeeps_noLabel

theorem ensures_stopSeqEntry (hm : Legal c m) (h : Keeps c s t) : Ensures (stopSeqEntry c m t) (Keeps c s) :=
  ensures_toLabel hm _ h

theorem ensures_chainEntry (hm : Legal c m) (h : Keeps c s t) : Ensures (chainEntry c m t) (Keeps c s) :=
  ensures_toLabel hm _ (h.setI _)

theorem ensures_startSeqEntry (hm : Legal c m) (h : Keeps c s t) : Ensures (startSeqEntry c m t) (Keeps c s) := by
  unfold startSeqEntry
  split
  · exact ensures_toLabel hm _ h
  · exact ensures_chainEntry hm h

/-! ## BusAccess -/

theorem actKeeps_memChecks (hm : Legal c m) {act : Nat → Word → Act} (hk : ∀ n a, ActKeeps c s (act n a)) :
    ActKeeps c s (memChecks c m s act) := by
  refine actKeeps_needAct fun w => actKeeps_needAct fun a => ?_
  split
  · exact ensures_finish _ _ _ Keeps.refl
  · split
    · exact ensures_raiseErr hm _ _ Keeps.refl
    · exact hk _ _

theorem actKeeps_regRd (l : Label) : ActKeeps c s (regRdAct c l s) := by
  unfold regRdAct
  split
  · exact fun t h => ensures_need fun w _ => ensures_regReadIdx h fun b u h =>
      ensures_finish _ _ _ ((h.trans keeps_keepDrainHeader).setT _)
  · exact actKeeps_noLabel

theorem actKeeps_regWr (l : Label) : ActKeeps c s (regWrAct c l s) := by
  unfold regWrAct
  split
  · exact fun t h => ensures_need fun w _ => ensures_regWriteIdx h fun u h =>
      ensures_finish _ _ _ (h.trans keeps_keepDrainHeader)
  · exact actKeeps_noLabel

theorem actKeeps_memRd (hm : Legal c .memRd) (l : Label) : ActKeeps c s (memRdAct c l s) := by
  unfold memRdAct
  split
  · exact actKeeps_memChecks hm fun _ _ t h => ensures_blockRead h fun b u h =>
      ensures_toLabel hm _ ((h.trans keeps_keepDrainHeader).sc _)
  · exact ensures_need fun a _ => ensures_need fun bs _ =>
      ensures_writeString hm Keeps.refl fun u h => ensures_finish _ _ _ h
  · exact actKeeps_noLabel

theorem actKeeps_memWr (hm : Legal c .memWr) (l : Label) : ActKeeps c s (memWrAct c l s) := by
  unfold memWrAct
  split
  · exact actKeeps_memChecks hm fun _ _ => ensures_readString hm Keeps.refl fun u h => ensures_toLabel hm _ h
  · exact fun t h => ensures_need fun bs _ => ensures_blockWrite h fun u h => ensures_finish _ _ _ h
  · exact actKeeps_noLabel

theorem ensures_onBus {o : Out} {P : State → Prop} (h : Ensures o P) : Ensures (onBus s o) P := by
  unfold onBus; split
  · exact h
  · exact ensures_refused

theorem ensures_frameRegRd (reg : BitVec 7) : Ensures (frameRegRd reg s) (Keeps c s) :=
  ensures_onBus (ensures_regReadIdx Keeps.refl fun _ _ h => ensures_next (h.trans (Keeps.aside rfl)))

theorem ensures_frameRegWr (reg : BitVec 7) (d : Byte) : Ensures (frameRegWr reg d s) (Keeps c s) :=
  ensures_onBus (ensures_regWriteIdx Keeps.refl fun _ h => ensures_next h)

theorem ensures_frameBlkRd (reg : BitVec 7) : Ensures (frameBlkRd reg s) (Keeps c s) := by
  refine ensures_onBus ?_
  split
  · exact ensures_blockRead Keeps.refl fun _ _ h => ensures_next (h.trans (Keeps.aside rfl))
  · split
    · exact ensures_regReadIdx Keeps.refl fun _ _ h => ensures_next (h.trans (Keeps.aside rfl))
    · exact ensures_refused

theorem ensures_frameBlkWr (reg : BitVec 7) : Ensures (frameBlkWr reg s) (Keeps c s) := by
  refine ensures_onBus ?_
  split
  · exact ensures_blockWrite Keeps.refl fun _ h => ensures_next h
  · split
    · exact ensures_regWriteIdx Keeps.refl fun _ h => ensures_next h
    · exact ensures_refused

/-! ## Phy -/

theorem actKeeps_phyPreCheck (hm : Legal c m) (l : Label) : ActKeeps c s (phyPreCheck c m l) := by
  refine actKeeps_rdStep fun b u h => ?_
  split
  · exact ensures_raiseErr hm _ _ (h.setT _)
  · exact ensures_toLabel hm _ (h.setT _)

theorem actKeeps_phyAddress (hm : Legal c m) (l : Label) : ActKeeps c s (phyAddress c m l) :=
  fun _ h => ensures_need fun _ _ => ensures_regWrite h fun _ h => ensures_toLabel hm _ h

theorem actKeeps_phyCommand (hm : Legal c m) (b : Byte) (l : Label) : ActKeeps c s (phyCommand c m b l) :=
  actKeeps_wrStep fun _ h => ensures_toLabel hm _ (h.setAcc _)

theorem actKeeps_phyPoll (hm : Legal c m) (l : Label) {k : State → Out}
    (hk : ∀ t, Keeps c s t → Ensures (k t) (Keeps c s)) : ActKeeps c s (phyPoll c m l k) := by
  refine actKeeps_rdStep fun b u h => ensures_need fun acc _ => ?_
  have h' := (h.setT b).setAcc (acc + BitVec.ofNat 32 u.cfg.phyPollUs)
  simp only
  split
  · exact ensures_toLabel hm _ h'
  · split
    · exact ensures_raiseErr hm _ _ h'
    · exact hk _ h'

theorem actKeeps_phyWr (hm : Legal c .phyWr) (l : Label) : ActKeeps c s (phyWrAct c l s) := by
  unfold phyWrAct
  split
  · exact actKeeps_phyPreCheck hm _
  · exact actKeeps_phyAddress hm _
  · exact fun t h => ensures_need fun w _ => ensures_regWrite h fun u h => ensures_toLabel hm _ h
  · exact fun t h => ensures_need fun w _ => ensures_regWrite h fun u h => ensures_toLabel hm _ h
  · exact actKeeps_phyCommand hm _ _
  · exact ensures_toLabel hm _ Keeps.refl
  · exact actKeeps_phyPoll hm _ fun t h => ensures_finish _ _ _ h
  · exact actKeeps_noLabel

theorem actKeeps_phyRd (hm : Legal c .phyRd) (l : Label) : ActKeeps c s (phyRdAct c l s) := by
  unfold phyRdAct
  split
  · refine actKeeps_needAct fun w => ?_
    split
    · exact actKeeps_phyPreCheck hm _
    · exact ensures_raiseErr hm _ _ Keeps.refl
  · exact actKeeps_phyAddress hm _
  · exact actKeeps_phyCommand hm _ _
  · exact ensures_toLabel hm _ Keeps.refl
  · exact actKeeps_phyPoll hm _ fun t h => ensures_toLabel hm _ h
  · exact actKeeps_rdStep fun b u h => ensures_toLabel hm _ (h.setV _)
  · exact actKeeps_rdStep fun b u h => ensures_need fun v _ => ensures_finish _ _ _ (h.setV _)
  · exact actKeeps_noLabel

/-! ## RxBus -/

theorem ensures_nothingPending (h : Keeps c s t) : Ensures (nothingPending c m t) (Keeps c s) :=
  ensures_finish _ _ _ (h.trans (keeps_setRemain _))

theorem ensures_deriveThen (hm : Legal c m) (bc : Nat) (l : Label) (h : Keeps c s t) :
    Ensures (deriveThen c m bc l t) (Keeps c s) := by
  refine ensures_need fun w _ => ?_
  split
  · exact ensures_raiseErr hm _ _ h
  · exact ensures_toLabel hm _ (h.sc _)

theorem ensures_countDone (hm : Legal c m) (bc : Nat) (h : Keeps c s t) :
    Ensures (countDone c m bc t) (Keeps c s) := by
  unfold countDone
  split
  · split
    · exact ensures_nothingPending h
    · exact ensures_finish _ _ _ h
  · split
    · exact ensures_nothingPending h
    · exact ensures_deriveThen hm _ _ h
  · split
    · exact ensures_nothingPending h
    · exact ensures_deriveThen hm _ _ h
  · split
    · exact ensures_nothingPending h
    · exact ensures_toLabel hm _ (h.sc _)

theorem ensures_headerPeeked (hm : Legal c m) (hdr : List Byte) (h : Keeps c s t) :
    Ensures (headerPeeked c m hdr t) (Keeps c s) := by
  unfold headerPeeked
  split
  · exact ensures_toLabel hm _ (h.sc _)
  · exact ensures_countDone hm _ h

theorem ensures_reprobeDone (hm : Legal c m) (h : Keeps c s t) : Ensures (reprobeDone c m t) (Keeps c s) := by
  unfold reprobeDone
  split
  · exact ensures_raiseErr hm _ _ h
  · split
    · exact ensures_need fun _ _ => ensures_need fun _ _ => ensures_finish _ _ _ h
    · exact ensures_finish _ _ _ h

theorem ensures_reprobeTimeout (hm : Legal c m) (h : Keeps c s t) : Ensures (reprobeTimeout c m t) (Keeps c s) :=
  ensures_toLabel hm _ h

theorem actKeeps_rxProc (hm : Legal c m) (l : Label) : ActKeeps c s (rxProcAct c m l s) := by
  have recovered : ∀ t, Keeps c s t → Ensures (toLabel c m .v4 t) (Keeps c s) := fun t h => ensures_toLabel hm _ h
  unfold rxProcAct
  split
  · exact actKeeps_rdStep fun b u h => ensures_toLabel hm _ (h.setT _)
  · refine actKeeps_rdStep fun b u h => ?_
    split
    · exact ensures_stopSeqEntry hm (h.setT _)
    · split
      · exact ensures_countDone hm _ (h.setT _)
      · exact ensures_toLabel hm _ (h.setT _)
  · exact fun t h => ensures_blockRead h fun hdr u h => ensures_headerPeeked hm hdr h
  · exact actKeeps_stopSeq hm _ fun t h => ensures_toLabel hm _ h
  · exact actKeeps_stopSeq hm _ fun t h => ensures_toLabel hm _ h
  · exact actKeeps_stopSeq hm _ fun t h => ensures_toLabel hm _ h
  · exact actKeeps_stopSeq hm _ fun t h => ensures_toLabel hm _ h
  · exact fun t h => ensures_regWrite (h.trans keeps_stopFlags) fun u h => ensures_toLabel hm _ h
  · exact ensures_startSeqEntry hm Keeps.refl
  · exact actKeeps_startSeq hm _ recovered
  · exact actKeeps_startSeq hm _ recovered
  · exact actKeeps_startSeq hm _ recovered
  · exact actKeeps_startSeq hm _ recovered
  · exact actKeeps_startSeq hm _ recovered
  · exact ensures_raiseErr hm _ _ (keeps_logEntry _ _)
  · exact actKeeps_rdStep fun b u h => ensures_toLabel hm _ (h.setP _)
  · exact actKeeps_rdStep fun b u h => ensures_need fun _ _ => ensures_need fun _ _ => ensures_toLabel hm _ (h.setP _)
  · exact fun t h => ensures_need fun _ _ => ensures_regWrite h fun u h => ensures_toLabel hm _ h
  · exact fun t h => ensures_need fun _ _ => ensures_regWrite h fun u h => ensures_toLabel hm _ h
  · exact actKeeps_rdStep fun b u h => ensures_toLabel hm _ (h.setT _)
  · exact actKeeps_rdStep fun b u h => ensures_reprobeDone hm ((h.setT _).trans (keeps_setRemain _))
  · exact ensures_toLabel hm _ (keeps_setRemain _)
  · exact ensures_reprobeDone hm (keeps_logEntry _ _)
  · exact actKeeps_noLabel

theorem keeps_passToCaller (a : Word) : Keeps c s (passToCaller c a s) := by
  cases c
  · exact keeps_giveAlloc _ _
  · exact Keeps.refl

theorem actKeeps_bufferCheck (hm : Legal c m) {act : Word → Act} (hk : ∀ a, ActKeeps c s (act a)) :
    ActKeeps c s (bufferCheck c m s act) := by
  refine actKeeps_needAct fun a => ?_
  split
  · exact ensures_raiseErr hm _ _ Keeps.refl
  · exact hk a

theorem actKeeps_rxAlloc (hm : Legal c .rxAlloc) (l : Label) : ActKeeps c s (rxAllocAct c l s) := by
  unfold rxAllocAct
  split
  · refine ensures_need fun rl _ => ?_
    have h := keeps_alloc (c := c) (s := s) s.cfg.rxBufSize (allocOwner c)
    split
    · rename_i heq; rw [heq] at h; exact ensures_raiseErr hm _ _ h
    · rename_i heq; rw [heq] at h; exact ensures_toLabel hm _ (h.sc _)
  · exact ensures_need fun _ _ => ensures_need fun _ _ => ensures_toLabel hm _ (Keeps.refl.write32 _ _)
  · exact ensures_need fun _ _ => ensures_need fun _ _ => ensures_need fun _ _ =>
      ensures_finish _ _ _ (((Keeps.refl.write32 _ _).trans (Keeps.aside rfl)).trans (keeps_passToCaller _))
  · exact actKeeps_rxProc hm _

theorem ensures_rxFrameBusEntry (hm : Legal c .rxFrame) : Ensures (rxFrameBusEntry c s) (Keeps c s) :=
  ensures_need fun _ _ => ensures_toLabel hm _ Keeps.refl

theorem actKeeps_rxFrameBus (hm : Legal c .rxFrame) (l : Label) : ActKeeps c s (rxFrameBusAct c l s) := by
  have r : Keeps c s s := Keeps.refl
  unfold rxFrameBusAct
  split
  · refine actKeeps_bufferCheck hm fun a => ?_
    simp only [ActKeeps]
    split
    · exact ensures_toLabel hm _ (r.sc _)
    · exact ensures_refused
  · exact actKeeps_bufferCheck hm fun _ => actKeeps_rxProc hm _
  · exact ensures_need fun _ _ => ensures_toLabel hm _ (r.sc _)
  · refine fun t h => ensures_need fun _ _ => ?_
    split
    · exact ensures_refused
    · exact ensures_blockRead h fun _ u h => ensures_toLabel hm _ (h.sc _)
  · exact ensures_need fun _ _ => ensures_writeString hm r fun u h => ensures_toLabel hm _ (h.sc _)
  · refine ensures_need fun _ _ => ensures_need fun _ _ => ensures_need fun _ _ => ensures_need fun _ _ =>
      ensures_need fun _ _ => ?_
    split
    · exact ensures_writeString hm r fun u h => ensures_toLabel hm _ h
    · exact ensures_refused
  · exact actKeeps_rxProc hm _

/-! ## DmaRing -/

theorem ensures_walkEmpty (n : Nat) (h : Keeps c s t) : Ensures (walkEmpty c m n t) (Keeps c s) :=
  ensures_finish _ _ _ (h.trans (keeps_report _ _))

theorem ensures_segmentEntry (hm : Legal c m) (k seg rem : Nat) (h : Keeps c s t) :
    Ensures (segmentEntry c m k seg rem t) (Keeps c s) := by
  unfold segmentEntry
  split
  · exact ensures_toLabel hm _ (h.sc _)
  · exact ensures_toLabel hm _ h

theorem ensures_walkDone (hm : Legal c m) : Ensures (walkDone c m s) (Keeps c s) :=
  ensures_need fun _ _ => ensures_need fun _ _ => ensures_segmentEntry hm _ _ _ (Keeps.refl.sc _)

theorem ensures_walkFirst (hm : Legal c m) : Ensures (walkFirst c m s) (Keeps c s) := by
  have r : Keeps c s s := Keeps.refl
  unfold walkFirst
  simp only
  split
  · exact ensures_toLabel hm _ (r.sc _)
  · split
    · exact ensures_walkEmpty _ r
    · exact ensures_toLabel hm _ (r.setI _)

theorem ensures_walkSecond (hm : Legal c m) : Ensures (walkSecond c m s) (Keeps c s) := by
  unfold walkSecond
  simp only
  split
  · exact ensures_toLabel hm _ (Keeps.refl.sc _)
  · exact ensures_walkDone hm

theorem ensures_giveBack (hm : Legal c m) : Ensures (giveBack c m s) (Keeps c s) := by
  refine ensures_need fun k _ => ensures_need fun rem _ => ?_
  have h : Keeps c s (hwrite32 (rxdAddr s (segmentIdx c s)) descGivenBack s) := Keeps.refl.write32 _ _
  simp only
  split
  · exact ensures_segmentEntry hm _ _ _ (h.sc _)
  · exact ensures_toLabel hm _ (h.sc _)

theorem ensures_pollAndReport (hm : Legal c m) : Ensures (pollAndReport c m s) (Keeps c s) := by
  refine ensures_need fun j _ => ensures_need fun w _ => ensures_need fun cl _ => ?_
  have h : Keeps c s (mWrite .rxPoll 1 { s with bufs.rxIdx := j }) := Keeps.mWrite _ _ (Keeps.aside rfl)
  simp only
  split
  · split
    · exact ensures_raiseErr hm _ _ (h.trans (keeps_report _ _))
    · exact ensures_finish _ _ _ (h.trans (keeps_report _ _))
  · exact ensures_finish _ _ _ (h.trans (keeps_report _ _))

theorem actKeeps_rxRing (hm : Legal c m) (l : Label) : ActKeeps c s (rxRingAct c m l s) := by
  have r : Keeps c s s := Keeps.refl
  unfold rxRingAct
  split
  · exact ensures_walkFirst hm
  · exact ensures_walkSecond hm
  · refine ensures_need fun _ _ => ensures_need fun _ _ => ?_
    simp only
    split
    · exact ensures_refused
    · exact ensures_readString hm (r.sc _) fun u h => ensures_toLabel hm _ h
  · exact ensures_need fun _ _ => ensures_need fun _ _ => ensures_need fun _ _ =>
      ensures_writeString hm r fun u h => ensures_toLabel hm _ (h.sc _)
  · exact ensures_giveBack hm
  · exact ensures_pollAndReport hm
  · exact actKeeps_noLabel

theorem ensures_rxFrameDmaEntry (hm : Legal c .rxFrame) : Ensures (rxFrameDmaEntry c s) (Keeps c s) :=
  ensures_toLabel hm _ Keeps.refl

theorem actKeeps_rxFrameDma (hm : Legal c .rxFrame) (l : Label) : ActKeeps c s (rxFrameDmaAct c l s) := by
  unfold rxFrameDmaAct
  split
  · exact actKeeps_bufferCheck hm fun _ => actKeeps_rxRing hm _
  · exact actKeeps_rxRing hm _

theorem ensures_rxFrameEntry (hm : Legal c .rxFrame) : Ensures (rxFrameEntry c s) (Keeps c s) := by
  unfold rxFrameEntry; split
  · exact ensures_rxFrameBusEntry hm
  · exact ensures_rxFrameDmaEntry hm

theorem actKeeps_rxFrame (hm : Legal c .rxFrame) (l : Label) : ActKeeps c s (rxFrameAct c l s) := by
  unfold rxFrameAct; split
  · exact actKeeps_rxFrameBus hm l
  · exact actKeeps_rxFrameDma hm l

theorem ensures_rxFlushEntry (hm : Legal c .rxFlush) : Ensures (rxFlushEntry c s) (Keeps c s) := by
  unfold rxFlushEntry; split <;> exact ensures_toLabel hm _ Keeps.refl

theorem actKeeps_rxFlush (hm : Legal c .rxFlush) (l : Label) : ActKeeps c s (rxFlushAct c l s) := by
  unfold rxFlushAct; split
  · exact actKeeps_rxProc hm l
  · exact actKeeps_rxRing hm l

/-! ## Transmit -/

theorem ensures_txFrameEntry (hm : Legal c .txFrame) : Ensures (txFrameEntry c s) (Keeps c s) :=
  ensures_toLabel hm _ (Keeps.setN _ (Keeps.refl.sc _))

theorem actKeeps_txChecks (hm : Legal c .txFrame) {act : Nat → Act} (hk : ∀ n, ActKeeps c s (act n)) :
    ActKeeps c s (txChecks c s act) := by
  refine actKeeps_needAct fun w => actKeeps_needAct fun a => ?_
  split
  · exact ensures_raiseErr hm _ _ Keeps.refl
  · exact hk _

theorem ensures_txPolled (hm : Legal c .txFrame) (b : Bool) (n : Word) {k : State → Out} (h : Keeps c s t)
    (hk : ∀ u, Keeps c s u → Ensures (k u) (Keeps c s)) : Ensures (txPolled c b n t k) (Keeps c s) := by
  unfold txPolled
  simp only
  split
  · exact ensures_toLabel hm _ (h.setN _)
  · split
    · exact ensures_raiseErr hm _ _ (h.setN _)
    · exact hk _ (h.setN _)

theorem actKeeps_txFrameBus (hm : Legal c .txFrame) (l : Label) : ActKeeps c s (txFrameBusAct c l s) := by
  have r : Keeps c s s := Keeps.refl
  unfold txFrameBusAct
  split
  · exact actKeeps_txChecks hm fun _ => actKeeps_rdStep fun b u h => ensures_need fun n _ =>
      ensures_txPolled hm _ _ (h.setT _) fun u h => ensures_toLabel hm _ h
  · exact fun t h => ensures_need fun _ _ => ensures_regWrite h fun u h => ensures_toLabel hm _ h
  · exact fun t h => ensures_need fun _ _ => ensures_regWrite h fun u h => ensures_toLabel hm _ (h.sc _)
  · exact ensures_need fun _ _ => ensures_need fun _ _ => ensures_readString hm r fun u h => ensures_toLabel hm _ h
  · exact ensures_need fun _ _ => ensures_writeString hm r fun u h => ensures_toLabel hm _ h
  · exact fun t h => ensures_need fun _ _ => ensures_blockWrite h fun u h => ensures_toLabel hm _ h
  · exact actKeeps_rdStep fun b u h => ensures_toLabel hm _ (h.setT _)
  · exact fun t h => ensures_need fun _ _ => ensures_regWrite h fun u h => ensures_finish _ _ _ h
  · exact actKeeps_noLabel

theorem actKeeps_txFrameDma (hm : Legal c .txFrame) (l : Label) : ActKeeps c s (txFrameDmaAct c l s) := by
  have r : Keeps c s s := Keeps.refl
  unfold txFrameDmaAct
  split
  · refine actKeeps_txChecks hm fun _ => ensures_need fun _ _ => ensures_need fun _ _ =>
      ensures_txPolled hm _ _ (r.setV _) fun u h => ?_
    split
    · exact ensures_toLabel hm _ (Keeps.setN _ (h.sc _))
    · exact ensures_toLabel hm _ ((h.sc _).sc _)
  · exact ensures_need fun _ _ => ensures_need fun _ _ => ensures_need fun _ _ =>
      ensures_readString hm r fun u h => ensures_toLabel hm _ h
  · exact ensures_need fun _ _ => ensures_need fun _ _ => ensures_writeString hm r fun u h => ensures_toLabel hm _ h
  · refine ensures_need fun _ _ => ensures_need fun j _ => ?_
    simp only
    split
    · exact ensures_toLabel hm _ (((r.write32 _ _).sc _).sc _)
    · exact ensures_toLabel hm _ (r.write32 _ _)
  · refine ensures_need fun _ _ => ensures_need fun j _ => ?_
    simp only
    split
    · exact ensures_toLabel hm _ (r.write32 _ _)
    · exact ensures_toLabel hm _ ((r.write32 _ _).sc _)
  · exact ensures_need fun _ _ => ensures_finish _ _ _ (Keeps.mWrite _ _ (Keeps.aside rfl))
  · exact actKeeps_noLabel

theorem actKeeps_txFrame (hm : Legal c .txFrame) (l : Label) : ActKeeps c s (txFrameAct c l s) := by
  unfold txFrameAct; split
  · exact actKeeps_txFrameBus hm l
  · exact actKeeps_txFrameDma hm l

/-! ## Lifecycle: HCTX only -/

/-- HCTX writes the instance record. -/
theorem keeps_inst (i : Inst) : Keeps .H s { s with inst := i } :=
  ⟨rfl, id, id, id, id, id, id, id, id, fun e => nomatch e⟩

theorem keeps_setLife (l : Life) : Keeps .H s (setLife l s) := keeps_inst _
theorem keeps_setAddrByte (i : Nat) (b : Byte) : Keeps .H s (setAddrByte i b s) := keeps_inst _

theorem ensures_resetPolled (b : Bool) {k : State → Out} (h : Keeps .H s t)
    (hk : ∀ u, Keeps .H s u → Ensures (k u) (Keeps .H s)) : Ensures (resetPolled .H b t k) (Keeps .H s) := by
  refine ensures_need fun acc _ => ?_
  split
  · exact ensures_toLabel (legal_H _) _ h
  · split
    · exact ensures_raiseErr (legal_H _) _ _ h
    · exact hk _ h

theorem ensures_initSeqAt (k : Nat) (h : Keeps .H s t) : Ensures (initSeqAt .H k t) (Keeps .H s) := by
  unfold initSeqAt
  split <;> split
  · exact ensures_toLabel (legal_H _) _ (h.sc _)
  · exact ensures_toLabel (legal_H _) _ (h.setI _)
  · exact ensures_toLabel (legal_H _) _ (h.sc _)
  · exact ensures_chainEntry (legal_H _) h

theorem actKeeps_initBus (l : Label) : ActKeeps .H s (initActBus .H l s) := by
  unfold initActBus
  split
  · exact actKeeps_wrStep fun u h => ensures_toLabel (legal_H _) _ (h.setAcc _)
  · exact actKeeps_rdStep fun b u h => ensures_resetPolled _ (h.setT _) fun u h => ensures_toLabel (legal_H _) _ h
  · exact actKeeps_rdStep fun b u h => ensures_toLabel (legal_H _) _ (h.setV _)
  · exact actKeeps_rdStep fun b u h => ensures_need fun _ _ => ensures_toLabel (legal_H _) _ (h.setV _)
  · exact actKeeps_rdStep fun b u h => ensures_toLabel (legal_H _) _ (h.setN _)
  · refine actKeeps_rdStep fun b u h => ensures_need fun _ _ => ensures_need fun n _ => ?_
    simp only
    split
    · exact ensures_initSeqAt _ (h.setN _)
    · exact ensures_raiseErr (legal_H _) _ _ (h.setN _)
  · exact fun t h => ensures_need fun _ _ => ensures_need fun _ _ =>
      ensures_regWriteIdx h fun u h => ensures_initSeqAt _ h
  · refine fun t h => ensures_need fun i _ => ensures_regRead h fun b u h => ?_
    have h' := h.trans (keeps_setAddrByte i b)
    simp only
    split
    · exact ensures_toLabel (legal_H _) _ (h'.setI _)
    · exact ensures_finish _ _ _ (h'.trans (keeps_setLife _))
  · exact actKeeps_noLabel

theorem actKeeps_initDma (l : Label) : ActKeeps .H s (initActDma .H l s) := by
  have r : Keeps .H s s := Keeps.refl
  unfold initActDma
  split
  · exact ensures_toLabel (legal_H _) _ ((r.mWrite _ _).setAcc _)
  · exact ensures_mRead r fun v u h => ensures_resetPolled _ (h.setTw _) fun u h => ensures_initSeqAt _ h
  · exact ensures_need fun _ _ => ensures_need fun _ _ => ensures_initSeqAt _ (r.mWrite _ _)
  · exact ensures_mRead r fun v u h => ensures_toLabel (legal_H _) _ (h.setV _)
  · exact ensures_mRead r fun v u h => ensures_need fun _ _ => ensures_finish _ _ _
      (((h.setTw _).trans (keeps_inst _)).trans (keeps_setLife _))
  · exact actKeeps_chain (legal_H _) _ fun u h => ensures_toLabel (legal_H _) _ h

theorem actKeeps_init (l : Label) : ActKeeps .H s (initAct .H l s) := by
  have r : Keeps .H s s := Keeps.refl
  unfold initAct
  split
  · exact ensures_toLabel (legal_H _) _ (Keeps.aside rfl)
  · exact ensures_toLabel (legal_H _) _ (keeps_notify _)
  · exact ensures_need fun _ _ => ensures_toLabel (legal_H _) _ (r.setAcc _)
  · exact ensures_toLabel (legal_H _) _ (Keeps.aside rfl)
  · exact ensures_toLabel (legal_H _) _ (Keeps.aside rfl)
  · exact ensures_need fun _ _ => ensures_endWithError _ _ _ (keeps_notify _)
  · split
    · exact actKeeps_initBus _
    · exact actKeeps_initDma _

theorem actKeeps_deinit (l : Label) : ActKeeps .H s (deinitAct .H l s) := by
  unfold deinitAct
  split
  · have h (t : State) (hk : Keeps .H s t) : Ensures (toLabel .H .deinit .s0b { t with flags.irqEn := false }) (Keeps .H s) :=
      ensures_toLabel (legal_H _) _ (hk.trans (Keeps.aside rfl))
    simp only [ActKeeps]
    split
    · exact h _ Keeps.refl
    · exact h _ keeps_stopFlags
  · exact ensures_toLabel (legal_H _) _ (Keeps.aside rfl)
  · have h : Keeps .H s (setLife .deinitialized (notify .deinit s)) := (keeps_notify _).trans (keeps_setLife _)
    simp only [ActKeeps]
    split
    · exact ensures_endWithError _ _ _ h
    · exact ensures_finish _ _ _ h
  · exact actKeeps_stopSeq (legal_H _) _ fun u h => ensures_toLabel (legal_H _) _ h

theorem actKeeps_start (l : Label) : ActKeeps .H s (startAct .H l s) :=
  actKeeps_startSeq (legal_H _) _ fun _ h => ensures_finish _ _ _ (h.trans (keeps_setLife _))

theorem actKeeps_stop (l : Label) : ActKeeps .H s (stopAct .H l s) :=
  actKeeps_stopSeq (legal_H _) _ fun _ h => ensures_finish _ _ _ ((h.trans keeps_stopFlags).trans (keeps_setLife _))

theorem ensures_linkDone (up : Bool) (h : Keeps c s t) : Ensures (linkDone c up t) (Keeps c s) :=
  ensures_finish _ _ _ (h.trans (Keeps.aside rfl))

theorem ensures_setLinkEntry : Ensures (setLinkEntry .H s) (Keeps .H s) := by
  refine ensures_need fun w _ => ?_
  repeat' split
  · exact ensures_toLabel (legal_H _) _ Keeps.refl
  · exact ensures_startSeqEntry (legal_H _) Keeps.refl
  · exact ensures_stopSeqEntry (legal_H _) Keeps.refl

theorem actKeeps_setLink (l : Label) : ActKeeps .H s (setLinkAct .H l s) := by
  unfold setLinkAct
  repeat' split
  · exact ensures_need fun _ _ => ensures_linkDone _ Keeps.refl
  · exact actKeeps_stopSeq (legal_H _) _ fun _ h => ensures_linkDone _ ((h.trans keeps_stopFlags).trans (keeps_setLife _))
  · exact actKeeps_startSeq (legal_H _) _ fun _ h => ensures_linkDone _ (h.trans (keeps_setLife _))

theorem keeps_endWorker : Keeps .H s (endWorker s) := by
  refine ⟨rfl, id, id, id, id, id, id, fun _ => trivial, id, fun e => nomatch e⟩

theorem ensures_delNext (h : Keeps .H s t) : Ensures (delNext .H t) (Keeps .H s) := by
  unfold delNext
  split
  · exact ensures_finish _ _ _ (h.trans (keeps_setLife _))
  · exact ensures_toLabel (legal_H _) _ h

theorem actKeeps_del (l : Label) : ActKeeps .H s (delAct .H l s) := by
  unfold delAct
  split
  · split
    · trivial
    · exact ensures_delNext keeps_endWorker
  · exact ensures_delNext (Keeps.trans (t := { s with drain.buf := none }) (Keeps.aside rfl) (keeps_freeAlloc _))
  · exact actKeeps_noLabel

/-! ## Settings: HCTX only -/

theorem actKeeps_readToV (r : MReg) : ActKeeps .H s (readToV .H m r s) :=
  ensures_mRead Keeps.refl fun _ _ h => ensures_toLabel (legal_H _) _ (h.setV _)

theorem actKeeps_setAddrCheck {act : Act} (hk : ActKeeps .H s act) : ActKeeps .H s (setAddrCheck .H s act) := by
  refine actKeeps_needAct fun a => ?_
  split
  · exact hk
  · exact ensures_raiseErr (legal_H _) _ _ Keeps.refl

theorem actKeeps_setAddr (l : Label) : ActKeeps .H s (setAddrAct .H l s) := by
  have r : Keeps .H s s := Keeps.refl
  unfold setAddrAct
  split
  · unfold setAddrActBus
    split
    · refine actKeeps_setAddrCheck fun t h => ensures_need fun i _ => ensures_need fun _ _ => ensures_need fun _ _ =>
        ensures_regWrite h fun u h => ?_
      split
      · exact ensures_toLabel (legal_H _) _ (h.setI _)
      · exact ensures_finish _ _ _ (h.trans (keeps_inst _))
    · exact actKeeps_noLabel
  · unfold setAddrActDma
    split
    · exact actKeeps_setAddrCheck (ensures_need fun _ _ => ensures_need fun _ _ =>
        ensures_toLabel (legal_H _) _ (r.mWrite _ _))
    · exact ensures_need fun _ _ => ensures_need fun _ _ => ensures_finish _ _ _ ((r.mWrite _ _).trans (keeps_inst _))
    · exact actKeeps_noLabel

theorem ensures_speedDone (on : Bool) (h : Keeps .H s t) : Ensures (speedDone .H on t) (Keeps .H s) :=
  ensures_finish _ _ _ (h.trans (keeps_inst _))

theorem ensures_duplexDone (on : Bool) (h : Keeps .H s t) : Ensures (duplexDone .H on t) (Keeps .H s) :=
  ensures_finish _ _ _ (h.trans (keeps_inst _))

theorem ensures_promiscDone (on : Bool) (h : Keeps .H s t) : Ensures (promiscDone .H on t) (Keeps .H s) :=
  ensures_finish _ _ _ (h.trans (keeps_inst _))

theorem ensures_peerPauseDone (w : Word) (h : Keeps .H s t) : Ensures (peerPauseDone .H w t) (Keeps .H s) :=
  ensures_finish _ _ _ ((h.trans (keeps_inst { t.inst with peerPause := cwFlag w })).trans (Keeps.aside rfl))

theorem actKeeps_getAddr (l : Label) : ActKeeps .H s (getAddrAct .H l s) := by
  unfold getAddrAct
  split
  · exact ensures_finish _ _ _ Keeps.refl
  · exact actKeeps_noLabel

theorem actKeeps_setSpeed (l : Label) : ActKeeps .H s (setSpeedAct .H l s) := by
  unfold setSpeedAct
  split
  · exact ensures_need fun _ _ => ensures_speedDone _ Keeps.refl
  · exact actKeeps_readToV _
  · exact ensures_need fun _ _ => ensures_need fun _ _ => ensures_speedDone _ (Keeps.refl.mWrite _ _)
  · exact actKeeps_noLabel

theorem actKeeps_setDuplex (l : Label) : ActKeeps .H s (setDuplexAct .H l s) := by
  unfold setDuplexAct
  split
  · exact ensures_need fun _ _ => ensures_duplexDone _ Keeps.refl
  · exact actKeeps_readToV _
  · exact ensures_need fun _ _ => ensures_need fun _ _ => ensures_duplexDone _ (Keeps.refl.mWrite _ _)
  · exact actKeeps_noLabel

theorem actKeeps_setPromisc (l : Label) : ActKeeps .H s (setPromiscAct .H l s) := by
  unfold setPromiscAct
  split
  · exact actKeeps_rdStep fun b u h => ensures_toLabel (legal_H _) _ (h.setT _)
  · exact fun t h => ensures_need fun _ _ => ensures_need fun _ _ => ensures_regWrite h fun u h => ensures_promiscDone _ h
  · exact actKeeps_readToV _
  · exact ensures_need fun _ _ => ensures_need fun _ _ => ensures_promiscDone _ (Keeps.refl.mWrite _ _)
  · exact actKeeps_noLabel

theorem actKeeps_setFlowCtrl (l : Label) : ActKeeps .H s (setFlowCtrlAct .H l s) := by
  unfold setFlowCtrlAct
  split
  · exact ensures_need fun _ _ => ensures_finish _ _ _ (keeps_inst _)
  · exact actKeeps_noLabel

theorem actKeeps_setPeerPause (l : Label) : ActKeeps .H s (setPeerPauseAct .H l s) := by
  unfold setPeerPauseAct
  split
  · exact actKeeps_rdStep fun b u h => ensures_toLabel (legal_H _) _ (h.setT _)
  · exact fun t h => ensures_need fun _ _ => ensures_need fun _ _ =>
      ensures_regWrite h fun u h => ensures_peerPauseDone _ h
  · exact actKeeps_readToV _
  · exact ensures_need fun _ _ => ensures_need fun _ _ => ensures_peerPauseDone _ (Keeps.refl.mWrite _ _)
  · exact actKeeps_noLabel

/-! ## Drainer: WCTX only -/

theorem legal_W {m : Op} (h : workerOp m = true) : Legal .W m := fun _ => h

theorem keeps_drainFrom (d : DLabel) : Keeps .W s (drainFrom d s) := (Keeps.aside rfl).trans (keeps_drainTo (s := { s with wstate := .draining }) d)

theorem keeps_burstEntered (w : Word) : Keeps .W s (burstEntered w s) := by
  unfold burstEntered; split
  · exact keeps_drainTo _
  · exact keeps_drainWait

theorem keeps_drainAlloc : Keeps .W s (drainAlloc s) := by
  have h := keeps_alloc (c := .W) (s := s) s.cfg.rxBufSize .drainer
  unfold drainAlloc
  split
  · rename_i heq; rw [heq] at h; exact h.trans (keeps_drainTo _)
  · rename_i heq; rw [heq] at h
    rename_i a u
    exact (h.trans (Keeps.aside rfl)).trans (keeps_drainTo (s := { u with drain.buf := some a }) _)

theorem keeps_drainDeliver (a : Word) : Keeps .W s (drainDeliver a s) := by
  have h := keeps_nextDeliverAnswer (c := .W) (s := s)
  unfold drainDeliver
  simp only
  have h' := h.trans (keeps_observe (.deliver a (nextDeliverAnswer s).2.drain.cl (nextDeliverAnswer s).1))
  split
  · exact (h'.trans (Keeps.aside rfl)).trans (keeps_drainTo (s := { giveAlloc a .up _ with drain.buf := none }) _)
  · exact h'.trans (keeps_drainTo _)

theorem keeps_drainFree (d : DLabel) (a : Word) : Keeps .W s (drainFree d a s) :=
  (Keeps.trans (t := { s with drain.buf := none }) (Keeps.aside rfl) (keeps_freeAlloc a)).trans (keeps_drainTo _)

theorem keeps_fcEval : Keeps .W s (fcEval s) := by
  unfold fcEval
  split
  · exact (Keeps.aside rfl).trans (keeps_drainTo (s := { s with drain.pauseArg := true }) _)
  · split
    · exact (Keeps.aside rfl).trans (keeps_drainTo (s := { s with drain.pauseArg := false }) _)
    · exact keeps_drainTo _

theorem keeps_loopTest : Keeps .W s (loopTest s) := by
  unfold loopTest; split
  · exact keeps_drainWait
  · exact keeps_drainTo _

theorem ensures_drainLog (x : LogText) : Ensures (drainLog x s) (Keeps .W s) := by
  have h : Keeps .W s (logEntry .W x s) := keeps_logEntry _ _
  have g (d : DLabel) : Ensures (.next (drainTo d (logEntry .W x s))) (Keeps .W s) := ensures_next (h.trans (keeps_drainTo d))
  unfold drainLog
  cases x
  case clearIntStatus => exact ensures_need fun t _ => g _
  case rxPointerReset => exact ensures_fault
  case reprobeTimeout => exact ensures_fault
  all_goals exact g _

/-- The drainer issues an operation. -/
theorem ensures_issueW {i : Instr} {a : Word} {f : State → Out} (h : ∀ t, Keeps .W s t → Ensures (f t) (Keeps .W s)) :
    Ensures (issueW i a f s) (Keeps .W s) := h _ (keeps_latch _ _ _)

theorem actKeeps_drain (d : DLabel) : ActKeeps .W s (drainAct d s) := by
  unfold drainAct
  split
  · unfold drainWaiting
    split
    · exact ensures_next ((Keeps.aside rfl).trans (keeps_drainFrom (s := { s with flags.wake := false }) _))
    · split
      · refine ensures_next ?_
        split
        · exact keeps_drainFrom _
        · exact Keeps.refl
      · trivial
  · split
    · exact actKeeps_rdStep fun b u h => ensures_next ((h.setT _).trans (keeps_drainTo _))
    · exact actKeeps_noLabel
  · split
    · exact fun t h => ensures_need fun _ _ => ensures_regWrite h fun u h => ensures_next (h.trans (keeps_burstEntered _))
    · exact actKeeps_noLabel
  · split
    · exact ensures_issueW fun t h => ensures_toLabel (legal_W rfl) _ h
    · exact ensures_next keeps_drainAlloc
  · split
    · refine ensures_need fun a _ => ensures_issueW fun t h => ?_
      intro u hu; exact h.trans (ensures_rxFrameEntry (legal_W rfl) u hu)
    · refine ensures_need fun a _ => ensures_issueW fun t h => ?_
      intro u hu; exact h.trans (ensures_rxFrameEntry (legal_W rfl) u hu)
  · exact ensures_need fun a _ => ensures_next (keeps_drainDeliver a)
  · refine ensures_issueW fun t h => ?_
    intro u hu; exact h.trans (ensures_rxFlushEntry (legal_W rfl) u hu)
  · exact ensures_next keeps_fcEval
  · exact ensures_mRead Keeps.refl fun v u h => ensures_next ((h.setV _).trans (keeps_drainTo _))
  · exact ensures_need fun v _ => ensures_next ((keeps_mWrite _ _).trans (keeps_drainTo _))
  · exact ensures_next keeps_loopTest
  · exact ensures_need fun a _ => ensures_next (keeps_drainFree _ a)
  · exact ensures_need fun a _ => ensures_next (keeps_drainFree _ a)
  · exact ensures_need fun a _ => ensures_next (keeps_drainFree _ a)
  · exact ensures_next (Keeps.trans (t := { s with flags.framesRemain := 1 }) (Keeps.aside rfl) (keeps_drainTo _))
  · exact ensures_next keeps_drainWait
  · exact ensures_next (Keeps.trans (t := { s with flags.pause := s.drain.pauseArg }) (Keeps.aside rfl) keeps_loopTest)
  · exact ensures_drainLog _

theorem ensures_drainTimeout (d : DLabel) : Ensures (drainTimeout d s) (Keeps .W s) := by
  unfold drainTimeout
  split
  · exact ensures_next (keeps_drainTo _)
  · exact ensures_next (keeps_drainTo _)
  · exact ensures_next Keeps.refl

/-! ## Micro -/

theorem ensures_opEntry (m : Op) : Ensures (opEntry .H m s) (Keeps .H s) := by
  have r : Keeps .H s s := Keeps.refl
  have g (l : Label) : Ensures (toLabel .H m l s) (Keeps .H s) := ensures_toLabel (legal_H _) l r
  cases m
  case memWr => exact ensures_toLabel (legal_H _) _ (r.sc _)
  case rxFrame => exact ensures_rxFrameEntry (legal_H _)
  case rxFlush => exact ensures_rxFlushEntry (legal_H _)
  case txFrame => exact ensures_txFrameEntry (legal_H _)
  case start => exact ensures_startSeqEntry (legal_H _) r
  case stop => exact ensures_stopSeqEntry (legal_H _) r
  case deinit => exact ensures_stopSeqEntry (legal_H _) r
  case setLink => exact ensures_setLinkEntry
  case setAddr => exact ensures_toLabel (legal_H _) _ (r.setI _)
  all_goals exact g _

theorem actKeeps_op_H (m : Op) (l : Label) : ActKeeps .H s (opAct .H m l s) := by
  cases m
  case regRd => exact actKeeps_regRd l
  case regWr => exact actKeeps_regWr l
  case memRd => exact actKeeps_memRd (legal_H _) l
  case memWr => exact actKeeps_memWr (legal_H _) l
  case phyWr => exact actKeeps_phyWr (legal_H _) l
  case phyRd => exact actKeeps_phyRd (legal_H _) l
  case rxCount => exact actKeeps_rxProc (legal_H _) l
  case rxAlloc => exact actKeeps_rxAlloc (legal_H _) l
  case rxFrame => exact actKeeps_rxFrame (legal_H _) l
  case rxFlush => exact actKeeps_rxFlush (legal_H _) l
  case txFrame => exact actKeeps_txFrame (legal_H _) l
  case init => exact actKeeps_init l
  case deinit => exact actKeeps_deinit l
  case start => exact actKeeps_start l
  case stop => exact actKeeps_stop l
  case del => exact actKeeps_del l
  case setLink => exact actKeeps_setLink l
  case setAddr => exact actKeeps_setAddr l
  case setSpeed => exact actKeeps_setSpeed l
  case setDuplex => exact actKeeps_setDuplex l
  case setPromisc => exact actKeeps_setPromisc l
  case getAddr => exact actKeeps_getAddr l
  case setFlowCtrl => exact actKeeps_setFlowCtrl l
  case setPeerPause => exact actKeeps_setPeerPause l

theorem actKeeps_op_W {m : Op} (hm : workerOp m = true) (l : Label) : ActKeeps .W s (opAct .W m l s) := by
  cases m
  case rxAlloc => exact actKeeps_rxAlloc (legal_W rfl) l
  case rxFrame => exact actKeeps_rxFrame (legal_W rfl) l
  case rxFlush => exact actKeeps_rxFlush (legal_W rfl) l
  all_goals cases hm

/-- What a context's counter must be for its step to be one of its own. -/
def CtxOk (c : CtxId) (s : State) : Prop :=
  match c with
  | .H => HostPc s
  | .W => WorkerConfined s

theorem actKeeps_ctx (c : CtxId) (h : CtxOk c s) : ActKeeps c s (ctxAct c s) := by
  unfold ctxAct
  cases c
  · simp only [CtxOk, HostPc] at h
    simp only [ctxOf]
    split
    · trivial
    · trivial
    · exact actKeeps_op_H _ _
    · rename_i heq; rw [heq] at h; exact h.elim
  · simp only [CtxOk, WorkerConfined] at h
    simp only [ctxOf]
    split
    · trivial
    · trivial
    · rename_i heq; rw [heq] at h; exact actKeeps_op_W h _
    · exact actKeeps_drain _

theorem keeps_takeLock (h : s.cfg.variant = .bus) (d : CtxId) : Keeps c s { s with lock := some d } :=
  ⟨rfl, id, id, id, id, fun _ hv => (nomatch h.symm.trans hv), id, id, id, fun _ => ⟨rfl, rfl, rfl⟩⟩

theorem keeps_releaseLock : Keeps c s { s with lock := none } :=
  ⟨rfl, id, id, id, id, fun _ _ => rfl, id, id, id, fun _ => ⟨rfl, rfl, rfl⟩⟩

theorem ensures_busStep (d : CtxId) {f : State → Out} (h : ActKeeps c s (.bus f)) :
    Ensures (busStep d f s) (Keeps c s) := by
  unfold busStep
  split
  · exact h _ Keeps.refl
  · rename_i hv _; exact ensures_next (keeps_takeLock hv _)
  · split
    · exact h _ keeps_releaseLock
    · exact ensures_next Keeps.refl

/-- A STEP OF A CONTEXT. -/
theorem ensures_ctxStep (c : CtxId) (h : CtxOk c s) : Ensures (ctxStep c s) (Keeps c s) := by
  have hk := actKeeps_ctx c h
  unfold ctxStep
  split
  · rename_i heq; rw [heq] at hk; exact ensures_busStep c hk
  · rename_i heq; rw [heq] at hk; exact hk
  · exact ensures_next Keeps.refl

theorem ensures_takeTimeout (c : CtxId) (h : CtxOk c s) : Ensures (takeTimeout c s) (Keeps c s) := by
  unfold takeTimeout
  have hl : ∀ m l, (ctxOf c s).pc = .op m l → Legal c m := by
    intro m l he hc
    subst hc
    simp only [CtxOk, WorkerConfined] at h
    simp only [ctxOf] at he
    rw [he] at h; exact h
  split
  · rename_i he; exact ensures_reprobeTimeout (hl _ _ he) Keeps.refl
  · rename_i he; exact ensures_reprobeTimeout (hl _ _ he) Keeps.refl
  · rename_i he; exact ensures_raiseErr (hl _ _ he) _ _ Keeps.refl
  · rename_i he
    cases c
    · simp only [CtxOk, HostPc] at h
      simp only [ctxOf] at he
      rw [he] at h; exact h.elim
    · exact ensures_drainTimeout _
  · exact ensures_next Keeps.refl
  · exact ensures_next Keeps.refl

theorem ensures_lockTimeoutStep (c : CtxId) (h : CtxOk c s) : Ensures (lockTimeoutStep c s) (Keeps c s) := by
  unfold lockTimeoutStep
  split
  · split
    · exact ensures_takeTimeout c h
    · exact ensures_next Keeps.refl
  · exact ensures_next Keeps.refl
  · exact ensures_next Keeps.refl

/-! ## Devices: the other agents write nothing of the contexts -/

theorem keeps_irqHandler : Keeps c s (irqHandler s) := by
  unfold irqHandler
  split
  · split
    · exact Keeps.aside rfl
    · exact Keeps.trans (t := { s with mreg.status := 0 })
        (Keeps.setMreg fun h => ⟨h.2.2.1, h.2.2.2.1, by simp⟩) (Keeps.aside rfl)
  · exact Keeps.refl

theorem keeps_phyReg {f : Cells 16} (h : Cells.wf s.phyReg = true → Cells.wf f = true) : Keeps c s { s with phyReg := f } := by
  refine ⟨rfl, ?_, id, id, id, id, id, id, id, fun _ => ⟨rfl, rfl, rfl⟩⟩
  simp only [Memory.wf, Bool.and_eq_true]
  rintro ⟨⟨h1, h2⟩, h3⟩
  exact ⟨⟨h1, h2⟩, h h3⟩

theorem phyStored_wf {f : Cells 16} (cfg : Config) (p r : BitVec 5) (v : Half) (h : Cells.wf f = true) :
    Cells.wf (phyStored cfg p r v f) = true := by
  unfold phyStored; split
  · exact Cells.wf_set h _ _
  · exact Cells.wf_canon _

theorem keeps_phyComplete : Keeps c s (phyComplete s) := by
  unfold phyComplete
  split
  · exact Keeps.refl
  · rename_i o _
    split
    · exact (keeps_phyReg (fun h => phyStored_wf s.cfg o.p o.r o.v h)).trans (Keeps.devAside rfl rfl rfl rfl rfl)
    · exact Keeps.devAside rfl rfl rfl rfl rfl

theorem storeRing_wf {m : Cells 8} (cfg : Config) (a : Nat) (bs : List Byte) (h : Cells.wf m = true) :
    Cells.wf (storeRing cfg m a bs) = true := by
  induction bs generalizing m a with
  | nil => exact h
  | cons b bs ih => exact ih _ (Cells.wf_set h _ _)

theorem keeps_frameArrive (f : List Byte) (st cs : Byte) : Keeps c s (frameArrive f st cs s) := by
  unfold frameArrive
  simp only
  split
  · split
    · exact Keeps.cause _ (Keeps.devAside rfl rfl rfl rfl rfl)
    · refine Keeps.cause _ (Keeps.setDev (.inl rfl) (fun h => h.2.1) (fun h => Cells.wf_set (storeRing_wf _ _ _ h) _ _) ?_)
      exact fun h => ⟨h.2.2.1, inRing_ofNat h.2.1 (inRing_ringWrap h.1
        (by have := le_of_inRing h.2.2.2; omega))⟩
  · exact Keeps.refl

theorem keeps_glitch (a : BitVec 16) : Keeps c s (glitch a s) := by
  unfold glitch; split
  · rename_i h; exact keeps_moveCursor (fun _ => h.2)
  · exact Keeps.refl

theorem keeps_setCauses (cs : Byte) : Keeps c s (setCauses cs s) := by
  unfold setCauses; split
  · exact keeps_setCause _
  · exact Keeps.refl

theorem keeps_depart (f : List Byte) : Keeps c s (depart f s) := by
  unfold depart; simp only
  split
  · exact Keeps.aside rfl
  · exact keeps_observe _

theorem keeps_txComplete (cs : Byte) : Keeps c s (txComplete cs s) := by
  unfold txComplete; split
  · exact Keeps.cause _ ((keeps_depart _).trans (Keeps.devAside rfl rfl rfl rfl rfl))
  · exact Keeps.refl

theorem keeps_resetPhyGroup : Keeps c s (resetPhyGroup s) :=
  (keeps_drawByte.trans keeps_drawByte).trans (Keeps.devAside rfl rfl rfl rfl rfl)

theorem Keeps.int {stat mask : Byte} (h : Keeps c s t) (hs : stat &&& 0xC0 = 0) : Keeps c s (setInt stat mask t) :=
  h.trans (keeps_setInt fun _ => hs)

theorem keeps_resetBus (mem : Cells 8) : Keeps c s (resetBus mem s) := by
  have h1 : Keeps c s (moveCursor (resetPhyGroup s).cfg.rxMemStart (resetPhyGroup s)) :=
    keeps_resetPhyGroup.trans (keeps_moveCursor fun h => inRing_start h.1)
  refine Keeps.int (h1.trans (Keeps.setDev (.inr ?_) (fun h => h.2.1) (fun _ => Cells.wf_set (Cells.wf_canon _) _ _) ?_))
    (by decide)
  · exact (by decide : (0 : Byte) &&& 0x03 = 0)
  · exact fun h => ⟨h.2.2.1, inRing_ofNat h.2.1 (inRing_start h.1)⟩

theorem keeps_resetDma : Keeps c s (resetDma s) := by
  refine ((keeps_resetPhyGroup.trans (Keeps.devAside (d := { (resetPhyGroup s).dev with rxDropped := 0 }) rfl rfl rfl rfl
    rfl)).trans (Keeps.setMreg (m := MRegs.initial s.cfg) fun _ => ?_)).trans (Keeps.aside (by rfl))
  exact ⟨by simp [MRegs.initial], by simp [MRegs.initial], by simp [MRegs.initial]⟩

theorem keeps_resetComplete (mem : Cells 8) : Keeps c s (resetComplete mem s) := by
  unfold resetComplete
  split
  · split
    · exact keeps_resetBus mem
    · exact keeps_resetDma
  · exact Keeps.refl

theorem keeps_pauseSent : Keeps c s (pauseSent s) := by
  unfold pauseSent; simp only
  split
  · split
    · exact (keeps_observe _).trans (Keeps.mregAside rfl rfl rfl)
    · exact Keeps.mregAside rfl rfl rfl
  · exact Keeps.refl

theorem keeps_dropDma : Keeps c s (dropDma s) := Keeps.devAside rfl rfl rfl rfl rfl

/-- A status bit among the three of the register is set. -/
theorem keeps_setStatus {w : Word} (hw : w &&& 0xFFFFFF3E = 0) :
    Keeps c s { s with mreg.status := s.mreg.status ||| w } :=
  Keeps.setMreg fun h => ⟨h.2.2.1, h.2.2.2.1, or_and_eq_zero h.2.2.2.2 hw⟩

theorem keeps_suspendRx : Keeps c s (suspendRx s) :=
  (keeps_dropDma.trans (keeps_setStatus (w := 0x80) (by decide))).trans (Keeps.aside rfl)

theorem keeps_dmaRxBegin (f : List Byte) : Keeps c s (dmaRxBegin f s) := by
  unfold dmaRxBegin
  simp only
  repeat' split
  · exact Keeps.refl
  · exact keeps_dropDma
  · exact Keeps.refl
  · exact keeps_dropDma
  · exact Keeps.aside rfl
  · exact keeps_suspendRx

theorem keeps_dmaRxSeg : Keeps c s (dmaRxSeg s) := by
  unfold dmaRxSeg
  split
  · split
    · simp only
      split
      · exact (((keeps_hwrite _ _).trans (keeps_hwrite32 _ _)).trans (keeps_setStatus (w := 0x40) (by decide))).trans
          (Keeps.aside rfl)
      · exact ((keeps_hwrite _ _).trans (keeps_hwrite32 _ _)).trans (Keeps.aside rfl)
    · exact Keeps.refl
  · exact Keeps.refl

theorem keeps_departDma (w : Word) (bs : List Byte) : Keeps c s (departDma w bs s) := by
  unfold departDma
  simp only
  split
  · exact ((keeps_setStatus (w := 1) (by decide)).trans (keeps_depart _)).trans (Keeps.aside rfl)
  · exact (keeps_depart _).trans (Keeps.aside rfl)

theorem keeps_dmaTxSeg : Keeps c s (dmaTxSeg s) := by
  unfold dmaTxSeg
  simp only
  split
  · split
    · exact ((keeps_departDma _ _).trans (keeps_hwrite32 _ _)).trans (Keeps.aside rfl)
    · exact (Keeps.trans (t := { s with dma.txInflight := _ }) (Keeps.aside rfl) (keeps_hwrite32 _ _)).trans
        (Keeps.aside rfl)
  · exact Keeps.refl

theorem keeps_dmaTxSuspend : Keeps c s (dmaTxSuspend s) := by
  unfold dmaTxSuspend; split
  · exact Keeps.aside rfl
  · exact Keeps.refl

theorem keeps_offerArrives (cs : Byte) : Keeps c s (offerArrives cs s) := by
  unfold offerArrives
  split
  · exact Keeps.refl
  · have h (x : List (List Byte × Byte)) : Keeps c s { s with env.offers := x } := Keeps.aside rfl
    simp only
    split
    · split
      · exact (h _).trans (keeps_frameArrive _ _ _)
      · exact Keeps.refl
    · split
      · exact Keeps.refl
      · exact (h _).trans (keeps_dmaRxBegin _)

theorem keeps_storeOutside (a : Nat) (bs : List Byte) : Keeps .H s (storeOutside a bs s) := by
  unfold storeOutside
  split
  · exact ((keeps_drawBytes _).trans (keeps_hwrite _ _)).trans (keeps_modSc _)
  · exact keeps_hwrite _ _

theorem keeps_memStore (a : Word) (bs : List Byte) : Keeps .H s (memStore a bs s) := by
  unfold memStore; simp only
  split
  · exact (keeps_storeOutside _ _).trans (Keeps.aside rfl)
  · exact Keeps.refl

theorem keeps_releaseBuf (a : Word) : Keeps c s (releaseBuf a s) := by
  unfold releaseBuf; split
  · exact keeps_freeAlloc _
  · exact Keeps.refl

/-! ## Call -/

/-- HCTX or the host writes the host interface registers; a result code stays one. -/
theorem keeps_hif {h : Hif} (hr : h.result = s.hif.result) : Keeps .H s { s with hif := h } :=
  ⟨rfl, id, id, id, id, id, id, id, fun x => by rw [hr]; exact x, fun e => nomatch e⟩

theorem keeps_issued (i : Instr) : Keeps .H s (issued i s) :=
  Keeps.trans (t := { s with hif.done := false }) (keeps_hif rfl) (keeps_latch _ _ _)

theorem ensures_issue (m : Op) (i : Instr) : Ensures (issue m i s) (Keeps .H s) := by
  unfold issue
  repeat' split
  · exact ensures_next Keeps.refl
  · exact ensures_refused
  · exact ensures_next (keeps_completeHost (resultCode_err _ _))
  · exact ensures_refused
  · exact ensures_refused
  · intro t ht; exact (keeps_issued i).trans (ensures_opEntry m t ht)

theorem ensures_issueWord (w : Word) : Ensures (issueWord w s) (Keeps .H s) := by
  unfold issueWord
  repeat' split
  · exact ensures_issue _ _
  · exact ensures_next Keeps.refl
  · exact ensures_next Keeps.refl
  · exact ensures_refused
  · exact ensures_next (keeps_completeHost (resultCode_err _ _))

theorem ensures_hostWrite (off : Nat) (v : Word) : Ensures (hostWrite off v s) (Keeps .H s) := by
  unfold hostWrite
  split
  · exact ensures_issueWord v
  · repeat' split
    all_goals first
      | exact ensures_next (keeps_hif rfl)
      | exact ensures_next Keeps.refl
      | exact ensures_refused

theorem ensures_hostRead (off : Nat) : Ensures (hostRead off s) (Keeps .H s) := by
  unfold hostRead; split
  · exact ensures_next (keeps_hif rfl)
  · exact ensures_refused

/-- Whose step an agent's step counts as. -/
def AgentStep.actor : AgentStep → CtxId
  | .ctx c => c
  | .lockTimeout c => c
  | .hostWrite _ _ => .H
  | .hostRead _ => .H
  | .memStore _ _ => .H
  | _ => .W

/-- ONE STEP OF ONE AGENT. -/
theorem ensures_agentStep (a : AgentStep) (hh : HostPc s) (hw : WorkerConfined s) :
    Ensures (agentStep a s) (Keeps a.actor s) := by
  have hc (c : CtxId) : CtxOk c s := by
    cases c
    · exact hh
    · exact hw
  cases a
  case ctx c => exact ensures_ctxStep c (hc c)
  case lockTimeout c => exact ensures_lockTimeoutStep c (hc c)
  case irq => exact ensures_next keeps_irqHandler
  case hostWrite => exact ensures_hostWrite _ _
  case hostRead => exact ensures_hostRead _
  case memStore => exact ensures_next (keeps_memStore _ _)
  case release => exact ensures_next (keeps_releaseBuf _)
  case phyComplete => exact ensures_next keeps_phyComplete
  case frameArrive => exact ensures_next (keeps_frameArrive _ _ _)
  case offerArrives => exact ensures_next (keeps_offerArrives _)
  case glitch => exact ensures_next (keeps_glitch _)
  case txComplete => exact ensures_next (keeps_txComplete _)
  case setCauses => exact ensures_next (keeps_setCauses _)
  case resetComplete => exact ensures_next (keeps_resetComplete _)
  case pauseSent => exact ensures_next keeps_pauseSent
  case dmaRxBegin => exact ensures_next (keeps_dmaRxBegin _)
  case dmaRxSeg => exact ensures_next keeps_dmaRxSeg
  case dmaTxSeg => exact ensures_next keeps_dmaTxSeg
  case dmaTxSuspend => exact ensures_next keeps_dmaTxSuspend

end Sys2Proof.Machine
end

