-- ==== Sys2Proof/Laws/PerInstr.lean ====
section
/-! SUPPORT. Laws stated for each instruction. Family `TableRow`: a command word carries the opcode its operation has under the
parameters, which the table of 30_encoding.md R96 prints at its default, and is no frame; a frame is a command byte with at most one byte after it (R99 to R101) and has no
command word. -/

namespace Sys2Proof.Laws.TableRow

/-- How the instruction is written. -/
def Statement (i : Instr) : Prop :=
  match i.op with
  | some o => (∀ m, Field.op (encodeWord m i) = m.code o) ∧ encodeFrame i = [] ∧
      ∃ r ∈ opcodeTable, r.op = o ∧ (OpcodeMap.code {} o).toNat = r.code
  | none => ∃ c rest, encodeFrame i = c :: rest ∧ rest.length ≤ 1 ∧ ∀ m, encodeWord m i = 0

/-- The word built from an operation's opcode carries it, and the table prints the default one. -/
theorem of_code {o : Op} {w : OpcodeMap → Word} {operand : Nat} (hw : ∀ m, w m = packWord (OpcodeMap.code m o) operand)
    (ho : operand < 2 ^ 26) :
    (∀ m, Field.op (w m) = OpcodeMap.code m o) ∧ ([] : List Byte) = [] ∧
      ∃ r ∈ opcodeTable, r.op = o ∧ (OpcodeMap.code {} o).toNat = r.code := by
  refine ⟨fun m => by rw [hw, packWord_op ho], rfl, ?_⟩
  cases o <;> decide

theorem regRd (reg : BitVec 7) : Statement (.regRd reg) :=
  of_code (fun _ => rfl) (by omega)

theorem regWr (reg : BitVec 7) (data : BitVec 8) : Statement (.regWr reg data) :=
  of_code (fun _ => rfl) (by omega)

theorem memRd (len : BitVec 16) : Statement (.memRd len) :=
  of_code (fun _ => rfl) (by omega)

theorem memWr (len : BitVec 16) : Statement (.memWr len) :=
  of_code (fun _ => rfl) (by omega)

theorem phyWr (phy reg : BitVec 5) (value : BitVec 16) : Statement (.phyWr phy reg value) :=
  of_code (fun _ => rfl) (by omega)

theorem phyRd (phy reg : BitVec 5) (dv : Bool) : Statement (.phyRd phy reg dv) :=
  of_code (fun _ => rfl) (by cases dv <;> simp <;> omega)

theorem rxCount : Statement .rxCount :=
  of_code (fun _ => rfl) (by omega)

theorem rxAlloc (len : BitVec 16) : Statement (.rxAlloc len) :=
  of_code (fun _ => rfl) (by omega)

theorem rxFrame (len : BitVec 16) : Statement (.rxFrame len) :=
  of_code (fun _ => rfl) (by omega)

theorem rxFlush : Statement .rxFlush :=
  of_code (fun _ => rfl) (by omega)

theorem txFrame (len : BitVec 16) : Statement (.txFrame len) :=
  of_code (fun _ => rfl) (by omega)

theorem init : Statement .init :=
  of_code (fun _ => rfl) (by omega)

theorem deinit : Statement .deinit :=
  of_code (fun _ => rfl) (by omega)

theorem start : Statement .start :=
  of_code (fun _ => rfl) (by omega)

theorem stop : Statement .stop :=
  of_code (fun _ => rfl) (by omega)

theorem del : Statement .del :=
  of_code (fun _ => rfl) (by omega)

theorem setLink (flag : Bool) : Statement (.setLink flag) :=
  of_code (fun _ => rfl) (by cases flag <;> decide)

theorem setAddr : Statement .setAddr :=
  of_code (fun _ => rfl) (by omega)

theorem getAddr : Statement .getAddr :=
  of_code (fun _ => rfl) (by omega)

theorem setSpeed (flag : Bool) : Statement (.setSpeed flag) :=
  of_code (fun _ => rfl) (by cases flag <;> decide)

theorem setDuplex (flag : Bool) : Statement (.setDuplex flag) :=
  of_code (fun _ => rfl) (by cases flag <;> decide)

theorem setPromisc (flag : Bool) : Statement (.setPromisc flag) :=
  of_code (fun _ => rfl) (by cases flag <;> decide)

theorem setFlowCtrl (flag : Bool) : Statement (.setFlowCtrl flag) :=
  of_code (fun _ => rfl) (by cases flag <;> decide)

theorem setPeerPause (flag : Bool) : Statement (.setPeerPause flag) :=
  of_code (fun _ => rfl) (by cases flag <;> decide)

theorem busRegRd (reg : BitVec 7) : Statement (.busRegRd reg) := ⟨_, _, rfl, Nat.le_refl 1, fun _ => rfl⟩

theorem busRegWr (reg : BitVec 7) (data : BitVec 8) : Statement (.busRegWr reg data) := ⟨_, _, rfl, Nat.le_refl 1, fun _ => rfl⟩

theorem busBlkRd (reg : BitVec 7) : Statement (.busBlkRd reg) := ⟨_, _, rfl, Nat.zero_le 1, fun _ => rfl⟩

theorem busBlkWr (reg : BitVec 7) : Statement (.busBlkWr reg) := ⟨_, _, rfl, Nat.zero_le 1, fun _ => rfl⟩

end Sys2Proof.Laws.TableRow
end

