-- ==== Sys2Proof/Tests/Slice0.lean ====
section
/-! SUPPORT. Tests of single steps and witnesses of the statements' hypotheses. The expected results are those of the worked
examples and vectors of 95_test_vectors.md (named after the test) or worked out by hand from the rule named. -/

namespace Sys2Proof.Tests

open Sys2Proof.Machine

/- One declaration after the other: each `decide` below waits for the kernel, and many waiting at once start too many
threads. -/
set_option Elab.async false

/-! ## Helpers -/

/-- The outcome is a next state that has the property. -/
def nextIs (o : Out) (p : State → Bool) : Bool :=
  match o with
  | .next t => p t
  | _ => false

/-- The outcome is this refusal. -/
def refuses (o : Out) (r : Refusal) : Bool :=
  match o with
  | .refused x => x == r
  | _ => false

/-- The host's registers after a completed operation. -/
def reports (code a b : Word) (t : State) : Bool :=
  t.hif.result == code && t.hif.rdata0 == a && t.hif.rdata1 == b && t.hif.done && !hbusy t

/-- A BUS machine in a lifecycle state, pointer auto-return on. -/
def bus (l : Life) : State := { State.reset with inst.life := l, dev.intMask := 0x81, hif.arg0 := 0x20001000 }

/-- The same with bytes in receive memory at the cursor; bytes not listed are 0. -/
def rx (cells : Cells 8) : State := { bus .started with dev.rxMem := cells }

/-- A good frame of 64 bytes with CRC at the cursor, none after it. -/
def good : State := rx [(0x0C00, 1), (0x0C02, 64)]

/-- An erroneous one (status 0x01). -/
def bad : State := rx [(0x0C00, 1), (0x0C01, 1), (0x0C02, 64)]

/-- The cursor on a byte that is neither 0 nor 1. -/
def corrupt : State := rx [(0x0C00, 0x5A)]

/-- ALLOC's next answer. -/
def answering (a : Option Word) (s : State) : State := { s with env.allocAnswers := [a] }

def dmaConfig : Config := { variant := .dma, rxDescN := 3, txDescN := 3, dmaBufSize := 16, maxFrame := 48, minFrame := 8 }

/-- A small DMA machine: rings at 0x1000 and 0x2000, buffers from 0x3000 and 0x4000 on. -/
def dma (l : Life) : State :=
  { State.blank dmaConfig with
    inst.life := l
    hif.arg0 := 0x20001000
    bufs := { rxRingBase := 0x1000, txRingBase := 0x2000, rxb := [0x3000, 0x3010, 0x3020], txb := [0x4000, 0x4010, 0x4020] } }

/-- The first words of its receive descriptors. -/
def ring (w0 w1 w2 : Word) : State := hwrite32 0x1020 w2 (hwrite32 0x1010 w1 (hwrite32 0x1000 w0 (dma .started)))

theorem noAgent_of_nil {s : State} (h : s.agenda = []) : NoAgent s := by intro a rest; rw [h]; simp

theorem ready_of {m : Op} {s : State} (h1 : s.hctx.pc = .idle) (h2 : s.lock = none) (h3 : s.agenda = [])
    (h4 : admitted m s.inst.life = true) : Ready m s := ⟨⟨h1, h2, noAgent_of_nil h3⟩, h4⟩

theorem ready_bus {m : Op} {l : Life} (h : admitted m l = true) : Ready m (bus l) := ready_of rfl rfl rfl h
theorem ready_rx {m : Op} (c : Cells 8) (h : admitted m .started = true) : Ready m (rx c) := ready_of rfl rfl rfl h
theorem ready_dma {m : Op} {l : Life} (h : admitted m l = true) : Ready m (dma l) := ready_of rfl rfl rfl h

/-- The buffers of the two machines lie in HMEM. -/
theorem buffers_bus (l : Life) : BuffersInHmem (bus l) := by
  refine ⟨(by decide : 0x10000000 + (1522 + 4 + 4) ≤ 2 ^ 32), (by decide : 0x10001000 + 1522 ≤ 2 ^ 32), fun i => ?_, fun i => ?_⟩ <;>
    (show (([] : List Word).getD i 0).toNat + 512 ≤ 2 ^ 32; simp)

theorem buffers_dma (l : Life) : BuffersInHmem (dma l) := by
  refine ⟨(by decide : 0 + (52 + 4 + 4) ≤ 2 ^ 32), (by decide : 0 + 52 ≤ 2 ^ 32), fun i => ?_, fun i => ?_⟩
  · show (([0x3000, 0x3010, 0x3020] : List Word).getD i 0).toNat + 16 ≤ 2 ^ 32
    rcases i with _ | _ | _ | i <;> simp
  · show (([0x4000, 0x4010, 0x4020] : List Word).getD i 0).toNat + 16 ≤ 2 ^ 32
    rcases i with _ | _ | _ | i <;> simp

theorem distinctCodes_default : DistinctCodes {} := by
  intro o p h
  cases o <;> cases p <;> first | rfl | (revert h; decide)

/-! ## Well-formedness -/

/-- B1.10; U7: a PHY index that does not fit two bits. -/
theorem test_wf_refuses_phy_4 : (Instr.phyWr 4 0 0).wellFormed {} = false ∧ (Instr.phyRd 4 0 true).wellFormed {} = false := by decide

theorem test_wf_takes_phy_3 : (Instr.phyWr 3 31 0xFFFF).wellFormed {} = true ∧ (Instr.phyRd 3 31 true).wellFormed {} = true := by
  decide

/-- 30_encoding.md R101: the ports of block frames. -/
theorem test_wf_refuses_block_ports : (Instr.busBlkRd 0x78).wellFormed {} = false ∧ (Instr.busBlkWr 0x72).wellFormed {} = false := by
  decide

theorem test_wf_takes_block_ports : (Instr.busBlkRd 0x71).wellFormed {} = true ∧ (Instr.busBlkRd 0x72).wellFormed {} = true ∧
    (Instr.busBlkWr 0x78).wellFormed {} = true := by decide

/-- 30_encoding.md R96, column 'var'. -/
theorem test_wf_variants : (Instr.memRd 4).existsIn .dma = false ∧ (Instr.rxCount).existsIn .dma = false ∧
    (Instr.busRegRd 0).existsIn .dma = false ∧ (Instr.rxFlush).existsIn .dma = true := by decide

/-! ## Decoding (B1), by words written out from the encodings -/

/-- Format R: op 000001, 000, reg 0101000, 0. -/
theorem test_decode_regRd : decodeWord {} 0b000001_000_0101000_0000000000000000 = .ok (.regRd 0x28) := rfl
/-- Format R: op 000010, 000, reg 1111111, 0, data 10000001. -/
theorem test_decode_regWr : decodeWord {} 0b000010_000_1111111_00000000_10000001 = .ok (.regWr 0x7F 0x81) := rfl
theorem test_decode_memRd : decodeWord {} 0b000011_0000000000_0000000000000100 = .ok (.memRd 4) := rfl
theorem test_decode_memWr : decodeWord {} 0b000100_0000000000_0000000000111100 = .ok (.memWr 60) := rfl
/-- Format P: op 001000, phy 00001, reg 00000, value. -/
theorem test_decode_phyWr : decodeWord {} 0b001000_00001_00000_0001001000000000 = .ok (.phyWr 1 0 0x1200) := rfl
theorem test_decode_phyRd : decodeWord {} 0b001001_00001_00010_000000000000000_1 = .ok (.phyRd 1 2 true) ∧
    decodeWord {} 0x24220000 = .ok (.phyRd 1 2 false) := ⟨rfl, rfl⟩
theorem test_decode_receive : decodeWord {} 0x30000000 = .ok .rxCount ∧ decodeWord {} 0x340005EE = .ok (.rxAlloc 1518) ∧
    decodeWord {} 0x38000000 = .ok (.rxFrame 0) ∧ decodeWord {} 0x3C000000 = .ok .rxFlush := ⟨rfl, rfl, rfl, rfl⟩
theorem test_decode_txFrame : decodeWord {} 0x4000003C = .ok (.txFrame 60) ∧ decodeWord {} 0x400005EF = .ok (.txFrame 1519) :=
  ⟨rfl, rfl⟩
theorem test_decode_lifecycle : decodeWord {} 0x50000000 = .ok .init ∧ decodeWord {} 0x54000000 = .ok .deinit ∧
    decodeWord {} 0x58000000 = .ok .start ∧ decodeWord {} 0x5C000000 = .ok .stop ∧ decodeWord {} 0x60000000 = .ok .del ∧
    decodeWord {} 0x64000001 = .ok (.setLink true) ∧ decodeWord {} 0x64000000 = .ok (.setLink false) :=
  ⟨rfl, rfl, rfl, rfl, rfl, rfl, rfl⟩
theorem test_decode_settings : decodeWord {} 0x68000000 = .ok .setAddr ∧ decodeWord {} 0x6C000000 = .ok .getAddr ∧
    decodeWord {} 0x70000001 = .ok (.setSpeed true) ∧ decodeWord {} 0x74000001 = .ok (.setDuplex true) ∧
    decodeWord {} 0x78000001 = .ok (.setPromisc true) ∧ decodeWord {} 0x7C000001 = .ok (.setFlowCtrl true) ∧
    decodeWord {} 0x80000001 = .ok (.setPeerPause true) := ⟨rfl, rfl, rfl, rfl, rfl, rfl, rfl⟩
/-- B1.2, B1.4, B1.7, B1.13, B1.16, B1.25: must-be-0 bits. -/
theorem test_decode_reserved_bits : decodeWord {} 0x04280001 = .error .reservedBits ∧ decodeWord {} 0x08800000 = .error .reservedBits ∧
    decodeWord {} 0x0C010004 = .error .reservedBits ∧ decodeWord {} 0x24220002 = .error .reservedBits ∧
    decodeWord {} 0x30000001 = .error .reservedBits ∧ decodeWord {} 0x64000002 = .error .reservedBits :=
  ⟨rfl, rfl, rfl, rfl, rfl, rfl⟩
/-- B1.28 to B1.30: reserved opcodes. -/
theorem test_decode_reserved_ops : decodeWord {} 0x00000000 = .error (.unknownOpcode 0x00) ∧
    decodeWord {} 0x14000000 = .error (.unknownOpcode 0x05) ∧ decodeWord {} 0xFC000000 = .error (.unknownOpcode 0x3F) ∧
    decodeWord {} 0x84000000 = .error (.unknownOpcode 0x21) := ⟨rfl, rfl, rfl, rfl⟩
/-- B1, bus frames: `0B` and a byte in, `8C 40`, `71`, `F8`. -/
theorem test_decode_frames : decodeFrame [0x0B, 0x00] = .ok (.busRegRd 0x0B) ∧ decodeFrame [0x8C, 0x40] = .ok (.busRegWr 0x0C 0x40) ∧
    decodeFrame [0x71] = .ok (.busBlkRd 0x71) ∧ decodeFrame [0xF8] = .ok (.busBlkWr 0x78) := ⟨rfl, rfl, rfl, rfl⟩
/-- The rows of opcode_table.json: 1rrrrrrr dddddddd with r = 0x0C, d = 0x40. -/
theorem test_decode_table_frame : decodeTableWord 16 0b10001100_01000000 = some (.busRegWr 0x0C 0x40) ∧
    decodeTableWord 8 0b11111000 = some (.busBlkWr 0x78) ∧ decodeTableWord 32 0x04280000 = some (.regRd 0x28) := ⟨rfl, rfl, rfl⟩

/-! ## Reset and construction -/

/-- B8.1. -/
theorem test_reset_hstat : hstat State.reset = 0 ∧ State.reset.inst.addr = ⟨0, 0, 0, 0, 0, 0⟩ := by decide
/-- B8.2: a null answer frees what was made, the latest first. -/
theorem test_construct_rolls_back : (match construct { variant := .dma } [some 0x1000, some 0x2000, some 0x3000, none] with
    | .error (.noMemory l) => l == [0x3000, 0x2000, 0x1000]
    | _ => false) = true := by decide +kernel
/-- 43_dma_ring.md R193: two rings, ten receive and ten transmit buffers, in that order. -/
theorem test_construct_dma : (match construct { variant := .dma } ((List.range 22).map fun i => some (BitVec.ofNat 32 (0x1000 * (i + 1)))) with
    | .ok s => s.bufs.rxRingBase == 0x1000 && s.bufs.txRingBase == 0x2000 && s.bufs.rxb.head? == some 0x3000 &&
        s.bufs.rxb.length == 10 && s.bufs.txb.head? == some 0xD000 && s.bufs.txb.length == 10 && s.allocs.length == 22
    | _ => false) = true := by decide +kernel
theorem test_construct_checks_config : (match construct { fcLowWm := 7 } [] with
    | .error .badConfig => true
    | _ => false) = true := by decide

/-! ## Register and bus access (B2) -/

/-- B1.1. -/
theorem test_regRd_vid : nextIs (exec (.regRd 0x28) (bus .initialized)) (reports 0 0x46 0) = true := by decide +kernel
/-- B2.2: the transaction. -/
theorem test_regRd_traces : nextIs (exec (.regRd 0x2B) (bus .initialized)) (fun t => t.trace == [.regRd 0x2B 0x90, .result 0 0x90 0]) =
    true := by decide +kernel
/-- B2.3: a read-only register. -/
theorem test_regWr_read_only : nextIs (exec (.regWr 0x28 0xFF) (bus .initialized)) (fun t => reports 0 0 0 t &&
    t.trace.head? == some (.regWr 0x28 0xFF) && t.cfg == State.reset.cfg) = true := by decide +kernel
/-- 10_state.md R33: write-1-to-clear. -/
theorem test_regWr_intStat : nextIs (exec (.regWr 0x7E 0x05) { bus .initialized with dev.intStat := 0x3F }) (fun t =>
    t.dev.intStat == 0x3A) = true := by decide +kernel
/-- B2.7. -/
theorem test_memRd_stores : nextIs (exec (.memRd 4) { good with hif.arg0 := 0x20000000 }) (fun t => reports 0 0 0 t &&
    hread t 0x20000000 4 == [0x01, 0x00, 0x40, 0x00] && t.dev.rxRp == 0x0C04) = true := by decide +kernel
/-- B2.5, B2.6: the length is tested before the null test. -/
theorem test_memRd_zero : nextIs (exec (.memRd 0) { good with hif.arg0 := 0 }) (fun t => reports 0 0 0 t && t.dev == good.dev) = true ∧
    nextIs (exec (.memRd 4) { good with hif.arg0 := 0 }) (fun t => reports 0x102 0 0 t && t.dev == good.dev) = true := by
  decide +kernel
/-- B2.8 with three bytes. -/
theorem test_memWr_stages : nextIs (exec (.memWr 3) { bus .started with hmem := [(0x20001000, 7), (0x20001002, 9)] }) (fun t =>
    reports 0 0 0 t && t.dev.txStage == [7, 0, 9] && t.hmem == [(0x20001000, 7), (0x20001002, 9)]) = true := by decide +kernel
/-- U11: a source past the end of HMEM. -/
theorem test_memWr_past_end : refuses (exec (.memWr 2) { bus .started with hif.arg0 := 0xFFFFFFFF }) .outsideRegion = true := by
  decide +kernel
/-- B2.4, second case: the lock is the worker's and the wait runs out. -/
theorem test_regRd_lock_timeout : nextIs (exec (.regRd 0x05) { bus .started with
      lock := some .W, agenda := [.agent (.lockTimeout .H)], dev.rxCtrl := 0x77 }) (fun t =>
    reports 0x107 0 0 t && t.trace == [.result 0x107 0 0] && t.lock == some .W) = true := by decide +kernel
/-- 30_encoding.md R100. -/
theorem test_busRegRd : nextIs (exec (.busRegRd 0x29) (bus .initialized)) (fun t => t.bus.inp == [0x0A]) = true := by
  decide +kernel
theorem test_busRegWr : nextIs (exec (.busRegWr 0x0C 0x40) (bus .initialized)) (fun t => t.dev.phyAddr == 0x40) = true := by
  decide +kernel
/-- 30_encoding.md R101. -/
theorem test_busBlkRd : nextIs (exec (.busBlkRd 0x71) { good with bus.want := 4 }) (fun t =>
    t.bus.inp == [0x01, 0x00, 0x40, 0x00] && t.dev == good.dev) = true := by decide +kernel
theorem test_busBlkWr : nextIs (exec (.busBlkWr 0x78) { bus .started with bus.out := [1, 2, 3] }) (fun t =>
    t.dev.txStage == [1, 2, 3]) = true := by decide +kernel
/-- 95_test_vectors.md, the block frame of C2 in small: the bytes of the frame are its data phase. -/
theorem test_block_frame : nextIs (step { bus .started with agenda := [.frame [0xF8, 1, 2, 3]] }) (fun t =>
    t.dev.txStage == [1, 2, 3] && t.trace == [.blkWr 0x78 [1, 2, 3]]) = true := by decide +kernel
/-- 20_memory.md R65: no block frame carries more than 65535 bytes. -/
theorem test_block_length : refuses (exec (.busBlkRd 0x71) { good with bus.want := 65536 }) .blockFrameForm = true := by
  decide +kernel
/-- 40_bus_access.md R132: no bus under DMA. -/
theorem test_frame_under_dma : refuses (exec (.busRegRd 0) (dma .started)) .noBusUnderDma = true := by decide +kernel
/-- B1.6, B1.15: what DMA lacks is illegal there. -/
theorem test_dma_lacks : nextIs (exec (.memRd 4) (dma .started)) (reports 0x102 0 0) = true ∧
    nextIs (exec .rxCount (dma .started)) (reports 0x102 0 0) = true := by decide +kernel

/-! ## PHY access (B3) -/

/-- B3.1. -/
theorem test_phyWr_completes : nextIs (exec (.phyWr 1 0 0x1200) { bus .initialized with
      agenda := schedule 10 .phyComplete }) (fun t => reports 0 0 0 t &&
    t.trace == [.regRd 0x0B 0x00, .regWr 0x0C 0x40, .regWr 0x0D 0x00, .regWr 0x0E 0x12, .regWr 0x0B 0x0A, .regRd 0x0B 0x08,
      .result 0 0 0] && t.phyReg == [(32, 0x1200)]) = true := by decide +kernel
/-- B3.4: 15 transactions, then Timeout with the write still in flight. -/
theorem test_phyWr_times_out : nextIs (exec (.phyWr 1 0 0x1200) (bus .initialized)) (fun t => reports 0x107 0 0 t &&
    t.trace.length == 16 && t.dev.phyOp == some ⟨true, 1, 0, 0x1200⟩ && t.phyReg == []) = true := by decide +kernel
/-- B3.7. -/
theorem test_phyRd_reads : nextIs (exec (.phyRd 1 2 true) { bus .initialized with
      phyReg := [(34, 0x0181)], dev.phySel := true, agenda := schedule 6 .phyComplete }) (fun t => reports 0 0x0181 0 t &&
    t.trace == [.regRd 0x0B 0x08, .regWr 0x0C 0x42, .regWr 0x0B 0x0C, .regRd 0x0B 0x08, .regRd 0x0D 0x81, .regRd 0x0E 0x01,
      .result 0 0x0181 0]) = true := by decide +kernel
/-- B3.6: `DV` = 0 is tested before the busy flag. -/
theorem test_phyRd_no_destination : nextIs (exec (.phyRd 1 0 false) { bus .initialized with
      dev.phyOp := some ⟨true, 1, 0, 0⟩ }) (fun t => reports 0x102 0 0 t && t.trace == [.result 0x102 0 0]) = true := by
  decide +kernel

/-! ## Receiving under BUS (B4) -/

/-- B4.1 to B4.9. -/
theorem test_derive : derive {} 64 1518 = some (60, 60) ∧ derive {} 63 1518 = none ∧ derive {} 3 1518 = none ∧
    derive {} 64 59 = none ∧ derive {} 64 60 = some (60, 60) ∧ derive {} 200 100 = some (196, 100) ∧
    derive {} 1522 1518 = some (1518, 1518) ∧ derive {} 1526 1518 = some (1522, 1518) ∧ derive {} 1527 1518 = none := by decide
/-- B4.12, B4.13. -/
theorem test_rxCount_counts : nextIs (exec .rxCount good) (fun t => reports 0 64 0 t && t.dev.rxRp == 0x0C00) = true ∧
    nextIs (exec .rxCount (rx [(0x0C00, 1), (0x0C01, 0x40), (0x0C02, 64)])) (reports 0 64 0) = true := by decide +kernel
/-- B4.14. -/
theorem test_rxCount_skips : nextIs (exec .rxCount bad) (fun t => reports 0xFFFFFFFF 0 0 t && t.dev.rxRp == 0x0C44 &&
    t.flags.framesRemain == 0 && (t.trace.drop 3).take 4 ==
      [.regRd 0x75 0x0C, .regRd 0x74 0x00, .regWr 0x75 0x0C, .regWr 0x74 0x44]) = true := by decide +kernel
/-- B4.15. -/
theorem test_rxAlloc_no_memory : nextIs (exec (.rxAlloc 1518) (answering none good)) (fun t => reports 0x101 0 60 t &&
    t.dev.rxRp == 0x0C00) = true := by decide +kernel
/-- C5, step 5. -/
theorem test_rxAlloc_header : nextIs (exec (.rxAlloc 1518) (answering (some 0x20003000) good)) (fun t => reports 0 0x20003000 60 t &&
    hread t 0x20003000 8 == [60, 0, 0, 0, 64, 0, 0, 0] && t.bufs.hdrValid == [0x20003000]) = true := by decide +kernel
/-- 20_memory.md R76: between A0 and A2 the buffer is the block's, so HOST stores nothing there; then it is the host's. -/
theorem test_rxAlloc_owner : nextIs (exec (.rxAlloc 1518) { answering (some 0x20003000) good with
      agenda := List.replicate 7 (.agent (.ctx .H)) ++ [.agent (.memStore 0x20003064 [7]), .agent (.release 0x20003000)] }) (fun t =>
    reports 0 0x20003000 60 t && t.agenda.isEmpty && hbyte t 0x20003064 == 0 &&
    t.allocs.getLast? == some ⟨0x20003000, 1522, .host⟩) = true := by decide +kernel
/-- B4.19, with two data bytes that are not 0. -/
theorem test_rxFrame_explicit : nextIs (exec (.rxFrame 1518) (rx [(0x0C00, 1), (0x0C02, 64), (0x0C04, 0xAA), (0x0C3F, 0xBB)])) (fun t =>
    reports 0 60 60 t && t.dev.rxRp == 0x0C44 && hbyte t 0x20001000 == 0xAA && hbyte t 0x2000103B == 0xBB &&
    t.flags.framesRemain == 0) = true := by decide +kernel
/-- 42_rx_bus.md R169, K1, in the wrapping arithmetic of 00_scope.md R12: 0 + 0 + 4 - 0x0C00 is 0xFFFFF404, which is 0x1C04
modulo 0x3400; and a cursor that does not wrap. -/
theorem test_skipCursor : skipCursor {} 0 0 = 0x2804 ∧ skipCursor {} 0x0C00 64 = 0x0C44 ∧ skipCursor {} 0x3FFE 64 = 0x0C42 := by
  decide
/-- 10_state.md R29, 00_scope.md R14: issue names the first label; the check before it, and an operation without one, take a step. -/
theorem test_issue_names_label : nextIs (issue .phyRd (.phyRd 1 0 false) (bus .initialized)) (fun t => t.hctx.pc == .op .phyRd .s0 &&
      nextIs (ctxStep .H t) (reports 0x102 0 0)) = true ∧
    nextIs (issue .getAddr .getAddr (bus .initialized)) (fun t => t.hctx.pc == .op .getAddr .s0 && nextIs (ctxStep .H t) (reports 0 0 0)) =
      true := by decide +kernel
/-- U14: the automatic form without a valid header. -/
theorem test_rxFrame_no_header : refuses (exec (.rxFrame 0) good) .headerNotValid = true := by decide +kernel
/-- B4.16. -/
theorem test_rxFlush_skips : nextIs (exec .rxFlush good) (fun t => reports 0 0 0 t && t.dev.rxRp == 0x0C44) = true := by
  decide +kernel
/-- B4.20, C6: the recovery. -/
theorem test_rxFlush_recovers : nextIs (exec .rxFlush corrupt) (fun t => reports 0xFFFFFFFF 0 0 t && t.dev.rxRp == 0x0C00 &&
    t.dev.intMask == 0x81 && t.dev.rxMem == [] && t.log == [⟨.H, .rxPointerReset⟩] && t.inst.life == .started) = true := by
  decide +kernel

/-! ## The rings under DMA (B5) -/

/-- B5.7 in small: a frame of 20 bytes with CRC over two descriptors. -/
theorem test_rxFrame_dma : nextIs (exec (.rxFrame 48) { ring 0x00000200 0x00140100 0x80000000 with flags.freeRx := 1 }) (fun t =>
    reports 0 16 16 t && hread32 t 0x1000 == 0x80000000 && hread32 t 0x1010 == 0x80000000 && t.bufs.rxIdx == 2 &&
    t.flags.freeRx == 3 && t.trace.head? == some (.mWrite .rxPoll 1)) = true := by decide +kernel
/-- B5.12 and B5.13. -/
theorem test_rxFlush_dma : nextIs (exec .rxFlush (ring 0x00080300 0x80000000 0x80000000)) (fun t => reports 0 0 0 t &&
      t.bufs.rxIdx == 1 && hread32 t 0x1000 == 0x80000000) = true ∧
    nextIs (exec .rxFlush (ring 0x80000000 0x80000000 0x80000000)) (fun t => reports 0 0 0 t && t.bufs.rxIdx == 0 &&
      t.trace == [.result 0 0 0]) = true := by decide +kernel
/-- 70_reset_and_hazards.md R340; 10_state.md R42: the hidden state. -/
theorem test_reset_dma_hidden : (resetDma { dma .started with dev.rxDropped := 3, dma.rxCur := 0x1010 }).dev.rxDropped = 0 ∧
    (resetDma { dma .started with dev.rxDropped := 3, dma.rxCur := 0x1010 }).dma.rxCur = 0 := ⟨rfl, rfl⟩
/-- B5.2 in small. -/
theorem test_dma_receives : nextIs (andThen (agentStep (.dmaRxBegin [1, 2, 3, 4, 5]) (hwrite32 0x1008 0x3000 (hwrite32 0x1004 0x4010 { ring
      0x80000000 0x80000000 0x80000000 with dma.rxState := .running, dma.rxCur := 0x1000, mreg.macConfig := 4 })))
      (agentStep .dmaRxSeg)) (fun t => hread32 t 0x1000 == 0x00050300 && hread t 0x3000 5 == [1, 2, 3, 4, 5] &&
    t.mreg.status == 0x40 && t.dma.rxInflight == none) = true := by decide +kernel

/-! ## MAC capability interface (B7) -/

/-- B7.1 from the identity check on (the byte of the reset poll before it is free but for bit 0). -/
theorem test_init_bus : nextIs (callLoop 60 { State.reset with
      dev.par := ⟨1, 2, 3, 4, 5, 6⟩, hctx.pc := .op .init .y0 }) (fun t => reports 0 0 0 t && t.inst.life == .initialized &&
    t.inst.addr == ⟨1, 2, 3, 4, 5, 6⟩ && t.trace.take 5 == [.regRd 0x28 0x46, .regRd 0x29 0x0A, .regRd 0x2A 0x51,
      .regRd 0x2B 0x90, .regRd 0x10 1]) = true := by decide +kernel
/-- B7.3: `PID_H` reads 0. -/
theorem test_init_identity : nextIs (callLoop 60 { State.reset with
      cfg.ctrlPid := 0x0051, flags.irqEn := true, hctx.pc := .op .init .y0 }) (fun t => reports 0x10A 0 0 t &&
    t.inst.life == .uninitialized && t.flags.irqEn == false && t.trace == [.regRd 0x28 0x46, .regRd 0x29 0x0A,
      .regRd 0x2A 0x51, .regRd 0x2B 0x00, .notify .deinit, .result 0x10A 0 0]) = true := by decide +kernel
/-- 45_mac_interface.md R253, DMA, with one default programmed. -/
theorem test_init_dma : nextIs (exec .init { dma .uninitialized with
      cfg.initSeqDma := [(.macAddrLo, 0x44332211)], agenda := schedule 3 (.resetComplete []) }) (fun t => reports 0 0 0 t &&
    t.inst.addr == ⟨0x11, 0x22, 0x33, 0x44, 0, 0⟩ && t.inst.life == .initialized && hread32 t 0x1010 == 0x80000000 &&
    t.trace.take 4 == [.notify .lowLevelInit, .mWrite .busMode 1, .mRead .busMode 0, .mWrite .macAddrLo 0x44332211]) = true := by
  decide +kernel
/-- B7.4. -/
theorem test_start_bus : nextIs (exec .start { bus .stopped with dev.rxCtrl := 0x02 }) (fun t => reports 0 0 0 t &&
    t.inst.life == .started && t.flags.irqEn && t.trace == [.regWr 0x55 0x03, .regWr 0x7E 0x3F, .regWr 0x7F 0x81,
      .regRd 0x05 0x02, .regWr 0x05 0x03, .result 0 0 0]) = true := by decide +kernel
/-- 45_mac_interface.md R257, DMA. -/
theorem test_start_dma : nextIs (exec .start (dma .stopped)) (fun t => reports 0 0 0 t && t.mreg.macConfig == 0x0C &&
    t.mreg.opMode == 0x2002 && t.mreg.intEn == 0xC0 && t.dma.rxState == .running && t.dma.rxCur == 0x1000 &&
    t.flags.freeRx == 3 && hread32 t 0x102C == 0x1000) = true := by decide +kernel
/-- B7.5. -/
theorem test_stop_bus : nextIs (exec .stop { bus .started with dev.rxCtrl := 0x03, flags.irqPend := true }) (fun t => reports 0 0 0 t &&
    t.inst.life == .stopped && !t.flags.irqEn && !t.flags.irqPend && t.trace == [.regWr 0x7F 0x80, .regRd 0x05 0x03,
      .regWr 0x05 0x02, .regWr 0x55 0x03, .result 0 0 0]) = true := by decide +kernel
/-- B7.23: a lock timeout at H1 does not keep `DEINIT` from its end. -/
theorem test_deinit_lock_timeout : nextIs (exec .deinit { bus .stopped with
      agenda := [.agent (.ctx .H), .agent (.ctx .H), .agent (.lockTimeout .H)] }) (fun t => reports 0 0 0 t) = true ∧
    nextIs (exec .deinit { bus .stopped with lock := some .W, agenda := [.agent (.lockTimeout .H)] }) (fun t => reports 0x107 0 0 t &&
      t.inst.life == .deinitialized && t.trace == [.notify .deinit, .result 0x107 0 0]) = true := by decide +kernel
/-- B7.24. -/
theorem test_del : nextIs (exec .del (bus .stopped)) (fun t => reports 0 0 0 t && t.inst.life == .destroyed && t.allocs == [] &&
    t.wctx.pc == .ended && nextIs (hostWrite 0 0x28000000 t) (· == t)) = true := by decide +kernel
/-- B7.20, B7.21. -/
theorem test_setLink_up : nextIs (exec (.setLink true) { bus .initialized with dev.rxCtrl := 0x02 }) (fun t => reports 0 0 0 t &&
      t.inst.life == .started && t.flags.link && t.trace.length == 6) = true ∧
    nextIs (exec (.setLink true) (bus .started)) (fun t => t.flags.link && t.trace == [.result 0 0 0]) = true := by decide +kernel
/-- B7.22. -/
theorem test_setLink_down : nextIs (exec (.setLink false) { bus .started with flags.link := true }) (fun t => reports 0 0 0 t &&
      t.inst.life == .stopped && !t.flags.link && t.trace.length == 5) = true ∧
    nextIs (exec (.setLink false) (bus .stopped)) (fun t => t.trace == [.result 0 0 0]) = true := by decide +kernel
/-- B7.12. -/
theorem test_setAddr_bus : nextIs (exec .setAddr { bus .initialized with hif.arg0 := 0x33221100, hif.arg1 := 0x5544 }) (fun t =>
    t.dev.par == ⟨0x00, 0x11, 0x22, 0x33, 0x44, 0x55⟩ && t.inst.addr == t.dev.par) = true := by decide +kernel
/-- B7.13. -/
theorem test_setAddr_reserved : nextIs (exec .setAddr { bus .initialized with hif.arg1 := 0x00015544 }) (reports 0x102 0 0) = true := by
  decide +kernel
/-- B7.12, second half. -/
theorem test_getAddr : nextIs (exec .getAddr { bus .initialized with inst.addr := ⟨0x00, 0x11, 0x22, 0x33, 0x44, 0x55⟩ })
    (reports 0 0x33221100 0x5544) = true := by decide +kernel
/-- B7.15. -/
theorem test_setSpeed : nextIs (exec (.setSpeed true) { dma .stopped with mreg.macConfig := 0x0C }) (fun t =>
    reports 0 0 0 t && t.mreg.macConfig == 0x400C && t.inst.cfgSpeed) = true := by decide +kernel
theorem test_setDuplex : nextIs (exec (.setDuplex true) { dma .stopped with mreg.macConfig := 0x400C }) (fun t =>
    reports 0 0 0 t && t.mreg.macConfig == 0x480C && t.inst.cfgDuplex) = true := by decide +kernel
/-- B7.16. -/
theorem test_setPromisc : nextIs (exec (.setPromisc true) { bus .stopped with dev.rxCtrl := 0x01 }) (fun t =>
    t.trace == [.regRd 0x05 0x01, .regWr 0x05 0x03, .result 0 0 0] && t.inst.cfgPromisc) = true := by decide +kernel
/-- 45_mac_interface.md R265: `DO_FC` is not recomputed. -/
theorem test_setFlowCtrl : nextIs (exec (.setFlowCtrl false) { bus .stopped with inst.cfgFc := true, flags.doFc := true }) (fun t =>
    reports 0 0 0 t && !t.inst.cfgFc && t.flags.doFc) = true := by decide +kernel
/-- B7.17, B7.18. -/
theorem test_setPeerPause_bus : nextIs (exec (.setPeerPause true) (bus .stopped)) (fun t => t.inst.peerPause && !t.flags.doFc &&
      t.dev.fcCtrl == 0) = true ∧
    nextIs (exec (.setPeerPause true) { bus .stopped with inst.cfgFc := true }) (fun t => t.flags.doFc && t.dev.fcCtrl == 1) = true := by
  decide +kernel
/-- B7.19, DMA. -/
theorem test_setPeerPause_dma : nextIs (exec (.setPeerPause false) { dma .stopped with
      inst.cfgFc := true, flags.doFc := true, mreg.macFlowCtrl := 0x06 }) (fun t => !t.flags.doFc && t.mreg.macFlowCtrl == 0) =
    true := by decide +kernel
/-- 45_mac_interface.md R271 with three bytes. -/
theorem test_txFrame_bus : nextIs (exec (.txFrame 3) { bus .started with hmem := [(0x20001000, 7), (0x20001002, 9)] }) (fun t =>
    reports 0 0 0 t && t.dev.txLatched == some [7, 0, 9] && t.trace == [.regRd 0x02 0, .regWr 0x7C 3, .regWr 0x7D 0,
      .blkWr 0x78 [7, 0, 9], .regRd 0x02 0, .regWr 0x02 1, .result 0 0 0]) = true := by decide +kernel
/-- B7.8 in small: two descriptors across the end of the ring, 20 bytes. -/
theorem test_txFrame_dma : nextIs (exec (.txFrame 20) { dma .started with bufs.txIdx := 2 }) (fun t => reports 0 0 0 t &&
    hread32 t 0x2020 == 0x90100000 && hread32 t 0x2000 == 0xE0100000 && hread32 t 0x2024 == 16 && hread32 t 0x2004 == 4 &&
    t.bufs.txIdx == 1) = true := by decide +kernel
/-- B7.6. -/
theorem test_txFrame_busy : nextIs (exec (.txFrame 60) { bus .started with dev.txCtrl := 0x01, dev.txStage := [5] }) (fun t =>
    reports 0x103 0 0 t && t.trace.length == 11 && t.dev.txStage == [5]) = true := by decide +kernel

/-! ## The drainer and interrupts (B6, B8) -/

/-- B6.2, B6.4, B6.6, B6.9: the evaluation of flow control. -/
theorem test_fcEval : (fcEval { dma .started with flags := { doFc := true, freeRx := 0, framesRemain := 1 } }).drain.pauseArg = true ∧
    (fcEval { dma .started with flags := { doFc := true, freeRx := 2, framesRemain := 2 } }).wctx.pc = .drain .i5 ∧
    (fcEval { dma .started with flags := { doFc := true, freeRx := 3, framesRemain := 2 } }).wctx.pc = .drain .e0 ∧
    (fcEval { dma .started with flags := { freeRx := 3, framesRemain := 1, pause := true } }).drain.pauseArg = false := by decide
/-- The register values of `SendPause`. -/
theorem test_pauseWord : pauseWord {} true 0x06 = 0xFFFF0007 ∧ pauseWord {} false 0xFFFF0006 = 0x00000007 ∧
    pauseWord {} true 0 = 0xFFFF0001 := by decide
/-- 00_scope.md R14: `PAUSE` changes with I5, not with E1. -/
theorem test_pause_with_loop_test : nextIs (andThen (agentStep (.ctx .W) { dma .started with
      wctx.pc := .drain .e0, drain.pauseArg := true, flags.framesRemain := 1 }) (fun a => agentStep (.ctx .W) a)) (fun t => !t.flags.pause && t.mreg.macFlowCtrl == 0xFFFF0001 &&
    nextIs (agentStep (.ctx .W) t) (fun u => u.flags.pause && u.wctx.pc == .drain .i0)) = true := by decide +kernel
/-- B6.10: a spurious wake. -/
theorem test_spurious_wake : nextIs (andThen (agentStep (.ctx .W) { bus .started with flags.wake := true }) (fun a =>
    andThen (agentStep (.ctx .W) a) (fun a => andThen (agentStep (.ctx .W) a) (fun a => andThen (agentStep (.ctx .W) a)
      (agentStep (.ctx .W)))))) (fun t => t.wctx.pc == .drain .w0 && t.wstate == .waiting && !t.flags.wake &&
    t.trace == [.regRd 0x7E 0, .regWr 0x7E 0]) = true := by decide +kernel
/-- B8.3 to B8.6. -/
theorem test_interrupt_edge : nextIs (andThen (agentStep (.frameArrive [1] 0 0) { bus .started with
      flags.irqEn := true, dev.rxCtrl := 1 }) (agentStep .irq)) (fun t => !t.flags.irqPend && t.flags.wake && t.dev.intStat == 1) = true ∧
    nextIs (agentStep (.frameArrive [1] 0 0) { bus .started with dev.rxCtrl := 1 }) (fun t => !t.flags.irqPend && intLineActive t.dev) =
      true := by decide +kernel
/-- B8.7, B8.8. -/
theorem test_interrupt_dma : nextIs (agentStep .irq { dma .started with mreg.intEn := 0xC0, mreg.status := 0x41, flags.irqEn := true })
      (fun t => t.mreg.status == 0 && t.flags.wake) = true ∧
    irqPending { dma .started with mreg.intEn := 0xC0, mreg.status := 0x01, flags.irqEn := true } = false := by decide
/-- 10_state.md R33: an index that is a parameter. -/
theorem test_register_map : nextIs (exec (.regWr 0x06 0x01) { bus .started with cfg.cregs := { rxCtrl := 0x06 } }) (fun t =>
    t.dev.rxCtrl == 0x01) = true := by decide +kernel
/-- C7: the loopback echo arrives with its CRC. -/
theorem test_loopback : nextIs (andThen (agentStep (.txComplete 0) { bus .started with
      cfg.loopback := true, dev.txCtrl := 1, dev.rxCtrl := 1, dev.txLatched := some [7, 9] }) (agentStep (.offerArrives 0))) (fun t =>
    t.trace == [.sent [7, 9]] && t.dev.rxWp == 0x0C0A && t.dev.intStat == 1 && t.env.offers == []) = true := by
  decide +kernel

/-! ## Witnesses: for each statement with hypotheses, states and operands that meet them, clause by clause -/

theorem witness_DecodeOfEncode : DistinctCodes {} ∧ DistinctCodes { regRd := 0x3F } := by
  refine ⟨distinctCodes_default, ?_⟩
  intro o p h
  cases o <;> cases p <;> first | rfl | (revert h; decide)

theorem witness_RowSelection : ∃ r ∈ opcodeTable, (0x04280000 : Word) &&& r.mask = r.pattern :=
  ⟨⟨.regRd, 0x01, 0x04000000, 0xFF80FFFF⟩, .head _, rfl⟩

/-- The reserved opcodes at both ends of their ranges, an undecodable word, a word DMA lacks, and the two refused forms. -/
theorem witness_IllegalWords : (Field.op (0x00000000 : Word)).toNat = 0 ∧ (Field.op (0x84000000 : Word)).toNat = 0x21 ∧
    (∃ e, decodeWord {} 0x04280001 = .error e) ∧ (∃ i, decodeWord {} 0x30000000 = .ok i ∧ i.existsIn dmaConfig.variant = false) ∧
    (bus .started).hctx.pc = .idle ∧ (bus .started).inst.life ≠ .destroyed ∧
    (∃ i, decodeWord {} 0x20800000 = .ok i ∧ i.existsIn .bus = true ∧ i.wellFormed {} = false) ∧
    (∃ i, decodeWord {} 0x4000003C = .ok i ∧ i.wellFormed {} = true ∧ i.op = some .txFrame ∧ admitted .txFrame .stopped = false) :=
  ⟨rfl, rfl, ⟨_, rfl⟩, ⟨_, rfl, rfl⟩, rfl, by decide, ⟨_, rfl, rfl, rfl⟩, ⟨_, rfl, rfl, rfl, rfl⟩⟩

/-- A command word; frames of one, two and four bytes; an agent's step; rows of each width. -/
theorem witness_StepRunsTheInstruction :
    ({ bus .started with agenda := [.call 0x04280000] } : State).agenda = .call 0x04280000 :: [] ∧
    decodeWord {} 0x04280000 = .ok (.regRd 0x28) ∧ (bus .started).cfg.opcodes = {} ∧
    decodeFrame [0xF8] = .ok (.busBlkWr 0x78) ∧ decodeFrame [0x0B, 0] = .ok (.busRegRd 0x0B) ∧
    decodeFrame [0xF8, 1, 2, 3] = .ok (.busBlkWr 0x78) ∧
    ({ bus .started with agenda := [.agent .irq] } : State).agenda = .agent .irq :: [] ∧
    decodeTableWord 8 0xF8 = some (.busBlkWr 0x78) ∧ decodeTableWord 16 0x8C40 = some (.busRegWr 0x0C 0x40) ∧
    decodeTableWord 32 0x04280000 = some (.regRd 0x28) := ⟨rfl, rfl, rfl, rfl, rfl, rfl, rfl, rfl, rfl, rfl⟩

theorem witness_HostRegisters : (Instr.regRd 0x28).op = some .regRd ∧ DistinctCodes (bus .started).cfg.opcodes ∧
    (bus .started).hctx.pc = .idle ∧ (Instr.regRd 0x28).existsIn (bus .started).cfg.variant = true ∧
    (Instr.regRd 0x28).wellFormed (bus .started).cfg.cregs = true ∧ admitted .regRd (bus .started).inst.life = true ∧
    ({ bus .started with hctx.pc := .op .regRd .s0 } : State).hctx.pc ≠ .idle ∧ (bus .destroyed).inst.life = .destroyed ∧
    (bus .started).cfg.hifs.all.Nodup ∧ (0x1C : Nat) ∉ (bus .started).cfg.hifs.all := by
  refine ⟨rfl, distinctCodes_default, rfl, rfl, rfl, rfl, ?_, rfl, ?_, ?_⟩ <;> decide

/-- The cursor at the start and on the last byte of the ring, auto-return on and off. -/
theorem witness_RegisterReads : resetting good = false ∧ good.dev.rxRp.toNat + 1 < good.cfg.rxMemEnd ∧
    (let s : State := { good with dev.rxRp := 0x3FFF }
     s.dev.rxRp.toNat < s.cfg.rxMemEnd ∧ s.dev.rxRp.toNat + 1 = s.cfg.rxMemEnd ∧ s.dev.intMask.getLsbD 7 = true) ∧
    ({ good with dev.intMask := 0x01 } : State).dev.intMask.getLsbD 7 = false ∧
    resetting { bus .started with dev.ncr := 1 } = true ∧
    ∃ b t, devReadRaw .rxCtrl { bus .started with dev.ncr := 1 } = .ok (b, t) :=
  ⟨rfl, by decide, by decide, rfl, rfl, _, _, rfl⟩

/-- The cursor at both ends of the ring and just outside; each form of a command byte. -/
theorem witness_RegisterWrites : (State.reset.cfg.rxMemStart = 0x00 + 256 * 0x0C ∧ State.reset.cfg.rxMemEnd = 0xFF + 256 * 0x3F + 1) ∧
    ¬(State.reset.cfg.rxMemStart ≤ 0xFF + 256 * 0x0B) ∧ ¬(0x00 + 256 * 0x40 < State.reset.cfg.rxMemEnd) ∧
    (0x08 : Byte).getLsbD 1 = false ∧ (0x0E : Byte).getLsbD 1 = true ∧ (0x0E : Byte).getLsbD 2 = true ∧
    (0x02 : Byte).getLsbD 1 ≠ (0x02 : Byte).getLsbD 2 ∧ (0x02 : Byte).getLsbD 3 = false ∧
    (0x0A : Byte).getLsbD 1 ≠ (0x0A : Byte).getLsbD 2 ∧ (0x0A : Byte).getLsbD 3 = true ∧
    State.reset.dev.phyOp = none ∧ ({ State.reset with dev.phyOp := some ⟨true, 0, 0, 0⟩ } : State).dev.phyOp.isSome = true := by
  decide

theorem witness_ReservedIndices : CReg.ofIndex State.reset.cfg 0x01 = none ∧ CReg.ofIndex (dma .started).cfg 0x7F = none ∧
    CReg.ofIndex (dma .started).cfg 0x0B = some .phyCmd ∧ DistinctRegs State.reset.cfg.cregs ∧ State.reset.cfg.variant = .bus ∧
    .phyCmd ∈ [CReg.phyCmd, .phyAddr, .phyDatL, .phyDatH] :=
  ⟨by decide, by decide, by decide, distinctRegs_default, rfl, .head _⟩

/-- The ring to its last byte and past it, with auto-return on and off; the largest length and one more. -/
theorem witness_ReceivePorts : resetting good = false ∧ CursorsInRing good ∧ good.dev.intMask.getLsbD 7 = true ∧
    Memory.wf good = true ∧ (0x0D : Byte).getLsbD 0 = true ∧ (0x02 : Byte).getLsbD 0 = false ∧ (0x02 : Byte).getLsbD 1 = true ∧
    (0x0D : Byte).getLsbD 1 = false ∧
    (let s : State := { good with dev.intMask := 0x01, dev.rxRp := 0x3FFF }
     s.dev.intMask.getLsbD 7 = false ∧ s.cfg.rxMemEnd < s.dev.rxRp.toNat + 2 ∧ s.cfg.rxMemEnd ≤ s.dev.rxRp.toNat + 1 ∧
      s.cfg.rxMemEnd < s.dev.rxRp.toNat + 65535) ∧
    inRing good.cfg (0x3FFF : BitVec 16).toNat = true ∧ ([] : List Byte).length = 0 ∧
    (List.replicate 65536 (0 : Byte)).length = 65536 ∧ (65535 : Nat) < 65536 := by
  refine ⟨rfl, ?_, rfl, rfl, rfl, rfl, rfl, rfl, ?_, rfl, rfl, List.length_replicate .., by decide⟩
  · unfold CursorsInRing; decide
  · decide

/-- A request from staged bytes, too few and too many; a frame in flight, with and without LOOPBACK. -/
theorem witness_TransmitStaging : (0x01 : Byte).getLsbD 0 = true ∧ State.reset.dev.txCtrl.getLsbD 0 = false ∧
    (let s : State := { State.reset with dev.txLenL := 0xEE, dev.txLenH := 5 }
     1518 = s.dev.txLenL.toNat + 256 * s.dev.txLenH.toNat ∧ s.dev.txStage.length < 1518) ∧
    (let s : State := { State.reset with dev.txLenL := 1, dev.txStage := [7, 8] }
     1 = s.dev.txLenL.toNat + 256 * s.dev.txLenH.toNat ∧ 1 ≤ s.dev.txStage.length) ∧
    (let s : State := { State.reset with dev.txCtrl := 1, dev.txLatched := some [7] }
     s.dev.txCtrl.getLsbD 0 = true ∧ s.cfg.variant = .bus ∧ s.dev.txLatched = some [7] ∧ s.cfg.loopback = false ∧
      ({ s with cfg.loopback := true } : State).cfg.loopback = true) ∧
    ([7] : List Byte) ≠ [] ∧ ([7] : List Byte).length ≤ 65535 := by decide

/-- Each of the five changes, and an edge: the frame's PR is the only cause. -/
theorem witness_InterruptPin : (∃ t, devWrite .intMask 0xFF (bus .started) = .ok t) ∧
    (∃ t, devWrite .intStat 0x3F (bus .started) = .ok t) ∧ (bus .started).cfg.variant = .bus ∧
    (let s : State := { bus .started with flags.irqEn := true, dev.rxCtrl := 1 }
     s.flags.irqEn = true ∧ s.dev.intStat &&& s.dev.intMask &&& 0x3F = 0 ∧
      nextIs (agentStep (.frameArrive [1] 0 0) s) (fun t => t.flags.irqPend) = true) ∧
    nextIs (agentStep (.txComplete 0x02) { bus .started with
      flags.irqEn := true, dev.txCtrl := 1, dev.intMask := 0x82 }) (fun t => t.flags.irqPend) = true :=
  ⟨⟨_, rfl⟩, ⟨_, rfl⟩, rfl, by decide +kernel, by decide +kernel⟩

/-- SR and ST set, cleared, left; a frame in flight. -/
theorem witness_MappedRegisters : resetting (dma .started) = false ∧ (dma .started).mreg.opMode.getLsbD 1 = false ∧
    (dma .started).mreg.opMode.getLsbD 13 = false ∧
    (0x2002 : Word).getLsbD 1 = true ∧ (0x2002 : Word).getLsbD 13 = true ∧ (0 : Word).getLsbD 1 = false ∧
    (0 : Word).getLsbD 13 = false ∧
    (let s : State := { dma .started with mreg.opMode := 0x2002, dma.rxInflight := some ⟨[1], 0, 1, 0⟩ }
     s.mreg.opMode.getLsbD 1 = true ∧ s.mreg.opMode.getLsbD 13 = true ∧ s.dma.rxInflight ≠ none) := by decide

/-- HCTX at a transaction with the lock free, its own, the worker's; under DMA. -/
theorem witness_LockSteps :
    (∃ f, ctxAct .H { bus .started with hctx.pc := .op .start .g0 } = .bus f) ∧
    (∃ f, ctxAct .H { bus .started with hctx.pc := .op .start .g0, lock := some .H } = .bus f) ∧
    (∃ f, ctxAct .H { bus .started with hctx.pc := .op .start .g0, lock := some .W } = .bus f) ∧
    (∃ f, ctxAct .H { dma .started with hctx.pc := .op .phyWr .s0 } = .bus f) := ⟨⟨_, rfl⟩, ⟨_, rfl⟩, ⟨_, rfl⟩, ⟨_, rfl⟩⟩

/-- Not enabled: under DMA, with the lock free, away from a transaction. Enabled: outside and inside the re-probe, in either
context, and at the drainer's own transactions. -/
theorem witness_LockTimeouts : (dma .started).cfg.variant = .dma ∧ (bus .started).lock ≠ some (other .H) ∧
    (let s : State := { bus .started with lock := some .W }
     (∀ f, ctxAct .H s ≠ .bus f) ∧
     s.cfg.variant = .bus ∧ s.lock = some (other .H) ∧ (∃ f, opAct .H .start .g0 s = .bus f) ∧
      (∃ f, opAct .H .init .z0 s = .bus f) ∧ (∃ f, opAct .H .deinit .h0 s = .bus f)) ∧
    (let s : State := { bus .started with lock := some .W, hctx.pc := .op .rxCount .p0 }
     (ctxOf .H s).pc = .op .rxCount .p0 ∧ (∃ f, ctxAct .H s = .bus f)) ∧
    (let s : State := { bus .started with lock := some .H, wctx.pc := .op .rxFrame .p1 }
     s.lock = some (other .W) ∧ (ctxOf .W s).pc = .op .rxFrame .p1 ∧ (∃ f, ctxAct .W s = .bus f)) ∧
    (let s : State := { bus .started with lock := some .H, wctx.pc := .drain .b1 }
     s.lock = some .H ∧ s.wctx.pc = .drain .b1) := by
  refine ⟨rfl, by decide, ⟨fun f h => (by cases h), rfl, rfl, ⟨_, rfl⟩, ⟨_, rfl⟩, ⟨_, rfl⟩⟩, ⟨rfl, _, rfl⟩, ⟨rfl, rfl, _, rfl⟩, rfl, rfl⟩

theorem witness_RegRd : Ready .regRd (bus .started) ∧ (∃ b u, devReadIdx 0x7F (bus .started) = .ok (b, u)) ∧
    (let s : State := { good with dev.intMask := 0x01, dev.rxRp := 0x3FFF }
     Ready .regRd s ∧ ∃ e, devReadIdx 0x72 s = .error e) ∧ (bus .started).dev.intMask.getLsbD 7 = true :=
  ⟨ready_bus rfl, ⟨_, _, rfl⟩, ⟨ready_of rfl rfl rfl rfl, _, rfl⟩, rfl⟩

theorem witness_RegWr : Ready .regWr (bus .started) ∧ (∃ u, devWriteIdx 0x7F 0x81 (bus .started) = .ok u) ∧
    (∃ e, devWriteIdx 0x0B 0x06 (bus .started) = .error e) ∧ (∃ e, devWriteIdx 0x74 0xFF { bus .started with dev.rxrpHold := 0x0B } = .error e) ∧
    (CReg.vidL ∈ [CReg.vidL, .vidH, .pidL, .pidH, .rxPeek, .rxPeekN, .rxData] ∧ DistinctRegs (bus .started).cfg.cregs ∧
      (bus .started).cfg.variant = .bus) ∧ CReg.ofIndex (bus .started).cfg 0x01 = none :=
  ⟨ready_bus rfl, ⟨_, rfl⟩, ⟨_, rfl⟩, ⟨_, rfl⟩, ⟨.head _, distinctRegs_default, rfl⟩, by decide⟩

theorem witness_MemRd : Ready .memRd good ∧ good.cfg.variant = .bus ∧ (4 : BitVec 16) ≠ 0 ∧ good.hif.arg0 ≠ 0 ∧
    good.hif.arg0.toNat + (4 : BitVec 16).toNat ≤ 2 ^ 32 ∧ Memory.wf good = true ∧
    (∃ bytes u, devBlockRead .rxData 4 good = .ok (bytes, u)) ∧
    (let s : State := { good with dev.intMask := 0x01, dev.rxRp := 0x3FFF }
     Ready .memRd s ∧ ∃ e, devBlockRead .rxData 1 s = .error e) ∧
    (let s : State := { good with hif.arg0 := 0xFFFFFFFF }
     Ready .memRd s ∧ 2 ^ 32 < s.hif.arg0.toNat + (2 : BitVec 16).toNat ∧ s.hif.arg0.toNat + (1 : BitVec 16).toNat ≤ 2 ^ 32) ∧
    Ready .memRd { good with hif.arg0 := 0 } := by
  refine ⟨ready_rx _ rfl, rfl, by decide, by decide, by decide, rfl, ⟨_, _, rfl⟩, ⟨ready_of rfl rfl rfl rfl, _, rfl⟩,
    ⟨ready_of rfl rfl rfl rfl, by decide, by decide⟩, ready_of rfl rfl rfl rfl⟩

theorem witness_MemWr : Ready .memWr (bus .started) ∧ (bus .started).hif.arg0 ≠ 0 ∧
    (bus .started).hif.arg0.toNat + (3 : BitVec 16).toNat ≤ 2 ^ 32 ∧
    (let s : State := { bus .started with hif.arg0 := 0xFFFFFFFF }
     Ready .memWr s ∧ 2 ^ 32 < s.hif.arg0.toNat + (2 : BitVec 16).toNat ∧ s.hif.arg0.toNat + (1 : BitVec 16).toNat ≤ 2 ^ 32) ∧
    Ready .memWr { bus .started with hif.arg0 := 0 } :=
  ⟨ready_bus rfl, by decide, by decide, ⟨ready_of rfl rfl rfl rfl, by decide, by decide⟩, ready_of rfl rfl rfl rfl⟩

/-- Each frame taken and refused: a port that would wrap, a reserved command, block frames of no byte, one byte, four and
too many, and a register that is no port. -/
theorem witness_BusFrames : DistinctRegs (bus .started).cfg.cregs ∧ (∃ b u, devReadIdx 0x05 (bus .started) = .ok (b, u)) ∧
    (∃ u, devWriteIdx 0x05 1 (bus .started) = .ok u) ∧
    (let s : State := { good with dev.intMask := 0x01, dev.rxRp := 0x3FFF, bus := { want := 1, out := [6] } }
     (∃ e, devReadIdx 0x72 s = .error e) ∧ (∃ e, devBlockRead .rxData s.bus.want s = .error e) ∧ s.bus.want = 1 ∧
      s.bus.out = [6] ∧ ∃ e, devWriteIdx 0x0B 6 s = .error e) ∧
    (let s : State := { good with bus := { want := 4, out := [1, 2] } }
     (∃ bytes u, devBlockRead .rxPeekN s.bus.want s = .ok (bytes, u)) ∧ 1 ≤ s.bus.want ∧ s.bus.want ≤ 65535 ∧
      s.dev.intMask.getLsbD 7 = true ∧ s.bus.out ≠ [] ∧ s.bus.out.length ≤ 65535 ∧ s.bus.want ≠ 1 ∧ s.bus.out.length ≠ 1) ∧
    (let s : State := { good with bus := { want := 0, out := [] } }
     s.bus.want = 0 ∧ s.bus.out = []) ∧
    (let m : CRegMap := (bus .started).cfg.cregs
     0x05 ≠ m.rxPeekN ∧ 0x05 ≠ m.rxData ∧ 0x05 ≠ m.phyCmd ∧ 0x05 ≠ m.rxrpL ∧ 0x05 ≠ m.txData) ∧
    (dma .started).cfg.variant = .dma ∧ DistinctRegs (dma .started).cfg.cregs ∧
    ((bus .started).bus.want = 1 ∧ (bus .started).bus.out = [0] ∧ ∃ u, devWriteIdx 0x05 0 (bus .started) = .ok u) := by
  refine ⟨distinctRegs_default, ⟨_, _, rfl⟩, ⟨_, rfl⟩, ⟨⟨_, rfl⟩, ⟨_, rfl⟩, rfl, rfl, _, rfl⟩, ⟨⟨_, _, rfl⟩, ?_⟩, ⟨rfl, rfl⟩, ?_, rfl,
    distinctRegs_default, rfl, rfl, _, rfl⟩
  · decide
  · decide

/-- The first and the last poll of the budget, either variant. -/
theorem witness_PhyWrCompletes :
    Scheduled .phyWr { bus .started with agenda := schedule 10 .phyComplete } (schedule (5 * txSteps .bus + 0 * (1 + txSteps .bus)) .phyComplete) ∧
    Scheduled .phyWr { bus .started with agenda := schedule 37 .phyComplete } (schedule (5 * txSteps .bus + 9 * (1 + txSteps .bus)) .phyComplete) ∧
    Scheduled .phyWr { dma .started with agenda := schedule 5 .phyComplete } (schedule (5 * txSteps .dma + 0 * (1 + txSteps .dma)) .phyComplete) ∧
    PhyBudget (bus .started).cfg 10 ∧ (3 : BitVec 5).toNat < 4 ∧ (bus .started).dev.phyOp = none ∧ resetting (bus .started) = false ∧
    resetting (dma .started) = false := by
  refine ⟨⟨rfl, rfl, rfl, rfl⟩, ⟨rfl, rfl, rfl, rfl⟩, ⟨rfl, rfl, rfl, rfl⟩, ?_, by decide, rfl, rfl, rfl⟩
  unfold PhyBudget; decide

theorem witness_PhyRdCompletes :
    Scheduled .phyRd { bus .started with agenda := schedule 6 .phyComplete } (schedule (3 * txSteps .bus + 0 * (1 + txSteps .bus)) .phyComplete) ∧
    Scheduled .phyRd { bus .started with agenda := schedule 33 .phyComplete } (schedule (3 * txSteps .bus + 9 * (1 + txSteps .bus)) .phyComplete) ∧
    Scheduled .phyRd { dma .started with agenda := schedule 3 .phyComplete } (schedule (3 * txSteps .dma + 0 * (1 + txSteps .dma)) .phyComplete) ∧
    phyLoaded {} 1 2 [(34, 0x0181)] = 0x0181 :=
  ⟨⟨rfl, rfl, rfl, rfl⟩, ⟨rfl, rfl, rfl, rfl⟩, ⟨rfl, rfl, rfl, rfl⟩, rfl⟩

theorem witness_PhyTimeout : Quiet (bus .started) ∧ PhyBudget (bus .started).cfg 10 ∧ (bus .started).dev.phyOp = none ∧
    admitted .phyWr (bus .started).inst.life = true ∧ admitted .phyRd (bus .started).inst.life = true := by
  refine ⟨⟨rfl, rfl, noAgent_of_nil rfl⟩, ?_, rfl, rfl, rfl⟩
  unfold PhyBudget; decide

theorem witness_PhyPreChecks : Ready .phyRd { bus .started with dev.phyOp := some ⟨true, 1, 0, 0⟩ } ∧
    Ready .phyWr { bus .started with dev.phyOp := some ⟨true, 1, 0, 0⟩ } ∧ (3 : BitVec 5).toNat < 4 ∧
    resetting { bus .started with dev.phyOp := some ⟨true, 1, 0, 0⟩ } = false :=
  ⟨ready_of rfl rfl rfl rfl, ready_of rfl rfl rfl rfl, by decide, rfl⟩

theorem witness_PhyReadBack :
    (let s : State := { bus .started with agenda := schedule 10 .phyComplete }
     Scheduled .phyWr s (schedule (5 * txSteps s.cfg.variant + 0 * (1 + txSteps s.cfg.variant)) .phyComplete) ∧
      s.cfg.phyModel = .plainStorage ∧ Memory.wf s = true ∧ s.dev.phyOp = none ∧ PhyBudget s.cfg 10) := by
  refine ⟨⟨rfl, rfl, rfl, rfl⟩, rfl, rfl, rfl, ?_⟩
  unfold PhyBudget; decide

/-- The byte counts at both ends of what `Derive` takes, and one beyond each. -/
theorem witness_LengthRules : min (63 - ({} : Config).crcLen) 1518 < ({} : Config).minFrame ∧
    ({} : Config).minFrame ≤ min (64 - ({} : Config).crcLen) 1518 ∧ 1526 ≤ ({} : Config).maxFrame + ({} : Config).rxHdrOverhead + ({} : Config).crcLen ∧
    ({} : Config).maxFrame + ({} : Config).rxHdrOverhead + ({} : Config).crcLen < 1527 := by decide

theorem witness_NothingPending : Ready .rxCount (bus .started) ∧ Ready .rxAlloc (bus .started) ∧ Ready .rxFlush (bus .started) ∧
    Ready .rxFrame (bus .started) ∧ presence (bus .started) = 0 ∧ resetting (bus .started) = false ∧
    ((1518 : BitVec 16) ≠ 0 ∧ (bus .started).hif.arg0 ≠ 0 ∧ (bus .started).hif.arg0.toNat + (1518 : BitVec 16).toNat ≤ 2 ^ 32) :=
  ⟨ready_bus rfl, ready_bus rfl, ready_bus rfl, ready_bus rfl, rfl, rfl, by decide⟩

theorem goodFrame_good : GoodFrame good := by
  unfold GoodFrame FrameAtCursor; decide

/-- A count of 64 and a count of 0. -/
theorem witness_RxCount : Ready .rxCount good ∧ GoodFrame good ∧ cursorCount good = 64 ∧
    Ready .rxCount (rx [(0x0C00, 1)]) ∧ FrameAtCursor (rx [(0x0C00, 1)]) ∧
    erroneous (rx [(0x0C00, 1)]).cfg (headerStatus (cursorHeader (rx [(0x0C00, 1)]))) = false ∧ cursorCount (rx [(0x0C00, 1)]) = 0 := by
  refine ⟨ready_rx _ rfl, goodFrame_good, rfl, ready_rx _ rfl, ?_, rfl, rfl⟩
  unfold FrameAtCursor; decide

theorem witness_ErroneousFrame : Ready .rxCount bad ∧ Ready .rxAlloc bad ∧ Ready .rxFlush bad ∧ Ready .rxFrame bad ∧ FrameAtCursor bad ∧
    CursorsInRing bad ∧ erroneous bad.cfg (headerStatus (cursorHeader bad)) = true ∧ bad.hif.arg0 ≠ 0 ∧
    bad.hif.arg0.toNat + (1518 : BitVec 16).toNat ≤ 2 ^ 32 := by
  refine ⟨ready_rx _ rfl, ready_rx _ rfl, ready_rx _ rfl, ready_rx _ rfl, ?_, ?_, rfl, by decide, by decide⟩
  · unfold FrameAtCursor; decide
  · unfold CursorsInRing; decide

/-- The presence bytes 2 and 255. -/
theorem witness_Recovery : Ready .rxCount corrupt ∧ Ready .rxFlush corrupt ∧ Ready .rxAlloc corrupt ∧ Ready .rxFrame corrupt ∧
    2 ≤ (presence corrupt).toNat ∧ 2 ≤ (presence (rx [(0x0C00, 2)])).toNat ∧ 2 ≤ (presence (rx [(0x0C00, 255)])).toNat ∧
    resetting corrupt = false :=
  ⟨ready_rx _ rfl, ready_rx _ rfl, ready_rx _ rfl, ready_rx _ rfl, by decide, by decide, by decide, rfl⟩

theorem witness_RxAlloc : Ready .rxAlloc (answering none good) ∧ GoodFrame (answering none good) ∧
    derive good.cfg (cursorCount good) 1518 = some (60, 60) ∧ derive good.cfg (cursorCount good) 59 = none ∧
    (∃ v, alloc (good.cfg.maxFrame + good.cfg.rxHdrOverhead) .block (peeked (answering none good)) = (none, v)) ∧
    (∃ v, alloc (good.cfg.maxFrame + good.cfg.rxHdrOverhead) .block (peeked (answering (some 0x20003000) good)) = (some 0x20003000, v)) := by
  refine ⟨ready_of rfl rfl rfl rfl, ?_, rfl, rfl, ⟨_, rfl⟩, ⟨_, rfl⟩⟩
  unfold GoodFrame FrameAtCursor; decide

/-- The explicit form: a frame, a length that `Derive` rejects, a null buffer, a buffer at the end of HMEM. The automatic
form: a valid header at both ends of what is taken (1526 and 60 bytes of 64), one byte more, a copy length above the
byte count, and no header. -/
theorem witness_RxFrameBus : CursorsInRing good ∧ BuffersInHmem good ∧ Ready .rxFrame good ∧ GoodFrame good ∧
    good.cfg.maxFrame + good.cfg.rxHdrOverhead + good.cfg.crcLen + 4 ≤ 65535 ∧ good.hif.arg0 ≠ 0 ∧
    derive good.cfg (cursorCount good) 60 = some (60, 60) ∧ good.hif.arg0.toNat + 60 ≤ 2 ^ 32 ∧
    derive good.cfg (cursorCount good) 59 = none ∧ Ready .rxFrame { good with hif.arg0 := 0 } ∧
    (let s : State := { good with hif.arg0 := 0xFFFFFFC5 }
     Ready .rxFrame s ∧ 2 ^ 32 < s.hif.arg0.toNat + 60) ∧
    (let s : State := { good with bufs.hdrValid := [0x20001000], hmem := [(0x20001000, 60), (0x20001004, 0xF6), (0x20001005, 0x05)] }
     Ready .rxFrame s ∧ BuffersInHmem s ∧ s.hif.arg0 ∈ s.bufs.hdrValid ∧ (hread32 s s.hif.arg0.toNat).toNat = 60 ∧
      (hread32 s (s.hif.arg0.toNat + 4)).toNat = s.cfg.maxFrame + s.cfg.rxHdrOverhead + s.cfg.crcLen ∧ resetting s = false ∧
      autoReturn s = true) ∧
    (let s : State := { good with bufs.hdrValid := [0x20001000], hmem := [(0x20001000, 60), (0x20001004, 0xF7), (0x20001005, 0x05)] }
     Ready .rxFrame s ∧ s.hif.arg0 ∈ s.bufs.hdrValid ∧
      s.cfg.maxFrame + s.cfg.rxHdrOverhead + s.cfg.crcLen < (hread32 s (s.hif.arg0.toNat + 4)).toNat) ∧
    (let s : State := { good with bufs.hdrValid := [0x20001000], hmem := [(0x20001000, 65), (0x20001004, 64)] }
     Ready .rxFrame s ∧ s.hif.arg0 ∈ s.bufs.hdrValid ∧
      (hread32 s (s.hif.arg0.toNat + 4)).toNat < (hread32 s s.hif.arg0.toNat).toNat) ∧
    good.hif.arg0 ∉ good.bufs.hdrValid := by
  refine ⟨?_, buffers_bus .started, ready_rx _ rfl, goodFrame_good, by decide, by decide, rfl, by decide, rfl,
    ready_of rfl rfl rfl rfl, ⟨ready_of rfl rfl rfl rfl, by decide⟩,
    ⟨ready_of rfl rfl rfl rfl, buffers_bus .started, .head _, by decide, by decide, rfl, rfl⟩,
    ⟨ready_of rfl rfl rfl rfl, .head _, by decide⟩, ⟨ready_of rfl rfl rfl rfl, .head _, by decide⟩, by decide⟩
  unfold CursorsInRing; decide

/-- An answer admitted beside a live buffer and one that is not; a store outside every buffer, into one of the block's, over
the end of HMEM, and beside an executing operand buffer; a buffer that the host, and that the block holds; construction
refused, answered null after one and after none, answered inside the first buffer (its last but one word), and made, in both
variants. -/
theorem witness_Ownership :
    (∃ t, alloc 1522 .host (answering (some 0x20003000) good) = (some 0x20003000, t)) ∧
    (∃ t, alloc 1522 .host (answering (some 0x10000004) good) = (none, t)) ∧
    (let s : State := { bus .started with allocs := [⟨0x20003000, 16, .host⟩, ⟨0x10000000, 16, .block⟩] }
     Memory.wf s = true ∧ (0x20003000 : Word).toNat + [(1 : Byte), 2].length ≤ 2 ^ 32 ∧
      (∀ x ∈ s.allocs, x.owner = .host ∨ x.owner = .up ∨ (0x20003000 : Word).toNat + [(1 : Byte), 2].length ≤ x.addr.toNat ∨
        x.addr.toNat + x.size ≤ (0x20003000 : Word).toNat) ∧
      (∃ x ∈ s.allocs, (x.owner = .block ∨ x.owner = .drainer) ∧ (0x1000000F : Word).toNat < x.addr.toNat + x.size ∧
        x.addr.toNat < (0x1000000F : Word).toNat + [(1 : Byte)].length) ∧
      (∃ x ∈ s.allocs, x.addr = 0x20003000 ∧ (x.owner = .host ∨ x.owner = .up)) ∧
      (∀ x ∈ s.allocs, x.addr = 0x10000000 → x.owner = .block ∨ x.owner = .drainer)) ∧
    2 ^ 32 < (0xFFFFFFFF : Word).toNat + [(1 : Byte), 2].length ∧
    (let s : State := { bus .started with hctx.pc := .op .memWr .s0, hctx.x.a0 := some 0x2000, hctx.x.cw := some 0x10000004 }
     operandBuffer s = (0x2000, 4)) ∧
    configValid { rxDescN := 0 } = false ∧ configValid {} = true ∧
    constructionSizes {} = [1530, 1522] ∧ Admitted [1530, 1522] [] ∧ Admitted [1530, 1522] [0x10000000] ∧
    Admitted [1530, 1522] [0x10000000, 0x10001000] ∧
    constructionAnswer [some 0x10000000, none] 0 = some (([0x10000000] : List Word).getD 0 0) ∧
    constructionAnswer [some 0x10000000, none] 1 = none ∧ constructionAnswer [none] 0 = none ∧
    (∀ b, constructionAnswer [some 0x10000000, some 0x100005F8] 1 = some b → ¬MayAnswer [1530, 1522] [0x10000000] b) ∧
    (let c : Config := { variant := .dma }
     configValid c = true ∧ c.variant = .dma ∧
      Admitted (constructionSizes c) ((List.range 22).map fun i => BitVec.ofNat 32 (0x1000 * (i + 1))) ∧
      (constructionSizes c).length = 22) ∧
    ∃ s, construct {} [some 0x10000000, some 0x10001000] = .ok s := by
  refine ⟨⟨_, rfl⟩, ⟨_, rfl⟩, ⟨rfl, by decide, ?_, ?_, ?_, ?_⟩, by decide, rfl, by decide, by decide, rfl, ?_, ?_, ?_, rfl, rfl, rfl, ?_,
    ⟨by decide, rfl, ?_, rfl⟩, _, rfl⟩
  · decide
  · exact ⟨⟨0x10000000, 16, .block⟩, .tail _ (.head _), .inl rfl, by decide, by decide⟩
  · exact ⟨⟨0x20003000, 16, .host⟩, .head _, rfl, .inl rfl⟩
  · decide
  · unfold Admitted MayAnswer; decide
  · unfold Admitted MayAnswer; decide
  · unfold Admitted MayAnswer; decide
  · rintro b hb; cases hb; unfold MayAnswer; decide
  · unfold Admitted MayAnswer; decide +kernel

theorem witness_RxFlushBus : Ready .rxFlush good ∧ GoodFrame good ∧ CursorsInRing good := by
  refine ⟨ready_rx _ rfl, goodFrame_good, ?_⟩
  unfold CursorsInRing; decide

/-- An empty slot after the frame, and a second frame there. -/
theorem witness_NeverStuck :
    (let s := answering none good
     Ready .rxAlloc s ∧ GoodFrame s ∧ CursorsInRing s ∧ derive s.cfg (cursorCount s) 1518 = some (60, 60) ∧
      (∃ v, alloc (s.cfg.maxFrame + s.cfg.rxHdrOverhead) .block (peeked s) = (none, v)) ∧ rxByte s 0x0C44 = 0) ∧
    (let s := answering none (rx [(0x0C00, 1), (0x0C02, 64), (0x0C44, 1), (0x0C46, 68)])
     Ready .rxAlloc s ∧ GoodFrame s ∧ CursorsInRing s ∧ derive s.cfg (cursorCount s) 1518 = some (60, 60) ∧
      (∃ v, alloc (s.cfg.maxFrame + s.cfg.rxHdrOverhead) .block (peeked s) = (none, v)) ∧ rxByte s 0x0C44 = 1) := by
  refine ⟨⟨ready_of rfl rfl rfl rfl, ?_, ?_, rfl, ⟨_, rfl⟩, rfl⟩, ⟨ready_of rfl rfl rfl rfl, ?_, ?_, rfl, ⟨_, rfl⟩, rfl⟩⟩
  all_goals first
    | unfold GoodFrame FrameAtCursor; decide
    | unfold CursorsInRing; decide

/-- A frame of one byte with room, the largest that fits, one byte more, one that no 16-bit length counts, reception off, and an
echo on offer. -/
theorem witness_FrameArrives :
    (let s : State := { bus .started with dev.rxCtrl := 1, env.offers := [([9], 0)] }
     s.cfg.variant = .bus ∧ CursorsInRing s ∧ Memory.wf s = true ∧ s.dev.rxCtrl.getLsbD 0 = true ∧ s.env.offers = ([9], 0) :: [] ∧
      0x3400 = s.cfg.rxMemEnd - s.cfg.rxMemStart ∧
      0x3400 = (if s.dev.rxWp.toNat < s.dev.rxRp.toNat then s.dev.rxRp.toNat - s.dev.rxWp.toNat
        else 0x3400 - (s.dev.rxWp.toNat - s.dev.rxRp.toNat))) ∧
    1 ≤ ([9] : List Byte).length ∧ (List.replicate 0x33FB (0 : Byte)).length + 5 ≤ 0x3400 ∧
    0x3400 < (List.replicate 0x33FC (0 : Byte)).length + 5 ∧ 0x3400 < (List.replicate 0x10003 (0 : Byte)).length + 5 ∧
    (bus .started).dev.rxCtrl.getLsbD 0 = false := by
  refine ⟨⟨rfl, ?_, rfl, rfl, rfl, rfl, rfl⟩, by decide, ?_, ?_, ?_, rfl⟩
  · unfold CursorsInRing; decide
  all_goals first | (simp only [List.length_replicate]; done) | (simp only [List.length_replicate]; decide)

theorem witness_RingBuilt : Memory.wf (dma .stopped) = true ∧
    (dma .stopped).bufs.rxRingBase.toNat + 16 * (dma .stopped).cfg.rxDescN ≤ (dma .stopped).bufs.txRingBase.toNat ∧
    (dma .stopped).bufs.txRingBase.toNat + 16 * (dma .stopped).cfg.txDescN ≤ 2 ^ 32 ∧ 2 < (dma .stopped).cfg.rxDescN := by decide

/-- No CPU-owned descriptor, all of them without a last segment, a frame of one descriptor, a frame of all three. -/
theorem witness_RxFrameDma : BuffersInHmem (ring 0x80000000 0x80000000 0x80000000) ∧
    Ready .rxFrame (ring 0x80000000 0x80000000 0x80000000) ∧
    CpuOwned (ring 0x80000000 0x80000000 0x80000000) 0 ∧ CpuOwned (ring 0x00000200 0 0) 3 ∧
    (∀ j, j < 3 → rxDescLs (rxW0 (ring 0x00000200 0 0) j) = false) ∧
    FirstFrame (ring 0x00080300 0x80000000 0x80000000) 1 1 ∧ FirstFrame (ring 0x00000200 0 0x002C0100) 3 3 ∧
    (ring 0 0 0).hif.arg0 ≠ 0 ∧ min (firstLength (ring 0x00000200 0 0x002C0100) 3) (48 : BitVec 16).toNat = 40 ∧ 40 ≤ 3 * dmaConfig.dmaBufSize ∧
    (ring 0 0 0).hif.arg0.toNat + 40 ≤ 2 ^ 32 ∧ dmaConfig.dmaBufSize < firstLength (ring 0x00400300 0x80000000 0x80000000) 1 ∧
    Ready .rxFrame { dma .started with hif.arg0 := 0 } := by
  refine ⟨buffers_dma .started, ready_of rfl rfl rfl rfl, ?_, ?_, ?_, ?_, ?_, by decide, by decide +kernel, by decide, by decide,
    by decide +kernel, ready_of rfl rfl rfl rfl⟩
  · unfold CpuOwned; decide +kernel
  · unfold CpuOwned; decide +kernel
  · decide +kernel
  · exact ⟨by unfold CpuOwned; decide +kernel, by decide, by decide, fun j h => absurd h (by omega), by decide +kernel⟩
  · exact ⟨by unfold CpuOwned; decide +kernel, by decide, by decide, fun j h =>
      (by decide +kernel : ∀ j, j < 2 → rxDescLs (rxW0 (ring 0x00000200 0 0x002C0100) j) = false) j (by omega), by decide +kernel⟩

theorem witness_RxFlushDma : Ready .rxFlush (ring 0x80000000 0x80000000 0x80000000) ∧
    CpuOwned (ring 0x80000000 0x80000000 0x80000000) 0 ∧ Ready .rxFlush (ring 0x00080300 0x80000000 0x80000000) ∧
    FirstFrame (ring 0x00080300 0x80000000 0x80000000) 1 1 := by
  refine ⟨ready_of rfl rfl rfl rfl, ?_, ready_of rfl rfl rfl rfl, ?_⟩
  · unfold CpuOwned; decide +kernel
  · exact ⟨by unfold CpuOwned; decide +kernel, by decide, by decide, fun j h => absurd h (by omega), by decide +kernel⟩

/-- The fetcher at descriptor 0 of a built ring. -/
def fetching (w0 w1 w2 : Word) : State :=
  let built := chainBuilt (dma .started)
  { hwrite32 0x1020 w2 (hwrite32 0x1010 w1 (hwrite32 0x1000 w0 built)) with
    dma.rxState := .running, dma.rxCur := 0x1000, mreg.macConfig := 4 }

/-- The descriptors a walk from the fetcher's visits. -/
def walk (s : State) : Nat → Nat
  | 0 => s.dma.rxCur.toNat
  | i + 1 => (hread32 s (walk s i + 12)).toNat

/-- Enough descriptors for 20 bytes; too few; too large; fetcher stopped; a frame in flight. -/
theorem witness_DmaReceiveBegins : (∀ i, walk (fetching 0x80000000 0x80000000 0) (i + 1) =
      (hread32 (fetching 0x80000000 0x80000000 0) (walk (fetching 0x80000000 0x80000000 0) i + 12)).toNat) ∧
    (let s := fetching 0x80000000 0x80000000 0
     s.dma.rxState = .running ∧ s.mreg.macConfig.getLsbD 2 = true ∧ s.dma.rxInflight = none ∧
      descOwn (hread32 s (walk s 0)) = true ∧ descSize (hread32 s (walk s 0 + 4)) = 16 ∧ descOwn (hread32 s (walk s 1)) = true ∧
      descSize (hread32 s (walk s 1 + 4)) = 16 ∧ descOwn (hread32 s (walk s 2)) = false) ∧
    dmaConfig.rxDescN * dmaConfig.dmaBufSize = 48 ∧ (dma .started).dma.rxState ≠ .running ∧
    ({ dma .started with env.offers := [([1], 0)] } : State).env.offers = ([1], 0) :: [] ∧
    ({ fetching 0 0 0 with dma.rxInflight := some ⟨[1], 0, 1, 0⟩ } : State).dma.rxInflight.isSome = true := by
  refine ⟨fun _ => rfl, ?_, rfl, by decide, rfl, rfl⟩
  decide +kernel

theorem witness_DmaReceiveStores : (fetching 0x80000000 0x80000000 0).dma.rxInflight = none ∧
    (let f : Inflight := ⟨[1, 2], 0, 1, 0⟩
     f.done < f.need ∧ f.done + 1 = f.need ∧ f.frame.length < 2 ^ 14) ∧
    (let f : Inflight := ⟨List.replicate 20 1, 0, 2, 0⟩
     f.done + 1 < f.need ∧ f.frame.length < 2 ^ 14) := ⟨rfl, by decide, by decide⟩

/-- Owned by the engine (last segment with TE, and without), and not; LOOPBACK off and on. -/
theorem witness_DmaTransmits : (dma .started).cfg.loopback = false ∧
    ({ dma .started with cfg.loopback := true } : State).cfg.loopback = true ∧ (0xE0100000 : Word).getLsbD 31 = true ∧
    (0xE0100000 : Word).getLsbD 29 = true ∧ (8 : Word).getLsbD 3 = true ∧ (0x90100000 : Word).getLsbD 29 = false ∧
    (0x00100000 : Word).getLsbD 31 = false ∧ ({ dma .started with dma.txState := .running } : State).dma.txState = .running := by
  decide

/-- The controller before a reset that completes before the first poll: the identity agrees; a programming list that is
refused; either half of the identity differs. Then ten polls that reach the timeout. -/
theorem witness_InitBus :
    (let s : State := { State.reset with
      agenda := schedule 4 (.resetComplete []) }
     Scheduled .init s (schedule 4 (.resetComplete [])) ∧ s.cfg.variant = .bus ∧ s.cfg.ctrlVid = s.cfg.chipVid ∧
      s.cfg.ctrlPid = s.cfg.chipPid ∧ ∃ p, programBus s.cfg.initSeqBus (afterResetBus [] s) = .ok p ∧ resetting p = false) ∧
    (let s : State := { State.reset with
      agenda := schedule 4 (.resetComplete []), cfg.initSeqBus := [(0x0B, 0x06)] }
     Scheduled .init s (schedule 4 (.resetComplete [])) ∧ ∃ e, programBus s.cfg.initSeqBus (afterResetBus [] s) = .error e) ∧
    (let s : State := { State.reset with
      agenda := schedule 4 (.resetComplete []), cfg.ctrlPid := 0x9052 }
     Scheduled .init s (schedule 4 (.resetComplete [])) ∧ s.cfg.ctrlPid ≠ s.cfg.chipPid) ∧
    Ready .init State.reset ∧ ResetPolls State.reset 10 := by
  refine ⟨⟨⟨rfl, rfl, rfl, rfl⟩, rfl, rfl, rfl, _, rfl, rfl⟩, ⟨⟨rfl, rfl, rfl, rfl⟩, _, rfl⟩, ⟨⟨rfl, rfl, rfl, rfl⟩, by decide⟩,
    ready_of rfl rfl rfl rfl, ?_⟩
  unfold ResetPolls; decide

theorem witness_InitDma :
    (let s : State := { dma .uninitialized with
      agenda := schedule 3 (.resetComplete []) }
     Scheduled .init s (schedule 3 (.resetComplete [])) ∧ s.cfg.variant = .dma ∧ 1 ≤ s.cfg.rxDescN ∧ 1 ≤ s.cfg.txDescN ∧
      resetting (programDma s.cfg.initSeqDma (afterResetDma s)) = false) ∧
    Ready .init (dma .uninitialized) ∧ ResetPolls (dma .uninitialized) 10 := by
  refine ⟨⟨⟨rfl, rfl, rfl, rfl⟩, rfl, by decide, by decide, rfl⟩, ready_of rfl rfl rfl rfl, ?_⟩
  unfold ResetPolls; decide

theorem witness_StartStop :
    (Ready .start (bus .initialized) ∧ Ready .stop (bus .started) ∧ Ready .deinit (bus .stopped) ∧
      Ready .setLink (bus .started) ∧ Ready .setLink (bus .stopped) ∧ resetting (bus .started) = false) ∧
    (Ready .start (dma .initialized) ∧ Ready .stop (dma .started) ∧ Ready .deinit (dma .stopped) ∧
      Ready .setLink (dma .started) ∧ Ready .setLink (dma .stopped) ∧ resetting (dma .started) = false) ∧
    1 ≤ (dma .started).cfg.rxDescN ∧ 1 ≤ (dma .started).cfg.txDescN :=
  ⟨⟨ready_bus rfl, ready_bus rfl, ready_bus rfl, ready_bus rfl, ready_bus rfl, rfl⟩,
    ⟨ready_dma rfl, ready_dma rfl, ready_dma rfl, ready_dma rfl, ready_dma rfl, rfl⟩, by decide, by decide⟩

/-- Either variant, and the operation waiting for the lock. -/
theorem witness_DelReleasesAll : Ready .del (bus .stopped) ∧ Ready .del (dma .stopped) ∧
    (let s : State := { bus .stopped with
      lock := some .W, hctx.pc := .op .del .s0 }
     s.hctx.pc = .op .del .s0 ∧ s.lock = some .W) :=
  ⟨ready_bus rfl, ready_dma rfl, rfl, rfl⟩

/-- `ARG1[31:16]` not 0, and 0 at the largest `ARG1`; either variant. -/
theorem witness_StationAddress :
    Ready .setAddr { bus .started with hif.arg1 := 0x00010000 } ∧ (0x00010000 : Word).extractLsb' 16 16 ≠ 0 ∧
    Ready .setAddr { bus .started with hif.arg1 := 0x0000FFFF } ∧ Ready .setAddr { dma .started with hif.arg1 := 0x0000FFFF } ∧
    (0x0000FFFF : Word).extractLsb' 16 16 = 0 ∧ Ready .getAddr (bus .started) ∧ Ready .getAddr (dma .started) :=
  ⟨ready_of rfl rfl rfl rfl, by decide, ready_of rfl rfl rfl rfl, ready_of rfl rfl rfl rfl, by decide, ready_bus rfl, ready_dma rfl⟩

theorem witness_ConfigurationFlags :
    (resetting (bus .started) = false ∧ Ready .setSpeed (bus .started) ∧ Ready .setDuplex (bus .started) ∧
      Ready .setPromisc (bus .started) ∧ Ready .setFlowCtrl (bus .started) ∧ Ready .setPeerPause (bus .started)) ∧
    (resetting (dma .started) = false ∧ Ready .setSpeed (dma .started) ∧ Ready .setDuplex (dma .started) ∧
      Ready .setPromisc (dma .started) ∧ Ready .setFlowCtrl (dma .started) ∧ Ready .setPeerPause (dma .started)) :=
  ⟨⟨rfl, ready_bus rfl, ready_bus rfl, ready_bus rfl, ready_bus rfl, ready_bus rfl⟩,
    ⟨rfl, ready_dma rfl, ready_dma rfl, ready_dma rfl, ready_dma rfl, ready_dma rfl⟩⟩

/-- Length 1 and the largest; one more; a source past the end of HMEM; TXREQ set and clear. -/
theorem witness_TxFrameBus :
    (let s := bus .started
     Ready .txFrame s ∧ s.hif.arg0 ≠ 0 ∧ (1518 : BitVec 16) ≠ 0 ∧ (1518 : BitVec 16).toNat ≤ s.cfg.maxFrame ∧
      s.cfg.maxFrame < (1519 : BitVec 16).toNat ∧ s.hif.arg0.toNat + (1518 : BitVec 16).toNat ≤ 2 ^ 32 ∧ s.cfg.variant = .bus ∧
      resetting s = false ∧ 0 < s.cfg.nTxPoll ∧ s.cfg.nTxPoll < 2 ^ 32 ∧ s.dev.txCtrl.getLsbD 0 = false) ∧
    (let s : State := { bus .started with dev.txCtrl := 1 }
     Ready .txFrame s ∧ resetting s = false ∧ s.dev.txCtrl.getLsbD 0 = true) ∧
    (let s : State := { bus .started with hif.arg0 := 0xFFFFFFFF }
     Ready .txFrame s ∧ 2 ^ 32 < s.hif.arg0.toNat + (2 : BitVec 16).toNat ∧ s.hif.arg0.toNat + (1 : BitVec 16).toNat ≤ 2 ^ 32) ∧
    Ready .txFrame { bus .started with hif.arg0 := 0 } ∧
    (let s : State := { bus .started with dev.txCtrl := 1, agenda := schedule (2 * (8 + 1)) (.txComplete 0) }
     Scheduled .txFrame s (schedule (2 * (8 + 1)) (.txComplete 0)) ∧ 8 + 1 < s.cfg.nTxPoll ∧ s.dev.txCtrl.getLsbD 0 = true) ∧
    BuffersInHmem (bus .started) := by
  refine ⟨⟨ready_bus rfl, ?_⟩, ⟨ready_of rfl rfl rfl rfl, by decide⟩, ⟨ready_of rfl rfl rfl rfl, by decide⟩, ready_of rfl rfl rfl rfl,
    ⟨⟨rfl, rfl, rfl, rfl⟩, by decide, rfl⟩, buffers_bus .started⟩
  decide

/-- A frame of 33 bytes in three segments: all descriptors free, and the third owned by the engine. -/
theorem witness_TxFrameDma :
    (let s := dma .started
     Ready .txFrame s ∧ s.cfg.variant = .dma ∧ s.hif.arg0 ≠ 0 ∧ (33 : BitVec 16) ≠ 0 ∧ (33 : BitVec 16).toNat ≤ s.cfg.maxFrame ∧
      s.hif.arg0.toNat + (33 : BitVec 16).toNat ≤ 2 ^ 32 ∧ 0 < s.cfg.dmaBufSize ∧ s.cfg.maxFrame ≤ s.cfg.txDescN * s.cfg.dmaBufSize ∧
      0 < s.cfg.nTxPoll ∧ s.cfg.nTxPoll < 2 ^ 32 ∧ 3 = ((33 : BitVec 16).toNat + s.cfg.dmaBufSize - 1) / s.cfg.dmaBufSize ∧
      (∀ j, j < 3 → descOwn (hread32 s (txdAddr s (txSlot s j))) = false)) ∧
    (let s := hwrite32 0x2020 0x80000000 (dma .started)
     Ready .txFrame s ∧ (∀ j, j < 2 → descOwn (hread32 s (txdAddr s (txSlot s j))) = false) ∧
      descOwn (hread32 s (txdAddr s (txSlot s 2))) = true) ∧ BuffersInHmem (dma .started) ∧
    (let s : State := { dma .started with hif.arg0 := 0xFFFFFFE0 }
     Ready .txFrame s ∧ 2 ^ 32 < s.hif.arg0.toNat + (33 : BitVec 16).toNat ∧ s.hif.arg0.toNat + (32 : BitVec 16).toNat ≤ 2 ^ 32) := by
  refine ⟨⟨ready_dma rfl, ?_⟩, ⟨ready_of rfl rfl rfl rfl, ?_⟩, buffers_dma .started, ready_of rfl rfl rfl rfl, by decide, by decide⟩
  · decide +kernel
  · decide +kernel

/-- The worker at a label of the drainer. -/
def at_ (d : DLabel) (s : State) : State := { s with wctx.pc := .drain d }

theorem witness_Waiting :
    (let s : State := { at_ .w0 (bus .started) with flags.wake := true }
     s.wctx.pc = .drain .w0 ∧ s.flags.wake = true) ∧
    (let s : State := { at_ .w0 (bus .started) with
      flags.irqEn := true, dev.intStat := 1 }
     s.wctx.pc = .drain .w0 ∧ s.flags.wake = false ∧ s.cfg.variant = .bus ∧ s.flags.irqEn = true ∧
      s.dev.intStat &&& s.dev.intMask &&& 0x3F ≠ 0) ∧
    (let s := at_ .w0 (dma .started)
     s.wctx.pc = .drain .w0 ∧ s.flags.wake = false ∧ s.cfg.variant = .dma) ∧
    (let s := at_ .w0 (bus .started)
     s.flags.wake = false ∧ s.flags.irqEn = false ∧ s.dev.intStat &&& s.dev.intMask &&& 0x3F = 0) ∧
    (let s : State := { at_ .b0 (bus .started) with lock := some .W }
     s.wctx.pc = .drain .b0 ∧ s.cfg.variant = .bus ∧ s.lock = some .W ∧ resetting s = false) ∧
    ({ at_ .b0 (bus .started) with lock := some .H } : State).lock = some .H ∧
    (let s : State := { at_ .b1 (bus .started) with
      lock := some .W, wctx.x.t := some 1 }
     s.wctx.pc = .drain .b1 ∧ s.wctx.x.t = some ((1 : Byte).zeroExtend 32) ∧ s.lock = some .W ∧ (1 : Byte).getLsbD 0 = true) ∧
    (let s : State := { at_ .b1 (bus .started) with
      lock := some .H, wctx.x.t := some 2 }
     s.wctx.pc = .drain .b1 ∧ s.wctx.x.t = some ((2 : Byte).zeroExtend 32) ∧ s.lock = some .H ∧ (2 : Byte).getLsbD 0 = false) ∧
    (at_ .rest (bus .started)).wctx.pc = .drain .rest := by
  decide +kernel

theorem witness_Iteration :
    (let s : State := { at_ .i2 (bus .started) with
      drain.buf := some 0x20003000, env.deliverAnswers := [true], allocs := [⟨0x20003000, 1522, .drainer⟩] }
     s.wctx.pc = .drain .i2 ∧ s.drain.buf = some 0x20003000 ∧ s.env.deliverAnswers = true :: []) ∧
    ({ at_ .i2 (dma .started) with env.deliverAnswers := [false] } : State).env.deliverAnswers = false :: [] ∧
    (let s : State := { at_ .freeI3 (bus .started) with drain.buf := some 0x20003000 }
     s.wctx.pc = .drain .freeI3 ∧ s.drain.buf = some 0x20003000) ∧
    (let s : State := { at_ .freeI4 (dma .started) with drain.buf := some 0x20003000 }
     s.wctx.pc = .drain .freeI4 ∧ s.drain.buf = some 0x20003000) ∧
    workerOp .rxAlloc = true ∧ workerOp .rxFrame = true ∧ workerOp .rxFlush = true ∧ (bus .started).cfg.variant = .bus ∧
    (at_ .i5 (bus .started)).flags.framesRemain = 0 ∧
    (let s : State := { at_ .i5 (dma .started) with flags.framesRemain := 2 }
     s.wctx.pc = .drain .i5 ∧ s.flags.framesRemain ≠ 0) ∧
    ((at_ .i0 (bus .started)).wctx.pc = .drain .i0 ∧ (at_ .i3 (bus .started)).wctx.pc = .drain .i3 ∧
      (at_ .i3 (dma .started)).wctx.pc = .drain .i3) ∧
    (let s : State := { at_ .i1 (bus .started) with drain.buf := some 0x20003000, bufs.hdrValid := [0x20003000] }
     s.wctx.pc = .drain .i1 ∧ s.drain.buf = some 0x20003000) ∧
    (let s : State := { bus .started with wctx.pc := .op .rxFrame .f0, wctx.x.a0 := some 0x20004000, bufs.hdrValid := [0x20003000] }
     s.wctx.pc = .op .rxFrame .f0 ∧ s.wctx.x.a0 = some 0x20004000 ∧ (0x20004000 : Word) ≠ 0 ∧ 0x20004000 ∉ s.bufs.hdrValid) ∧
    (let s : State := { at_ .i1 (dma .started) with drain.buf := some 0x20003000 }
     s.wctx.pc = .drain .i1 ∧ s.drain.buf = some 0x20003000) ∧
    (let s := at_ .i0 (dma .started)
     s.wctx.pc = .drain .i0 ∧ s.cfg.variant = .dma ∧ (alloc 52 .drainer (answering none s)).1 = none ∧
      (alloc 52 .drainer (answering (some 0x20003000) s)).1 = some 0x20003000) ∧
    (at_ (.log .rxTimeout) (bus .started)).wctx.pc = .drain (.log .rxTimeout) ∧
    (at_ .remain (bus .started)).wctx.pc = .drain .remain := by
  decide +kernel

/-- Below the low mark, on it, on the high mark, above it, and with no frame left. -/
theorem witness_FlowControlDecision :
    (let s : State := { at_ .i4 (dma .started) with
      flags := { wake := false, irqPend := false, irqEn := true, framesRemain := 1, freeRx := 0, pause := false, doFc := true, link := true } }
     s.wctx.pc = .drain .i4 ∧ s.flags.doFc = true ∧ s.flags.freeRx < s.inst.lowWm.toNat ∧ 0 < s.flags.framesRemain) ∧
    (let s : State := { at_ .i4 (dma .started) with
      flags := { wake := false, irqPend := false, irqEn := true, framesRemain := 1, freeRx := 2, pause := false, doFc := true, link := true } }
     ¬(s.flags.freeRx < s.inst.lowWm.toNat) ∧ s.flags.freeRx ≤ s.inst.highWm.toNat ∧ s.flags.framesRemain ≠ 0) ∧
    (let s : State := { at_ .i4 (dma .started) with
      flags := { wake := false, irqPend := false, irqEn := true, framesRemain := 1, freeRx := 3, pause := false, doFc := true, link := true } }
     ¬(s.flags.freeRx < s.inst.lowWm.toNat) ∧ s.inst.highWm.toNat < s.flags.freeRx) ∧
    (let s : State := { at_ .i4 (dma .started) with
      flags := { wake := false, irqPend := false, irqEn := true, framesRemain := 0, freeRx := 0, pause := false, doFc := true, link := true } }
     ¬(0 < s.flags.framesRemain) ∧ s.flags.framesRemain = 0) ∧
    (dma .started).inst.lowWm.toNat ≤ (dma .started).inst.highWm.toNat ∧
    (let s : State := { at_ .i4 (dma .started) with flags := { framesRemain := 1, freeRx := 1 } }
     s.flags.freeRx = s.inst.lowWm.toNat ∧ nextIs (agentStep (.ctx .W) s) (fun t => t.wctx.pc == .drain .i5)) ∧
    (let s : State := { at_ .e1 (dma .started) with wctx.x.v := some 0 }
     nextIs (agentStep (.ctx .W) s) (fun t => t.wctx.pc == .drain .pause)) ∧
    nextIs (agentStep (.ctx .W) (at_ .e0 (dma .started))) (fun t => t.wctx.pc == .drain .e1) ∧
    (let s : State := { at_ .i4 (dma .started) with flags := { doFc := true, framesRemain := 1 } }
     nextIs (agentStep (.ctx .W) s) (fun t => t.wctx.pc == .drain .e0)) ∧
    nextIs (agentStep (.ctx .W) (at_ (.log .rxTimeout) (dma .started))) (fun t => t.wctx.pc == .drain .remain) := by
  decide +kernel

theorem witness_PauseFrames :
    (let s := at_ .e0 (dma .started)
     s.wctx.pc = .drain .e0 ∧ resetting s = false) ∧
    (let s : State := { dma .started with mreg.macFlowCtrl := 3 }
     s.cfg.variant = .dma ∧ s.mreg.macFlowCtrl.getLsbD 0 = true ∧ s.mreg.macFlowCtrl.getLsbD 1 = true) ∧
    (let s : State := { at_ .pause (dma .started) with drain.pauseArg := true }
     HostPc s ∧ WorkerConfined s ∧ nextIs (agentStep (.ctx .W) s) (fun t => t.flags.pause != s.flags.pause)) ∧
    (let s : State := { bus .started with flags.irqPend := true }
     HostPc s ∧ WorkerConfined s ∧ s.flags.wake = false ∧ nextIs (agentStep .irq s) (fun t => t.flags.wake)) ∧
    (let s : State := { at_ .w0 (bus .started) with flags.wake := true }
     HostPc s ∧ WorkerConfined s ∧ nextIs (agentStep (.ctx .W) s) (fun t => !t.flags.wake)) := by
  refine ⟨by decide, by decide, ⟨trivial, trivial, by decide +kernel⟩, ⟨trivial, trivial, rfl, by decide +kernel⟩,
    trivial, trivial, by decide +kernel⟩

theorem witness_InterruptHandler :
    (let s : State := { bus .started with flags.irqPend := true }
     s.inst.life ≠ .destroyed ∧ s.cfg.variant = .bus ∧ s.flags.irqPend = true) ∧
    (let s : State := { dma .started with
      flags.irqEn := true, mreg.status := 0x41, mreg.intEn := 0xC0 }
     s.inst.life ≠ .destroyed ∧ s.cfg.variant = .dma ∧ s.mreg.status &&& s.mreg.intEn &&& 0xC1 ≠ 0 ∧ s.flags.irqEn = true) ∧
    irqPending (bus .started) = false := by
  decide

/-- An operation that is neither INIT nor DEINIT; an error in an operation of the worker. -/
theorem witness_ErrorTaken : (Op.rxCount ≠ .init ∧ Op.rxCount ≠ .deinit) ∧ configValid {} = true ∧
    nextIs (raiseErr .W .rxFrame .fail 0 (bus .started)) (fun _ => true) = true := by
  decide +kernel

theorem witness_ControllerReset : resetting (bus .started) = false ∧
    (let s : State := { bus .started with dev.ncr := 1 }
     s.dev.ncr.getLsbD 0 = true ∧ s.cfg.variant = .bus) ∧
    (let s : State := { dma .started with mreg.busMode := 1 }
     s.mreg.busMode.getLsbD 0 = true ∧ s.cfg.variant = .dma) := by
  decide

theorem witness_StepKeeps :
    (let s := good.withFetchWord 32 0x30000000
     HostPc s ∧ WorkerConfined s ∧ nextIs (step s) (fun _ => true) ∧ Memory.wf s = true ∧ FixedFields s ∧ CursorsInRing s ∧
      NoLockUnderDma s ∧ BuffersInHmem s ∧ ResultCode s.cfg.results s.hif.result) := by
  refine ⟨trivial, trivial, by decide +kernel, by decide +kernel, ?_, ?_, ?_, buffers_bus .started, .inl rfl⟩
  · unfold FixedFields; decide +kernel
  · unfold CursorsInRing; decide +kernel
  · unfold NoLockUnderDma; intro _; rfl

end Sys2Proof.Tests
end

/-! PROOFS, family 00_scope. Decoding undoes encoding: the opcode field selects the operation (R96), each format's operand
fields read back what was packed with their must-be-0 fields 0 (R91 to R95), and a frame's command byte keeps its direction
and its register (R99). -/

namespace Sys2Proof

open Machine

/-! ## The opcode map -/

theorem Op.mem_all (o : Op) : o ∈ Op.all := by
  cases o <;> decide

/-- The search through the table is an inverse of the opcode map exactly under the model's condition (log 10). -/
theorem distinctCodes_iff_opOf_code (m : OpcodeMap) : DistinctCodes m ↔ ∀ o, m.opOf (m.code o) = some o := by
  constructor
  · intro h o
    cases hf : m.opOf (m.code o) with
    | none => simpa using List.find?_eq_none.mp hf o o.mem_all
    | some p =>
      have hcode : m.code p = m.code o := by simpa using List.find?_some hf
      rw [h p o hcode]
  · intro h o p hcode
    have hsome : some o = some p := by rw [← h o, ← h p, hcode]
    exact Option.some.inj hsome

theorem distinctCodes_defaultOpcodes : DistinctCodes {} := by
  rw [distinctCodes_iff_opOf_code]
  intro o
  cases o <;> rfl

/-! ## Command words: the operation, then its operand fields by format -/

section
variable {m : OpcodeMap} {c : BitVec 6} {n : Nat}

theorem decodeWord_packWord (h : DistinctCodes m) (o : Op) (hn : n < 2 ^ 26) :
    decodeWord m (packWord (m.code o) n) = decodeOperands o (packWord (m.code o) n) := by
  rw [decodeWord, packWord_op hn, (distinctCodes_iff_opOf_code m).mp h o]

theorem packWord_extract_eq_zero (hn : n < 2 ^ 26) {i k : Nat} (hz : (c.toNat * 2 ^ 26 + n) / 2 ^ i % 2 ^ k = 0) :
    (packWord c n).extractLsb' i k = 0#k :=
  BitVec.eq_of_toNat_eq (by rw [packWord_extract hn, hz, BitVec.toNat_ofNat, Nat.zero_mod])

theorem decodeN_packWord (i : Instr) : decodeN (packWord c 0) i = .ok i := by
  rw [decodeN, if_pos (packWord_extract_eq_zero (by omega) (by omega))]

theorem decodeL_packWord (f : BitVec 16 → Instr) (len : BitVec 16) : decodeL (packWord c len.toNat) f = .ok (f len) := by
  rw [decodeL, if_pos (packWord_extract_eq_zero (by omega) (by omega)), low16_packWord]

theorem decodeC_packWord (f : Bool → Instr) (b : Bool) : decodeC (packWord c b.toNat) f = .ok (f b) := by
  have hb := Bool.toNat_lt b
  have hflag : Field.flag (packWord c b.toNat) = b := by
    rw [flag_packWord (by omega)]; cases b <;> rfl
  rw [decodeC, if_pos (packWord_extract_eq_zero (by omega) (by omega)), hflag]

theorem decodeRegRd_encodeWord (reg : BitVec 7) : decodeRegRd (encodeWord m (.regRd reg)) = .ok (.regRd reg) := by
  have hmb0 : (encodeWord m (.regRd reg)).extractLsb' 23 3 = 0#3 ∧ (encodeWord m (.regRd reg)).extractLsb' 0 16 = 0#16 :=
    ⟨packWord_extract_eq_zero (by omega) (by omega), packWord_extract_eq_zero (by omega) (by omega)⟩
  rw [decodeRegRd, if_pos hmb0, reg7_regRd]

theorem decodeRegWr_encodeWord (reg : BitVec 7) (d : BitVec 8) :
    decodeRegWr (encodeWord m (.regWr reg d)) = .ok (.regWr reg d) := by
  have hmb0 : (encodeWord m (.regWr reg d)).extractLsb' 23 3 = 0#3 ∧ (encodeWord m (.regWr reg d)).extractLsb' 8 8 = 0#8 :=
    ⟨packWord_extract_eq_zero (by omega) (by omega), packWord_extract_eq_zero (by omega) (by omega)⟩
  rw [decodeRegWr, if_pos hmb0, reg7_regWr, data_regWr]

theorem decodePhyRd_encodeWord (p r : BitVec 5) (dv : Bool) :
    decodePhyRd (encodeWord m (.phyRd p r dv)) = .ok (.phyRd p r dv) := by
  have hdv := Bool.toNat_lt dv
  have hmb0 : (encodeWord m (.phyRd p r dv)).extractLsb' 1 15 = 0#15 :=
    packWord_extract_eq_zero (by omega) (by omega)
  have hflag : Field.flag (encodeWord m (.phyRd p r dv)) = dv := flag_phyRd m p r dv
  rw [decodePhyRd, if_pos hmb0, phy_phyRd, reg5_phyRd, hflag]

theorem decodeOperands_phyWr (p r : BitVec 5) (v : BitVec 16) :
    decodeOperands .phyWr (encodeWord m (.phyWr p r v)) = .ok (.phyWr p r v) := by
  rw [decodeOperands, phy_phyWr, reg5_phyWr, low16_phyWr]

/-! ## The formats that several operations share (column 'format' of R96) -/

theorem decodeWord_formatN (h : DistinctCodes m) (o : Op) {i : Instr} (hf : ∀ w, decodeOperands o w = decodeN w i) :
    decodeWord m (packWord (m.code o) 0) = .ok i := by
  rw [decodeWord_packWord h o (by omega), hf, decodeN_packWord]

theorem decodeWord_formatL (h : DistinctCodes m) (o : Op) {f : BitVec 16 → Instr}
    (hf : ∀ w, decodeOperands o w = decodeL w f) (len : BitVec 16) :
    decodeWord m (packWord (m.code o) len.toNat) = .ok (f len) := by
  rw [decodeWord_packWord h o (by omega), hf, decodeL_packWord]

theorem decodeWord_formatC (h : DistinctCodes m) (o : Op) {f : Bool → Instr} (hf : ∀ w, decodeOperands o w = decodeC w f)
    (b : Bool) : decodeWord m (packWord (m.code o) b.toNat) = .ok (f b) := by
  have hb := Bool.toNat_lt b
  rw [decodeWord_packWord h o (by omega), hf, decodeC_packWord]

end

/-! ## Bus frames -/

theorem packFrame_toNat (write : Bool) (reg : BitVec 7) :
    (packFrame write reg).toNat = (if write then 2 ^ 7 else 0) + reg.toNat := by
  rw [packFrame, BitVec.toNat_ofNat, Nat.mod_eq_of_lt (by split <;> omega)]

@[simp] theorem frameIsWrite_packFrame (write : Bool) (reg : BitVec 7) : frameIsWrite (packFrame write reg) = write := by
  rw [frameIsWrite, BitVec.getLsbD, packFrame_toNat, Nat.testBit_eq_decide_div_mod_eq]
  cases write
  · exact decide_eq_false (by simp; omega)
  · exact decide_eq_true (by simp; omega)

@[simp] theorem frameReg_packFrame (write : Bool) (reg : BitVec 7) : frameReg (packFrame write reg) = reg := by
  apply BitVec.eq_of_toNat_eq
  rw [frameReg, BitVec.extractLsb'_toNat, packFrame_toNat, Nat.shiftRight_eq_div_pow]
  split <;> omega

theorem decodeFrame_registerFrame (write : Bool) (reg : BitVec 7) (d : Byte) :
    decodeFrame [packFrame write reg, d] = .ok (if write then .busRegWr reg d else .busRegRd reg) := by
  rw [decodeFrame, frameIsWrite_packFrame, frameReg_packFrame]

theorem decodeFrame_commandByte (write : Bool) (reg : BitVec 7) :
    decodeFrame [packFrame write reg] = .ok (if write then .busBlkWr reg else .busBlkRd reg) := by
  simp [decodeFrame]

/-! ## Every instruction -/

theorem decode_encode {m : OpcodeMap} (h : DistinctCodes m) : ∀ i : Instr, decode m (encode m i) = .ok i
  | .regRd reg => (decodeWord_packWord h .regRd (by omega)).trans (decodeRegRd_encodeWord reg)
  | .regWr reg d => (decodeWord_packWord h .regWr (by omega)).trans (decodeRegWr_encodeWord reg d)
  | .phyWr p r v => (decodeWord_packWord h .phyWr (by omega)).trans (decodeOperands_phyWr p r v)
  | .phyRd p r dv =>
    have hdv := Bool.toNat_lt dv
    (decodeWord_packWord h .phyRd (by omega)).trans (decodePhyRd_encodeWord p r dv)
  | .memRd len => decodeWord_formatL h .memRd (fun _ => rfl) len
  | .memWr len => decodeWord_formatL h .memWr (fun _ => rfl) len
  | .rxAlloc len => decodeWord_formatL h .rxAlloc (fun _ => rfl) len
  | .rxFrame len => decodeWord_formatL h .rxFrame (fun _ => rfl) len
  | .txFrame len => decodeWord_formatL h .txFrame (fun _ => rfl) len
  | .rxCount => decodeWord_formatN h .rxCount fun _ => rfl
  | .rxFlush => decodeWord_formatN h .rxFlush fun _ => rfl
  | .init => decodeWord_formatN h .init fun _ => rfl
  | .deinit => decodeWord_formatN h .deinit fun _ => rfl
  | .start => decodeWord_formatN h .start fun _ => rfl
  | .stop => decodeWord_formatN h .stop fun _ => rfl
  | .del => decodeWord_formatN h .del fun _ => rfl
  | .setAddr => decodeWord_formatN h .setAddr fun _ => rfl
  | .getAddr => decodeWord_formatN h .getAddr fun _ => rfl
  | .setLink b => decodeWord_formatC h .setLink (fun _ => rfl) b
  | .setSpeed b => decodeWord_formatC h .setSpeed (fun _ => rfl) b
  | .setDuplex b => decodeWord_formatC h .setDuplex (fun _ => rfl) b
  | .setPromisc b => decodeWord_formatC h .setPromisc (fun _ => rfl) b
  | .setFlowCtrl b => decodeWord_formatC h .setFlowCtrl (fun _ => rfl) b
  | .setPeerPause b => decodeWord_formatC h .setPeerPause (fun _ => rfl) b
  | .busRegRd reg => decodeFrame_registerFrame false reg 0
  | .busRegWr reg d => decodeFrame_registerFrame true reg d
  | .busBlkRd reg => decodeFrame_commandByte false reg
  | .busBlkWr reg => decodeFrame_commandByte true reg

/-- Settles O2: the default opcodes are distinct, and decoding undoes encoding under every distinct assignment. -/
theorem decodeOfEncode : Obligations.DecodeOfEncode :=
  ⟨distinctCodes_defaultOpcodes, fun _ i h => decode_encode h i⟩

end Sys2Proof

/-! PROOFS, family 10_state. The agenda's next entry, the host interface, the registers as an access finds them, the
interrupt pin, who owns which bytes of HMEM, and the construction reset; then that every step keeps the invariants: a step of one
agent does (`ensures_agentStep`), so a host operation, which is its issue and then such steps, does too, whatever the agenda puts
between them. -/

namespace Sys2Proof.Machine

/-! ## The construction reset (R340, R341) -/

theorem configValid_reset : configValid State.reset.cfg = true := by decide

/-- The two answers of ALLOC that `State.reset` stands for (log 5). -/
theorem construct_reset : construct {} [some 0x10000000, some 0x10001000] = .ok State.reset := by
  rw [construct, if_pos (show configValid {} = true from configValid_reset)]
  rfl

theorem fixedFields_reset : FixedFields State.reset := by
  unfold FixedFields
  decide

theorem cursorsInRing_reset : CursorsInRing State.reset := by
  unfold CursorsInRing
  decide

theorem buffersInHmem_reset : BuffersInHmem State.reset := by
  have hdefault : (0 : Word).toNat + State.reset.cfg.dmaBufSize ≤ hmemSize := by decide
  exact ⟨by decide, by decide, fun _ => hdefault, fun _ => hdefault⟩

/-- Settles O59: the fields by evaluation, the invariants and the construction by the lemmas above. -/
theorem resetState : Obligations.ResetState := by
  unfold Obligations.ResetState
  refine ⟨rfl, rfl, rfl, rfl, rfl, rfl, rfl, rfl, rfl, rfl, rfl, rfl, rfl, rfl, rfl, rfl, rfl, rfl, rfl, rfl, rfl, rfl, rfl,
    fixedFields_reset, cursorsInRing_reset, fun _ => rfl, trivial, trivial, buffersInHmem_reset, .inl rfl, rfl, rfl,
    configValid_reset, construct_reset⟩

/-! ## The next entry of the agenda (R22, R29) -/

section
variable {s : State} {w : Word} {bs : List Byte} {i : Instr} {rest : List Event}

theorem step_of_agenda {e : Event} (h : s.agenda = e :: rest) : step s = takeEvent e { s with agenda := rest } := by
  rw [step, h]

theorem runWord_of_decode (h : decodeWord s.cfg.opcodes w = .ok i) : runWord w s = exec i s := by
  rw [runWord, h]

theorem runFrame_of_decode (h : decodeFrame bs = .ok i) : runFrame bs s = exec i (loadFrame bs s) := by
  rw [runFrame, h]

theorem loadFrame_short (h : bs.length ≤ 2) : loadFrame bs s = s := by
  match bs with
  | [] | [_] | [_, _] => rfl
  | _ :: _ :: _ :: _ => simp at h

theorem loadFrame_long (h : 3 ≤ bs.length) :
    loadFrame bs s = { s with bus := { s.bus with want := bs.length - 1, out := bs.tail } } := by
  match bs with
  | [] | [_] | [_, _] => simp at h
  | _ :: _ :: _ :: _ => rfl

theorem step_withFetchWord (s : State) (nbits n : Nat) : step (s.withFetchWord nbits n) = takeEvent (wordEvent nbits n) s :=
  step_of_agenda rfl

theorem toOption_eq_some {ε α : Type} {e : Except ε α} {a : α} (h : e.toOption = some a) : e = .ok a := by
  cases e <;> cases h
  rfl

theorem frameBytes_length_le (nbits n : Nat) : (frameBytes nbits n).length ≤ 2 := by
  unfold frameBytes
  split <;> simp

/-- The event that carries a row of the table runs the instruction the decoder reads from it. -/
theorem takeEvent_wordEvent {nbits n : Nat} (hop : s.cfg.opcodes = {}) (h : decodeTableWord nbits n = some i) :
    takeEvent (wordEvent nbits n) s = exec i s := by
  have hframe : ∀ k, decodeFrame (frameBytes k n) = .ok i → runFrame (frameBytes k n) s = exec i s := fun k hk => by
    rw [runFrame_of_decode hk, loadFrame_short (frameBytes_length_le k n)]
  unfold decodeTableWord at h
  split at h
  · exact runWord_of_decode (by rw [hop]; exact toOption_eq_some h)
  · exact hframe 16 (toOption_eq_some h)
  · exact hframe 8 (toOption_eq_some h)
  · cases h

end

/-- Settles O5, by the agenda's first entry. -/
theorem stepRunsTheInstruction : Obligations.StepRunsTheInstruction := by
  refine ⟨fun s w rest i ha hd => ?_, fun s bs rest i ha hd => ?_, fun s a rest ha => ?_, fun s nbits w i hop hd => ?_⟩
  · rw [step_of_agenda ha]
    exact runWord_of_decode hd
  · have hstep : step s = exec i (loadFrame bs { s with agenda := rest }) := by
      rw [step_of_agenda ha]
      exact runFrame_of_decode hd
    exact ⟨fun hlen => by rw [hstep, loadFrame_short hlen], fun hlen => by rw [hstep, loadFrame_long hlen]⟩
  · rw [step_of_agenda ha]
    rfl
  · rw [step_withFetchWord, takeEvent_wordEvent hop hd]

/-! ## The host interface (R29, R64) -/

theorem decodeN_op {w : Word} {i j : Instr} (h : decodeN w j = .ok i) : i.op = j.op := by
  unfold decodeN at h
  split at h <;> cases h
  rfl

theorem decodeL_op {w : Word} {f : BitVec 16 → Instr} {i : Instr} {o : Op} (hf : ∀ n, (f n).op = some o)
    (h : decodeL w f = .ok i) : i.op = some o := by
  unfold decodeL at h
  split at h <;> cases h
  exact hf _

theorem decodeC_op {w : Word} {f : Bool → Instr} {i : Instr} {o : Op} (hf : ∀ b, (f b).op = some o)
    (h : decodeC w f = .ok i) : i.op = some o := by
  unfold decodeC at h
  split at h <;> cases h
  exact hf _

theorem decodeRegRd_op {w : Word} {i : Instr} (h : decodeRegRd w = .ok i) : i.op = some .regRd := by
  unfold decodeRegRd at h
  split at h <;> cases h
  rfl

theorem decodeRegWr_op {w : Word} {i : Instr} (h : decodeRegWr w = .ok i) : i.op = some .regWr := by
  unfold decodeRegWr at h
  split at h <;> cases h
  rfl

theorem decodePhyRd_op {w : Word} {i : Instr} (h : decodePhyRd w = .ok i) : i.op = some .phyRd := by
  unfold decodePhyRd at h
  split at h <;> cases h
  rfl

/-- A decoded word is an instruction of the operation whose format it was read in. -/
theorem decodeOperands_op {o : Op} {w : Word} {i : Instr} (h : decodeOperands o w = .ok i) : i.op = some o := by
  cases o
  case regRd => exact decodeRegRd_op h
  case regWr => exact decodeRegWr_op h
  case phyWr => cases h; rfl
  case phyRd => exact decodePhyRd_op h
  case memRd | memWr | rxAlloc | rxFrame | txFrame => exact decodeL_op (fun _ => rfl) h
  case setLink | setSpeed | setDuplex | setPromisc | setFlowCtrl | setPeerPause => exact decodeC_op (fun _ => rfl) h
  all_goals exact decodeN_op h

/-- A command word never decodes to a bus frame (R96, R99). -/
theorem exists_op_of_decodeWord {m : OpcodeMap} {w : Word} {i : Instr} (h : decodeWord m w = .ok i) :
    ∃ o, i.op = some o := by
  unfold decodeWord at h
  split at h
  · exact ⟨_, decodeOperands_op h⟩
  · cases h

theorem decodeWord_encodeWord {m : OpcodeMap} (h : DistinctCodes m) {i : Instr} {o : Op} (ho : i.op = some o) :
    decodeWord m (encodeWord m i) = .ok i := by
  have hi := decode_encode h i
  rwa [encode, ho] at hi

section
variable {s : State} {w : Word}

theorem hbusy_iff : hbusy s = true ↔ s.hctx.pc ≠ .idle := bne_iff_ne

theorem issue_while_busy {m : Op} {i : Instr} (hlife : s.inst.life ≠ .destroyed) (hb : hbusy s = true) :
    issue m i s = .refused .cmdWhileBusy := by
  rw [issue, if_neg hlife, if_pos hb]

/-- U3: a write of `CMD`, with any word, while an operation executes. -/
theorem issueWord_while_busy (hlife : s.inst.life ≠ .destroyed) (hb : hbusy s = true) :
    issueWord w s = .refused .cmdWhileBusy := by
  unfold issueWord
  split
  · rename_i i hd
    obtain ⟨o, ho⟩ := exists_op_of_decodeWord hd
    rw [ho]
    exact issue_while_busy hlife hb
  · rw [if_neg hlife, if_pos hb]

theorem issue_destroyed {m : Op} {i : Instr} (hlife : s.inst.life = .destroyed) : issue m i s = .next s := by
  rw [issue, if_pos hlife]

theorem issueWord_destroyed (hlife : s.inst.life = .destroyed) : issueWord w s = .next s := by
  unfold issueWord
  split
  · split
    · exact issue_destroyed hlife
    · rfl
  · rw [if_pos hlife]

theorem issueWord_encodeWord {i : Instr} {m : Op} (ho : i.op = some m) (hd : DistinctCodes s.cfg.opcodes) :
    issueWord (encodeWord s.cfg.opcodes i) s = issue m i s := by
  rw [issueWord, decodeWord_encodeWord hd ho]
  simp only [ho]

theorem hostWrite_cmd (s : State) (w : Word) : hostWrite s.cfg.hifs.cmd w s = issueWord w s := by
  rw [hostWrite, if_pos rfl]

/-- What issue latches where HCTX is idle. -/
theorem issued_idle (i : Instr) (hpc : s.hctx.pc = .idle) : issued i s = { s with
    hif := { s.hif with done := false }
    hctx := { x := { cw := some (encodeWord s.cfg.opcodes i), a0 := some s.hif.arg0, a1 := some s.hif.arg1 }, sc := {},
              pc := .idle } } := by
  simp only [issued, latch, setCtx, ctxOf, hpc]

/-- No offset of the table is one of those before it, which an access compares first. -/
theorem hifs_ne {m : HifMap} (h : m.all.Nodup) :
    (m.arg0 ≠ m.cmd ∧ m.arg1 ≠ m.cmd ∧ m.result ≠ m.cmd ∧ m.rdata0 ≠ m.cmd ∧ m.rdata1 ≠ m.cmd ∧ m.hstat ≠ m.cmd) ∧
    (m.arg1 ≠ m.arg0 ∧ m.result ≠ m.arg0 ∧ m.rdata0 ≠ m.arg0 ∧ m.rdata1 ≠ m.arg0 ∧ m.hstat ≠ m.arg0) ∧
    (m.result ≠ m.arg1 ∧ m.rdata0 ≠ m.arg1 ∧ m.rdata1 ≠ m.arg1 ∧ m.hstat ≠ m.arg1) ∧
    (m.rdata0 ≠ m.result ∧ m.rdata1 ≠ m.result ∧ m.hstat ≠ m.result) ∧
    (m.rdata1 ≠ m.rdata0 ∧ m.hstat ≠ m.rdata0) ∧ m.hstat ≠ m.rdata1 := by
  have hback : m.all.Pairwise fun a b => b ≠ a := List.Pairwise.imp Ne.symm h
  simp only [HifMap.all, List.pairwise_cons, List.mem_cons, List.not_mem_nil, or_false, forall_eq_or_imp, forall_eq] at hback
  obtain ⟨hcmd, harg0, harg1, hresult, hrdata0, hrdata1, -⟩ := hback
  exact ⟨hcmd, harg0, harg1, hresult, hrdata0, hrdata1⟩

theorem hostWrite_other {off : Nat} (v : Word) (h : off ∉ s.cfg.hifs.all) : hostWrite off v s = .refused .hifOffset := by
  have hne := h
  simp only [HifMap.all, List.mem_cons, List.not_mem_nil, or_false, not_or] at hne
  obtain ⟨hcmd, harg0, harg1, -⟩ := hne
  rw [hostWrite, if_neg hcmd, if_neg harg0, if_neg harg1, if_neg h]

theorem hostRead_other {off : Nat} (h : off ∉ s.cfg.hifs.all) : hostRead off s = .refused .hifOffset := by
  simp only [HifMap.all, List.mem_cons, List.not_mem_nil, or_false, not_or] at h
  obtain ⟨h0, h1, h2, h3, h4, h5, h6⟩ := h
  simp only [hostRead, hifRead, h0, h1, h2, h3, h4, h5, h6, if_false]
end

/-- Settles O6: an operation's word decodes back to it, and no offset of the table is one that an access compares before
it. -/
theorem hostRegisters : Obligations.HostRegisters := by
  refine ⟨fun s i m ho hd hpc he hw ha => ?_, fun s w hlife hpc => ?_, fun s w hlife => ?_, by decide,
    fun s m v hm hnd => ?_⟩
  · have hidle : hbusy s = false := by rw [hbusy, hpc]; rfl
    rw [hostWrite_cmd, issueWord_encodeWord ho hd, issue_taken hidle he hw ha, issued_idle i hpc]
  · rw [hostWrite_cmd, issueWord_while_busy hlife (hbusy_iff.mpr hpc)]
  · rw [hostWrite_cmd, issueWord_destroyed hlife]
  · subst hm
    have hne := hifs_ne hnd
    refine ⟨?_, ?_, fun off hoff => ?_, ?_, ?_, ?_, ?_, ?_, ?_, ?_,
      fun off hoff => ⟨hostWrite_other v hoff, hostRead_other hoff⟩⟩
    case refine_3 =>
      have hmem : off ∈ s.cfg.hifs.all := List.mem_of_mem_drop (i := 3) hoff
      simp only [List.mem_cons, List.not_mem_nil, or_false] at hoff
      rcases hoff with rfl | rfl | rfl | rfl <;> simp only [hostWrite, hne, hmem, ↓reduceIte]
    all_goals simp only [hostWrite, hostRead, hifRead, hne, ↓reduceIte]

/-! ## HSTAT (R30) -/

theorem decide_ne_eq_bne {α : Type} [DecidableEq α] (a b : α) : decide (a ≠ b) = (a != b) := by
  rw [decide_not]
  rfl

theorem decide_eq_eq_beq {α : Type} [DecidableEq α] (a b : α) : decide (a = b) = (a == b) := rfl

/-- A bit of a word that is given as a number. -/
theorem getLsbD_ofNat_of_div {n i : Nat} {b : Bool} (hi : i < 32) (h : n / 2 ^ i % 2 = b.toNat) :
    (BitVec.ofNat 32 n).getLsbD i = b := by
  rw [BitVec.getLsbD_ofNat, Nat.testBit_eq_decide_div_mod_eq, h, decide_eq_true hi, Bool.true_and]
  cases b <;> rfl

/-- A field of a word that is given as a number. -/
theorem extractLsb'_ofNat_toNat (n i k : Nat) :
    ((BitVec.ofNat 32 n).extractLsb' i k).toNat = n % 2 ^ 32 / 2 ^ i % 2 ^ k := by
  rw [BitVec.extractLsb'_toNat, BitVec.toNat_ofNat, Nat.shiftRight_eq_div_pow]

/-- Settles O7: `hstat` adds up its fields, each at its own place, so that a division by the place and a remainder by the
field's width give the field back. -/
theorem statusRegister : Obligations.StatusRegister := by
  intro s
  have hexec := Bool.toNat_lt (hbusy s)
  have hdone := Bool.toNat_lt s.hif.done
  have hlife : lifeCode s.inst.life < 6 := by cases s.inst.life <;> decide
  have hlink := Bool.toNat_lt s.flags.link
  have hwake := Bool.toNat_lt s.flags.wake
  have hdrain := Bool.toNat_lt (s.wstate == .draining)
  have hremain := Bool.toNat_lt (s.flags.framesRemain != 0)
  have hpause := Bool.toNat_lt s.flags.pause
  have hfc := Bool.toNat_lt s.flags.doFc
  have hpend := Bool.toNat_lt (irqPending s)
  have hen := Bool.toNat_lt s.flags.irqEn
  rw [decide_ne_eq_bne, decide_ne_eq_bne, ← hbusy, decide_eq_eq_beq, hstat]
  refine ⟨getLsbD_ofNat_of_div (by decide) ?_, getLsbD_ofNat_of_div (by decide) ?_, ?_,
    getLsbD_ofNat_of_div (by decide) ?_, getLsbD_ofNat_of_div (by decide) ?_, getLsbD_ofNat_of_div (by decide) ?_,
    getLsbD_ofNat_of_div (by decide) ?_, getLsbD_ofNat_of_div (by decide) ?_, getLsbD_ofNat_of_div (by decide) ?_,
    getLsbD_ofNat_of_div (by decide) ?_, getLsbD_ofNat_of_div (by decide) ?_, ?_⟩
  case refine_3 =>
    rw [extractLsb'_ofNat_toNat]
    refine Eq.trans (b := lifeCode s.inst.life) ?_ ?_
    · omega
    · cases s.inst.life <;> rfl
  case refine_12 =>
    apply BitVec.eq_of_toNat_eq
    rw [extractLsb'_ofNat_toNat]
    show _ = 0
    omega
  all_goals omega

/-! ## Register reads (R33, R34; 20_memory.md R66, R78, R79) -/

section
variable {s : State}

/-- With no software reset in progress a read returns what the register gives. -/
theorem devRead_of_not_resetting (h : resetting s = false) (r : CReg) : devRead r s = devReadRaw r s := by
  rw [devRead, h]
  cases devReadRaw r s <;> rfl

/-- The reset bit's own register reads as it is in a reset too (45_mac_interface.md R254). -/
theorem devRead_ncr (s : State) : devRead .ncr s = devReadRaw .ncr s := by
  rw [devRead, bne_self_eq_false, Bool.and_false]
  rfl

theorem devRead_of_resetting {r : CReg} {b : Byte} {t : State} (h : resetting s = true) (hr : r ≠ .ncr)
    (hraw : devReadRaw r s = .ok (b, t)) : devRead r s = .ok (drawByte t) := by
  rw [devRead, hraw, h, bne_iff_ne.mpr hr]
  rfl

theorem phyCmdByte_eq (d : Dev) :
    phyCmdByte d = (if d.phySel then 0x08 else 0) ||| (if d.phyOp.isSome then 0x01 else 0) := by
  rw [phyCmdByte, phyBusy]
  cases d.phySel <;> cases d.phyOp.isSome <;> rfl

/-! ### The ring -/

theorem ringWrap_of_lt {c : Config} {a : Nat} (h : a < c.rxMemEnd) : ringWrap c a = a := if_pos h

/-- One past the last address of the ring is its first. -/
theorem ringWrap_end (c : Config) : ringWrap c c.rxMemEnd = c.rxMemStart := by
  rw [ringWrap, if_neg (Nat.lt_irrefl _), ringSize, Nat.mod_self, Nat.add_zero]

theorem peekBytes_one (h : s.dev.rxRp.toNat < s.cfg.rxMemEnd) : peekBytes 1 s = [rxByte s s.dev.rxRp.toNat] := by
  show [rxByte s (ringWrap s.cfg s.dev.rxRp.toNat)] = _
  rw [ringWrap_of_lt h]

/-- A read that stays in the ring takes no account of auto-return. -/
theorem portPeek_of_le {n : Nat} (h : s.dev.rxRp.toNat + n ≤ s.cfg.rxMemEnd) : portPeek n s = .ok (peekBytes n s, s) := by
  rw [portPeek, decide_eq_false (by omega), Bool.and_false]
  rfl

theorem portTake_of_lt {n : Nat} (h : s.dev.rxRp.toNat + n < s.cfg.rxMemEnd) :
    portTake n s = .ok (peekBytes n s, moveCursor (s.dev.rxRp.toNat + n) s) := by
  rw [portTake, decide_eq_false (by omega), Bool.and_false, ringWrap_of_lt h]
  rfl

/-- A read that takes the last byte goes round, with auto-return on. -/
theorem portTake_at_end {n : Nat} (h : s.dev.rxRp.toNat + n = s.cfg.rxMemEnd) (ha : autoReturn s = true) :
    portTake n s = .ok (peekBytes n s, moveCursor s.cfg.rxMemStart s) := by
  rw [portTake, ha, h, ringWrap_end]
  rfl

/-- U13. -/
theorem portTake_refused {n : Nat} (h : s.cfg.rxMemEnd ≤ s.dev.rxRp.toNat + n) (ha : autoReturn s = false) :
    portTake n s = .error .wrapWithoutAutoReturn := by
  rw [portTake, ha, decide_eq_true h]
  rfl

end

/-- Settles O8: outside a reset every read is the register's own, and the ports read the byte at the cursor. -/
theorem registerReads : Obligations.RegisterReads := by
  intro s
  refine ⟨fun hq => ?_, devRead_ncr s, fun hq => devRead_of_not_resetting hq .txData,
    fun hr r hne b t hraw => devRead_of_resetting hr hne hraw⟩
  simp only [devRead_of_not_resetting hq]
  refine ⟨rfl, rfl, rfl, rfl, rfl, rfl, rfl, rfl, rfl, rfl, rfl, rfl, rfl, rfl, rfl, rfl, rfl, rfl, rfl, rfl, rfl, rfl, rfl,
    ?_, rfl, fun hlt => ⟨?_, fun h => ?_, fun h ha => ?_, fun h ha => ?_⟩⟩
  · rw [devReadRaw, phyCmdByte_eq]
  · rw [devReadRaw, portPeek_of_le hlt, peekBytes_one hlt]
    rfl
  · rw [devReadRaw, portTake_of_lt h, peekBytes_one hlt]
    rfl
  · rw [devReadRaw, portTake_at_end h ha, peekBytes_one hlt]
    rfl
  · rw [devReadRaw, portTake_refused (Nat.le_of_eq h.symm) ha]
    rfl

/-! ## Register writes (R33, R34, R37; 20_memory.md R66; 41_phy_access.md R146) -/

theorem halfOf_toNat (lo hi : Byte) : (halfOf lo hi).toNat = lo.toNat + 256 * hi.toNat := by
  rw [halfOf, BitVec.toNat_ofNat]
  omega

theorem inRing_iff (c : Config) (a : Nat) : inRing c a = true ↔ c.rxMemStart ≤ a ∧ a < c.rxMemEnd := by
  simp [inRing]

section
variable {s : State} {b : Byte}

theorem devWrite_rxrpL (s : State) (b : Byte) : devWrite .rxrpL b s =
    if inRing s.cfg (b.toNat + 256 * s.dev.rxrpHold.toNat) then
      .ok (moveCursor (b.toNat + 256 * s.dev.rxrpHold.toNat) s) else .error .cursorOutsideRing := by
  rw [devWrite, halfOf_toNat]

/-! ### `PHY_CMD`: bit 1 is `WR`, bit 2 is `RD`, bit 3 is `SEL` -/

theorem writePhyCmd_select (hw : b.getLsbD 1 = false) (hr : b.getLsbD 2 = false) :
    writePhyCmd b s = .ok { s with dev.phySel := b.getLsbD 3 } := by
  rw [writePhyCmd, hw, hr]
  rfl

theorem writePhyCmd_both (hw : b.getLsbD 1 = true) (hr : b.getLsbD 2 = true) :
    writePhyCmd b s = .error .phyCmdReserved := by
  rw [writePhyCmd, hw, hr]
  rfl

/-- With one command bit what counts is `SEL`, then `BUSY`. -/
theorem writePhyCmd_one (h : b.getLsbD 1 ≠ b.getLsbD 2) : writePhyCmd b s =
    if !b.getLsbD 3 then .error .phyCmdReserved
    else if phyBusy s.dev then .error .phyCmdWhileBusy
    else .ok { s with dev := { s.dev with
      phySel := true
      phyOp := some ⟨b.getLsbD 1, phyAddrP s.dev.phyAddr, phyAddrR s.dev.phyAddr,
        halfOf s.dev.phyDatL s.dev.phyDatH⟩ } } := by
  have hr : b.getLsbD 2 = !b.getLsbD 1 := Bool.eq_not.mpr h.symm
  rw [writePhyCmd, hr]
  cases b.getLsbD 1 <;> rfl

end

/-- Settles O9: each write is its own record update; `RXRP_L` by where the address lies, `PHY_CMD` by its three bits. -/
theorem registerWrites : Obligations.RegisterWrites := by
  intro s b
  refine ⟨rfl, rfl, rfl, rfl, rfl, rfl, rfl, rfl, rfl, rfl, rfl, rfl, rfl, ?_, rfl, ?_, fun a => ⟨rfl, rfl⟩, rfl, rfl,
    fun hw hr => writePhyCmd_select hw hr, fun hw hr => writePhyCmd_both hw hr, fun h hsel => ?_, fun h hsel hbusy => ?_,
    fun h hsel hidle => ?_⟩
  · intro r hr
    simp only [List.mem_cons, List.not_mem_nil, or_false] at hr
    rcases hr with rfl | rfl | rfl | rfl | rfl | rfl | rfl <;> rfl
  · rintro a rfl
    rw [← inRing_iff, devWrite_rxrpL]
    exact ⟨fun h => if_pos h, fun h => if_neg h⟩
  · exact (writePhyCmd_one h).trans (by rw [hsel]; rfl)
  · exact (writePhyCmd_one h).trans (by rw [hsel, phyBusy, hbusy]; rfl)
  · exact (writePhyCmd_one h).trans (by rw [hsel, phyBusy, hidle]; rfl)

/-! ## Register indices (R32, R33) -/

theorem inPhyGroup_iff (r : CReg) : r.inPhyGroup = true ↔ r ∈ [CReg.phyCmd, .phyAddr, .phyDatL, .phyDatH] := by
  cases r <;> simp [CReg.inPhyGroup]

/-- An index exists exactly where a register of the variant has it. -/
theorem ofIndex_isSome_iff (c : Config) (i : BitVec 7) : (CReg.ofIndex c i).isSome = true ↔
    ∃ r : CReg, r.index c.cregs = i ∧ (c.variant = .bus ∨ r.inPhyGroup = true) := by
  simp only [CReg.ofIndex, List.find?_isSome, mem_all, true_and, Bool.and_eq_true, Bool.or_eq_true, beq_iff_eq]

/-- Settles O10, by the search through the register table: it finds a register exactly where one has the index. -/
theorem reservedIndices : Obligations.ReservedIndices := by
  simp only [Obligations.ReservedIndices, ← inPhyGroup_iff]
  refine ⟨by decide, distinctRegs_default, ofIndex_isSome_iff, fun s r b hd he => ?_, fun s i b h => ?_⟩
  · rw [devReadIdx, devWriteIdx, ofIndex_index hd he]
    exact ⟨rfl, rfl⟩
  · rw [devReadIdx, devWriteIdx, h]
    exact ⟨rfl, rfl⟩

/-- A write-1-to-clear register, bit by bit (R37). -/
theorem getLsbD_clear {n : Nat} (x b : BitVec n) (i : Nat) : (x &&& ~~~b).getLsbD i = (x.getLsbD i && !b.getLsbD i) := by
  rw [BitVec.getLsbD_and, BitVec.getLsbD_not]
  by_cases hi : i < n
  · rw [decide_eq_true hi, Bool.true_and]
  · rw [BitVec.getLsbD_of_ge x i (by omega), Bool.false_and, Bool.false_and]

/-! ## The memory-mapped registers (R36, R37; 43_dma_ring.md R200, R201, R220) -/

section
variable {s : State}

theorem mregRead_of_not_resetting (h : resetting s = false) (r : MReg) : mregRead r s = mregValue r s := by
  rw [mregRead, h]
  rfl

theorem pollRx_eq (s : State) :
    pollRx s = { s with dma.rxState := if s.dma.rxState = .suspended then .running else s.dma.rxState } := by
  unfold pollRx
  split <;> rfl

theorem pollTx_eq (s : State) :
    pollTx s = { s with dma.txState := if s.dma.txState = .suspended then .running else s.dma.txState } := by
  unfold pollTx
  split <;> rfl

/-- What a write of `SR` can change. -/
theorem switchRx_frame (old new : Bool) (s : State) : switchRx old new s = { s with
    dma := { s.dma with
      rxState := (switchRx old new s).dma.rxState
      rxCur := (switchRx old new s).dma.rxCur
      rxInflight := (switchRx old new s).dma.rxInflight }
    dev.rxDropped := (switchRx old new s).dev.rxDropped } := by
  cases old <;> cases new <;> rfl

/-- What a write of `ST` can change. -/
theorem switchTx_frame (old new : Bool) (s : State) : switchTx old new s = { s with
    dma := { s.dma with
      txState := (switchTx old new s).dma.txState
      txCur := (switchTx old new s).dma.txCur
      txInflight := (switchTx old new s).dma.txInflight } } := by
  cases old <;> cases new <;> rfl

theorem switchRx_same {old new : Bool} (h : old = new) : switchRx old new s = s := by
  subst h
  cases old <;> rfl

theorem switchTx_same {old new : Bool} (h : old = new) : switchTx old new s = s := by
  subst h
  cases old <;> rfl

/-- The receive side's fields are the receive switch's, whatever the transmit switch does. -/
theorem switchTx_rx (old new : Bool) (s : State) : (switchTx old new s).dma.rxState = s.dma.rxState ∧
    (switchTx old new s).dma.rxCur = s.dma.rxCur ∧ (switchTx old new s).dma.rxInflight = s.dma.rxInflight := by
  rw [switchTx_frame]
  exact ⟨rfl, rfl, rfl⟩

/-- The transmit switch does to the transmit side what it does without the receive switch before it. -/
theorem switchTx_switchRx (a b c d : Bool) (s : State) :
    (switchTx c d (switchRx a b s)).dma.txState = (switchTx c d s).dma.txState ∧
    (switchTx c d (switchRx a b s)).dma.txCur = (switchTx c d s).dma.txCur ∧
    (switchTx c d (switchRx a b s)).dma.txInflight = (switchTx c d s).dma.txInflight := by
  rw [switchRx_frame]
  cases c <;> cases d <;> exact ⟨rfl, rfl, rfl⟩

/-- The fetchers after a write of `DMA_OPMODE`. -/
def fetchersWritten (v : Word) (s : State) : Dma :=
  (switchTx (s.mreg.opMode.getLsbD 13) (v.getLsbD 13) (switchRx (s.mreg.opMode.getLsbD 1) (v.getLsbD 1) s)).dma

theorem mregWrite_opMode (v : Word) (s : State) : mregWrite .opMode v s = { s with
    mreg.opMode := v
    dma := fetchersWritten v s
    dev.rxDropped := (switchRx (s.mreg.opMode.getLsbD 1) (v.getLsbD 1) s).dev.rxDropped } := by
  unfold mregWrite fetchersWritten
  simp only
  rw [switchTx_frame, switchRx_frame]

theorem fetchersWritten_rx (v : Word) (s : State) :
    (fetchersWritten v s).rxState = (switchRx (s.mreg.opMode.getLsbD 1) (v.getLsbD 1) s).dma.rxState ∧
    (fetchersWritten v s).rxCur = (switchRx (s.mreg.opMode.getLsbD 1) (v.getLsbD 1) s).dma.rxCur ∧
    (fetchersWritten v s).rxInflight = (switchRx (s.mreg.opMode.getLsbD 1) (v.getLsbD 1) s).dma.rxInflight :=
  switchTx_rx _ _ _

theorem fetchersWritten_tx (v : Word) (s : State) :
    (fetchersWritten v s).txState = (switchTx (s.mreg.opMode.getLsbD 13) (v.getLsbD 13) s).dma.txState ∧
    (fetchersWritten v s).txCur = (switchTx (s.mreg.opMode.getLsbD 13) (v.getLsbD 13) s).dma.txCur ∧
    (fetchersWritten v s).txInflight = (switchTx (s.mreg.opMode.getLsbD 13) (v.getLsbD 13) s).dma.txInflight :=
  switchTx_switchRx _ _ _ _ _

end

/-- Settles O14: each write is its own record update, and a write of `DMA_OPMODE` is the two switches one after the other. -/
theorem mappedRegisters : Obligations.MappedRegisters := by
  intro s v
  refine ⟨fun hq => ?_, rfl, rfl, ⟨_, rfl, getLsbD_clear _ v⟩, rfl, rfl, rfl, rfl, rfl, rfl, rfl, pollRx_eq s, pollTx_eq s,
    ⟨_, _, mregWrite_opMode v s, ?_⟩, bne_iff_ne⟩
  · simp only [mregRead_of_not_resetting hq]
    exact ⟨rfl, rfl, rfl, rfl, rfl, rfl, rfl, rfl, rfl, rfl, rfl⟩
  · obtain ⟨hrs, hrc, hri⟩ := fetchersWritten_rx v s
    obtain ⟨hts, htc, hti⟩ := fetchersWritten_tx v s
    rw [hrs, hrc, hri, hts, htc, hti]
    refine ⟨fun ho hn => ?_, fun ho hn => ?_, fun h => ?_, fun ho hn => ?_, fun ho hn => ?_, fun h => ?_⟩
    · rw [ho, hn]
      exact ⟨rfl, rfl, rfl, rfl⟩
    · rw [ho, hn]
      refine ⟨rfl, rfl, rfl, ?_⟩
      cases hf : s.dma.rxInflight <;> simp [switchRx, hf]
    · rw [switchRx_same h]
      exact ⟨rfl, rfl, rfl, rfl⟩
    · rw [ho, hn]
      exact ⟨rfl, rfl, rfl⟩
    · rw [ho, hn]
      exact ⟨rfl, rfl, rfl⟩
    · rw [switchTx_same h]
      exact ⟨rfl, rfl, rfl⟩

/-! ## The interrupt pin (R28, R37; 60_exceptions.md R311) -/

/-- From `s` to `t` the latch is as R311 has it, and no other flag has changed: `IRQ_PEND` reads 1 where it did, and where the
pin has gone from inactive to active while `IRQ_EN` = 1. -/
def PinLatches (s t : State) : Prop :=
  t.flags = { s.flags with irqPend := t.flags.irqPend } ∧
  (t.flags.irqPend = true ↔ s.flags.irqPend = true ∨
    (s.flags.irqEn = true ∧ intLineActive s.dev = false ∧ intLineActive t.dev = true))

theorem intLineActive_iff (d : Dev) : intLineActive d = true ↔ d.intStat &&& d.intMask &&& 0x3F ≠ 0 := bne_iff_ne

theorem intLineActive_eq_false_iff (d : Dev) : intLineActive d = false ↔ d.intStat &&& d.intMask &&& 0x3F = 0 :=
  bne_eq_false_iff_eq

section
variable {s t u : State}

theorem pinLatches_refl (s : State) : PinLatches s s :=
  ⟨rfl, ⟨.inl, fun h => h.elim id fun ⟨_, hoff, hon⟩ => by rw [hoff] at hon; cases hon⟩⟩

theorem setInt_flags (stat mask : Byte) (s : State) : (setInt stat mask s).flags =
    if !intLineActive s.dev && intLineActive (setInt stat mask s).dev && s.flags.irqEn then { s.flags with irqPend := true }
    else s.flags := rfl

/-- The one operation that changes the pin's inputs. -/
theorem pinLatches_setInt (stat mask : Byte) (s : State) : PinLatches s (setInt stat mask s) := by
  unfold PinLatches
  rw [setInt_flags]
  split
  · rename_i hedge
    simp only [Bool.and_eq_true, Bool.not_eq_true'] at hedge
    obtain ⟨⟨hoff, hon⟩, hen⟩ := hedge
    exact ⟨rfl, fun _ => .inr ⟨hen, hoff, hon⟩, fun _ => rfl⟩
  · rename_i hedge
    refine ⟨rfl, .inl, fun h => h.elim id fun ⟨hen, hoff, hon⟩ => absurd ?_ hedge⟩
    rw [hen, hoff, hon]
    rfl

theorem pinLatches_setCause (causes : Byte) (s : State) : PinLatches s (setCause causes s) := pinLatches_setInt _ _ s

/-- What the step changes before it changes the pin's inputs does not count. -/
theorem PinLatches.of_same (h : PinLatches u t) (hflags : u.flags = s.flags) (hstat : u.dev.intStat = s.dev.intStat)
    (hmask : u.dev.intMask = s.dev.intMask) : PinLatches s t := by
  have hpin : intLineActive u.dev = intLineActive s.dev := by rw [intLineActive, hstat, hmask, intLineActive]
  unfold PinLatches at h
  rwa [hflags, hpin] at h

theorem pinLatches_setCauses (b : Byte) (s : State) : PinLatches s (setCauses b s) := by
  unfold setCauses
  split
  · exact pinLatches_setCause _ s
  · exact pinLatches_refl s

theorem pinLatches_frameArrive (frame : List Byte) (st b : Byte) (s : State) :
    PinLatches s (frameArrive frame st b s) := by
  unfold frameArrive
  simp only
  split
  · split
    · exact (pinLatches_setCause _ _).of_same rfl rfl rfl
    · exact (pinLatches_setCause _ _).of_same rfl rfl rfl
  · exact pinLatches_refl s

theorem depart_flags (frame : List Byte) (s : State) : (depart frame s).flags = s.flags := by
  unfold depart
  simp only
  split <;> rfl

theorem depart_dev (frame : List Byte) (s : State) : (depart frame s).dev = s.dev := by
  unfold depart
  simp only
  split <;> rfl

theorem pinLatches_txComplete (b : Byte) (s : State) : PinLatches s (txComplete b s) := by
  unfold txComplete
  split
  · exact (pinLatches_setCause _ _).of_same (depart_flags _ s) (by simp only [depart_dev]) (by simp only [depart_dev])
  · exact pinLatches_refl s

end

/-- Settles O13: every change of the pin's inputs is a `setInt`, which latches as R311 has it. -/
theorem interruptPin : Obligations.InterruptPin := by
  simp only [Obligations.InterruptPin, ← intLineActive_iff, ← intLineActive_eq_false_iff]
  intro s
  refine ⟨?_, ?_, ?_, ?_, ?_⟩
  · rintro t ⟨b, h | h | h | ⟨frame, st, h⟩ | h⟩ <;> cases h
    · exact pinLatches_setInt _ _ s
    · exact pinLatches_setInt _ _ s
    · exact pinLatches_setCauses b s
    · exact pinLatches_frameArrive frame st b s
    · exact pinLatches_txComplete b s
  · rintro t ⟨b, h | h | h⟩ <;> cases h
    · rfl
    · rfl
    · unfold setCauses
      split <;> rfl
  · rintro b t h
    cases h
    exact ⟨rfl, getLsbD_clear _ b⟩
  · rintro b t h
    cases h
    exact ⟨rfl, rfl⟩
  · intro b hv
    have hmask : b &&& 0x3E &&& 0x3F = b &&& 0x3E := by rw [BitVec.and_assoc]; rfl
    rw [setCauses, if_pos hv, setCause, hmask]
    exact ⟨rfl, rfl⟩

/-! ## ALLOC and Free (R21; 20_memory.md R76) -/

theorem overlaps_eq_false_iff (a n b m : Nat) : overlaps a n b m = false ↔ a + n ≤ b ∨ b + m ≤ a := by
  simp only [overlaps, Bool.and_eq_false_iff, decide_eq_false_iff_not]
  omega

theorem meetsOperand_eq_false_iff (s : State) (a n : Nat) : meetsOperand s a n = false ↔
    (operandBuffer s).2 = 0 ∨ a + n ≤ (operandBuffer s).1 ∨ (operandBuffer s).1 + (operandBuffer s).2 ≤ a := by
  rw [meetsOperand, Bool.and_eq_false_iff, overlaps_eq_false_iff, decide_eq_false_iff_not, Nat.not_lt, Nat.le_zero]

theorem inHmem_iff (a : Word) (n : Nat) : inHmem a n = true ↔ a.toNat + n ≤ 2 ^ 32 := decide_eq_true_iff

/-- What an answer of ALLOC is (log 8). -/
theorem admissible_iff (s : State) (n : Nat) (a : Word) : admissible s n a = true ↔
    a ≠ 0 ∧ a.toNat % 4 = 0 ∧ a.toNat + n ≤ 2 ^ 32 ∧
    (∀ x ∈ s.allocs, a.toNat + n ≤ x.addr.toNat ∨ x.addr.toNat + x.size ≤ a.toNat) ∧
    ((operandBuffer s).2 = 0 ∨ a.toNat + n ≤ (operandBuffer s).1 ∨
      (operandBuffer s).1 + (operandBuffer s).2 ≤ a.toNat) := by
  simp only [admissible, Bool.and_eq_true, bne_iff_ne, decide_eq_true_iff, inHmem_iff, List.all_eq_true,
    Bool.not_eq_true', overlaps_eq_false_iff, meetsOperand_eq_false_iff, and_assoc]

section
variable {s t : State} {n : Nat} {o : Owner} {a : Word}

theorem nextAllocAnswer_frame (s : State) : (nextAllocAnswer s).2 = { s with env := (nextAllocAnswer s).2.env } := by
  unfold nextAllocAnswer
  split <;> rfl

theorem alloc_of_admissible (hans : (nextAllocAnswer s).1 = some a) (ha : admissible (nextAllocAnswer s).2 n a = true) :
    alloc n o s = (some a, addAlloc a n o (nextAllocAnswer s).2) := by
  unfold alloc
  generalize nextAllocAnswer s = r at hans ha
  obtain ⟨_, u⟩ := r
  cases hans
  exact if_pos ha

theorem alloc_of_not_admissible
    (h : ∀ a, (nextAllocAnswer s).1 = some a → admissible (nextAllocAnswer s).2 n a = false) :
    alloc n o s = (none, (nextAllocAnswer s).2) := by
  unfold alloc
  generalize nextAllocAnswer s = r at h
  obtain ⟨_ | a, u⟩ := r
  · rfl
  · exact if_neg (Bool.eq_false_iff.mp (h a rfl))

/-- The two outcomes of `Alloc`. -/
theorem alloc_cases (n : Nat) (o : Owner) (s : State) :
    (∃ a, admissible (nextAllocAnswer s).2 n a = true ∧ alloc n o s = (some a, addAlloc a n o (nextAllocAnswer s).2)) ∨
    alloc n o s = (none, (nextAllocAnswer s).2) := by
  by_cases h : ∃ a, (nextAllocAnswer s).1 = some a ∧ admissible (nextAllocAnswer s).2 n a = true
  · obtain ⟨a, hans, ha⟩ := h
    exact .inl ⟨a, ha, alloc_of_admissible hans ha⟩
  · refine .inr (alloc_of_not_admissible fun a hans => ?_)
    exact Bool.eq_false_iff.mpr fun ha => h ⟨a, hans, ha⟩

theorem of_alloc_some (h : alloc n o s = (some a, t)) :
    admissible (nextAllocAnswer s).2 n a = true ∧ t = addAlloc a n o (nextAllocAnswer s).2 := by
  obtain ⟨b, hb, heq⟩ | heq := alloc_cases n o s <;> rw [heq] at h <;> cases h
  exact ⟨hb, rfl⟩

theorem of_alloc_none (h : alloc n o s = (none, t)) : t = (nextAllocAnswer s).2 := by
  obtain ⟨b, hb, heq⟩ | heq := alloc_cases n o s <;> rw [heq] at h <;> cases h
  rfl

theorem admissible_nextAllocAnswer : admissible (nextAllocAnswer s).2 n a = admissible s n a := by
  rw [nextAllocAnswer_frame]
  rfl

/-! ### HOST's and UP's stores and releases -/

/-- No buffer of the block's shares a byte with the range. -/
theorem spares_block_iff (s : State) (p n : Nat) :
    s.allocs.all (fun x => !(overlaps p n x.addr.toNat x.size && (x.owner == .block || x.owner == .drainer))) = true ↔
    ∀ x ∈ s.allocs, x.owner = .host ∨ x.owner = .up ∨ p + n ≤ x.addr.toNat ∨ x.addr.toNat + x.size ≤ p := by
  rw [List.all_eq_true]
  refine forall₂_congr fun x _ => ?_
  rw [← overlaps_eq_false_iff, Bool.not_eq_true', Bool.and_eq_false_iff]
  cases x.owner <;> simp

theorem memStore_eq (a : Word) (bs : List Byte) (s : State) : memStore a bs s =
    if a.toNat + bs.length ≤ 2 ^ 32 ∧ (∀ x ∈ s.allocs, x.owner = .host ∨ x.owner = .up ∨
        a.toNat + bs.length ≤ x.addr.toNat ∨ x.addr.toNat + x.size ≤ a.toNat) then
      { storeOutside a.toNat bs s with
        bufs.hdrValid := s.bufs.hdrValid.filter (fun h => !overlaps a.toNat bs.length h.toNat s.cfg.bufHdrLen) }
    else s := by
  simp only [memStore, Bool.and_eq_true, inHmem_iff, spares_block_iff, storeOutside_bufs, storeOutside_cfg]

/-- Past the end of HMEM, or into a buffer of the block's, nothing is stored. -/
theorem memStore_nothing {bs : List Byte} (h : 2 ^ 32 < a.toNat + bs.length ∨ ∃ x ∈ s.allocs,
    (x.owner = .block ∨ x.owner = .drainer) ∧ a.toNat < x.addr.toNat + x.size ∧ x.addr.toNat < a.toNat + bs.length) :
    memStore a bs s = s := by
  rw [memStore_eq]
  refine if_neg fun ⟨hin, hout⟩ => ?_
  rcases h with h | ⟨x, hx, ho, hlt, hgt⟩
  · omega
  · obtain hh | hu | hapart := hout x hx
    · rw [hh] at ho
      simp at ho
    · rw [hu] at ho
      simp at ho
    · omega

theorem mixStored_length (a : Nat) (bs fill : List Byte) : (mixStored s a bs fill).length = bs.length := by
  rw [mixStored, List.length_map, List.length_range]

/-- Outside the operand buffer the bytes given stand. -/
theorem mixStored_getD {p i : Nat} {bs fill : List Byte} (hi : i < bs.length) (h : meetsOperand s (p + i) 1 = false) :
    (mixStored s p bs fill).getD i 0 = bs.getD i 0 := by
  rw [mixStored, List.getD_eq_getElem?_getD, List.getElem?_map, List.getElem?_range hi, Option.map_some, Option.getD_some, h]
  rfl

/-- The store is that of a string of the length given, which outside the operand buffer is the string given. -/
theorem storeOutside_hmem (p : Nat) (bs : List Byte) (s : State) : ∃ cs : List Byte, cs.length = bs.length ∧
    (storeOutside p bs s).hmem = storeBytes s.hmem p cs ∧
    ∀ i, i < bs.length → meetsOperand s (p + i) 1 = false → cs.getD i 0 = bs.getD i 0 := by
  unfold storeOutside
  split
  · exact ⟨mixStored s p bs (drawBytes bs.length s).1, mixStored_length _ _ _, rfl, fun i hi h => mixStored_getD hi h⟩
  · exact ⟨bs, rfl, rfl, fun _ _ _ => rfl⟩

theorem storeOutside_keeps_rest (p : Nat) {bs : List Byte} (hwf : Cells.wf s.hmem = true) :
    SameMemoryExcept p bs.length s (storeOutside p bs s) := by
  intro b hb
  obtain ⟨cs, hlen, hmem, -⟩ := storeOutside_hmem p bs s
  rw [hbyte, hmem, get_storeBytes_other hwf p cs (b % hmemSize) (by rwa [hlen])]
  rfl

theorem hbyte_storeOutside {p i : Nat} {bs : List Byte} (hwf : Cells.wf s.hmem = true) (hlen : bs.length ≤ hmemSize)
    (hi : i < bs.length) (h : meetsOperand s (p + i) 1 = false) : hbyte (storeOutside p bs s) (p + i) = bs.getD i 0 := by
  obtain ⟨cs, hcs, hmem, hsame⟩ := storeOutside_hmem p bs s
  rw [hbyte, hmem, get_storeBytes_same hwf p cs (by omega) i (by omega), ← hsame i hi h, List.getElem_eq_getD 0]

theorem ownedBy_iff (o : Owner) (s : State) (a : Word) :
    ownedBy o s a = true ↔ ∃ x ∈ s.allocs, x.addr = a ∧ x.owner = o := by
  simp only [ownedBy, List.any_eq_true, Bool.and_eq_true, beq_iff_eq]

theorem releaseBuf_of_given (h : ∃ x ∈ s.allocs, x.addr = a ∧ (x.owner = .host ∨ x.owner = .up)) :
    releaseBuf a s = freeAlloc a s := by
  refine if_pos (Bool.or_eq_true_iff.mpr ?_)
  obtain ⟨x, hx, haddr, ho⟩ := h
  exact ho.imp (fun ho => (ownedBy_iff _ _ _).mpr ⟨x, hx, haddr, ho⟩) fun ho => (ownedBy_iff _ _ _).mpr ⟨x, hx, haddr, ho⟩

theorem releaseBuf_of_not_given (h : ∀ x ∈ s.allocs, x.addr = a → x.owner = .block ∨ x.owner = .drainer) :
    releaseBuf a s = s := by
  have hnone : ∀ o, ownedBy o s a = true → o = .block ∨ o = .drainer := fun o ho => by
    obtain ⟨x, hx, haddr, rfl⟩ := (ownedBy_iff o s a).mp ho
    exact h x hx haddr
  refine if_neg fun hgiven => ?_
  rcases Bool.or_eq_true_iff.mp hgiven with ho | ho <;> simpa using hnone _ ho

end

/-! ## Construction (70_reset_and_hazards.md R341) -/

section
variable {s t : State} {f got : List Word}

/-- Where ALLOC answers null, what was made so far is fewer than all. -/
theorem allocateAll_error {ns : List Nat} (h : allocateAll ns got s = .error f) : f.length < got.length + ns.length := by
  induction ns generalizing got s with
  | nil => cases h
  | cons n ns ih =>
    unfold allocateAll at h
    split at h
    · cases h
      simp
    · have := ih h
      simp only [List.length_cons] at this ⊢
      omega

/-- What the allocations leave: nothing but a live allocation of the block's for each size, in order. -/
theorem allocateAll_ok {ns : List Nat} {as : List Word} (h : allocateAll ns got s = .ok (as, t)) :
    t = { s with allocs := t.allocs, env := t.env } ∧ t.allocs.map Alloc.size = s.allocs.map Alloc.size ++ ns ∧
    ∀ x ∈ t.allocs, x ∈ s.allocs ∨ x.owner = .block := by
  induction ns generalizing got s with
  | nil =>
    cases h
    exact ⟨rfl, (List.append_nil _).symm, fun _ => .inl⟩
  | cons n ns ih =>
    unfold allocateAll at h
    split at h
    · cases h
    · rename_i a u ha
      obtain ⟨-, hu⟩ := of_alloc_some ha
      rw [nextAllocAnswer_frame] at hu
      obtain ⟨ht, hsize, howner⟩ := ih h
      refine ⟨by rw [ht, hu]; rfl, ?_, fun x hx => ?_⟩
      · rw [hsize, hu]
        simp [addAlloc]
      · rcases howner x hx with hx | hx
        · rw [hu, addAlloc, List.mem_append, List.mem_singleton] at hx
          exact hx.imp_right fun hx => by rw [hx]
        · exact .inr hx

end

section
variable {c : Config} {answers : List (Option Word)}

theorem construct_of_valid (h : configValid c = true) : construct c answers =
    match allocateAll (constructionSizes c) [] { State.blank c with env.allocAnswers := answers } with
    | .ok (got, s) => .ok { s with bufs := placeBuffers c got }
    | .error freed => .error (.noMemory freed) := if_pos h

theorem construct_error {e : NoInstance} (hv : configValid c = true) (h : construct c answers = .error e) :
    ∃ freed, e = .noMemory freed ∧ freed.length < (constructionSizes c).length := by
  rw [construct_of_valid hv] at h
  split at h <;> cases h
  rename_i freed hf
  exact ⟨freed, rfl, by simpa using allocateAll_error hf⟩

theorem configValid_of_construct_ok {s : State} (h : construct c answers = .ok s) : configValid c = true := by
  unfold construct at h
  split at h
  · assumption
  · cases h

theorem construct_ok {s : State} (h : construct c answers = .ok s) :
    s.cfg = c ∧ s.allocs.map Alloc.size = constructionSizes c ∧ ∀ x ∈ s.allocs, x.owner = .block := by
  rw [construct_of_valid (configValid_of_construct_ok h)] at h
  split at h <;> cases h
  rename_i as t ht
  obtain ⟨hframe, hsize, howner⟩ := allocateAll_ok ht
  refine ⟨by rw [hframe]; rfl, hsize, fun x hx => (howner x hx).resolve_left List.not_mem_nil⟩

/-- Construction where ALLOC has answered `as` to its first requests. -/
def underConstruction (c : Config) (answers : List (Option Word)) (as : List Word) : State :=
  { State.blank c with
    allocs := List.zipWith (fun a n => ⟨a, n, .block⟩) as (constructionSizes c)
    env.allocAnswers := answers.drop as.length
    env.free := as.length - answers.length }

theorem underConstruction_nil (c : Config) (answers : List (Option Word)) :
    underConstruction c answers [] = { State.blank c with env.allocAnswers := answers } := by
  simp [underConstruction, State.blank]

theorem nextAllocAnswer_ready {s : State} {a : Option Word} {rest : List (Option Word)}
    (h : s.env.allocAnswers = a :: rest) : nextAllocAnswer s = (a, { s with env.allocAnswers := rest }) := by
  rw [nextAllocAnswer, h]

theorem nextAllocAnswer_free {s : State} (h : s.env.allocAnswers = []) :
    nextAllocAnswer s = (Config.freeAlloc s.env.free, { s with env.free := s.env.free + 1 }) := by
  rw [nextAllocAnswer, h]

/-- The next answer is the environment's, or a free value where it has none ready (log 8). -/
theorem nextAllocAnswer_underConstruction (c : Config) (answers : List (Option Word)) (as : List Word) :
    nextAllocAnswer (underConstruction c answers as) = (constructionAnswer answers as.length,
      { underConstruction c answers as with
        env.allocAnswers := answers.drop (as.length + 1)
        env.free := as.length + 1 - answers.length }) := by
  unfold constructionAnswer
  rcases Nat.lt_or_ge as.length answers.length with hlt | hge
  · have hready : (underConstruction c answers as).env.allocAnswers = answers[as.length] :: answers.drop (as.length + 1) :=
      List.drop_eq_getElem_cons hlt
    have hfree : as.length + 1 - answers.length = as.length - answers.length := by omega
    rw [nextAllocAnswer_ready hready, ← List.getElem_eq_getD (h := hlt), hfree]
    rfl
  · have hnone : (underConstruction c answers as).env.allocAnswers = [] := List.drop_of_length_le hge
    have hfree : as.length + 1 - answers.length = as.length - answers.length + 1 := by omega
    have hdrop : answers.drop (as.length + 1) = [] := List.drop_of_length_le (by omega)
    rw [nextAllocAnswer_free hnone, List.getD_eq_getElem?_getD, List.getElem?_eq_none hge, Option.getD_none, hfree, hdrop,
      ← hnone]
    rfl

/-- The allocations made stand one for each answer, at the size asked for. -/
theorem mem_zipWith_getD {α β γ : Type} {f : α → β → γ} {as : List α} {bs : List β} (d : α) (e : β)
    (hlen : as.length ≤ bs.length) {x : γ} :
    x ∈ List.zipWith f as bs ↔ ∃ j, j < as.length ∧ f (as.getD j d) (bs.getD j e) = x := by
  rw [List.mem_iff_getElem]
  constructor
  · rintro ⟨j, hj, hx⟩
    rw [List.length_zipWith] at hj
    refine ⟨j, by omega, ?_⟩
    rw [← hx, List.getElem_zipWith, List.getElem_eq_getD d, List.getElem_eq_getD e]
  · rintro ⟨j, hj, hx⟩
    refine ⟨j, by rw [List.length_zipWith]; omega, ?_⟩
    rw [← hx, List.getElem_zipWith, List.getElem_eq_getD d, List.getElem_eq_getD e]

/-- The live allocations are those that were made, so ALLOC may answer what `MayAnswer` says. -/
theorem admissible_underConstruction {as : List Word} (hlen : as.length ≤ (constructionSizes c).length) (b : Word) :
    admissible (underConstruction c answers as) ((constructionSizes c).getD as.length 0) b = true ↔
    MayAnswer (constructionSizes c) as b := by
  have hlive : ∀ p : Alloc → Prop, (∀ x ∈ (underConstruction c answers as).allocs, p x) ↔
      ∀ j, j < as.length → p ⟨as.getD j 0, (constructionSizes c).getD j 0, .block⟩ := by
    intro p
    simp only [underConstruction, mem_zipWith_getD 0 0 hlen]
    exact ⟨fun h j hj => h _ ⟨j, hj, rfl⟩, fun h x ⟨j, hj, hx⟩ => hx ▸ h j hj⟩
  rw [admissible_iff, hlive, MayAnswer]
  exact ⟨fun ⟨h0, h4, hin, happart, _⟩ => ⟨h0, h4, hin, happart⟩,
    fun ⟨h0, h4, hin, happart⟩ => ⟨h0, h4, hin, happart, .inl rfl⟩⟩

theorem zipWith_concat {α β γ : Type} {f : α → β → γ} {as : List α} {bs : List β} (e : β) (a : α)
    (h : as.length < bs.length) :
    List.zipWith f (as ++ [a]) bs = List.zipWith f as bs ++ [f a (bs.getD as.length e)] := by
  induction as generalizing bs with
  | nil =>
    cases bs with
    | nil => cases h
    | cons b bs => simp
  | cons x as ih =>
    cases bs with
    | nil => cases h
    | cons b bs => simp [ih (Nat.lt_of_succ_lt_succ h)]

theorem alloc_underConstruction_some {as : List Word} {b : Word} (hlt : as.length < (constructionSizes c).length)
    (hans : constructionAnswer answers as.length = some b) (hmay : MayAnswer (constructionSizes c) as b) :
    alloc ((constructionSizes c).getD as.length 0) .block (underConstruction c answers as) =
      (some b, underConstruction c answers (as ++ [b])) := by
  have hnext := nextAllocAnswer_underConstruction c answers as
  have hadm := (admissible_underConstruction (answers := answers) (Nat.le_of_lt hlt) b).mpr hmay
  rw [alloc_of_admissible (by rw [hnext, hans]) (by rw [admissible_nextAllocAnswer]; exact hadm), hnext]
  simp only [underConstruction, addAlloc, List.length_append, List.length_singleton, zipWith_concat 0 b hlt]

theorem alloc_underConstruction_none {as : List Word} (hlt : as.length < (constructionSizes c).length)
    (h : ∀ b, constructionAnswer answers as.length = some b → ¬MayAnswer (constructionSizes c) as b) :
    (alloc ((constructionSizes c).getD as.length 0) .block (underConstruction c answers as)).1 = none := by
  rw [alloc_of_not_admissible]
  intro b hans
  rw [nextAllocAnswer_underConstruction] at hans
  rw [admissible_nextAllocAnswer, Bool.eq_false_iff]
  exact fun hadm => h b hans ((admissible_underConstruction (Nat.le_of_lt hlt) b).mp hadm)

/-- Answers that ALLOC may give are taken one after the other. -/
theorem allocateAll_admitted {as : List Word} (hadm : Admitted (constructionSizes c) as)
    (hans : ∀ k, k < as.length → constructionAnswer answers k = some (as.getD k 0)) {k : Nat} (hk : k ≤ as.length) :
    allocateAll (constructionSizes c) [] (underConstruction c answers []) =
      allocateAll ((constructionSizes c).drop k) (as.take k).reverse (underConstruction c answers (as.take k)) := by
  induction k with
  | zero => rfl
  | succ k ih =>
    obtain ⟨hlen, hmay⟩ := hadm
    have hsize : k < (constructionSizes c).length := Nat.lt_of_lt_of_le hk hlen
    have htaken : (as.take k).length = k := List.length_take_of_le (Nat.le_of_lt hk)
    have hnext : as.take k ++ [as.getD k 0] = as.take (k + 1) := by
      rw [← List.getElem_eq_getD (h := hk), List.take_append_getElem]
    have halloc := alloc_underConstruction_some (c := c) (answers := answers) (as := as.take k) (b := as.getD k 0)
      (by rwa [htaken]) (by rw [htaken]; exact hans k hk) (hmay k hk)
    rw [htaken] at halloc
    rw [ih (Nat.le_of_lt hk), List.drop_eq_getElem_cons hsize, allocateAll, List.getElem_eq_getD 0, halloc, ← hnext,
      List.reverse_concat]

/-- All of them. -/
theorem allocateAll_admitted_all {as : List Word} (hadm : Admitted (constructionSizes c) as)
    (hans : ∀ k, k < as.length → constructionAnswer answers k = some (as.getD k 0)) :
    allocateAll (constructionSizes c) [] (underConstruction c answers []) =
      allocateAll ((constructionSizes c).drop as.length) as.reverse (underConstruction c answers as) := by
  rw [allocateAll_admitted hadm hans (Nat.le_refl _), List.take_length]

/-- The next answer is null or none of ALLOC's: what was made is freed, the latest first. -/
theorem construct_rolls_back {as : List Word} (hv : configValid c = true) (hadm : Admitted (constructionSizes c) as)
    (hans : ∀ k, k < as.length → constructionAnswer answers k = some (as.getD k 0))
    (hlt : as.length < (constructionSizes c).length)
    (hnot : ∀ b, constructionAnswer answers as.length = some b → ¬MayAnswer (constructionSizes c) as b) :
    construct c answers = .error (.noMemory as.reverse) := by
  have hnone := alloc_underConstruction_none hlt hnot
  have hstop : allocateAll ((constructionSizes c).drop as.length) as.reverse (underConstruction c answers as) =
      .error as.reverse := by
    rw [List.drop_eq_getElem_cons hlt, allocateAll, List.getElem_eq_getD 0]
    generalize alloc _ _ _ = r at hnone
    obtain ⟨_, u⟩ := r
    cases hnone
    rfl
  rw [construct_of_valid hv, ← underConstruction_nil, allocateAll_admitted_all hadm hans, hstop]

/-- Every request has been answered. -/
theorem construct_succeeds {as : List Word} (hv : configValid c = true) (hadm : Admitted (constructionSizes c) as)
    (hans : ∀ k, k < as.length → constructionAnswer answers k = some (as.getD k 0))
    (hall : as.length = (constructionSizes c).length) :
    construct c answers = .ok { underConstruction c answers as with bufs := placeBuffers c as } := by
  have hdone : allocateAll ((constructionSizes c).drop as.length) as.reverse (underConstruction c answers as) =
      .ok (as, underConstruction c answers as) := by
    rw [hall, List.drop_length, allocateAll, List.reverse_reverse]
  rw [construct_of_valid hv, ← underConstruction_nil, allocateAll_admitted_all hadm hans, hdone]

theorem placeBuffers_bus (hv : c.variant = .bus) (as : List Word) :
    placeBuffers c as = { rxScratch := as.getD 0 0, txScratch := as.getD 1 0 } := by
  rw [placeBuffers, hv]

/-- Under DMA the last answers are the transmit buffers, as many as there are transmit descriptors. -/
theorem placeBuffers_dma (hv : c.variant = .dma) {as : List Word} (hall : as.length = (constructionSizes c).length) :
    placeBuffers c as = {
      rxRingBase := as.getD 0 0, txRingBase := as.getD 1 0
      rxb := (as.drop 2).take c.rxDescN, txb := as.drop (2 + c.rxDescN) } := by
  have hlen : (as.drop (2 + c.rxDescN)).length ≤ c.txDescN := by
    rw [List.length_drop, hall, constructionSizes, hv]
    simp only [List.length_append, List.length_replicate, List.length_cons, List.length_nil]
    omega
  rw [placeBuffers, hv, List.take_of_length_le hlen]

end

/-- What a buffer that ALLOC answers has, and that nothing but the allocation is new. -/
theorem alloc_answers (s t : State) (n : Nat) (o : Owner) (a : Word) (h : alloc n o s = (some a, t)) :
    a ≠ 0 ∧ a.toNat % 4 = 0 ∧ a.toNat + n ≤ 2 ^ 32 ∧
    (∀ x ∈ s.allocs, a.toNat + n ≤ x.addr.toNat ∨ x.addr.toNat + x.size ≤ a.toNat) ∧
    (∀ p k, operandBuffer s = (p, k) → k = 0 ∨ a.toNat + n ≤ p ∨ p + k ≤ a.toNat) ∧
    t = { s with allocs := s.allocs ++ [⟨a, n, o⟩], env := t.env } := by
  obtain ⟨hadm, ht⟩ := of_alloc_some h
  rw [admissible_nextAllocAnswer, admissible_iff] at hadm
  obtain ⟨h0, h4, hin, happart, hop⟩ := hadm
  refine ⟨h0, h4, hin, happart, fun p k hpk => by rwa [hpk] at hop, ?_⟩
  rw [ht, nextAllocAnswer_frame]
  rfl

/-- A store by HOST or UP that meets none of the block's buffers. -/
theorem memStore_stores (s : State) (a : Word) (bs : List Byte) (hin : a.toNat + bs.length ≤ 2 ^ 32)
    (hout : ∀ x ∈ s.allocs, x.owner = .host ∨ x.owner = .up ∨
      a.toNat + bs.length ≤ x.addr.toNat ∨ x.addr.toNat + x.size ≤ a.toNat) (hwf : Memory.wf s = true) :
    ∃ t, agentStep (.memStore a bs) s = .next t ∧ SameMemoryExcept a.toNat bs.length s t ∧
      t.allocs = s.allocs ∧ t.dev = s.dev ∧ t.mreg = s.mreg ∧
      (∀ p k, operandBuffer s = (p, k) → ∀ i, i < bs.length → k = 0 ∨ a.toNat + i < p ∨ p + k ≤ a.toNat + i →
        hbyte t (a.toNat + i) = bs.getD i 0) := by
  simp only [Memory.wf, Bool.and_eq_true] at hwf
  obtain ⟨⟨hcells, -⟩, -⟩ := hwf
  refine ⟨_, congrArg Host.Outcome.next ((memStore_eq a bs s).trans (if_pos ⟨hin, hout⟩)),
    storeOutside_keeps_rest a.toNat hcells, storeOutside_allocs _ _ _, storeOutside_dev _ _ _, storeOutside_mreg _ _ _,
    fun p k hpk i hi hapart => ?_⟩
  refine hbyte_storeOutside hcells (by rw [hmemSize]; omega) hi ((meetsOperand_eq_false_iff s _ 1).mpr ?_)
  rw [hpk]
  exact hapart

/-- Settles O34: ALLOC by its two outcomes, stores and releases by their conditions, construction by induction on the
answers taken. -/
theorem ownership : Obligations.Ownership := by
  refine ⟨alloc_answers, fun s t n o h => ?_, fun _ _ => rfl,
    fun s a bs _ => ⟨fun h => congrArg Host.Outcome.next (memStore_nothing h), memStore_stores s a bs⟩,
    fun s a => ⟨fun h => congrArg Host.Outcome.next (releaseBuf_of_given h),
      fun h => congrArg Host.Outcome.next (releaseBuf_of_not_given h)⟩,
    fun c answers => ⟨fun hv => ?_, fun hv e => construct_error hv, ?_, fun s => construct_ok⟩⟩
  · rw [of_alloc_none h]
    exact nextAllocAnswer_frame s
  · rw [construct, hv]
    rfl
  · rintro hv sizes as rfl hadm hans
    refine ⟨construct_rolls_back hv hadm hans, fun hall => ?_⟩
    exact ⟨_, construct_succeeds hv hadm hans hall, rfl, fun hbus => placeBuffers_bus hbus as,
      fun hdma => placeBuffers_dma hdma hall, rfl⟩

/-! ## One step keeps the invariants (R22, R29) -/

section
variable {c : CtxId} {s t : State}

/-- `Keeps .H` asks what `Keeps .W` asks but for what the worker leaves alone, so steps of both can follow one another. -/
theorem Keeps.toHost (h : Keeps c s t) : Keeps .H s t :=
  { h with own := fun e => nomatch e }

theorem ensures_mono {o : Out} {P Q : State → Prop} (h : Ensures o P) (hpq : ∀ t, P t → Q t) : Ensures o Q :=
  fun t ht => hpq t (h t ht)

/-- What keeps the invariants after steps that kept them keeps them from the start. -/
theorem ensures_after {o : Out} (h : Keeps .H s t) (ho : Ensures o (Keeps .H t)) : Ensures o (Keeps .H s) :=
  ensures_mono ho fun _ => h.trans

theorem ensures_agentStep_host (a : AgentStep) (hh : HostPc s) (hw : WorkerConfined s) :
    Ensures (agentStep a s) (Keeps .H s) :=
  ensures_mono (ensures_agentStep a hh hw) fun _ => Keeps.toHost

theorem keeps_takeEntry (rest : List Event) : Keeps c s { s with agenda := rest } := Keeps.aside rfl

theorem keeps_loadFrame (bs : List Byte) : Keeps c s (loadFrame bs s) := by
  unfold loadFrame
  split
  · exact Keeps.aside rfl
  · exact Keeps.refl

theorem ensures_advance (hh : HostPc s) (hw : WorkerConfined s) : Ensures (advance s) (Keeps .H s) := by
  unfold advance
  split
  · exact ensures_ctxStep .H hh
  · exact ensures_mono (ensures_ctxStep .W hw) fun _ => Keeps.toHost

theorem ensures_callLoop (n : Nat) (hh : HostPc s) (hw : WorkerConfined s) : Ensures (callLoop n s) (Keeps .H s) := by
  induction n generalizing s with
  | zero => exact ensures_next Keeps.refl
  | succ n ih =>
    have htail : ∀ t, Keeps .H s t → Ensures (callLoop n t) (Keeps .H s) := fun t ht =>
      ensures_after ht (ih (ht.host hh) (ht.worker hw))
    unfold callLoop
    split
    · exact ensures_next Keeps.refl
    · split
      · exact ensures_andThen (ensures_after (keeps_takeEntry _) (ensures_agentStep_host _ hh hw)) htail
      · exact ensures_andThen (ensures_advance hh hw) htail

theorem ensures_hostCall (m : Op) (i : Instr) (hh : HostPc s) (hw : WorkerConfined s) :
    Ensures (hostCall m i s) (Keeps .H s) :=
  ensures_andThen (ensures_issue m i) fun _ ht => ensures_after ht (ensures_callLoop _ (ht.host hh) (ht.worker hw))

theorem ensures_exec (i : Instr) (hh : HostPc s) (hw : WorkerConfined s) : Ensures (exec i s) (Keeps .H s) := by
  cases i
  case busRegRd reg => exact ensures_frameRegRd reg
  case busRegWr reg d => exact ensures_frameRegWr reg d
  case busBlkRd reg => exact ensures_frameBlkRd reg
  case busBlkWr reg => exact ensures_frameBlkWr reg
  all_goals exact ensures_hostCall _ _ hh hw

theorem ensures_runWord (w : Word) (hh : HostPc s) (hw : WorkerConfined s) : Ensures (runWord w s) (Keeps .H s) := by
  unfold runWord
  split
  · exact ensures_exec _ hh hw
  · exact ensures_issueWord w

theorem ensures_runFrame (bs : List Byte) (hh : HostPc s) (hw : WorkerConfined s) :
    Ensures (runFrame bs s) (Keeps .H s) := by
  have hload := keeps_loadFrame (c := .H) (s := s) bs
  unfold runFrame
  split
  · exact ensures_after hload (ensures_exec _ (hload.host hh) (hload.worker hw))
  · exact ensures_refused

theorem ensures_takeEvent (e : Event) (hh : HostPc s) (hw : WorkerConfined s) : Ensures (takeEvent e s) (Keeps .H s) := by
  cases e with
  | call w => exact ensures_runWord w hh hw
  | frame bs => exact ensures_runFrame bs hh hw
  | agent a => exact ensures_agentStep_host a hh hw

theorem ensures_idleStep (hh : HostPc s) (hw : WorkerConfined s) : Ensures (idleStep s) (Keeps .H s) := by
  unfold idleStep
  split
  · exact ensures_next Keeps.refl
  · split
    · exact ensures_advance hh hw
    · split
      · exact ensures_next keeps_irqHandler
      · exact ensures_mono (ensures_ctxStep .W hw) fun _ => Keeps.toHost

/-- ONE STEP OF THE MACHINE. -/
theorem ensures_step (hh : HostPc s) (hw : WorkerConfined s) : Ensures (step s) (Keeps .H s) := by
  unfold step
  split
  · exact ensures_after (keeps_takeEntry _) (ensures_takeEvent _ hh hw)
  · exact ensures_idleStep hh hw

end

/-- Settles O60: whatever the step runs, it keeps every invariant at once. -/
theorem stepKeeps : Obligations.StepKeeps := by
  intro s t hh hw hstep
  have h : Keeps .H s t := ensures_step hh hw t hstep
  exact ⟨h.host hh, h.worker hw, h.cfg, h.mem, h.fixed, h.cursors, h.lock, h.places, by rw [h.cfg]; exact h.code⟩

end Sys2Proof.Machine

/-! PROOFS, family 20_memory. The receive ring and its ports, the staging memory and the transmit request, the bare bus frames,
the frame that arrives, and TX_FRAME under BUS. -/

namespace Sys2Proof.Machine

/-! ## The ring (R77, R79) -/

section
variable {c : Config} {a : Nat}

/-- Going round the ring is one remainder, inside the ring too. -/
theorem ringWrap_eq (ha : c.rxMemStart ≤ a) :
    ringWrap c a = c.rxMemStart + (a - c.rxMemStart) % (c.rxMemEnd - c.rxMemStart) := by
  rw [ringWrap, ringSize]
  split
  · rw [Nat.mod_eq_of_lt (by omega)]
    omega
  · rfl

theorem ringWrap_add (ha : c.rxMemStart ≤ a) (i : Nat) :
    ringWrap c (a + i) = c.rxMemStart + (a - c.rxMemStart + i) % (c.rxMemEnd - c.rxMemStart) := by
  rw [ringWrap_eq (Nat.le_add_right_of_le ha), Nat.sub_add_comm ha]

/-- The ring's bytes counted from an address are all different. -/
theorem ringWrap_add_inj (ha : c.rxMemStart ≤ a) {i j : Nat} (hi : i < ringSize c) (hj : j < ringSize c)
    (h : ringWrap c (a + i) = ringWrap c (a + j)) : i = j := by
  rw [ringWrap_add ha, ringWrap_add ha] at h
  have hmod := Nat.add_left_cancel h
  have hij := Nat.sub_mod_eq_zero_of_mod_eq hmod
  have hji := Nat.sub_mod_eq_zero_of_mod_eq hmod.symm
  rw [ringSize] at hi hj
  rw [Nat.add_sub_add_left, Nat.mod_eq_of_lt (by omega)] at hij hji
  omega

theorem ringWrap_mem_ring (hne : c.rxMemStart < c.rxMemEnd) (ha : c.rxMemStart ≤ a) :
    c.rxMemStart ≤ ringWrap c a ∧ ringWrap c a < c.rxMemEnd :=
  (inRing_iff c _).mp (inRing_ringWrap hne ha)

/-- A cursor in the ring fits its 16 bits. -/
theorem toNat_ofNat_cursor (hend : c.rxMemEnd ≤ 0x10000) (ha : a < c.rxMemEnd) : (BitVec.ofNat 16 a).toNat = a := by
  rw [BitVec.toNat_ofNat, Nat.mod_eq_of_lt (by omega)]

theorem get_storeRing_other {m : Cells 8} (h : Cells.wf m = true) (bs : List Byte) {k : Nat}
    (hk : ∀ i, i < bs.length → k ≠ ringWrap c (a + i)) : Cells.get (storeRing c m a bs) k = Cells.get m k := by
  induction bs generalizing m a with
  | nil => rfl
  | cons b bs ih =>
    have hb : k ≠ ringWrap c a := hk 0 (Nat.zero_lt_succ _)
    rw [storeRing, ih (Cells.wf_set h _ _), Cells.get_set h, if_neg hb]
    intro i hi
    rw [Nat.add_assoc, Nat.add_comm 1]
    exact hk (i + 1) (Nat.succ_lt_succ hi)

theorem get_storeRing_same {m : Cells 8} (h : Cells.wf m = true) (ha : c.rxMemStart ≤ a) {bs : List Byte}
    (hlen : bs.length ≤ ringSize c) {i : Nat} (hi : i < bs.length) :
    Cells.get (storeRing c m a bs) (ringWrap c (a + i)) = bs.getD i 0 := by
  induction bs generalizing m a i with
  | nil => cases hi
  | cons b bs ih =>
    have hlen' : bs.length + 1 ≤ ringSize c := hlen
    cases i with
    | zero =>
      rw [storeRing, get_storeRing_other (Cells.wf_set h _ _), Cells.get_set h, Nat.add_zero, if_pos rfl]
      · rfl
      · intro j hj heq
        rw [Nat.add_assoc] at heq
        have := ringWrap_add_inj ha (by omega) (by omega) heq
        omega
    | succ i =>
      rw [storeRing, ← Nat.add_assoc, Nat.add_right_comm, List.getD_cons_succ]
      exact ih (Cells.wf_set h _ _) (Nat.le_add_right_of_le ha) (by omega) (Nat.lt_of_succ_lt_succ hi)

end

/-! ## The receive ports (R65, R79) -/

section
variable {s : State} {n : Nat}

theorem blockLength_of {n : Nat} (h1 : 1 ≤ n) (h2 : n ≤ 65535) : blockLength n = true := by
  rw [blockLength, decide_eq_true h1, decide_eq_true h2]
  rfl

theorem blockLength_bad {n : Nat} (h : n = 0 ∨ 65535 < n) : blockLength n = false := by
  rw [blockLength, Bool.and_eq_false_iff, decide_eq_false_iff_not, decide_eq_false_iff_not]
  omega

theorem peekBytes_length (n : Nat) (s : State) : (peekBytes n s).length = n := by
  rw [peekBytes, List.length_map, List.length_range]

theorem peekBytes_getD (hrp : s.cfg.rxMemStart ≤ s.dev.rxRp.toNat) {i : Nat} (hi : i < n) :
    (peekBytes n s).getD i 0 = rxByte s (s.cfg.rxMemStart +
      (s.dev.rxRp.toNat - s.cfg.rxMemStart + i) % (s.cfg.rxMemEnd - s.cfg.rxMemStart)) := by
  rw [← ringWrap_add hrp, peekBytes, List.getD_eq_getElem?_getD, List.getElem?_map, List.getElem?_range hi,
    Option.map_some, Option.getD_some]

theorem portPeek_autoReturn (h : autoReturn s = true) : portPeek n s = .ok (peekBytes n s, s) := by
  rw [portPeek, h]
  rfl

theorem portTake_autoReturn (h : autoReturn s = true) :
    portTake n s = .ok (peekBytes n s, moveCursor (ringWrap s.cfg (s.dev.rxRp.toNat + n)) s) := by
  rw [portTake, h]
  rfl

/-- U13. -/
theorem portPeek_refused (h : s.cfg.rxMemEnd < s.dev.rxRp.toNat + n) (ha : autoReturn s = false) :
    portPeek n s = .error .wrapWithoutAutoReturn := by
  rw [portPeek, ha, decide_eq_true h]
  rfl

theorem devBlockReadRaw_rxPeekN (hn : blockLength n = true) : devBlockReadRaw .rxPeekN n s = portPeek n s := if_pos hn

theorem devBlockReadRaw_rxData (hn : blockLength n = true) : devBlockReadRaw .rxData n s = portTake n s := if_pos hn

theorem devBlockRead_of_not_resetting (h : resetting s = false) (r : CReg) :
    devBlockRead r n s = devBlockReadRaw r n s := by
  rw [devBlockRead, h]
  cases devBlockReadRaw r n s <;> rfl

theorem devBlockRead_of_error {r : CReg} {e : Refusal} (h : devBlockReadRaw r n s = .error e) :
    devBlockRead r n s = .error e := by
  rw [devBlockRead, h]

/-- A port takes no block of another length, in a reset or not. -/
theorem devBlockRead_badLength {r : CReg} (hr : r = .rxPeekN ∨ r = .rxData) (hn : n = 0 ∨ 65535 < n) :
    devBlockRead r n s = .error .blockFrameForm := by
  have hb := blockLength_bad hn
  rcases hr with rfl | rfl <;> exact devBlockRead_of_error (if_neg (Bool.eq_false_iff.mp hb))

theorem devBlockWrite_txData {bs : List Byte} (hne : bs ≠ []) (hlen : bs.length ≤ 65535) :
    devBlockWrite .txData bs s = .ok (stageTx bs s) := by
  cases bs with
  | nil => exact absurd rfl hne
  | cons b bs => exact if_pos (blockLength_of (Nat.succ_pos _) hlen)

theorem devBlockWrite_txData_badLength {bs : List Byte} (hn : bs = [] ∨ 65535 < bs.length) :
    devBlockWrite .txData bs s = .error .blockFrameForm := by
  cases bs with
  | nil => rfl
  | cons b bs =>
    have hlen := hn.resolve_left (List.cons_ne_nil _ _)
    exact if_neg (Bool.eq_false_iff.mp (blockLength_bad (.inr hlen)))

theorem rxMem_wf (hm : Memory.wf s = true) : Cells.wf s.dev.rxMem = true := by
  simp only [Memory.wf, Bool.and_eq_true] at hm
  exact hm.1.2

/-- What `RST_RX` leaves of the receive side. -/
theorem resetRxPointer_cursors (hc : CursorsInRing s) (hm : Memory.wf s = true) :
    (resetRxPointer s).dev.rxRp.toNat = s.cfg.rxMemStart ∧ (resetRxPointer s).dev.rxWp.toNat = s.cfg.rxMemStart ∧
    ∀ a, Cells.get (resetRxPointer s).dev.rxMem a = if a = s.cfg.rxMemStart then 0 else Cells.get s.dev.rxMem a := by
  obtain ⟨hne, hend, -, -⟩ := hc
  have hstart := toNat_ofNat_cursor hend hne
  exact ⟨hstart, hstart, fun a => Cells.get_set (rxMem_wf hm) _ _ a⟩

end

/-- The receive side after a write of `PTR_CTRL`: bit 0 is `RST_RX`. -/
def rxReset (b : Byte) (s : State) : State := if b.getLsbD 0 then resetRxPointer s else s

theorem devWrite_ptrCtrl (b : Byte) (s : State) : devWrite .ptrCtrl b s = .ok { rxReset b s with
    dev := { (rxReset b s).dev with
      txStage := if b.getLsbD 1 then [] else s.dev.txStage
      ptrCtrl := b &&& 0xFC } } := by
  rw [devWrite, rxReset]
  cases b.getLsbD 0 <;> cases b.getLsbD 1 <;> rfl

/-- Settles O11: a port's bytes go round the ring by one remainder, its refusals come before any other effect. -/
theorem receivePorts : Obligations.ReceivePorts := by
  refine ⟨?_, ?_, ?_, ?_, ?_⟩
  · intro s n hq h1 hn hc ha
    obtain ⟨hne, hend, hrp, -⟩ := hc
    have hrp := le_of_inRing hrp
    have hb := blockLength_of h1 hn
    refine ⟨peekBytes n s, peekBytes_length n s, fun i hi => peekBytes_getD hrp hi, ?_,
      moveCursor (ringWrap s.cfg (s.dev.rxRp.toNat + n)) s, ?_, rfl, ?_, rfl⟩
    · rw [devBlockRead_of_not_resetting hq, devBlockReadRaw_rxPeekN hb, portPeek_autoReturn ha]
    · rw [devBlockRead_of_not_resetting hq, devBlockReadRaw_rxData hb, portTake_autoReturn ha]
    · rw [← ringWrap_add hrp]
      exact toNat_ofNat_cursor hend (ringWrap_mem_ring hne (Nat.le_add_right_of_le hrp)).2
  · intro s n h1 hn ha
    have hb := blockLength_of h1 hn
    exact ⟨fun h => devBlockRead_of_error ((devBlockReadRaw_rxPeekN hb).trans (portPeek_refused h ha)),
      fun h => devBlockRead_of_error ((devBlockReadRaw_rxData hb).trans (portTake_refused h ha))⟩
  · intro s b
    refine ⟨_, devWrite_ptrCtrl b s, rfl, fun h0 hc hm => ?_, fun h0 => ?_, fun h1 => if_pos h1,
      fun h1 => if_neg (Bool.eq_false_iff.mp h1)⟩
    · obtain ⟨hrp, hwp, hmem⟩ := resetRxPointer_cursors hc hm
      rw [rxReset, if_pos h0]
      exact ⟨hrp, hwp, (hmem _).trans (if_pos rfl), fun a ha => (hmem a).trans (if_neg ha)⟩
    · rw [rxReset, if_neg (Bool.eq_false_iff.mp h0)]
      exact ⟨rfl, rfl, rfl, rfl⟩
  · intro s a hv ha
    rw [glitch, if_pos ⟨hv, ha⟩, moveCursor, BitVec.ofNat_toNat, BitVec.setWidth_eq]
  · rintro s n bs hn rfl
    exact ⟨devBlockRead_badLength (.inl rfl) hn, devBlockRead_badLength (.inr rfl) hn,
      devBlockWrite_txData_badLength (hn.imp_left List.eq_nil_of_length_eq_zero)⟩

/-! ## The transmit request (R80; 10_state.md R37; 45_mac_interface.md R272) -/

section
variable {s : State} {b : Byte}

theorem setBit_getLsbD (b : Byte) : (b ||| 0x01).getLsbD 0 = true := by
  rw [BitVec.getLsbD_or]
  exact Bool.or_true _

theorem clearBit_getLsbD (b : Byte) : (b &&& 0xFE).getLsbD 0 = false := by
  rw [BitVec.getLsbD_and]
  exact Bool.and_false _

theorem or_one_of_getLsbD_zero (h : b.getLsbD 0 = true) : b ||| 1 = b := by
  revert b
  decide

theorem devWrite_txCtrl_request (hb : b.getLsbD 0 = true) (hq : s.dev.txCtrl.getLsbD 0 = false) :
    devWrite .txCtrl b s = .ok (requestTx b s) := by
  rw [devWrite, hb, hq]
  rfl

theorem devWrite_txCtrl_busy (hq : s.dev.txCtrl.getLsbD 0 = true) :
    devWrite .txCtrl b s = .ok { s with dev.txCtrl := b ||| 0x01 } := by
  have hbit : s.dev.txCtrl &&& 1 = 1 := by
    generalize s.dev.txCtrl = c at hq
    revert c
    decide
  rw [devWrite, hq, Bool.not_true, Bool.and_false, hbit]
  rfl

/-- The frame that a request latches: what was staged, then bytes of any value. -/
def latchedFrame (s : State) : List Byte :=
  s.dev.txStage.take (txLen s.dev) ++ (drawBytes (txLen s.dev - (s.dev.txStage.take (txLen s.dev)).length) s).1

theorem requestTx_eq (b : Byte) (s : State) : requestTx b s = { s with
    dev := { s.dev with txLatched := some (latchedFrame s), txStage := [], txCtrl := b ||| 1 }
    env.free := s.env.free + (txLen s.dev - (s.dev.txStage.take (txLen s.dev)).length) } := rfl

theorem drawBytes_length (n : Nat) (s : State) : (drawBytes n s).1.length = n := by
  rw [drawBytes, List.length_map, List.length_range]

theorem latchedFrame_length (s : State) : (latchedFrame s).length = txLen s.dev := by
  rw [latchedFrame, List.length_append, drawBytes_length, List.length_take]
  omega

/-- The bytes of the latched frame that were staged are the staged ones. -/
theorem latchedFrame_take (s : State) :
    (latchedFrame s).take s.dev.txStage.length = s.dev.txStage.take (txLen s.dev) := by
  rw [latchedFrame]
  rcases Nat.le_total (txLen s.dev) s.dev.txStage.length with h | h
  · rw [List.length_take, Nat.min_eq_left h, Nat.sub_self, drawBytes, List.range_zero, List.map_nil, List.append_nil,
      List.take_take, Nat.min_eq_right h]
  · rw [List.take_of_length_le h, List.take_left]

theorem fill_eq_zero (h : txLen s.dev ≤ s.dev.txStage.length) :
    txLen s.dev - (s.dev.txStage.take (txLen s.dev)).length = 0 := by
  rw [List.length_take, Nat.min_eq_left h, Nat.sub_self]

/-- Where all of the frame is staged, the latched frame needs no byte of any value. -/
theorem latchedFrame_staged (h : txLen s.dev ≤ s.dev.txStage.length) :
    latchedFrame s = s.dev.txStage.take (txLen s.dev) := by
  rw [latchedFrame, fill_eq_zero h]
  exact List.append_nil _

/-! ### `TxComplete` -/

theorem setInt_frame (stat mask : Byte) (s : State) : setInt stat mask s = { s with
    dev := { s.dev with intStat := stat, intMask := mask }
    flags.irqPend := (setInt stat mask s).flags.irqPend } := by
  rw [← (pinLatches_setInt stat mask s).1]
  rfl

/-- Causes that DEV may set are bits 5:1. -/
theorem causes_mask (b : Byte) : b &&& 0x3E &&& 0x3F = b &&& 0x3E := by
  rw [BitVec.and_assoc]
  rfl

theorem setCause_frame (b : Byte) (s : State) : setCause b s = { s with
    dev := { s.dev with intStat := s.dev.intStat ||| (b &&& 0x3F) }
    flags.irqPend := (setCause b s).flags.irqPend } := setInt_frame _ _ s

theorem depart_frame (frame : List Byte) (s : State) : depart frame s = { s with
    trace := s.trace ++ [.sent frame]
    env := (depart frame s).env } := by
  unfold depart
  simp only
  split <;> rfl

theorem depart_env_off (frame : List Byte) (h : s.cfg.loopback = false) : (depart frame s).env = s.env := by
  rw [depart, observe_cfg, h]
  rfl

theorem depart_env_loopback (frame : List Byte) (h : s.cfg.loopback = true) :
    (depart frame s).env = { s.env with
      offers := s.env.offers ++ [(frame ++ (drawBytes s.cfg.crcLen s).1, 0x00)]
      free := s.env.free + s.cfg.crcLen } := by
  rw [depart, observe_cfg, h]
  rfl

theorem txComplete_idle (causes : Byte) (h : s.dev.txCtrl.getLsbD 0 = false) : txComplete causes s = s :=
  if_neg fun ⟨_, hq⟩ => by rw [h] at hq; cases hq

/-- What `TxComplete` makes of the machine, `env` being the environment's part and `p` the latch of the pin. -/
def frameGone (causes : Byte) (env : Env) (p : Bool) (s : State) : State :=
  { s with
    dev := { s.dev with
      txCtrl := s.dev.txCtrl &&& 0xFE, txLatched := none, intStat := s.dev.intStat ||| (causes &&& 0x3E) }
    trace := s.trace ++ [.sent (s.dev.txLatched.getD [])]
    env := env
    flags.irqPend := p }

theorem txComplete_eq (causes : Byte) (hv : s.cfg.variant = .bus) (h : s.dev.txCtrl.getLsbD 0 = true) :
    txComplete causes s =
      frameGone causes (depart (s.dev.txLatched.getD []) s).env (txComplete causes s).flags.irqPend s := by
  have hc : txComplete causes s = setCause (causes &&& 0x3E) { depart (s.dev.txLatched.getD []) s with
      dev := { s.dev with txCtrl := s.dev.txCtrl &&& 0xFE, txLatched := none } } := by
    rw [txComplete, if_pos ⟨hv, h⟩]
    simp only [depart_dev]
  rw [hc, setCause_frame, causes_mask]
  generalize (setCause (causes &&& 0x3E) _).flags.irqPend = p
  rw [depart_frame]
  rfl

end

/-- Settles O12: a request latches `latchedFrame`; `TxComplete` is a departure and a change of the pin's inputs. -/
theorem transmitStaging : Obligations.TransmitStaging := by
  refine ⟨fun s bytes hne hlen => devBlockWrite_txData hne hlen, ?_, fun s b hq => devWrite_txCtrl_busy hq, ?_⟩
  · rintro s b n hb hq rfl
    refine ⟨latchedFrame s, _, ?_, latchedFrame_length s, latchedFrame_take s, fill_eq_zero⟩
    rw [devWrite_txCtrl_request hb hq, requestTx_eq, or_one_of_getLsbD_zero hb]
  · intro s frame causes hv
    refine ⟨fun hq => congrArg _ (txComplete_idle causes hq), fun hq hf => ⟨_, rfl, ?_⟩⟩
    have ht := txComplete_eq causes hv hq
    rw [frameGone, hf] at ht
    rw [ht]
    exact ⟨rfl, rfl, depart_env_off frame, fun hl => ⟨_, drawBytes_length _ s, depart_env_loopback frame hl⟩, rfl,
      rfl⟩

/-! ## A frame arrives (R77; 60_exceptions.md R311) -/

section
variable {s : State} {frame : List Byte} {st causes : Byte}

/-- The free bytes counted directly: from the write cursor forward to the read cursor. -/
theorem ringFree_eq (hc : CursorsInRing s) : ringFree s =
    if s.dev.rxWp.toNat < s.dev.rxRp.toNat then s.dev.rxRp.toNat - s.dev.rxWp.toNat
    else ringSize s.cfg - (s.dev.rxWp.toNat - s.dev.rxRp.toNat) := by
  obtain ⟨hne, -, hrp, hwp⟩ := hc
  rw [inRing_iff] at hrp hwp
  have hsize : s.cfg.rxMemStart + ringSize s.cfg = s.cfg.rxMemEnd := by rw [ringSize]; omega
  rw [ringFree, ringUsed]
  split
  · rw [Nat.mod_eq_of_lt (by omega)]
    omega
  · have hadd : s.dev.rxWp.toNat + ringSize s.cfg - s.dev.rxRp.toNat =
        s.dev.rxWp.toNat - s.dev.rxRp.toNat + ringSize s.cfg := by omega
    rw [hadd, Nat.add_mod_right, Nat.mod_eq_of_lt (by omega)]

theorem ringFree_le (s : State) : ringFree s ≤ ringSize s.cfg := Nat.sub_le _ _

theorem frameArrive_disabled (h : s.dev.rxCtrl.getLsbD 0 = false) : frameArrive frame st causes s = s :=
  if_neg fun ⟨_, hen, _⟩ => by rw [h] at hen; cases hen

theorem offerArrives_disabled (hv : s.cfg.variant = .bus) (h : s.dev.rxCtrl.getLsbD 0 = false) :
    offerArrives causes s = s := by
  unfold offerArrives
  split
  · rfl
  · rw [hv, h]
    rfl

theorem offerArrives_enabled {rest : List (List Byte × Byte)} (hv : s.cfg.variant = .bus)
    (ho : s.env.offers = (frame, st) :: rest) (h : s.dev.rxCtrl.getLsbD 0 = true) :
    offerArrives causes s = frameArrive frame st causes { s with env.offers := rest } := by
  rw [offerArrives, ho, hv, h]
  rfl

/-- The ring with a frame of `frame` and its header stored at the write cursor, and 0 at the cursor that follows it. -/
def storedRing (frame : List Byte) (st : Byte) (s : State) : Cells 8 :=
  Cells.set (storeRing s.cfg s.dev.rxMem s.dev.rxWp.toNat (frameHeader st frame.length ++ frame))
    (ringWrap s.cfg (s.dev.rxWp.toNat + (4 + frame.length))) 0

theorem frameArrive_dropped (hv : s.cfg.variant = .bus) (hen : s.dev.rxCtrl.getLsbD 0 = true)
    (hlen : 1 ≤ frame.length) (hroom : ringFree s < frame.length + 5) : frameArrive frame st causes s =
    setCause (causes &&& 0x3E) { s with dev.rxDropped := s.dev.rxDropped + 1 } := by
  rw [frameArrive, if_pos ⟨hv, hen, hlen⟩, if_pos (by omega), dropFrame]

/-- The controller with a frame stored and the write cursor past it. -/
def frameStored (frame : List Byte) (st : Byte) (s : State) : State := { s with dev := { s.dev with
  rxMem := storedRing frame st s
  rxWp := BitVec.ofNat 16 (ringWrap s.cfg (s.dev.rxWp.toNat + (4 + frame.length))) } }

theorem frameArrive_stored (hv : s.cfg.variant = .bus) (hen : s.dev.rxCtrl.getLsbD 0 = true)
    (hlen : 1 ≤ frame.length) (hroom : frame.length + 5 ≤ ringFree s) : frameArrive frame st causes s =
    setCause 0x01 (frameStored frame st s) := by
  rw [frameArrive, if_pos ⟨hv, hen, hlen⟩, if_neg (by omega), frameStored, storedRing]
  simp only [Nat.add_assoc]

theorem frame_bytes_length (frame : List Byte) (st : Byte) :
    (frameHeader st frame.length ++ frame).length = 4 + frame.length := List.length_append

/-- Which byte of the ring is what, where the frame leaves one byte of the ring at least. -/
theorem get_storedRing (hm : Cells.wf s.dev.rxMem = true) (hwp : s.cfg.rxMemStart ≤ s.dev.rxWp.toNat)
    (hroom : frame.length + 5 ≤ ringSize s.cfg) {i : Nat} (hi : i < ringSize s.cfg) :
    Cells.get (storedRing frame st s) (ringWrap s.cfg (s.dev.rxWp.toNat + i)) =
      if i < 4 + frame.length then (frameHeader st frame.length ++ frame).getD i 0
      else if i = 4 + frame.length then 0
      else Cells.get s.dev.rxMem (ringWrap s.cfg (s.dev.rxWp.toNat + i)) := by
  have hlen := frame_bytes_length frame st
  have hstop : ringWrap s.cfg (s.dev.rxWp.toNat + i) = ringWrap s.cfg (s.dev.rxWp.toNat + (4 + frame.length)) ↔
      i = 4 + frame.length := ⟨ringWrap_add_inj hwp hi (by omega), fun h => by rw [h]⟩
  rw [storedRing, Cells.get_set (storeRing_wf _ _ _ hm)]
  simp only [hstop]
  split
  · rw [if_neg (by omega)]
  · split
    · exact get_storeRing_same hm hwp (by omega) (by omega)
    · refine get_storeRing_other hm _ fun j hj heq => ?_
      have := ringWrap_add_inj hwp hi (by omega) heq
      omega

theorem get_storedRing_outside (hm : Cells.wf s.dev.rxMem = true) (hne : s.cfg.rxMemStart < s.cfg.rxMemEnd)
    (hwp : s.cfg.rxMemStart ≤ s.dev.rxWp.toNat) {a : Nat} (ha : a < s.cfg.rxMemStart ∨ s.cfg.rxMemEnd ≤ a) :
    Cells.get (storedRing frame st s) a = Cells.get s.dev.rxMem a := by
  have hother (i : Nat) : a ≠ ringWrap s.cfg (s.dev.rxWp.toNat + i) := by
    have := ringWrap_mem_ring hne (Nat.le_add_right_of_le (k := i) hwp)
    omega
  rw [storedRing, Cells.get_set (storeRing_wf _ _ _ hm), if_neg (hother _)]
  exact get_storeRing_other hm _ fun i _ => hother i

/-- `PR` makes the pin active where it was not exactly when its mask bit is 1. -/
theorem present_activates (x m : Byte) (h : x &&& m &&& 0x3F = 0) :
    (x ||| 0x01) &&& m &&& 0x3F ≠ 0 ↔ m.getLsbD 0 = true := by
  rw [BitVec.and_assoc] at h ⊢
  rw [BitVec.and_or_distrib_right, h]
  clear h
  revert m
  decide

end

/-- Settles O37: a stored frame takes the ring's bytes 0 to 3 + length, counted from the write cursor, and the 0 after it
the next one. -/
theorem frameArrives : Obligations.FrameArrives := by
  rintro s frame st causes size free hv hc hm hlen rfl rfl
  have hfree := ringFree_eq hc
  rw [ringSize] at hfree
  rw [← hfree]
  refine ⟨fun hoff => ⟨congrArg _ (frameArrive_disabled hoff), congrArg _ (offerArrives_disabled hv hoff)⟩,
    fun hen hroom => ⟨_, rfl, ?_⟩, fun hen hroom => ⟨_, rfl, ?_⟩,
    fun rest ho hen => congrArg _ (offerArrives_enabled hv ho hen)⟩
  · rw [frameArrive_dropped hv hen hlen hroom, setCause_frame, causes_mask]
    exact ⟨rfl, rfl⟩
  · obtain ⟨hne, hend, -, hwp⟩ := hc
    have hwp := le_of_inRing hwp
    have hrx := rxMem_wf hm
    have hfit : frame.length + 5 ≤ ringSize s.cfg := Nat.le_trans hroom (ringFree_le s)
    have hcur := toNat_ofNat_cursor hend (ringWrap_mem_ring hne (Nat.le_add_right_of_le (k := 4 + frame.length) hwp)).2
    rw [frameArrive_stored hv hen hlen hroom]
    simp only [Nat.add_assoc, ← ringWrap_add hwp]
    have hget {i : Nat} (hi : i < ringSize s.cfg) := get_storedRing (frame := frame) (st := st) hrx hwp hfit hi
    refine ⟨hcur, fun i hi => (hget (by omega)).trans (if_pos hi), ?_, fun i hi hsize => ?_,
      fun a => get_storedRing_outside hrx hne hwp, ?_, setCause_frame 0x01 (frameStored frame st s)⟩
    · refine (congrArg (Cells.get _) hcur).trans ((hget (by omega)).trans ?_)
      rw [if_neg (Nat.lt_irrefl _), if_pos rfl]
    · refine (hget hsize).trans ?_
      rw [if_neg (by omega), if_neg (by omega)]
      rfl
    · rw [(pinLatches_setCause 0x01 (frameStored frame st s)).2, intLineActive_eq_false_iff, intLineActive_iff]
      exact or_congr_right (and_congr_right fun _ => and_congr_right (present_activates _ _))

/-! ## The bare bus frames (30_encoding.md R99 to R101; 40_bus_access.md R126, R127, R132) -/

section
variable {s u : State} {reg : BitVec 7} {r : CReg} {b d : Byte} {e : Refusal} {n : Nat} {bytes : List Byte}

/-! ### Which accesses the controller takes -/

/-- Only the two ports that go round the ring can refuse a read. -/
theorem devReadRaw_ok (hp : r ≠ .rxPeekN) (hd : r ≠ .rxData) : ∃ b u, devReadRaw r s = .ok (b, u) := by
  cases r with
  | rxPeekN => exact absurd rfl hp
  | rxData => exact absurd rfl hd
  | _ => exact ⟨_, _, rfl⟩

/-- A register found at another register's index is that register; so one found elsewhere is another. -/
theorem ne_of_ofIndex {q : CReg} (hr : CReg.ofIndex s.cfg reg = some r) (hne : reg ≠ q.index s.cfg.cregs) : r ≠ q := by
  rintro rfl
  exact hne (index_of_ofIndex hr).symm

theorem devReadIdx_ok (hp : reg ≠ s.cfg.cregs.rxPeekN) (hd : reg ≠ s.cfg.cregs.rxData) :
    ∃ b u, devReadIdx reg s = .ok (b, u) := by
  unfold devReadIdx
  split
  · rename_i r hr
    obtain ⟨b, u, hraw⟩ := devReadRaw_ok (s := s) (ne_of_ofIndex (q := .rxPeekN) hr hp)
      (ne_of_ofIndex (q := .rxData) hr hd)
    unfold devRead
    rw [hraw]
    simp only
    split
    · exact ⟨_, _, rfl⟩
    · exact ⟨_, _, rfl⟩
  · exact ⟨_, _, rfl⟩

/-- Only the two registers that start something can refuse a write. -/
theorem devWrite_ok (hp : r ≠ .phyCmd) (hc : r ≠ .rxrpL) : ∃ u, devWrite r d s = .ok u := by
  cases r with
  | phyCmd => exact absurd rfl hp
  | rxrpL => exact absurd rfl hc
  | txCtrl =>
    unfold devWrite
    simp only
    split
    · exact ⟨_, rfl⟩
    · exact ⟨_, rfl⟩
  | _ => exact ⟨_, rfl⟩

theorem devWriteIdx_ok (hp : reg ≠ s.cfg.cregs.phyCmd) (hc : reg ≠ s.cfg.cregs.rxrpL) :
    ∃ u, devWriteIdx reg d s = .ok u := by
  unfold devWriteIdx
  split
  · rename_i r hr
    exact devWrite_ok (ne_of_ofIndex (q := .phyCmd) hr hp) (ne_of_ofIndex (q := .rxrpL) hr hc)
  · exact ⟨_, rfl⟩

/-! ### A block of one byte is the register frame; a longer one is for the ports (log 7) -/

theorem devBlockReadRaw_one (r : CReg) (s : State) :
    devBlockReadRaw r 1 s = (devReadRaw r s).map (fun x => ([x.1], x.2)) := by
  cases r with
  | rxPeekN =>
    rw [devBlockReadRaw_rxPeekN rfl, devReadRaw, portPeek]
    split <;> rfl
  | rxData =>
    rw [devBlockReadRaw_rxData rfl, devReadRaw, portTake]
    split <;> rfl
  | _ => rfl

theorem devBlockRead_one (r : CReg) (s : State) :
    devBlockRead r 1 s = (devRead r s).map (fun x => ([x.1], x.2)) := by
  rw [devBlockRead, devRead, devBlockReadRaw_one]
  cases devReadRaw r s with
  | error e => rfl
  | ok p =>
    simp only [Except.map]
    split <;> rfl

theorem devBlockRead_noPort (hp : r ≠ .rxPeekN) (hd : r ≠ .rxData) (hn : n ≠ 1) :
    devBlockRead r n s = .error .blockFrameForm := by
  refine devBlockRead_of_error ?_
  cases r with
  | rxPeekN => exact absurd rfl hp
  | rxData => exact absurd rfl hd
  | _ => exact if_neg hn

theorem devBlockWrite_one (r : CReg) (b : Byte) (s : State) : devBlockWrite r [b] s = devWrite r b s := by
  cases r <;> rfl

theorem devBlockWrite_noPort (hr : r ≠ .txData) (hlen : bytes.length ≠ 1) :
    devBlockWrite r bytes s = .error .blockFrameForm := by
  match bytes with
  | [] => rfl
  | [b] => exact absurd rfl hlen
  | b :: b' :: bs =>
    cases r with
    | txData => exact absurd rfl hr
    | _ => rfl

/-- The block read of a port delivers as many bytes as it is asked for, with auto-return on. -/
theorem devBlockRead_port_ok (hr : r = .rxPeekN ∨ r = .rxData) (h1 : 1 ≤ n) (h2 : n ≤ 65535)
    (ha : autoReturn s = true) : ∃ bytes u, devBlockRead r n s = .ok (bytes, u) ∧ bytes.length = n := by
  have hraw : ∃ u, devBlockReadRaw r n s = .ok (peekBytes n s, u) := by
    have hb := blockLength_of h1 h2
    rcases hr with rfl | rfl
    · exact ⟨_, (devBlockReadRaw_rxPeekN hb).trans (portPeek_autoReturn ha)⟩
    · exact ⟨_, (devBlockReadRaw_rxData hb).trans (portTake_autoReturn ha)⟩
  obtain ⟨u, hu⟩ := hraw
  rw [devBlockRead, hu]
  simp only
  split
  · exact ⟨_, _, rfl, drawBytes_length n u⟩
  · exact ⟨_, _, rfl, peekBytes_length n s⟩

/-! ### The four frames -/

theorem onBus_bus (hv : s.cfg.variant = .bus) (k : Out) : onBus s k = k := by
  rw [onBus, hv]

theorem onBus_dma (hv : s.cfg.variant = .dma) (k : Out) : onBus s k = .refused .noBusUnderDma := by
  rw [onBus, hv]

theorem frameRegRd_ok (hv : s.cfg.variant = .bus) (h : devReadIdx reg s = .ok (b, u)) : frameRegRd reg s =
    .next { u with trace := s.trace ++ [.regRd reg b], bus := { s.bus with inp := [b] } } := by
  have hd := devOnly_devReadIdx h
  rw [frameRegRd, onBus_bus hv, regReadIdx, h, accept_ok, ← hd.trace, ← hd.bus]
  rfl

theorem frameRegRd_error (hv : s.cfg.variant = .bus) (h : devReadIdx reg s = .error e) :
    frameRegRd reg s = .refused e := by
  rw [frameRegRd, onBus_bus hv, regReadIdx, h, accept_error]

theorem frameRegWr_ok (hv : s.cfg.variant = .bus) (h : devWriteIdx reg d s = .ok u) :
    frameRegWr reg d s = .next { u with trace := s.trace ++ [.regWr reg d] } := by
  rw [frameRegWr, onBus_bus hv, regWriteIdx, h, accept_ok, ← (devOnly_devWriteIdx h).trace]
  rfl

theorem frameRegWr_error (hv : s.cfg.variant = .bus) (h : devWriteIdx reg d s = .error e) :
    frameRegWr reg d s = .refused e := by
  rw [frameRegWr, onBus_bus hv, regWriteIdx, h, accept_error]

theorem frameBlkRd_of_index (hv : s.cfg.variant = .bus) (hr : CReg.ofIndex s.cfg reg = some r) : frameBlkRd reg s =
    blockRead r s.bus.want s fun bs s => .next { s with bus.inp := bs } := by
  rw [frameBlkRd, onBus_bus hv, hr]

theorem frameBlkRd_reserved (hv : s.cfg.variant = .bus) (hr : CReg.ofIndex s.cfg reg = none) : frameBlkRd reg s =
    if s.bus.want = 1 then frameRegRd reg s else .refused .blockFrameForm := by
  rw [frameBlkRd, frameRegRd, onBus_bus hv, onBus_bus hv, hr]

theorem frameBlkWr_of_index (hv : s.cfg.variant = .bus) (hr : CReg.ofIndex s.cfg reg = some r) : frameBlkWr reg s =
    blockWrite r s.bus.out s fun s => .next s := by
  rw [frameBlkWr, onBus_bus hv, hr]

theorem frameBlkWr_reserved_one (hv : s.cfg.variant = .bus) (hr : CReg.ofIndex s.cfg reg = none)
    (ho : s.bus.out = [d]) : frameBlkWr reg s = frameRegWr reg d s := by
  rw [frameBlkWr, frameRegWr, onBus_bus hv, onBus_bus hv, hr, ho]

theorem frameBlkWr_reserved_badForm (hv : s.cfg.variant = .bus) (hr : CReg.ofIndex s.cfg reg = none)
    (hlen : s.bus.out.length ≠ 1) : frameBlkWr reg s = .refused .blockFrameForm := by
  rw [frameBlkWr, onBus_bus hv, hr]
  simp only
  split
  · rename_i d ho
    rw [ho] at hlen
    exact absurd rfl hlen
  · rfl

theorem frameBlkRd_ok (hv : s.cfg.variant = .bus) (hr : CReg.ofIndex s.cfg reg = some r)
    (h : devBlockRead r s.bus.want s = .ok (bytes, u)) : frameBlkRd reg s =
    .next { u with trace := s.trace ++ [.blkRd reg bytes], bus := { s.bus with inp := bytes } } := by
  have hd := devOnly_devBlockRead h
  rw [frameBlkRd_of_index hv hr, blockRead, h, accept_ok, ← hd.trace, ← hd.bus, index_of_ofIndex hr]
  rfl

theorem frameBlkRd_error (hv : s.cfg.variant = .bus) (hr : CReg.ofIndex s.cfg reg = some r)
    (h : devBlockRead r s.bus.want s = .error e) : frameBlkRd reg s = .refused e := by
  rw [frameBlkRd_of_index hv hr, blockRead, h, accept_error]

theorem frameBlkWr_ok (hv : s.cfg.variant = .bus) (hr : CReg.ofIndex s.cfg reg = some r)
    (h : devBlockWrite r s.bus.out s = .ok u) :
    frameBlkWr reg s = .next { u with trace := s.trace ++ [.blkWr reg s.bus.out] } := by
  rw [frameBlkWr_of_index hv hr, blockWrite, h, accept_ok, ← (devOnly_devBlockWrite h).trace, index_of_ofIndex hr]
  rfl

theorem frameBlkWr_error (hv : s.cfg.variant = .bus) (hr : CReg.ofIndex s.cfg reg = some r)
    (h : devBlockWrite r s.bus.out s = .error e) : frameBlkWr reg s = .refused e := by
  rw [frameBlkWr_of_index hv hr, blockWrite, h, accept_error]

/-! ### Block frames of one byte, and of a form that nothing takes -/

theorem devReadIdx_of_index (hr : CReg.ofIndex s.cfg reg = some r) : devReadIdx reg s = devRead r s := by
  rw [devReadIdx, hr]

theorem devWriteIdx_of_index (hr : CReg.ofIndex s.cfg reg = some r) : devWriteIdx reg d s = devWrite r d s := by
  rw [devWriteIdx, hr]

theorem frameBlkRd_one_ok (hv : s.cfg.variant = .bus) (hn : s.bus.want = 1) (h : devReadIdx reg s = .ok (b, u)) :
    ∃ t, frameBlkRd reg s = .next t ∧ t.bus.inp = [b] ∧ t.dev = u.dev ∧ t.hmem = s.hmem := by
  have hmem := (devOnly_devReadIdx h).hmem
  cases hr : CReg.ofIndex s.cfg reg with
  | none =>
    rw [frameBlkRd_reserved hv hr, if_pos hn, frameRegRd_ok hv h]
    exact ⟨_, rfl, rfl, rfl, hmem⟩
  | some r =>
    rw [devReadIdx_of_index hr] at h
    have hb : devBlockRead r s.bus.want s = .ok ([b], u) := by rw [hn, devBlockRead_one, h]; rfl
    exact ⟨_, frameBlkRd_ok hv hr hb, rfl, rfl, hmem⟩

theorem frameBlkRd_one_error (hv : s.cfg.variant = .bus) (hn : s.bus.want = 1) (h : devReadIdx reg s = .error e) :
    frameBlkRd reg s = .refused e := by
  cases hr : CReg.ofIndex s.cfg reg with
  | none => rw [frameBlkRd_reserved hv hr, if_pos hn, frameRegRd_error hv h]
  | some r =>
    rw [devReadIdx_of_index hr] at h
    exact frameBlkRd_error hv hr (by rw [hn, devBlockRead_one, h]; rfl)

theorem frameBlkWr_one_ok (hv : s.cfg.variant = .bus) (ho : s.bus.out = [d]) (h : devWriteIdx reg d s = .ok u) :
    ∃ t, frameBlkWr reg s = .next t ∧ t.dev = u.dev ∧ t.hmem = s.hmem := by
  have hmem := (devOnly_devWriteIdx h).hmem
  cases hr : CReg.ofIndex s.cfg reg with
  | none =>
    rw [frameBlkWr_reserved_one hv hr ho]
    exact ⟨_, frameRegWr_ok hv h, rfl, hmem⟩
  | some r =>
    rw [devWriteIdx_of_index hr] at h
    exact ⟨_, frameBlkWr_ok hv hr (by rw [ho, devBlockWrite_one, h]), rfl, hmem⟩

theorem frameBlkWr_one_error (hv : s.cfg.variant = .bus) (ho : s.bus.out = [d]) (h : devWriteIdx reg d s = .error e) :
    frameBlkWr reg s = .refused e := by
  cases hr : CReg.ofIndex s.cfg reg with
  | none =>
    rw [frameBlkWr_reserved_one hv hr ho]
    exact frameRegWr_error hv h
  | some r =>
    rw [devWriteIdx_of_index hr] at h
    exact frameBlkWr_error hv hr (by rw [ho, devBlockWrite_one, h])

theorem frameBlkRd_badForm (hv : s.cfg.variant = .bus) (hp : reg ≠ s.cfg.cregs.rxPeekN)
    (hd : reg ≠ s.cfg.cregs.rxData) (hn : s.bus.want ≠ 1) : frameBlkRd reg s = .refused .blockFrameForm := by
  cases hr : CReg.ofIndex s.cfg reg with
  | none => rw [frameBlkRd_reserved hv hr, if_neg hn]
  | some r =>
    exact frameBlkRd_error hv hr
      (devBlockRead_noPort (ne_of_ofIndex (q := .rxPeekN) hr hp) (ne_of_ofIndex (q := .rxData) hr hd) hn)

theorem frameBlkWr_badForm (hv : s.cfg.variant = .bus) (ht : reg ≠ s.cfg.cregs.txData)
    (hlen : s.bus.out.length ≠ 1) :
    frameBlkWr reg s = .refused .blockFrameForm := by
  cases hr : CReg.ofIndex s.cfg reg with
  | none => exact frameBlkWr_reserved_badForm hv hr hlen
  | some r => exact frameBlkWr_error hv hr (devBlockWrite_noPort (ne_of_ofIndex (q := .txData) hr ht) hlen)

end

/-- Settles O21: each frame is `accept` of one access, so it goes as the access goes. -/
theorem busFrames : Obligations.BusFrames := by
  rintro s reg d n m rfl rfl hdist
  refine ⟨fun hv => ?_, fun hv i hi => ?_⟩
  · have hidx (r : CReg) : CReg.ofIndex s.cfg (r.index s.cfg.cregs) = some r := ofIndex_index hdist (.inl hv)
    refine ⟨fun hp hd => ?_, fun hp hc => ?_, fun hr h1 h2 ha => ?_, fun hne hlen => ?_, fun b u => frameRegRd_ok hv,
      fun e => frameRegRd_error hv, fun u => frameRegWr_ok hv, fun e => frameRegWr_error hv, fun r hr => ?_, fun hn => ?_,
      frameBlkRd_badForm hv, frameBlkWr_badForm hv, fun hn b u => frameBlkRd_one_ok hv hn,
      fun hn e => frameBlkRd_one_error hv hn, fun ho u => frameBlkWr_one_ok hv ho, fun ho e => frameBlkWr_one_error hv ho⟩
    · obtain ⟨b, u, h⟩ := devReadIdx_ok hp hd
      exact ⟨_, frameRegRd_ok hv h⟩
    · obtain ⟨u, h⟩ := devWriteIdx_ok hp hc
      exact ⟨_, frameRegWr_ok hv h⟩
    · obtain ⟨r, hport, rfl⟩ : ∃ r : CReg, (r = .rxPeekN ∨ r = .rxData) ∧ r.index s.cfg.cregs = reg := by
        rcases hr with rfl | rfl
        · exact ⟨.rxPeekN, .inl rfl, rfl⟩
        · exact ⟨.rxData, .inr rfl, rfl⟩
      obtain ⟨bytes, u, h, hlen⟩ := devBlockRead_port_ok hport h1 h2 ha
      exact ⟨_, frameBlkRd_ok hv (hidx r) h, hlen⟩
    · exact frameBlkWr_ok hv (hidx .txData) (devBlockWrite_txData hne hlen)
    · simp only [List.mem_cons, List.not_mem_nil, or_false] at hr
      exact ⟨fun bytes u => frameBlkRd_ok hv (hidx r), fun e => frameBlkRd_error hv (hidx r),
        fun hn => frameBlkRd_error hv (hidx r) (devBlockRead_badLength hr hn)⟩
    · exact frameBlkWr_error hv (hidx .txData) (devBlockWrite_txData_badLength hn)
  · simp only [List.mem_cons, List.not_mem_nil, or_false] at hi
    rcases hi with rfl | rfl | rfl | rfl <;> exact onBus_dma hv _

/-! ## Where the loop of a call leads -/

/-- After `k` turns of the loop the outcome `o` has become `o'`, whether that goes on, ends, or stops. -/
def Leads (k : Nat) (o o' : Out) : Prop := ∀ n, andThen o (callLoop (n + k)) = andThen o' (callLoop n)

section
variable {j k n : Nat} {o o' o'' : Out} {s u w : State} {r : Regs} {sc : Scratch} {h : Hif} {tr : List Obs} {m : Op}
variable {l : Label} {obs : List Obs} {code a b : Word}

theorem Leads.trans (h1 : Leads j o o') (h2 : Leads k o' o'') : Leads (k + j) o o'' := fun n => by
  rw [← Nat.add_assoc, h1, h2]

/-- A transaction under BUS with nobody in the way. -/
theorem leads_tx {f : State → Out} (hv : u.cfg.variant = .bus) (hl : u.lock = none) (hna : NoAgent u)
    (hact : ∀ q, opAct .H m l (withHost ⟨r, sc, .op m l⟩ h tr { u with lock := q }) = .bus f)
    (hf : f (withHost ⟨r, sc, .op m l⟩ h tr u) = o) :
    Leads 2 (.next (withHost ⟨r, sc, .op m l⟩ h tr u)) o := by
  subst hf
  exact callLoop_bus (s := withHost ⟨r, sc, .op m l⟩ h tr u) rfl hna hv hl (hact u.lock) (hact (some .H))

theorem leads_plain (hna : NoAgent u) (hact : opAct .H m l (withHost ⟨r, sc, .op m l⟩ h tr u) = .plain o) :
    Leads 1 (.next (withHost ⟨r, sc, .op m l⟩ h tr u)) o :=
  callLoop_plain (s := withHost ⟨r, sc, .op m l⟩ h tr u) rfl hna hact

theorem yields_of_leads (hl : Leads k o o') (hy : Yields n o' s w obs code a b) :
    Yields (n + k) o s w obs code a b := by
  obtain ⟨v, r, sc, rfl, hend, hidle⟩ := hy
  obtain ⟨v₀, rfl, hv₀⟩ := andThen_eq_next.mp ((hl n).trans hend)
  exact ⟨v₀, r, sc, rfl, hv₀, hidle⟩

/-- A host operation whose steps come to a refusal is refused. -/
theorem hostCall_refused {i : Instr} {e : Refusal} (hidle : s.hctx.pc = .idle) (ha : admitted m s.inst.life = true)
    (he : i.existsIn s.cfg.variant = true) (hw : i.wellFormed s.cfg.cregs = true)
    (hl : Leads k (opEntry .H m (issued i s)) (.refused e)) (hk : k ≤ callFuel s) :
    hostCall m i s = .refused e := by
  have hfuel := hl (callFuel s - k)
  rw [Nat.sub_add_cancel hk] at hfuel
  rw [hostCall, issue_taken (by simp [hbusy, hidle]) he hw ha]
  exact hfuel

end

/-! ## TX_FRAME step by step (45_mac_interface.md R270, R271) -/

/-- HCTX inside TX_FRAME: what was issued at `s`, `n` polls made, the byte read last, at a label. -/
def txHost (s : State) (len : BitVec 16) (n : Nat) (t : Option Word) (sc : Scratch) (l : Label) : Ctx :=
  ⟨{ cw := some (encodeWord s.cfg.opcodes (.txFrame len)), a0 := some s.hif.arg0, a1 := some s.hif.arg1,
     n := some (BitVec.ofNat 32 n), t := t }, sc, .op .txFrame l⟩

/-- The arguments of TX_FRAME pass its checks. -/
def TxArgsOk (a : Word) (len : BitVec 16) (c : Config) : Prop := a ≠ 0 ∧ len ≠ 0 ∧ len.toNat ≤ c.maxFrame

theorem TxArgsOk.length_pos {a : Word} {len : BitVec 16} {c : Config} (h : TxArgsOk a len c) : 0 < len.toNat := by
  obtain ⟨-, hlen, -⟩ := h
  exact Nat.pos_of_ne_zero fun h0 => hlen (BitVec.eq_of_toNat_eq h0)

section
variable {s u v w : State} {len : BitVec 16} {n k : Nat} {t : Option Word} {sc : Scratch} {l : Label} {h : Hif}
variable {tr obs pre : List Obs} {code a b : Word} {bs : List Byte}

theorem opEntry_txFrame (hidle : s.hctx.pc = .idle) : opEntry .H .txFrame (issued (.txFrame len) s) =
    .next (withHost (txHost s len 0 none { j := some 0 } .x0) { s.hif with done := false } s.trace s) := by
  rw [issued_host, hidle]
  rfl

/-- The argument checks of R270. -/
theorem txChecks_host (act : Nat → Act) : txChecks .H (withHost (txHost s len n t sc l) h tr u) act =
    if s.hif.arg0 = 0 ∨ len.toNat = 0 ∨ u.cfg.maxFrame < len.toNat then
      .plain (raiseErr .H .txFrame .invalidArgument 0 (withHost (txHost s len n t sc l) h tr u))
    else act len.toNat := by
  simp only [txChecks, txHost, xOf_host, needAct_some, cwLen_txFrame, withHost_cfg]

theorem opAct_txFrame_checked (hbad : s.hif.arg0 = 0 ∨ len.toNat = 0 ∨ u.cfg.maxFrame < len.toNat) :
    opAct .H .txFrame .x0 (withHost (txHost s len n t sc l) h tr u) =
      .plain (raiseErr .H .txFrame .invalidArgument 0 (withHost (txHost s len n t sc l) h tr u)) := by
  rw [opAct, txFrameAct]
  split
  · rw [txFrameBusAct, txChecks_host, if_pos hbad]
  · rw [txFrameDmaAct, txChecks_host, if_pos hbad]

theorem opAct_txFrame_bus (hv : u.cfg.variant = .bus) (l : Label) : opAct .H .txFrame l u = txFrameBusAct .H l u := by
  rw [opAct, txFrameAct, hv]

/-- The exchange of a poll and what it leads to. -/
def txPoll (s : State) : Out :=
  regRead .txCtrl s fun b s => need (xOf .H s).n fun n =>
    txPolled .H (b.getLsbD 0) n (setT .H b s) (toLabel .H .txFrame .x1)

theorem opAct_txFrame_poll (hv : u.cfg.variant = .bus) (hok : TxArgsOk s.hif.arg0 len u.cfg) :
    opAct .H .txFrame .x0 (withHost (txHost s len n t sc l) h tr u) = .bus txPoll := by
  have hpos := hok.length_pos
  obtain ⟨ha, -, hm⟩ := hok
  rw [opAct_txFrame_bus (u := withHost _ h tr u) hv, txFrameBusAct, txChecks_host,
    if_neg (not_or.mpr ⟨ha, not_or.mpr ⟨Nat.ne_of_gt hpos, Nat.not_lt.mpr hm⟩⟩)]
  rfl

theorem devRead_txCtrl (hq : resetting u = false) : devRead .txCtrl u = .ok (u.dev.txCtrl, u) :=
  devRead_of_not_resetting hq _

/-- A poll in general: the byte read, then the three ways on. -/
theorem txPoll_host (hq : resetting u = false) : txPoll (withHost (txHost s len n t sc l) h tr u) =
    txPolled .H (u.dev.txCtrl.getLsbD 0) (BitVec.ofNat 32 n)
      (withHost (txHost s len n (some (zextByte u.dev.txCtrl)) sc l) h (tr ++ [rdObs u .txCtrl u.dev.txCtrl]) u)
      (toLabel .H .txFrame .x1) := by
  rw [txPoll, regRead_host, devRead_txCtrl hq]
  rfl

/-- The count of the polls, in its 32 bits. -/
theorem pollCount (hn : n + 1 < 2 ^ 32) :
    BitVec.ofNat 32 n + 1 = BitVec.ofNat 32 (n + 1) ∧ (BitVec.ofNat 32 (n + 1)).toNat = n + 1 :=
  ⟨(BitVec.ofNat_add ..).symm, by rw [BitVec.toNat_ofNat, Nat.mod_eq_of_lt hn]⟩

theorem txPoll_again (hq : resetting u = false) (hb : u.dev.txCtrl.getLsbD 0 = true) (hN : u.cfg.nTxPoll < 2 ^ 32)
    (hn : n + 1 < u.cfg.nTxPoll) : txPoll (withHost (txHost s len n t sc l) h tr u) =
    .next (withHost (txHost s len (n + 1) (some (zextByte u.dev.txCtrl)) sc .x0) h
      (tr ++ [rdObs u .txCtrl u.dev.txCtrl]) u) := by
  obtain ⟨hadd, hcount⟩ := pollCount (n := n) (by omega)
  rw [txPoll_host hq, hb, txPolled, hadd, hcount]
  exact if_pos (decide_eq_true hn)

theorem txPoll_last (hq : resetting u = false) (hb : u.dev.txCtrl.getLsbD 0 = true) (hN : u.cfg.nTxPoll < 2 ^ 32)
    (hn : n + 1 = u.cfg.nTxPoll) : txPoll (withHost (txHost s len n t sc l) h tr u) =
    raiseErr .H .txFrame .invalidState 0 (withHost (txHost s len (n + 1) (some (zextByte u.dev.txCtrl)) sc l) h
      (tr ++ [rdObs u .txCtrl u.dev.txCtrl]) u) := by
  obtain ⟨hadd, hcount⟩ := pollCount (n := n) (by omega)
  rw [txPoll_host hq, hb, txPolled, hadd, hcount]
  exact (if_neg (by simp [hn])).trans (if_pos rfl)

theorem txPoll_clear (hq : resetting u = false) (hb : u.dev.txCtrl.getLsbD 0 = false) (hN : n + 1 < 2 ^ 32) :
    txPoll (withHost (txHost s len n t sc l) h tr u) =
    .next (withHost (txHost s len (n + 1) (some (zextByte u.dev.txCtrl)) sc .x1) h
      (tr ++ [rdObs u .txCtrl u.dev.txCtrl]) u) := by
  rw [txPoll_host hq, hb, txPolled, (pollCount hN).1]
  rfl

/-! ### The polls -/

theorem leads_txPoll {o : Out} (hv : u.cfg.variant = .bus) (hl : u.lock = none) (hna : NoAgent u)
    (hok : TxArgsOk s.hif.arg0 len u.cfg)
    (ho : txPoll (withHost (txHost s len n t sc .x0) h tr u) = o) :
    Leads 2 (.next (withHost (txHost s len n t sc .x0) h tr u)) o :=
  leads_tx hv hl hna (fun q => opAct_txFrame_poll (u := { u with lock := q }) hv hok) ho

theorem yields_polls_spent (hv : s.cfg.variant = .bus) (hq : resetting s = false) (hl : s.lock = none) (hna : NoAgent s)
    (hok : TxArgsOk s.hif.arg0 len s.cfg) (hb : s.dev.txCtrl.getLsbD 0 = true)
    (hN : s.cfg.nTxPoll < 2 ^ 32) {left n : Nat} (hleft : n + (left + 1) = s.cfg.nTxPoll) :
    Yields (2 * (left + 1)) (.next (withHost (txHost s len n t sc .x0) { s.hif with done := false }
      (s.trace ++ List.replicate n (rdObs s .txCtrl s.dev.txCtrl)) s)) s s
      (List.replicate s.cfg.nTxPoll (rdObs s .txCtrl s.dev.txCtrl)) s.cfg.results.invalidState 0 0 := by
  have hnext (n : Nat) : s.trace ++ List.replicate n (rdObs s .txCtrl s.dev.txCtrl) ++ [rdObs s .txCtrl s.dev.txCtrl] =
      s.trace ++ List.replicate (n + 1) (rdObs s .txCtrl s.dev.txCtrl) := by
    rw [List.append_assoc, ← List.replicate_succ']
  induction left generalizing n t with
  | zero =>
    refine yields_of_leads (n := 0) (leads_txPoll hv hl hna hok (txPoll_last hq hb hN hleft)) ?_
    rw [hnext, hleft]
    exact yields_done rfl rfl
  | succ left ih =>
    refine yields_of_leads (n := 2 * (left + 1)) (leads_txPoll hv hl hna hok (txPoll_again hq hb hN (by omega))) ?_
    rw [hnext]
    exact ih (by omega)

theorem yields_txPoll_scheduled {o : Out} {rest : List Event} (hv : u.cfg.variant = .bus) (hl : u.lock = none)
    (hok : TxArgsOk s.hif.arg0 len u.cfg)
    (ho : txPoll (withHost (txHost s len n t sc .x0) h tr { u with agenda := rest }) = o)
    (hy : Yields k o s w obs code a b) :
    Yields (k + 2) (.next (withHost (txHost s len n t sc .x0) h tr { u with agenda := hostSteps 2 rest }))
      s w obs code a b := by
  subst ho
  exact yields_tx_scheduled (u := { u with agenda := hostSteps 2 rest }) hl (by rw [hv]; rfl)
    (fun q e => opAct_txFrame_poll (u := { u with agenda := e, lock := q }) hv hok) hy

/-- Polls that the agenda gives to HCTX while the frame in flight has not left. -/
theorem yields_polls_scheduled (hv : u.cfg.variant = .bus) (hq : resetting u = false) (hl : u.lock = none)
    (hok : TxArgsOk s.hif.arg0 len u.cfg) (hb : u.dev.txCtrl.getLsbD 0 = true)
    (hN : u.cfg.nTxPoll < 2 ^ 32) {rest : List Event} {left n : Nat} (hleft : n + left < u.cfg.nTxPoll)
    (hag : v = { u with agenda := hostSteps (2 * left) rest })
    (hy : ∀ t, Yields k (.next (withHost (txHost s len (n + left) t { j := some 0 } .x0) h
      (tr ++ List.replicate left (rdObs u .txCtrl u.dev.txCtrl)) { u with agenda := rest })) s w obs code a b) :
    Yields (k + 2 * left) (.next (withHost (txHost s len n t { j := some 0 } .x0) h tr v)) s w obs code a b := by
  subst hag
  induction left generalizing n t tr with
  | zero => simpa [hostSteps] using hy t
  | succ left ih =>
    have hsteps : hostSteps (2 * (left + 1)) rest = hostSteps 2 (hostSteps (2 * left) rest) := by
      rw [← hostSteps_add, Nat.mul_succ, Nat.add_comm]
    rw [hsteps]
    refine yields_txPoll_scheduled hv hl hok
      (txPoll_again (u := { u with agenda := hostSteps (2 * left) rest }) hq hb hN (by show _ < u.cfg.nTxPoll; omega))
      (ih (by omega) fun t => ?_)
    have := hy t
    rwa [← Nat.add_assoc, Nat.add_right_comm, List.replicate_succ, ← List.singleton_append, ← List.append_assoc]
      at this

/-! ### The request -/

/-- A transaction of TX_FRAME at a label. -/
theorem leads_txFrame {f : State → Out} {o : Out} (hv : u.cfg.variant = .bus) (hl : u.lock = none) (hna : NoAgent u)
    (hact : ∀ q, txFrameBusAct .H l (withHost (txHost s len n t sc l) h tr { u with lock := q }) = .bus f)
    (ho : f (withHost (txHost s len n t sc l) h tr u) = o) :
    Leads 2 (.next (withHost (txHost s len n t sc l) h tr u)) o :=
  leads_tx hv hl hna
    (fun q => (opAct_txFrame_bus (u := withHost _ h tr { u with lock := q }) hv l).trans (hact q)) ho

/-- X1, X2: the length registers take the frame's length. -/
def lenWritten (len : BitVec 16) (u : State) : State :=
  { u with dev := { u.dev with txLenL := lowByte len, txLenH := highByte len } }

theorem leads_lenL (hv : u.cfg.variant = .bus) (hl : u.lock = none) (hna : NoAgent u) :
    Leads 2 (.next (withHost (txHost s len n t sc .x1) h tr u)) (.next (withHost (txHost s len n t sc .x2) h
      (tr ++ [wrObs u .txLenL (lowByte len)]) { u with dev.txLenL := lowByte len })) := by
  refine leads_txFrame hv hl hna (fun _ => rfl) ?_
  show regWrite .txLenL (lowByte (Field.low16 (encodeWord _ (.txFrame len)))) (withHost _ h tr u) _ = _
  rw [low16_txFrame, regWrite_host]
  rfl

theorem leads_lenH (hv : u.cfg.variant = .bus) (hl : u.lock = none) (hna : NoAgent u) :
    Leads 2 (.next (withHost (txHost s len n t { j := some 0 } .x2) h tr u))
      (.next (withHost (txHost s len n t { j := some 0, bytes := some [] } .x3) h
        (tr ++ [wrObs u .txLenH (highByte len)]) { u with dev.txLenH := highByte len })) := by
  refine leads_txFrame hv hl hna (fun _ => rfl) ?_
  show regWrite .txLenH (highByte (Field.low16 (encodeWord _ (.txFrame len)))) (withHost _ h tr u) _ = _
  rw [low16_txFrame, regWrite_host]
  rfl

/-- The request from the poll that reads clear to where the frame's bytes are read. -/
theorem leads_toBytes (hv : u.cfg.variant = .bus) (hq : resetting u = false) (hl : u.lock = none) (hna : NoAgent u)
    (hok : TxArgsOk s.hif.arg0 len u.cfg) (hb : u.dev.txCtrl.getLsbD 0 = false)
    (hN : n + 1 < 2 ^ 32) :
    Leads 6 (.next (withHost (txHost s len n t { j := some 0 } .x0) h tr u))
      (.next (withHost (txHost s len (n + 1) (some (zextByte u.dev.txCtrl)) { j := some 0, bytes := some [] } .x3) h
        (tr ++ [rdObs u .txCtrl u.dev.txCtrl] ++ [wrObs u .txLenL (lowByte len)] ++ [wrObs u .txLenH (highByte len)])
        (lenWritten len u))) :=
  ((leads_txPoll hv hl hna hok (txPoll_clear hq hb hN)).trans (leads_lenL hv hl hna)).trans
    (leads_lenH (u := { u with dev.txLenL := lowByte len }) hv hl hna)

theorem opAct_txFrame_read (hv : u.cfg.variant = .bus) :
    opAct .H .txFrame .x3 (withHost (txHost s len n t sc .x3) h tr u) =
      .plain (readString .H .txFrame .x3 s.hif.arg0.toNat len.toNat (toLabel .H .txFrame .x3b)
        (withHost (txHost s len n t sc .x3) h tr u)) := by
  rw [opAct_txFrame_bus (u := withHost _ h tr u) hv, txFrameBusAct]
  simp only [txHost, xOf_host, need_some, cwLen_txFrame]

theorem opAct_txFrame_store (hv : u.cfg.variant = .bus) (hsc : sc.bytes = some bs) :
    opAct .H .txFrame .x3b (withHost (txHost s len n t sc .x3b) h tr u) =
      .plain (writeString .H .txFrame .x3b u.bufs.txScratch.toNat bs (toLabel .H .txFrame .x4)
        (withHost (txHost s len n t sc .x3b) h tr u)) := by
  rw [opAct_txFrame_bus (u := withHost _ h tr u) hv, txFrameBusAct]
  simp only [txHost, scOf_host, hsc, need_some, withHost_bufs]

/-- A source that runs past HMEM is refused at its first byte (U11). -/
theorem leads_outsideRegion (hv : u.cfg.variant = .bus) (hna : NoAgent u)
    (hout : 2 ^ 32 < s.hif.arg0.toNat + len.toNat) :
    Leads 1 (.next (withHost (txHost s len n t { j := some 0, bytes := some [] } .x3) h tr u))
      (.refused .outsideRegion) :=
  leads_plain hna ((opAct_txFrame_read hv).trans (congrArg Act.plain (if_pos hout)))

/-- X3, then its store into the staging buffer: the source's bytes are in the scratch and in the buffer. -/
theorem yields_copy (hv : u.cfg.variant = .bus) (hna : NoAgent u) (hin : s.hif.arg0.toNat + len.toNat ≤ 2 ^ 32)
    (hbuf : u.bufs.txScratch.toNat + len.toNat ≤ 2 ^ 32) (hbs : hread u s.hif.arg0.toNat len.toNat = bs)
    (hy : Yields k (.next (withHost (txHost s len n t { j := some 0, bytes := some bs, pos := bs.length } .x4) h tr
      (hwrite u.bufs.txScratch.toNat bs u))) s w obs code a b) :
    Yields (k + len.toNat + 1 + len.toNat + 1)
      (.next (withHost (txHost s len n t { j := some 0, bytes := some [] } .x3) h tr u)) s w obs code a b := by
  have hlen : bs.length = len.toNat := by rw [← hbs, hread_length]
  have hstore := yields_writeString (sc := { j := some 0, bytes := some bs }) (after := toLabel .H .txFrame .x4)
    (u := u) hna (by rw [hlen]; exact hbuf) rfl
    (fun p _ => opAct_txFrame_store (u := hwrite _ (bs.take p) u)
      (sc := { j := some 0, bytes := some bs, pos := p }) hv rfl) hy
  rw [hlen] at hstore
  refine yields_readString (sc := { j := some 0 }) (after := toLabel .H .txFrame .x3b) hna hin
    (fun got => opAct_txFrame_read (sc := { j := some 0, bytes := some got }) hv) ?_
  rw [hbs]
  exact hstore

/-! ### The frame is requested -/

theorem leads_stage (hv : u.cfg.variant = .bus) (hl : u.lock = none) (hna : NoAgent u) (hsc : sc.bytes = some bs)
    (hne : bs ≠ []) (hlen : bs.length ≤ 65535) :
    Leads 2 (.next (withHost (txHost s len n t sc .x4) h tr u))
      (.next (withHost (txHost s len n t sc .x5) h (tr ++ [blkWrObs u .txData bs]) (stageTx bs u))) := by
  refine leads_txFrame hv hl hna (fun _ => rfl) ?_
  simp only [txHost, scOf_host, hsc, need_some, blockWrite_host, devBlockWrite_txData hne hlen]
  rfl

theorem leads_readCtrl (hv : u.cfg.variant = .bus) (hq : resetting u = false) (hl : u.lock = none) (hna : NoAgent u) :
    Leads 2 (.next (withHost (txHost s len n t sc .x5) h tr u))
      (.next (withHost (txHost s len n (some (zextByte u.dev.txCtrl)) sc .x6) h
        (tr ++ [rdObs u .txCtrl u.dev.txCtrl]) u)) := by
  refine leads_txFrame hv hl hna (fun _ => rfl) ?_
  rw [regRead_host, devRead_txCtrl hq]
  rfl

theorem byteOf_zextByte (b : Byte) : byteOf 0 (zextByte b) = b := by
  apply BitVec.eq_of_toNat_eq
  rw [byteOf, zextByte, extractLsb'_ofNat_toNat]
  omega

theorem leads_request {c : Byte} (hv : u.cfg.variant = .bus) (hl : u.lock = none) (hna : NoAgent u)
    (hb : u.dev.txCtrl.getLsbD 0 = false) :
    Leads 2 (.next (withHost (txHost s len n (some (zextByte c)) sc .x6) h tr u))
      (finish .H .txFrame 0 0 (withHost (txHost s len n (some (zextByte c)) sc .x6) h
        (tr ++ [wrObs u .txCtrl (c ||| 0x01)]) (requestTx (c ||| 0x01) u))) := by
  refine leads_txFrame hv hl hna (fun _ => rfl) ?_
  simp only [txHost, xOf_host, need_some, regWrite_host, byteOf_zextByte, devWrite_txCtrl_request (setBit_getLsbD c) hb]
  rfl

/-- X4 to X6: the bytes are staged and the request is written with what TX_CTRL reads. -/
theorem leads_requested (hv : u.cfg.variant = .bus) (hq : resetting u = false) (hl : u.lock = none) (hna : NoAgent u)
    (hb : u.dev.txCtrl.getLsbD 0 = false) (hsc : sc.bytes = some bs) (hne : bs ≠ []) (hlen : bs.length ≤ 65535) :
    Leads 6 (.next (withHost (txHost s len n t sc .x4) h tr u))
      (finish .H .txFrame 0 0 (withHost (txHost s len n (some (zextByte u.dev.txCtrl)) sc .x6) h
        (tr ++ [blkWrObs u .txData bs] ++ [rdObs u .txCtrl u.dev.txCtrl] ++ [wrObs u .txCtrl (u.dev.txCtrl ||| 0x01)])
        (requestTx (u.dev.txCtrl ||| 0x01) (stageTx bs u)))) :=
  ((leads_stage hv hl hna hsc hne hlen).trans (leads_readCtrl (u := stageTx bs u) hv hq hl hna)).trans
    (leads_request (u := stageTx bs u) hv hl hna hb)

/-- What TX_FRAME leaves: the frame's bytes in the staging buffer, the length registers, the frame latched, `TXREQ`
set. -/
def frameRequested (len : BitVec 16) (bs : List Byte) (u : State) : State :=
  { hwrite u.bufs.txScratch.toNat bs u with
    dev := { u.dev with
      txLenL := len.extractLsb' 0 8
      txLenH := len.extractLsb' 8 8
      txLatched := some ((u.dev.txStage ++ bs).take len.toNat)
      txStage := []
      txCtrl := u.dev.txCtrl ||| 0x01 } }

theorem txLen_lenWritten (len : BitVec 16) (u : State) : txLen (lenWritten len u).dev = len.toNat := by
  show (len.extractLsb' 0 8).toNat + 256 * (len.extractLsb' 8 8).toNat = len.toNat
  rw [BitVec.extractLsb'_toNat, BitVec.extractLsb'_toNat, Nat.shiftRight_eq_div_pow, Nat.shiftRight_eq_div_pow]
  omega

theorem requestTx_frame (hlen : bs.length = len.toNat) : requestTx (u.dev.txCtrl ||| 0x01)
    (stageTx bs (hwrite u.bufs.txScratch.toNat bs (lenWritten len u))) = frameRequested len bs u := by
  have hn : txLen (stageTx bs (hwrite u.bufs.txScratch.toNat bs (lenWritten len u))).dev = len.toNat :=
    txLen_lenWritten len u
  have hstaged : txLen (stageTx bs (hwrite u.bufs.txScratch.toNat bs (lenWritten len u))).dev ≤
      (u.dev.txStage ++ bs).length := by
    rw [hn, List.length_append, hlen]
    exact Nat.le_add_left _ _
  have hone : u.dev.txCtrl ||| 0x01 ||| 1 = u.dev.txCtrl ||| 0x01 := by rw [BitVec.or_assoc, BitVec.or_self]
  rw [requestTx_eq, fill_eq_zero hstaged, latchedFrame_staged hstaged, hone, hn]
  rfl

/-- The transactions of a TX_FRAME whose first poll of TXREQ reads clear. -/
def requestTrace (len : BitVec 16) (bs : List Byte) (u : State) : List Obs :=
  [rdObs u .txCtrl u.dev.txCtrl, wrObs u .txLenL (len.extractLsb' 0 8), wrObs u .txLenH (len.extractLsb' 8 8),
    blkWrObs u .txData bs, rdObs u .txCtrl u.dev.txCtrl, wrObs u .txCtrl (u.dev.txCtrl ||| 0x01)]

/-- From a poll that reads TXREQ clear to the operation's end. -/
theorem yields_request (hv : u.cfg.variant = .bus) (hq : resetting u = false) (hl : u.lock = none) (hna : NoAgent u)
    (hok : TxArgsOk s.hif.arg0 len u.cfg) (hb : u.dev.txCtrl.getLsbD 0 = false)
    (hN : n + 1 < 2 ^ 32) (hin : s.hif.arg0.toNat + len.toNat ≤ 2 ^ 32)
    (hbuf : u.bufs.txScratch.toNat + len.toNat ≤ 2 ^ 32) (hbs : hread u s.hif.arg0.toNat len.toNat = bs)
    (hcfg : u.cfg = s.cfg) :
    Yields (2 * len.toNat + 14) (.next (withHost (txHost s len n t { j := some 0 } .x0) { s.hif with done := false }
      (s.trace ++ pre) u)) s (frameRequested len bs u) (pre ++ requestTrace len bs u) s.cfg.results.ok 0 0 := by
  have hlen : bs.length = len.toNat := by rw [← hbs, hread_length]
  have hpos := hok.length_pos
  have hne : bs ≠ [] := List.length_pos_iff.mp (by omega)
  refine yields_mono (yields_of_leads (leads_toBytes hv hq hl hna hok hb hN) (n := 6 + len.toNat + 1 + len.toNat + 1)
    (yields_copy (u := lenWritten len u) hv hna hin hbuf hbs ?_)) (by omega)
  refine yields_of_leads (n := 0) (leads_requested (u := hwrite u.bufs.txScratch.toNat bs (lenWritten len u)) hv hq hl hna
    hb rfl hne (by omega)) ?_
  show Yields 0 (finish .H .txFrame 0 0 (withHost _ _ _ (requestTx (u.dev.txCtrl ||| 0x01)
    (stageTx bs (hwrite u.bufs.txScratch.toNat bs (lenWritten len u)))))) _ _ _ _ _ _
  rw [requestTx_frame hlen, ← hcfg, txHost, finish_host]
  refine yields_done rfl ?_
  rw [requestTrace]
  simp only [List.append_assoc, List.cons_append, List.nil_append]
  rfl

/-! ### The frame in flight leaves -/

theorem depart_env_host (x : Ctx) (h : Hif) (tr : List Obs) (frame : List Byte) (u : State) :
    (depart frame (withHost x h tr u)).env = (depart frame u).env := by
  cases hlb : u.cfg.loopback with
  | false => rw [depart_env_off (s := withHost x h tr u) frame hlb, depart_env_off frame hlb, withHost_env]
  | true =>
    rw [depart_env_loopback (s := withHost x h tr u) frame hlb, depart_env_loopback frame hlb]
    rfl

theorem depart_host (x : Ctx) (h : Hif) (tr : List Obs) (frame : List Byte) (u : State) :
    depart frame (withHost x h tr u) = withHost x h (tr ++ [.sent frame]) (depart frame u) := by
  rw [depart_frame frame (withHost x h tr u), depart_env_host, depart_frame frame u]
  rfl

theorem txComplete_host {causes : Byte} {x : Ctx} (hv : u.cfg.variant = .bus) (hb : u.dev.txCtrl.getLsbD 0 = true) :
    txComplete causes (withHost x h tr u) =
      withHost x h (tr ++ [.sent (u.dev.txLatched.getD [])]) (txComplete causes u) := by
  simp only [txComplete, withHost_cfg, withHost_dev, depart_host]
  rw [if_pos ⟨hv, hb⟩, if_pos ⟨hv, hb⟩]
  rfl

/-- The agenda's last entry is the frame's departure. -/
theorem leads_txComplete {causes : Byte} {x : Ctx} (hexec : hbusy (withHost x h tr u) = true)
    (hv : u.cfg.variant = .bus) (hb : u.dev.txCtrl.getLsbD 0 = true) :
    Leads 1 (.next (withHost x h tr { u with agenda := [.agent (.txComplete causes)] }))
      (.next (withHost x h (tr ++ [.sent (u.dev.txLatched.getD [])]) (txComplete causes { u with agenda := [] }))) := by
  intro n
  refine (callLoop_agent (s := withHost x h tr { u with agenda := [.agent (.txComplete causes)] }) hexec rfl n).trans ?_
  exact congrArg (fun v => andThen (.next v) (callLoop n)) (txComplete_host (u := { u with agenda := [] }) hv hb)

/-- The agenda lets `j + 1` polls read TXREQ set, then the frame in flight leaves; the operation goes on from there. -/
theorem yields_txFrame_busy {j : Nat} {causes : Byte} (hv : s.cfg.variant = .bus) (hq : resetting s = false)
    (hl : s.lock = none) (hok : TxArgsOk s.hif.arg0 len s.cfg)
    (hb : s.dev.txCtrl.getLsbD 0 = true) (hN : s.cfg.nTxPoll < 2 ^ 32) (hin : s.hif.arg0.toNat + len.toNat ≤ 2 ^ 32)
    (hbuf : s.bufs.txScratch.toNat + len.toNat ≤ 2 ^ 32) (hj : j + 1 < s.cfg.nTxPoll)
    (hag : s.agenda = schedule (2 * (j + 1)) (.txComplete causes)) : ∃ env p,
    Yields (2 * len.toNat + 14 + 1 + 2 * (j + 1))
      (.next (withHost (txHost s len 0 none { j := some 0 } .x0) { s.hif with done := false } s.trace s)) s
      (frameRequested len (hread s s.hif.arg0.toNat len.toNat) (frameGone causes env p { s with agenda := [] }))
      (List.replicate (j + 1) (rdObs s .txCtrl s.dev.txCtrl) ++ [.sent (s.dev.txLatched.getD [])] ++
        requestTrace len (hread s s.hif.arg0.toNat len.toNat) (frameGone causes env p { s with agenda := [] }))
      s.cfg.results.ok 0 0 := by
  obtain ⟨env, p, hgone⟩ : ∃ env p, txComplete causes { s with agenda := [] } =
    frameGone causes env p { s with agenda := [] } :=
    ⟨_, _, txComplete_eq (s := { s with agenda := [] }) causes hv hb⟩
  refine ⟨env, p, ?_⟩
  have hs : s = { s with agenda := hostSteps (2 * (j + 1)) [.agent (.txComplete causes)] } := by
    rw [← schedule_eq, ← hag]
  refine yields_polls_scheduled hv hq hl hok hb hN (by omega) hs fun t => ?_
  refine yields_of_leads (leads_txComplete (u := s) rfl hv hb) ?_
  rw [hgone, List.append_assoc s.trace]
  exact yields_request (u := frameGone causes env p { s with agenda := [] }) hv hq hl (fun _ _ h => nomatch h) hok
    (clearBit_getLsbD _) (by omega) hin hbuf rfl rfl

theorem polls_le_callFuel (s : State) : 2 ^ 18 + 8 * s.cfg.nTxPoll ≤ callFuel s := by
  have : s.cfg.nTxPoll ≤ s.cfg.nTxPoll * (s.cfg.txDescN + 1) := Nat.le_mul_of_pos_right _ (Nat.succ_pos _)
  unfold callFuel
  omega

end

/-- Settles O50: the polls by their number, then the request from the poll that reads clear, whether the agenda's
`TxComplete` has cleared TXREQ or it was clear at issue. -/
theorem txFrameBus : Obligations.TxFrameBus := by
  intro s len
  refine ⟨fun hr hbad => ?_, fun ha hlen hmax hv hq hN hbufs => ?_⟩
  · obtain ⟨⟨hidle, hl, hna⟩, hadm⟩ := hr
    have hbad' : s.hif.arg0 = 0 ∨ len.toNat = 0 ∨ s.cfg.maxFrame < len.toNat :=
      hbad.imp_right (Or.imp_left (congrArg BitVec.toNat))
    refine answers_yields (n := 0 + 1) hidle hadm rfl rfl rfl
      (yields_of_leads (leads_plain hna (opAct_txFrame_checked (n := 0) (t := none) (sc := { j := some 0 }) hbad')) ?_)
      (Nat.le_trans (by omega) (callFuel_ge s))
    exact yields_done rfl (by rw [List.append_nil]; rfl)
  have hok : TxArgsOk s.hif.arg0 len s.cfg := ⟨ha, hlen, hmax⟩
  have hfuel := polls_le_callFuel s
  have hbuf : s.bufs.txScratch.toNat + len.toNat ≤ 2 ^ 32 := by
    obtain ⟨-, htx, -, -⟩ := hbufs
    rw [hmemSize, Config.rxBufSize] at htx
    omega
  refine ⟨fun hr h0 hb => ?_, fun hr h0 hb hout => ?_, fun bytes hr h0 hb hin hbytes => ?_,
    fun j causes hs hj hb hin => ?_⟩
  · obtain ⟨⟨hidle, hl, hna⟩, hadm⟩ := hr
    have hy := yields_polls_spent (n := 0) (left := s.cfg.nTxPoll - 1) (t := none) (sc := { j := some 0 }) hv hq hl hna
      hok hb hN (by omega)
    rw [List.replicate_zero, List.append_nil] at hy
    exact answers_yields hidle hadm rfl rfl rfl hy (by omega)
  · obtain ⟨⟨hidle, hl, hna⟩, hadm⟩ := hr
    refine hostCall_refused (k := 1 + 6) hidle hadm rfl rfl ?_ (Nat.le_trans (by omega) (callFuel_ge s))
    rw [opEntry_txFrame hidle]
    exact (leads_toBytes hv hq hl hna hok hb (by omega)).trans (leads_outsideRegion (u := lenWritten len s) hv hna hout)
  · obtain ⟨⟨hidle, hl, hna⟩, hadm⟩ := hr
    have hy := yields_request (n := 0) (t := none) (pre := []) hv hq hl hna hok hb (by omega) hin hbuf hbytes.symm rfl
    rw [List.append_nil] at hy
    exact answers_yields hidle hadm rfl rfl rfl hy (by omega)
  · obtain ⟨hidle, hl, hadm, hag⟩ := hs
    obtain ⟨env, p, hy⟩ := yields_txFrame_busy hv hq hl hok hb hN hin hbuf hj hag
    obtain ⟨t, ht, ⟨hres, -, -, -, hend⟩, ⟨hframe, -⟩, htr⟩ := answers_yields (m := .txFrame) (i := .txFrame len)
      hidle hadm rfl rfl (by rfl) hy (by omega)
    have hdev := congrArg State.dev hframe
    refine ⟨t, ht, hres, hend, ?_, ?_, ?_, ?_⟩
    · rw [hdev]
      rfl
    · rw [hdev]
      exact setBit_getLsbD _
    · rw [hdev]
      rfl
    · rw [htr, requestTrace]
      simp only [List.append_assoc, List.cons_append, List.nil_append]
      rfl

end Sys2Proof.Machine

/-! PROOFS, family 30_encoding. A row of the opcode table against the decoder: its mask is the opcode field and the must-be-0
fields of the operation's format (R90 to R96); then illegal command words (R98), and the byte order of a station address (R97). -/

namespace Sys2Proof

open Machine

/-! ## A word against a row of the table (R96) -/

/-- The bits of the field of `n` bits from bit `i` on. -/
def fieldMask (i n : Nat) : Word := (BitVec.allOnes n).setWidth 32 <<< i

/-- The bits of all fields of a list, each its first bit and its width. -/
def fieldsMask : List (Nat × Nat) → Word
  | [] => 0
  | (i, n) :: fs => fieldMask i n ||| fieldsMask fs

theorem getLsbD_fieldMask (i n j : Nat) : (fieldMask i n).getLsbD j = decide (j < 32 ∧ i ≤ j ∧ j < i + n) := by
  simp only [fieldMask, BitVec.getLsbD_shiftLeft, BitVec.getLsbD_setWidth, BitVec.getLsbD_allOnes]
  grind

section
variable {w p : Word}

/-- Two words agree under the mask of a field exactly when the field reads the same in both. -/
theorem and_fieldMask_eq_iff (i n : Nat) :
    w &&& fieldMask i n = p &&& fieldMask i n ↔ w.extractLsb' i n = p.extractLsb' i n := by
  simp only [BitVec.eq_of_getLsbD_eq_iff, BitVec.getLsbD_and, getLsbD_fieldMask, BitVec.getLsbD_extractLsb']
  constructor
  · intro h k hk
    by_cases hin : i + k < 32
    · simpa [hk, hin] using h (i + k) hin
    · rw [BitVec.getLsbD_of_ge w _ (Nat.le_of_not_lt hin), BitVec.getLsbD_of_ge p _ (Nat.le_of_not_lt hin)]
  · intro h j hj
    by_cases hin : i ≤ j ∧ j < i + n
    · have hk := h (j - i) (by omega)
      rw [Nat.add_sub_cancel' hin.1] at hk
      simpa [hj, hin, show j - i < n by omega] using hk
    · simp [hin]

theorem and_or_eq_iff (a b : Word) :
    w &&& (a ||| b) = p &&& (a ||| b) ↔ w &&& a = p &&& a ∧ w &&& b = p &&& b := by
  simp only [BitVec.eq_of_getLsbD_eq_iff, BitVec.getLsbD_and, BitVec.getLsbD_or]
  grind

theorem and_fieldsMask_eq_iff (fs : List (Nat × Nat)) : w &&& fieldsMask fs = p &&& fieldsMask fs ↔
    ∀ f ∈ fs, w.extractLsb' f.1 f.2 = p.extractLsb' f.1 f.2 := by
  induction fs with
  | nil => simp [fieldsMask]
  | cons f fs ih => rw [fieldsMask, and_or_eq_iff, and_fieldMask_eq_iff, ih, List.forall_mem_cons]

end

/-- The must-be-0 fields of an operation's format (R91 to R95). -/
def Op.zeroFields : Op → List (Nat × Nat)
  | .regRd => [(23, 3), (0, 16)]
  | .regWr => [(23, 3), (8, 8)]
  | .memRd | .memWr | .rxAlloc | .rxFrame | .txFrame => [(16, 10)]
  | .phyWr => []
  | .phyRd => [(1, 15)]
  | .setLink | .setSpeed | .setDuplex | .setPromisc | .setFlowCtrl | .setPeerPause => [(1, 25)]
  | .rxCount | .rxFlush | .init | .deinit | .start | .stop | .del | .setAddr | .getAddr => [(0, 26)]

theorem exists_ite_eq_ok_iff {ε α : Type} {c : Prop} [Decidable c] {a : α} {e : ε} :
    (∃ b, (if c then Except.ok a else .error e) = .ok b) ↔ c := by
  split <;> simp [*]

/-- The operand fields decode exactly where the must-be-0 fields are 0. -/
theorem decodeOperands_ok_iff (o : Op) (w : Word) :
    (∃ i, decodeOperands o w = .ok i) ↔ ∀ f ∈ o.zeroFields, w.extractLsb' f.1 f.2 = 0#f.2 := by
  cases o <;> simp only [Op.zeroFields, List.forall_mem_cons, List.not_mem_nil, false_implies, implies_true,
    and_true]
  case phyWr => exact iff_of_true ⟨_, rfl⟩ trivial
  all_goals exact exists_ite_eq_ok_iff

theorem code_of_opOf {m : OpcodeMap} {c : BitVec 6} {o : Op} (h : m.opOf c = some o) : m.code o = c :=
  eq_of_beq (List.find?_some (p := fun o => m.code o == c) h)

/-- A word is an instruction of an operation exactly when its opcode field is the operation's and its operand fields
decode in the operation's format. -/
theorem decodeWord_op_iff {m : OpcodeMap} (hm : DistinctCodes m) {w : Word} {o : Op} :
    (∃ i, decodeWord m w = .ok i ∧ i.op = some o) ↔ Field.op w = m.code o ∧ ∃ i, decodeOperands o w = .ok i := by
  constructor
  · rintro ⟨i, hi, ho⟩
    unfold decodeWord at hi
    split at hi
    · rename_i p hp
      obtain rfl : p = o := Option.some.inj ((decodeOperands_op hi).symm.trans ho)
      exact ⟨(code_of_opOf hp).symm, i, hi⟩
    · cases hi
  · rintro ⟨hop, i, hi⟩
    refine ⟨i, ?_, decodeOperands_op hi⟩
    rw [decodeWord, hop, (distinctCodes_iff_opOf_code m).mp hm o]
    exact hi

theorem opcodeTable_ops : opcodeTable.map OpcodeRow.op = Op.all := rfl

theorem exists_row (o : Op) : ∃ r ∈ opcodeTable, r.op = o := by
  rw [← List.mem_map, opcodeTable_ops]
  exact o.mem_all

/-- A row is found by its operation. -/
theorem find_row : ∀ r ∈ opcodeTable, opcodeTable.find? (·.op == r.op) = some r := by
  decide

theorem row_eq_of_op_eq {r r' : OpcodeRow} (hr : r ∈ opcodeTable) (hr' : r' ∈ opcodeTable) (h : r.op = r'.op) :
    r = r' := by
  have hfind := find_row r hr
  rw [h, find_row r' hr'] at hfind
  exact (Option.some.inj hfind).symm

/-- The mask of a row is the opcode field and the must-be-0 fields; its match is the opcode with 0 in them. -/
theorem opcodeTable_fields : ∀ r ∈ opcodeTable, r.mask = fieldsMask ((26, 6) :: r.op.zeroFields) ∧
    r.pattern &&& r.mask = r.pattern ∧ Field.op r.pattern = OpcodeMap.code {} r.op ∧
    ∀ f ∈ r.op.zeroFields, r.pattern.extractLsb' f.1 f.2 = 0#f.2 := by
  decide

theorem and_mask_eq_pattern_iff {r : OpcodeRow} (hr : r ∈ opcodeTable) (w : Word) :
    w &&& r.mask = r.pattern ↔ Field.op w = OpcodeMap.code {} r.op ∧ ∃ i, decodeOperands r.op w = .ok i := by
  obtain ⟨hmask, hin, hop, hzero⟩ := opcodeTable_fields r hr
  calc w &&& r.mask = r.pattern
    _ ↔ w &&& r.mask = r.pattern &&& r.mask := by rw [hin]
    _ ↔ Field.op w = Field.op r.pattern ∧ ∀ f ∈ r.op.zeroFields, w.extractLsb' f.1 f.2 = r.pattern.extractLsb' f.1 f.2 := by
      rw [hmask, and_fieldsMask_eq_iff, List.forall_mem_cons]
      rfl
    _ ↔ Field.op w = OpcodeMap.code {} r.op ∧ ∀ f ∈ r.op.zeroFields, w.extractLsb' f.1 f.2 = 0#f.2 := by
      rw [hop, forall₂_congr fun f hf => by rw [hzero f hf]]
    _ ↔ _ := by rw [decodeOperands_ok_iff]

/-- A word meets a row exactly when it decodes to the row's operation. -/
theorem meets_row_iff {r : OpcodeRow} (hr : r ∈ opcodeTable) (w : Word) :
    w &&& r.mask = r.pattern ↔ ∃ i, decodeWord {} w = .ok i ∧ i.op = some r.op :=
  (and_mask_eq_pattern_iff hr w).trans (decodeWord_op_iff distinctCodes_defaultOpcodes).symm

/-- Settles O3: mask and match of a row say that the opcode field is the row's and the must-be-0 fields are 0, which is what
the decoder tests. -/
theorem rowSelection : Obligations.RowSelection := by
  refine ⟨rfl, by decide, fun w r hr => meets_row_iff hr w, fun w r r' hr hr' h h' => ?_⟩
  obtain ⟨i, hi, ho⟩ := (meets_row_iff hr w).mp h
  obtain ⟨i', hi', ho'⟩ := (meets_row_iff hr' w).mp h'
  obtain rfl : i = i' := Except.ok.inj (hi.symm.trans hi')
  exact row_eq_of_op_eq hr hr' (Option.some.inj (ho.symm.trans ho'))

/-- Settles O1, by running the decoder on each word and each frame. -/
theorem decodeExamples : Obligations.DecodeExamples :=
  ⟨rfl, rfl, rfl, rfl, rfl, rfl, rfl, rfl, rfl, rfl, rfl, rfl, rfl, rfl, rfl, rfl, rfl⟩

/-! ## Illegal command words (R98) -/

/-- No operation has an opcode that R98 reserves. -/
theorem code_not_reserved (o : Op) :
    ¬ ((OpcodeMap.code {} o).toNat ∈ [0x00, 0x05, 0x06, 0x07, 0x0A, 0x0B, 0x11, 0x12, 0x13] ∨
      0x21 ≤ (OpcodeMap.code {} o).toNat) := by
  cases o <;> decide

theorem decodeWord_of_opOf_eq_none {m : OpcodeMap} {w : Word} (h : m.opOf (Field.op w) = none) :
    decodeWord m w = .error (.unknownOpcode (Field.op w)) := by
  rw [decodeWord, h]

theorem decodeWord_error_iff (m : OpcodeMap) (w : Word) : (∃ e, decodeWord m w = .error e) ↔ ∀ i, decodeWord m w ≠ .ok i := by
  cases decodeWord m w <;> simp

end Sys2Proof

namespace Sys2Proof.Machine

theorem exec_command {i : Instr} {m : Op} (ho : i.op = some m) (s : State) : exec i s = hostCall m i s := by
  cases i <;> cases ho <;> rfl

section
variable {s : State} {i : Instr} {m : Op} {w : Word}

/-- An illegal word, with HCTX idle, completes with `InvalidArgument`; nothing else changes. -/
theorem issueIllegal_idle (hpc : s.hctx.pc = .idle) : issueIllegal s = { s with
    hif := { s.hif with result := s.cfg.results.invalidArgument, rdata0 := 0, rdata1 := 0, done := true }
    trace := s.trace ++ [.result s.cfg.results.invalidArgument 0 0] } := by
  simp only [issueIllegal, completeHost, observe, setPc, setCtx, ctxOf, errCode, ← hpc]

theorem hbusy_idle (hpc : s.hctx.pc = .idle) : hbusy s = false := by
  rw [hbusy, hpc]
  rfl

/-- What `CMD` does with a word that decodes, by R29, R98, R35 and R321 in that order. -/
theorem issue_idle (hpc : s.hctx.pc = .idle) (hlife : s.inst.life ≠ .destroyed) : issue m i s =
    if !i.existsIn s.cfg.variant then .next (issueIllegal s)
    else if !i.wellFormed s.cfg.cregs then .refused .phyIndex
    else if !admitted m s.inst.life then .refused .lifecycle
    else opEntry .H m (issued i s) := by
  rw [issue, if_neg hlife, hbusy_idle hpc]
  rfl

theorem runWord_command (hd : decodeWord s.cfg.opcodes w = .ok i) (ho : i.op = some m) :
    runWord w s = andThen (issue m i s) (callLoop (callFuel s)) := by
  rw [runWord_of_decode hd, exec_command ho]
  rfl

/-- A word that does not decode, or that names an operation the variant lacks, completes at once. -/
theorem runWord_illegal (hpc : s.hctx.pc = .idle) (hlife : s.inst.life ≠ .destroyed)
    (hill : (∃ e, decodeWord s.cfg.opcodes w = .error e) ∨
      ∃ i, decodeWord s.cfg.opcodes w = .ok i ∧ i.existsIn s.cfg.variant = false) :
    runWord w s = .next (issueIllegal s) := by
  rcases hill with ⟨e, he⟩ | ⟨i, hi, hvar⟩
  · simp only [runWord, issueWord, he, hlife, hbusy_idle hpc, if_false, Bool.false_eq_true]
  · obtain ⟨m, ho⟩ := exists_op_of_decodeWord hi
    rw [runWord_command hi ho, issue_idle hpc hlife, hvar]
    exact callLoop_done (completeHost_hbusy _ _ _ _) _

/-- R35, U7. -/
theorem runWord_phyIndex (hpc : s.hctx.pc = .idle) (hlife : s.inst.life ≠ .destroyed)
    (hd : decodeWord s.cfg.opcodes w = .ok i) (hvar : i.existsIn s.cfg.variant = true)
    (hw : i.wellFormed s.cfg.cregs = false) : runWord w s = .refused .phyIndex := by
  obtain ⟨m, ho⟩ := exists_op_of_decodeWord hd
  rw [runWord_command hd ho, issue_idle hpc hlife, hvar, hw]
  rfl

/-- R321, U15. -/
theorem runWord_lifecycle (hpc : s.hctx.pc = .idle) (hlife : s.inst.life ≠ .destroyed)
    (hd : decodeWord s.cfg.opcodes w = .ok i) (ho : i.op = some m) (hvar : i.existsIn s.cfg.variant = true)
    (hw : i.wellFormed s.cfg.cregs = true) (hadm : admitted m s.inst.life = false) :
    runWord w s = .refused .lifecycle := by
  rw [runWord_command hd ho, issue_idle hpc hlife, hvar, hw, hadm]
  rfl

end

/-- Settles O4: what decodes has one of the 24 opcodes, and a word decodes exactly when it meets a row. -/
theorem illegalWords : Obligations.IllegalWords := by
  refine ⟨fun w hres => ?_, fun w => ?_, fun s w rest ha hpc hlife hill => ?_,
    fun s w rest i ha hpc hlife hd hvar => ?_⟩
  · refine decodeWord_of_opOf_eq_none (Option.eq_none_iff_forall_ne_some.mpr fun o ho => ?_)
    rw [← code_of_opOf ho] at hres
    exact code_not_reserved o hres
  · rw [decodeWord_error_iff]
    constructor
    · intro h r hr hmeets
      obtain ⟨i, hi, -⟩ := (meets_row_iff hr w).mp hmeets
      exact h i hi
    · intro h i hi
      obtain ⟨o, ho⟩ := exists_op_of_decodeWord hi
      obtain ⟨r, hr, rfl⟩ := exists_row o
      exact h r hr ((meets_row_iff hr w).mpr ⟨i, hi, ho⟩)
  · exact (step_of_agenda ha).trans ((runWord_illegal (s := { s with agenda := rest }) hpc hlife hill).trans
      (congrArg Host.Outcome.next (issueIllegal_idle hpc)))
  · refine ⟨fun hw => ?_, fun hw m ho hadm => ?_⟩
    · exact (step_of_agenda ha).trans (runWord_phyIndex (s := { s with agenda := rest }) hpc hlife hd hvar hw)
    · exact (step_of_agenda ha).trans (runWord_lifecycle (s := { s with agenda := rest }) hpc hlife hd ho hvar hw hadm)

/-! ## Station addresses (R97, R105; 45_mac_interface.md R260, R261) -/

theorem wordOf_eq_append (b0 b1 b2 b3 : Byte) : wordOf b0 b1 b2 b3 = b3 ++ b2 ++ b1 ++ b0 := by
  apply BitVec.eq_of_toNat_eq
  simp only [wordOf, BitVec.toNat_ofNat, BitVec.toNat_append]
  rw [← Nat.shiftLeft_add_eq_or_of_lt b0.isLt, ← Nat.shiftLeft_add_eq_or_of_lt b1.isLt,
    ← Nat.shiftLeft_add_eq_or_of_lt b2.isLt]
  omega

theorem macLo_eq_append (a : Mac) : macLo a = a.b3 ++ a.b2 ++ a.b1 ++ a.b0 := wordOf_eq_append ..

theorem macHi_eq_append (a : Mac) : macHi a = (0 : Half) ++ a.b5 ++ a.b4 := wordOf_eq_append a.b4 a.b5 0 0

theorem wordOf_byteOf (w : Word) : wordOf (byteOf 0 w) (byteOf 1 w) (byteOf 2 w) (byteOf 3 w) = w := by
  apply BitVec.eq_of_toNat_eq
  simp only [wordOf, byteOf, BitVec.toNat_ofNat, BitVec.extractLsb'_toNat, Nat.shiftRight_eq_div_pow]
  omega

/-- The words of an address are the argument words it came from. -/
theorem macLo_macOfWords (lo hi : Word) : macLo (macOfWords lo hi) = lo := wordOf_byteOf lo

theorem macHi_macOfWords (lo : Word) {hi : Word} (h : hi.extractLsb' 16 16 = 0) : macHi (macOfWords lo hi) = hi := by
  have htop : hi.toNat / 2 ^ 16 % 2 ^ 16 = 0 := by
    rw [← Nat.shiftRight_eq_div_pow, ← BitVec.extractLsb'_toNat, h]
    rfl
  apply BitVec.eq_of_toNat_eq
  simp only [macHi, macOfWords, wordOf, byteOf, BitVec.ofNat_eq_ofNat, BitVec.toNat_ofNat, BitVec.extractLsb'_toNat,
    Nat.shiftRight_eq_div_pow]
  omega

/-- HCTX inside SET_ADDR: what was issued at `s`, the index of the byte that is written next, at a label. -/
def addrHost (s : State) (i : Nat) (l : Label) : Ctx :=
  ⟨{ cw := some (encodeWord s.cfg.opcodes .setAddr), a0 := some s.hif.arg0, a1 := some s.hif.arg1 }, { i := some i },
    .op .setAddr l⟩

/-- The address that SET_ADDR is given at `s`. -/
def addrGiven (s : State) : Mac := macOfWords s.hif.arg0 s.hif.arg1

section
variable {s u : State} {i : Nat} {l : Label} {h : Hif} {tr : List Obs}

theorem setAddrCheck_host (act : Act) : setAddrCheck .H (withHost (addrHost s i l) h tr u) act =
    if s.hif.arg1.extractLsb' 16 16 = 0 then act
    else .plain (raiseErr .H .setAddr .invalidArgument 0 (withHost (addrHost s i l) h tr u)) := rfl

theorem addrOperand_host (k : Mac → Out) : addrOperand .H (withHost (addrHost s i l) h tr u) k = k (addrGiven s) := rfl

theorem opAct_setAddr_bus (hv : u.cfg.variant = .bus) (l : Label) : opAct .H .setAddr l u = setAddrActBus .H l u := by
  rw [opAct, setAddrAct, hv]

theorem opAct_setAddr_dma (hv : u.cfg.variant = .dma) (l : Label) : opAct .H .setAddr l u = setAddrActDma .H l u := by
  rw [opAct, setAddrAct, hv]

/-- `ARG1[31:16]` not 0: either variant raises in its first step. -/
theorem opAct_setAddr_badArgument (hbad : s.hif.arg1.extractLsb' 16 16 ≠ 0) :
    opAct .H .setAddr .s0 (withHost (addrHost s i .s0) h tr u) =
      .plain (raiseErr .H .setAddr .invalidArgument 0 (withHost (addrHost s i .s0) h tr u)) := by
  cases hv : u.cfg.variant
  · rw [opAct_setAddr_bus (u := withHost _ h tr u) hv, setAddrActBus, setAddrCheck_host, if_neg hbad]
  · rw [opAct_setAddr_dma (u := withHost _ h tr u) hv, setAddrActDma, setAddrCheck_host, if_neg hbad]

/-! ### Under BUS: the six bytes in order -/

/-- HCTX inside SET_ADDR under BUS, before byte `i` is written: the transactions so far, what the address registers hold. -/
def parHost (s : State) (i : Nat) (obs : List Obs) (par : Mac) : State :=
  withHost (addrHost s i .s0) { s.hif with done := false } (s.trace ++ obs) { s with dev.par := par }

/-- Where SET_ADDR goes once byte `i` is written. -/
def parNext (a : Mac) (i : Nat) (s : State) : Out :=
  if i + 1 < 6 then toLabel .H .setAddr .s0 (setI .H (i + 1) s) else finish .H .setAddr 0 0 { s with inst.addr := a }

/-- The exchange of a transaction. -/
def parWrite (s : State) : Out :=
  need (scOf .H s).i fun i => addrOperand .H s fun a => regWrite (.par (parReg i)) (macGet a (parReg i)) s (parNext a i)

theorem opAct_setAddr_par (hv : u.cfg.variant = .bus) (hok : s.hif.arg1.extractLsb' 16 16 = 0) :
    opAct .H .setAddr .s0 (withHost (addrHost s i .s0) h tr u) = .bus parWrite := by
  rw [opAct_setAddr_bus (u := withHost _ h tr u) hv, setAddrActBus, setAddrCheck_host, if_pos hok]
  rfl

theorem parWrite_host : parWrite (withHost (addrHost s i l) h tr u) =
    parNext (addrGiven s) i (withHost (addrHost s i l) h
      (tr ++ [wrObs u (.par (parReg i)) (macGet (addrGiven s) (parReg i))])
      { u with dev.par := macSet u.dev.par (parReg i) (macGet (addrGiven s) (parReg i)) }) :=
  regWrite_host (addrHost s i l) h tr u (.par (parReg i)) (macGet (addrGiven s) (parReg i)) (parNext (addrGiven s) i)

theorem leads_parWrite {obs : List Obs} {par : Mac} (hv : s.cfg.variant = .bus) (hl : s.lock = none) (hna : NoAgent s)
    (hok : s.hif.arg1.extractLsb' 16 16 = 0) (i : Nat) : Leads 2 (.next (parHost s i obs par))
      (parNext (addrGiven s) i (parHost s i (obs ++ [wrObs s (.par (parReg i)) (macGet (addrGiven s) (parReg i))])
        (macSet par (parReg i) (macGet (addrGiven s) (parReg i))))) := by
  refine leads_tx (u := { s with dev.par := par }) hv hl hna
    (fun q => opAct_setAddr_par (u := { s with dev.par := par, lock := q }) hv hok) ?_
  rw [parHost, ← List.append_assoc]
  exact parWrite_host (u := { s with dev.par := par })

theorem yields_setAddr_bus (hv : s.cfg.variant = .bus) (hl : s.lock = none) (hna : NoAgent s)
    (hok : s.hif.arg1.extractLsb' 16 16 = 0) {a : Mac} (ha : a = addrGiven s) :
    Yields 12 (.next (withHost (addrHost s 0 .s0) { s.hif with done := false } s.trace s)) s
      { s with dev.par := a, inst.addr := a }
      [wrObs s (.par 0) a.b0, wrObs s (.par 1) a.b1, wrObs s (.par 2) a.b2, wrObs s (.par 3) a.b3, wrObs s (.par 4) a.b4,
        wrObs s (.par 5) a.b5] s.cfg.results.ok 0 0 := by
  subst ha
  have hbyte (i : Nat) (hi : i + 1 < 6) (obs : List Obs) (par : Mac) : Leads 2 (.next (parHost s i obs par))
      (.next (parHost s (i + 1) (obs ++ [wrObs s (.par (parReg i)) (macGet (addrGiven s) (parReg i))])
        (macSet par (parReg i) (macGet (addrGiven s) (parReg i))))) := by
    have hstep := leads_parWrite (obs := obs) (par := par) hv hl hna hok i
    rwa [parNext, if_pos hi] at hstep
  have hfive := ((((hbyte 0 (by decide) [] s.dev.par).trans (hbyte 1 (by decide) _ _)).trans
    (hbyte 2 (by decide) _ _)).trans (hbyte 3 (by decide) _ _)).trans (hbyte 4 (by decide) _ _)
  have hstart : parHost s 0 [] s.dev.par = withHost (addrHost s 0 .s0) { s.hif with done := false } s.trace s := by
    rw [parHost, List.append_nil]
  rw [← hstart]
  exact yields_of_leads (n := 0) (hfive.trans (leads_parWrite hv hl hna hok 5)) (yields_done rfl rfl)

/-! ### Under DMA: `MAC_ADDR_HI`, then `MAC_ADDR_LO` -/

theorem opAct_setAddr_hi (hv : u.cfg.variant = .dma) (hok : s.hif.arg1.extractLsb' 16 16 = 0) :
    opAct .H .setAddr .s0 (withHost (addrHost s i .s0) h tr u) =
      .plain (.next (withHost (addrHost s i .s1) h (tr ++ [.mWrite .macAddrHi s.hif.arg1])
        { u with mreg.macAddrHi := s.hif.arg1 })) := by
  rw [opAct_setAddr_dma (u := withHost _ h tr u) hv, setAddrActDma, setAddrCheck_host, if_pos hok, addrOperand_host,
    addrGiven, macHi_macOfWords _ hok, mWrite_host]
  rfl

theorem opAct_setAddr_lo (hv : u.cfg.variant = .dma) :
    opAct .H .setAddr .s1 (withHost (addrHost s i .s1) h tr u) =
      .plain (finish .H .setAddr 0 0 (withHost (addrHost s i .s1) h (tr ++ [.mWrite .macAddrLo s.hif.arg0])
        { u with inst.addr := addrGiven s, mreg.macAddrLo := s.hif.arg0 })) := by
  rw [opAct_setAddr_dma (u := withHost _ h tr u) hv, setAddrActDma, addrOperand_host, mWrite_host,
    show macLo (addrGiven s) = s.hif.arg0 from macLo_macOfWords ..]
  rfl

theorem yields_setAddr_dma (hv : s.cfg.variant = .dma) (hna : NoAgent s) (hok : s.hif.arg1.extractLsb' 16 16 = 0) :
    Yields 2 (.next (withHost (addrHost s 0 .s0) { s.hif with done := false } s.trace s)) s
      { s with inst.addr := addrGiven s, mreg := { s.mreg with macAddrHi := s.hif.arg1, macAddrLo := s.hif.arg0 } }
      [.mWrite .macAddrHi s.hif.arg1, .mWrite .macAddrLo s.hif.arg0] s.cfg.results.ok 0 0 := by
  refine yields_of_leads (n := 0) ((leads_plain hna (opAct_setAddr_hi hv hok)).trans
    (leads_plain (u := { s with mreg.macAddrHi := s.hif.arg1 }) hna (opAct_setAddr_lo hv))) ?_
  rw [addrHost, finish_host]
  refine yields_done rfl ?_
  simp only [List.append_assoc, List.cons_append, List.nil_append]

end

/-- Settles O48: SET_ADDR by its check, then the writes of its variant; GET_ADDR by its one step. -/
theorem stationAddress : Obligations.StationAddress := by
  intro s
  refine ⟨fun ⟨⟨hidle, hl, hna⟩, hadm⟩ => ⟨fun hbad => ?_, fun a hok ha => ⟨fun hv => ?_, fun hv => ?_⟩⟩,
    fun ⟨⟨hidle, hl, hna⟩, hadm⟩ => ?_⟩
  · refine answers_yields (n := 0 + 1) hidle hadm rfl rfl rfl
      (yields_of_leads (leads_plain hna (opAct_setAddr_badArgument (i := 0) hbad)) ?_)
      (Nat.le_trans (by omega) (callFuel_ge s))
    exact yields_done rfl (by rw [List.append_nil]; rfl)
  · subst ha
    exact answers_yields hidle hadm rfl rfl rfl (yields_setAddr_bus hv hl hna hok rfl)
      (Nat.le_trans (by omega) (callFuel_ge s))
  · subst ha
    exact answers_yields hidle hadm rfl rfl rfl (yields_setAddr_dma hv hna hok)
      (Nat.le_trans (by omega) (callFuel_ge s))
  · rw [← macLo_eq_append, ← macHi_eq_append]
    refine answers_yields (n := 0 + 1) hidle hadm rfl rfl rfl (yields_of_leads (leads_plain hna rfl) ?_)
      (Nat.le_trans (by omega) (callFuel_ge s))
    exact yields_done rfl (by rw [List.append_nil]; rfl)

end Sys2Proof.Machine

/-! PROOFS, family 40_bus_access. The two steps of a transaction and its lock timeout (R121 to R125), then REG_RD, REG_WR, MEM_RD
and MEM_WR (R128 to R131), each from its issue to its end. -/

namespace Sys2Proof.Machine

/-! ## The steps of a transaction (R121, R123) -/

section
variable {s : State} {c : CtxId} {f : State → Out}

theorem other_ne (c : CtxId) : other c ≠ c := by cases c <;> decide

theorem agentStep_ctx_of_bus (ha : ctxAct c s = .bus f) : agentStep (.ctx c) s = busStep c f s := by
  rw [agentStep, ctxStep, ha]

theorem agentStep_ctx_of_plain {o : Out} (ha : ctxAct c s = .plain o) : agentStep (.ctx c) s = o := by
  rw [agentStep, ctxStep, ha]

theorem busStep_bus_held {o : CtxId} (hv : s.cfg.variant = .bus) (hl : s.lock = some o) :
    busStep c f s = if o = c then f { s with lock := none } else .next s := by
  rw [busStep, hv, hl]

end

/-- Settles O15: by whether the lock is free, or who holds it. -/
theorem lockSteps : Obligations.LockSteps := by
  intro s c f ha
  rw [agentStep_ctx_of_bus ha]
  refine ⟨fun hv hl => ?_, fun hv hl => ?_, fun hv hl => ?_, fun hv => ?_⟩
  · rw [busStep, hv, hl]
  · rw [busStep_bus_held hv hl, if_pos rfl]
  · rw [busStep_bus_held hv hl, if_neg (other_ne c)]
  · rw [busStep, hv]

/-! ## The lock timeout (R122) -/

section
variable {s : State} {c : CtxId} {f : State → Out} {m : Op} {l : Label} {d : DLabel}

theorem agentStep_lockTimeout_waits (hv : s.cfg.variant = .bus) (hl : s.lock = some (other c)) (ha : ctxAct c s = .bus f) :
    agentStep (.lockTimeout c) s = takeTimeout c s := by
  rw [agentStep, lockTimeoutStep, ha]
  exact if_pos ⟨hv, hl⟩

theorem agentStep_lockTimeout_disabled
    (h : s.cfg.variant = .dma ∨ s.lock ≠ some (other c) ∨ ∀ f, ctxAct c s ≠ .bus f) :
    agentStep (.lockTimeout c) s = .next s := by
  rw [agentStep, lockTimeoutStep]
  cases ha : ctxAct c s with
  | bus f =>
    refine if_neg fun ⟨hv, hl⟩ => ?_
    rcases h with hd | hfree | hact
    · exact absurd (hv.symm.trans hd) (by decide)
    · exact hfree hl
    · exact hact f ha
  | plain o => rfl
  | blocked => rfl

theorem ctxAct_of_op (hpc : (ctxOf c s).pc = .op m l) : ctxAct c s = opAct c m l s := by
  rw [ctxAct, hpc]

theorem ctxAct_of_drain (hpc : s.wctx.pc = .drain d) : ctxAct .W s = drainAct d s := by
  rw [ctxAct, ctxOf_W, hpc]

/-- Where the timeout of a transaction is raised. -/
theorem takeTimeout_of_op (hpc : (ctxOf c s).pc = .op m l) (h0 : l ≠ .p0) (h1 : l ≠ .p1) :
    takeTimeout c s = raiseErr c m .timeout 0 s := by
  rw [takeTimeout, hpc]
  cases l with
  | p0 => exact absurd rfl h0
  | p1 => exact absurd rfl h1
  | _ => rfl

/-- Where it is absorbed (R173). -/
theorem takeTimeout_of_reprobe (hpc : (ctxOf c s).pc = .op m l) (hl : l = .p0 ∨ l = .p1) :
    takeTimeout c s = .next (setPc c (.op m .p2) s) := by
  rw [takeTimeout, hpc]
  rcases hl with rfl | rfl <;> rfl

theorem takeTimeout_of_drain (hpc : s.wctx.pc = .drain d) : takeTimeout .W s = drainTimeout d s := by
  rw [takeTimeout, ctxOf_W, hpc]

/-- Only the two operations with an error continuation go on after an error (60_exceptions.md R300). -/
theorem raiseErr_of_ne (hi : m ≠ .init) (hd : m ≠ .deinit) (e : Err) (w : Word) :
    raiseErr c m e w s = endWithError c m e w s := by
  cases m with
  | init => exact absurd rfl hi
  | deinit => exact absurd rfl hd
  | _ => rfl

/-- A host operation that ends with an error at once has reported it and changed nothing else. -/
theorem answers_endWithError (m : Op) (e : Err) (w : Word) (s : State) :
    Answers (endWithError .H m e w s) s s [] (errCode s.cfg.results e) 0 w :=
  ⟨_, rfl, ⟨rfl, rfl, rfl, rfl, rfl⟩, ⟨rfl, rfl, rfl, rfl⟩, by rw [List.append_nil]; rfl⟩

/-- The re-probe's labels are the same in the four receive operations. -/
theorem opAct_reprobe (hv : s.cfg.variant = .bus) (hm : m ∈ [Op.rxCount, .rxAlloc, .rxFrame, .rxFlush])
    (hl : l ∈ [Label.p0, .p1, .p2, .p3]) : opAct c m l s = rxProcAct c m l s := by
  simp only [List.mem_cons, List.not_mem_nil, or_false] at hm hl
  rcases hm with rfl | rfl | rfl | rfl
  · rfl
  · rcases hl with rfl | rfl | rfl | rfl <;> rfl
  · rw [opAct, rxFrameAct, hv]
    rcases hl with rfl | rfl | rfl | rfl <;> rfl
  · rw [opAct, rxFlushAct, hv]
    rfl

/-- INIT and DEINIT have no re-probe. -/
theorem opAct_reprobe_noLabel (hv : s.cfg.variant = .bus) (hm : m = .init ∨ m = .deinit) (hl : l = .p0 ∨ l = .p1) :
    opAct c m l s = noLabel := by
  rcases hm with rfl | rfl
  · rcases hl with rfl | rfl <;> simp only [opAct, initAct, initActBus, hv]
  · rcases hl with rfl | rfl <;> simp only [opAct, deinitAct, stopSeqAct, hv]

theorem opAct_reprobe_ne_bus (hv : s.cfg.variant = .bus) (hm : m = .init ∨ m = .deinit) (hl : l = .p0 ∨ l = .p1) :
    opAct c m l s ≠ .bus f := by
  rw [opAct_reprobe_noLabel hv hm hl, noLabel]
  exact Act.noConfusion

theorem ctxOf_setPc_pc (c : CtxId) (p : Pc) (s : State) : (ctxOf c (setPc c p s)).pc = p := by cases c <;> rfl

/-- R173: after an absorbed timeout the write of `FRAMES_REMAIN`, then the `Log` with which the operation ends. -/
theorem reprobe_after_timeout (hv : s.cfg.variant = .bus) (hm : m ∈ [Op.rxCount, .rxAlloc, .rxFrame, .rxFlush]) :
    agentStep (.ctx c) (setPc c (.op m .p2) s) = .next (setPc c (.op m .p3) { s with flags.framesRemain := 1 }) ∧
    agentStep (.ctx c) (setPc c (.op m .p3) { s with flags.framesRemain := 1 }) =
      reprobeDone c m { setPc c (.op m .p3) { s with flags.framesRemain := 1 } with
        log := s.log ++ [⟨c, .reprobeTimeout⟩] } := by
  have hstep {l : Label} {t : State} (ht : t.cfg.variant = .bus) (hl : l ∈ [Label.p0, .p1, .p2, .p3]) {o : Out}
      (ho : rxProcAct c m l (setPc c (.op m l) t) = .plain o) : agentStep (.ctx c) (setPc c (.op m l) t) = o := by
    refine agentStep_ctx_of_plain ?_
    rw [ctxAct_of_op (ctxOf_setPc_pc ..), opAct_reprobe (by rwa [setPc_cfg]) hm hl, ho]
  refine ⟨(hstep hv (by decide) rfl).trans ?_, (hstep (t := { s with flags.framesRemain := 1 }) hv (by decide) rfl).trans ?_⟩
  · cases c <;> rfl
  · cases c <;> rfl

end

/-- Settles O16: by where the context that waits for the lock is. -/
theorem lockTimeouts : Obligations.LockTimeouts := by
  refine ⟨fun s c => agentStep_lockTimeout_disabled, fun s m l f hv hlock hpc hact => ?_,
    fun s c m l hv hlock hpc hl hm => ?_, fun s d x hv hlock hpc hd => ?_⟩
  · have hraise (h0 : l ≠ .p0) (h1 : l ≠ .p1) : agentStep (.lockTimeout .H) s = raiseErr .H m .timeout 0 s :=
      (agentStep_lockTimeout_waits (c := .H) hv hlock ((ctxAct_of_op (c := .H) hpc).trans hact)).trans
        (takeTimeout_of_op hpc h0 h1)
    have hcont (hm : m = .init ∨ m = .deinit) : agentStep (.lockTimeout .H) s = raiseErr .H m .timeout 0 s :=
      hraise (fun h0 => opAct_reprobe_ne_bus hv hm (.inl h0) hact) (fun h1 => opAct_reprobe_ne_bus hv hm (.inr h1) hact)
    refine ⟨fun h0 h1 hi hd => ?_, ?_, ?_⟩
    · obtain ⟨t, ht, hrep, hframe, htr⟩ := answers_endWithError m .timeout 0 s
      rw [List.append_nil] at htr
      exact ⟨t, (hraise h0 h1).trans ((raiseErr_of_ne hi hd _ _).trans ht), hrep, hframe, htr⟩
    · rintro rfl
      exact hcont (.inl rfl)
    · rintro rfl
      exact hcont (.inr rfl)
  · have hbus : ∃ f, ctxAct c s = .bus f := by
      rw [ctxAct_of_op hpc, opAct_reprobe hv hm (by rcases hl with rfl | rfl <;> decide)]
      rcases hl with rfl | rfl <;> exact ⟨_, rfl⟩
    obtain ⟨f, hact⟩ := hbus
    obtain ⟨hwrite, hlog⟩ := reprobe_after_timeout (c := c) hv hm
    exact ⟨_, _, (agentStep_lockTimeout_waits hv hlock hact).trans (takeTimeout_of_reprobe hpc hl), rfl, hwrite, rfl, hlog⟩
  · have hdrain : (∃ f, drainAct d s = .bus f) ∧ drainTimeout d s = .next (drainTo (.log x) s) := by
      simp only [List.mem_cons, Prod.mk.injEq, List.not_mem_nil, or_false] at hd
      rcases hd with ⟨rfl, rfl⟩ | ⟨rfl, rfl⟩ <;> exact ⟨by rw [drainAct, hv]; exact ⟨_, rfl⟩, rfl⟩
    obtain ⟨⟨f, hact⟩, htimeout⟩ := hdrain
    exact (agentStep_lockTimeout_waits (c := .W) hv hlock ((ctxAct_of_drain hpc).trans hact)).trans
      ((takeTimeout_of_drain hpc).trans htimeout)

/-! ## A host operation by the steps it leads to -/

/-- HCTX inside the operation `m` that the word of `i` issued at `s`: what was latched, the scratch, the next label. -/
def opHost (i : Instr) (m : Op) (sc : Scratch) (l : Label) (s : State) : Ctx :=
  ⟨{ cw := some (encodeWord s.cfg.opcodes i), a0 := some s.hif.arg0, a1 := some s.hif.arg1 }, sc, .op m l⟩

section
variable {s u : State} {i : Instr} {m : Op} {l : Label} {r : Regs} {sc : Scratch} {pc : Pc} {h : Hif} {tr obs : List Obs}
variable {o : Out} {k n : Nat} {code a b : Word}

/-- An operation whose entry only names its first label stands there with what issue latched. -/
theorem opEntry_issued (he : ∀ t, opEntry .H m t = toLabel .H m .s0 t) (i : Instr) (s : State) :
    opEntry .H m (issued i s) =
      .next (withHost (opHost i m {} .s0 s) { s.hif with done := false } s.trace s) := by
  rw [he]
  rfl

theorem Ready.lock_free (hr : Ready m s) : s.lock = none := by
  obtain ⟨⟨-, hl, -⟩, -⟩ := hr
  exact hl

theorem Ready.noAgent (hr : Ready m s) : NoAgent s := by
  obtain ⟨⟨-, -, hna⟩, -⟩ := hr
  exact hna

/-- An access of the controller puts nothing on the agenda. -/
theorem DevOnly.noAgent (hd : DevOnly s u) (hna : NoAgent s) : NoAgent u := by
  rw [NoAgent, hd.agenda]
  exact hna

theorem txSteps_le (v : Variant) : txSteps v ≤ 2 := by cases v <;> decide

/-- A register access with nobody in the way, in either variant. -/
theorem leads_access {f : State → Out} (hl : u.lock = none) (hna : NoAgent u)
    (hact : ∀ q, opAct .H m l (withHost ⟨r, sc, .op m l⟩ h tr { u with lock := q }) = .bus f)
    (hf : f (withHost ⟨r, sc, .op m l⟩ h tr u) = o) :
    Leads (txSteps u.cfg.variant) (.next (withHost ⟨r, sc, .op m l⟩ h tr u)) o := by
  cases hv : u.cfg.variant with
  | bus => exact leads_tx hv hl hna hact hf
  | dma =>
    subst hf
    exact callLoop_dma (s := withHost ⟨r, sc, .op m l⟩ h tr u) rfl hna hv (hact u.lock)

theorem yields_finish (hcfg : u.cfg = s.cfg) :
    Yields 0 (finish .H m a b (withHost ⟨r, sc, pc⟩ { s.hif with done := false } (s.trace ++ obs) u)) s u obs
      s.cfg.results.ok a b := by
  rw [finish_host, hcfg]
  exact yields_done rfl rfl

/-- What an admitted operation's entry leads to decides its answer. -/
theorem answers_of_leads (hr : Ready m s) (he : i.existsIn s.cfg.variant = true) (hw : i.wellFormed s.cfg.cregs = true)
    (hu : u.hif = s.hif) (hl : Leads k (opEntry .H m (issued i s)) o) (hy : Yields n o s u obs code a b)
    (hn : n + k ≤ callFuel s) : Answers (hostCall m i s) s u obs code a b := by
  obtain ⟨⟨hidle, -, -⟩, hadm⟩ := hr
  rw [issued_host, hidle] at hl
  exact answers_yields hidle hadm he hw hu (yields_of_leads hl hy) hn

theorem refused_of_leads {e : Refusal} (hr : Ready m s) (he : i.existsIn s.cfg.variant = true)
    (hw : i.wellFormed s.cfg.cregs = true) (hl : Leads k (opEntry .H m (issued i s)) (.refused e)) (hk : k ≤ callFuel s) :
    hostCall m i s = .refused e := by
  obtain ⟨⟨hidle, -, -⟩, hadm⟩ := hr
  exact hostCall_refused hidle hadm he hw hl hk

theorem txSteps_le_callFuel (s : State) : txSteps s.cfg.variant ≤ callFuel s :=
  Nat.le_trans (txSteps_le _) (Nat.le_trans (by decide) (callFuel_ge s))

end

/-! ## REG_RD, REG_WR (R128, R129) -/

section
variable {s u : State} {reg : BitVec 7} {r : CReg} {b d : Byte} {e : Refusal}

/-- With auto-return on no port refuses. -/
theorem devReadRaw_autoReturn (ha : autoReturn s = true) (r : CReg) : ∃ b u, devReadRaw r s = .ok (b, u) := by
  by_cases hp : r = .rxPeekN
  · subst hp
    exact ⟨_, _, by rw [devReadRaw, portPeek_autoReturn ha]; rfl⟩
  · by_cases hd : r = .rxData
    · subst hd
      exact ⟨_, _, by rw [devReadRaw, portTake_autoReturn ha]; rfl⟩
    · exact devReadRaw_ok hp hd

/-- A reset in progress changes the byte of a read, never whether it is taken. -/
theorem devRead_ok_of_raw (h : devReadRaw r s = .ok (b, u)) : ∃ b' u', devRead r s = .ok (b', u') := by
  rw [devRead, h]
  simp only
  split
  · exact ⟨_, _, rfl⟩
  · exact ⟨_, _, rfl⟩

theorem devReadIdx_autoReturn (ha : autoReturn s = true) (reg : BitVec 7) : ∃ b u, devReadIdx reg s = .ok (b, u) := by
  cases hr : CReg.ofIndex s.cfg reg with
  | none => exact ⟨_, _, by rw [devReadIdx, hr]⟩
  | some r =>
    obtain ⟨b, u, h⟩ := devReadRaw_autoReturn ha r
    rw [devReadIdx_of_index hr]
    exact devRead_ok_of_raw h

theorem devWriteIdx_reserved (hr : CReg.ofIndex s.cfg reg = none) : devWriteIdx reg d s = .ok s := by
  rw [devWriteIdx, hr]

theorem devWrite_readOnly (hr : r ∈ [CReg.vidL, .vidH, .pidL, .pidH, .rxPeek, .rxPeekN, .rxData]) :
    devWrite r d s = .ok s := by
  simp only [List.mem_cons, List.not_mem_nil, or_false] at hr
  rcases hr with rfl | rfl | rfl | rfl | rfl | rfl | rfl <;> rfl

/-- REG_RD goes as the read of its register goes. -/
theorem leads_regRd (hl : s.lock = none) (hna : NoAgent s) :
    Leads (txSteps s.cfg.variant) (opEntry .H .regRd (issued (.regRd reg) s)) (accept (devReadIdx reg s) fun p =>
      finish .H .regRd (zextByte p.1) 0 (setT .H p.1 (withHost (opHost (.regRd reg) .regRd {} .s0 s)
        { s.hif with done := false } (s.trace ++ [.regRd reg p.1]) (keepDrainHeader s p.2)))) := by
  rw [opEntry_issued (fun _ => rfl)]
  refine leads_access hl hna (fun _ => rfl) ?_
  simp only [opHost, xOf_host, need_some, reg7_regRd, regReadIdx_host, keepDrainHeader_host]

/-- REG_WR goes as the write of its register goes. -/
theorem leads_regWr (hl : s.lock = none) (hna : NoAgent s) :
    Leads (txSteps s.cfg.variant) (opEntry .H .regWr (issued (.regWr reg d) s)) (accept (devWriteIdx reg d s) fun v =>
      finish .H .regWr 0 0 (withHost (opHost (.regWr reg d) .regWr {} .s0 s) { s.hif with done := false }
        (s.trace ++ [.regWr reg d]) (keepDrainHeader s v))) := by
  rw [opEntry_issued (fun _ => rfl)]
  refine leads_access hl hna (fun _ => rfl) ?_
  simp only [opHost, xOf_host, need_some, reg7_regWr, data_regWr, regWriteIdx_host, keepDrainHeader_host]

end

/-- Settles O17: the operation is `accept` of its register's read. -/
theorem regRd : Obligations.RegRd := by
  intro s reg hr
  have hlead := leads_regRd (reg := reg) hr.lock_free hr.noAgent
  refine ⟨fun b u h => ?_, fun e h => ?_, devReadIdx_ok, fun ha => devReadIdx_autoReturn ha reg⟩
  · have hd := (devOnly_devReadIdx h).trans (devOnly_keepDrainHeader s)
    rw [h, accept_ok, opHost, setT_host] at hlead
    exact answers_of_leads hr rfl rfl hd.hif hlead (yields_finish hd.cfg)
      (by rw [Nat.zero_add]; exact txSteps_le_callFuel s)
  · rw [h, accept_error] at hlead
    exact refused_of_leads hr rfl rfl hlead (txSteps_le_callFuel s)

/-- Settles O18: the operation is `accept` of its register's write. -/
theorem regWr : Obligations.RegWr := by
  intro s reg d hr
  have hlead := leads_regWr (reg := reg) (d := d) hr.lock_free hr.noAgent
  refine ⟨fun u h => ?_, fun e h => ?_, devWriteIdx_ok, fun r hread hdist hv hreg => ?_, devWriteIdx_reserved⟩
  · have hd := (devOnly_devWriteIdx h).trans (devOnly_keepDrainHeader s)
    rw [h, accept_ok, opHost] at hlead
    exact answers_of_leads hr rfl rfl hd.hif hlead (yields_finish hd.cfg)
      (by rw [Nat.zero_add]; exact txSteps_le_callFuel s)
  · rw [h, accept_error] at hlead
    exact refused_of_leads hr rfl rfl hlead (txSteps_le_callFuel s)
  · subst hreg
    rw [devWriteIdx_of_index (ofIndex_index hdist (.inl hv)), devWrite_readOnly hread]

/-! ## MEM_RD, MEM_WR (R130, R131) -/

section
variable {s u t : State} {m : Op} {i : Instr} {len : BitVec 16} {sc : Scratch} {l : Label} {h : Hif} {tr : List Obs}
variable {bytes : List Byte}

/-- The checks on the length and the buffer, as the operation finds what was latched. -/
theorem memChecks_host (hlen : cwLen (encodeWord s.cfg.opcodes i) = len.toNat) (act : Nat → Word → Act) :
    memChecks .H m (withHost (opHost i m sc l s) h tr u) act =
      if len.toNat = 0 then .plain (finish .H m 0 0 (withHost (opHost i m sc l s) h tr u))
      else if s.hif.arg0 = 0 then .plain (raiseErr .H m .invalidArgument 0 (withHost (opHost i m sc l s) h tr u))
      else act len.toNat s.hif.arg0 := by
  simp only [memChecks, opHost, xOf_host, needAct_some, hlen]

/-- The two operations where a check ends them, before any transaction. `act` is what S0 does otherwise. -/
theorem answers_memChecks {act : State → Nat → Word → Act} (hr : Ready m s) (he : i.existsIn s.cfg.variant = true)
    (hw : i.wellFormed s.cfg.cregs = true) (hm : m ≠ .init ∧ m ≠ .deinit)
    (hlen : cwLen (encodeWord s.cfg.opcodes i) = len.toNat)
    (hentry : opEntry .H m (issued i s) = .next (withHost (opHost i m sc .s0 s) { s.hif with done := false } s.trace s))
    (hact : ∀ v, opAct .H m .s0 v = memChecks .H m v (act v)) :
    (len = 0 → Answers (hostCall m i s) s s [] s.cfg.results.ok 0 0) ∧
    (len ≠ 0 → s.hif.arg0 = 0 → Answers (hostCall m i s) s s [] s.cfg.results.invalidArgument 0 0) := by
  obtain ⟨hi, hd⟩ := hm
  have hends {o : Out} (ho : opAct .H m .s0 (withHost (opHost i m sc .s0 s) { s.hif with done := false } s.trace s) =
      .plain o) : Leads 1 (opEntry .H m (issued i s)) o := by
    rw [hentry]
    exact leads_plain hr.noAgent ho
  refine ⟨?_, fun hne ha => ?_⟩
  · rintro rfl
    refine answers_of_leads (n := 0) hr he hw rfl (hends ((hact _).trans ((memChecks_host hlen _).trans (if_pos rfl)))) ?_
      (Nat.le_trans (by decide) (callFuel_ge s))
    rw [opHost, finish_host]
    exact yields_done rfl (by rw [List.append_nil])
  · refine answers_of_leads (n := 0) hr he hw rfl (hends ((hact _).trans ((memChecks_host hlen _).trans
      ((if_neg (BitVec.toNat_ne_iff_ne.mpr hne)).trans (if_pos ha))))) ?_ (Nat.le_trans (by decide) (callFuel_ge s))
    rw [raiseErr_of_ne hi hd, opHost, endWithError_host]
    exact yields_done rfl (by rw [List.append_nil]; rfl)

/-- Where the checks pass. -/
theorem memChecks_pass (hlen : cwLen (encodeWord s.cfg.opcodes i) = len.toNat) (hne : len ≠ 0) (ha : s.hif.arg0 ≠ 0)
    (act : Nat → Word → Act) :
    memChecks .H m (withHost (opHost i m sc l s) h tr u) act = act len.toNat s.hif.arg0 :=
  (memChecks_host hlen act).trans ((if_neg (BitVec.toNat_ne_iff_ne.mpr hne)).trans (if_neg ha))

/-- The longest string fits the loop of a call. -/
theorem stringSteps_le_callFuel (s : State) (len : BitVec 16) : len.toNat + 256 ≤ callFuel s := by
  have hfuel := polls_le_callFuel s
  have hlt := len.isLt
  omega

/-! ### MEM_RD -/

theorem portTake_length {n : Nat} (hok : portTake n s = .ok (bytes, u)) : bytes.length = n := by
  unfold portTake at hok
  split at hok
  · cases hok
  · cases hok
    exact peekBytes_length n s

/-- A block read of `RX_DATA` delivers as many bytes as it is asked for. -/
theorem devBlockRead_rxData_length {n : Nat} (hok : devBlockRead .rxData n s = .ok (bytes, u)) : bytes.length = n := by
  unfold devBlockRead at hok
  split at hok
  · cases hok
  · rename_i bs v hraw
    split at hok
    · cases hok
      exact drawBytes_length n v
    · cases hok
      rw [devBlockReadRaw] at hraw
      split at hraw
      · exact portTake_length hraw
      · cases hraw

/-- The transaction of S0. -/
def memRdFetch (n : Nat) (_ : Word) : Act := .bus fun s => blockRead .rxData n s fun bs t =>
  toLabel .H .memRd .s1 (setBytes .H bs (keepDrainHeader s t))

theorem opAct_memRd (v : State) : opAct .H .memRd .s0 v = memChecks .H .memRd v memRdFetch := rfl

/-- MEM_RD up to its transaction: it goes as the block read goes. -/
theorem leads_memRd (hv : s.cfg.variant = .bus) (hl : s.lock = none) (hna : NoAgent s) (hne : len ≠ 0)
    (ha : s.hif.arg0 ≠ 0) :
    Leads 2 (opEntry .H .memRd (issued (.memRd len) s)) (accept (devBlockRead .rxData len.toNat s) fun p =>
      .next (withHost (opHost (.memRd len) .memRd { bytes := some p.1 } .s1 s) { s.hif with done := false }
        (s.trace ++ [blkRdObs s .rxData p.1]) (keepDrainHeader s p.2))) := by
  rw [opEntry_issued (fun _ => rfl)]
  refine leads_tx hv hl hna
    (fun q => (opAct_memRd _).trans (memChecks_pass (i := .memRd len) (cwLen_memRd _ len) hne ha _)) ?_
  simp only [opHost, blockRead_host, keepDrainHeader_host, setBytes_host, toLabel_host]
  rfl

/-- S1: the store of the bytes read. -/
theorem opAct_memRd_store (p : Nat) :
    opAct .H .memRd .s1 (withHost (opHost (.memRd len) .memRd { bytes := some bytes, pos := p } .s1 s) h tr u) =
      .plain (writeString .H .memRd .s1 s.hif.arg0.toNat bytes (finish .H .memRd 0 0)
        (withHost (opHost (.memRd len) .memRd { bytes := some bytes, pos := p } .s1 s) h tr u)) := rfl

theorem exec_memRd_error {e : Refusal} (hr : Ready .memRd s) (hv : s.cfg.variant = .bus) (hne : len ≠ 0)
    (ha : s.hif.arg0 ≠ 0) (h : devBlockRead .rxData len.toNat s = .error e) : exec (.memRd len) s = .refused e := by
  have hlead := leads_memRd hv hr.lock_free hr.noAgent hne ha
  rw [h, accept_error] at hlead
  exact refused_of_leads hr (by rw [hv]; rfl) rfl hlead (Nat.le_trans (by decide) (callFuel_ge s))

/-- U11. -/
theorem exec_memRd_outside (hr : Ready .memRd s) (hv : s.cfg.variant = .bus) (hne : len ≠ 0) (ha : s.hif.arg0 ≠ 0)
    (h : devBlockRead .rxData len.toNat s = .ok (bytes, u)) (hout : 2 ^ 32 < s.hif.arg0.toNat + len.toNat) :
    exec (.memRd len) s = .refused .outsideRegion := by
  have hlead := leads_memRd hv hr.lock_free hr.noAgent hne ha
  rw [h, accept_ok] at hlead
  have hd := (devOnly_devBlockRead h).trans (devOnly_keepDrainHeader s)
  rw [← devBlockRead_rxData_length h] at hout
  exact refused_of_leads hr (by rw [hv]; rfl) rfl (hlead.trans (leads_plain (hd.noAgent hr.noAgent)
    ((opAct_memRd_store 0).trans (congrArg Act.plain (if_pos hout))))) (Nat.le_trans (by decide) (callFuel_ge s))

theorem answers_memRd (hr : Ready .memRd s) (hv : s.cfg.variant = .bus) (hne : len ≠ 0) (ha : s.hif.arg0 ≠ 0)
    (h : devBlockRead .rxData len.toNat s = .ok (bytes, u)) (hin : s.hif.arg0.toNat + len.toNat ≤ 2 ^ 32) :
    Answers (exec (.memRd len) s) s (hwrite s.hif.arg0.toNat bytes (keepDrainHeader s u)) [blkRdObs s .rxData bytes]
      s.cfg.results.ok 0 0 := by
  have hlead := leads_memRd hv hr.lock_free hr.noAgent hne ha
  rw [h, accept_ok] at hlead
  have hd := (devOnly_devBlockRead h).trans (devOnly_keepDrainHeader s)
  have hlen := devBlockRead_rxData_length h
  have hfuel := stringSteps_le_callFuel s len
  exact answers_of_leads hr (by rw [hv]; rfl) rfl hd.hif hlead (yields_writeString (n := 0) (sc := { bytes := some bytes })
    (hd.noAgent hr.noAgent) (by rw [hlen]; exact hin) rfl (fun p _ => opAct_memRd_store p) (yields_finish hd.cfg)) (by omega)

theorem hbyte_congr (hmem : t.hmem = u.hmem) (a : Nat) : hbyte t a = hbyte u a := by
  rw [hbyte, hbyte, hmem]

/-- What storing a string leaves of HMEM, byte for byte. -/
theorem hbyte_stored {a : Nat} (hwf : Memory.wf s = true) (hmem : t.hmem = (hwrite a bytes s).hmem)
    (hlen : bytes.length ≤ hmemSize) :
    SameMemoryExcept a bytes.length s t ∧ ∀ i, i < bytes.length → hbyte t (a + i) = bytes.getD i 0 := by
  simp only [Memory.wf, Bool.and_eq_true] at hwf
  obtain ⟨⟨hcells, -⟩, -⟩ := hwf
  refine ⟨fun b hb => ?_, fun i hi => ?_⟩
  · rw [hbyte_congr hmem, hbyte_hwrite_other hcells a bytes b hb]
  · rw [hbyte_congr hmem, hbyte_hwrite_same hcells a bytes hlen i hi, List.getD_eq_getElem?_getD,
      List.getElem?_eq_getElem hi, Option.getD_some]

end

/-- Settles O19: the checks, then the operation is `accept` of the block read, whose bytes are stored. -/
theorem memRd : Obligations.MemRd := by
  intro s len hr hv
  obtain ⟨hzero, hnull⟩ := answers_memChecks (i := .memRd len) (len := len) hr (by rw [hv]; rfl) rfl ⟨by decide, by decide⟩
    (cwLen_memRd _ len) (opEntry_issued (fun _ => rfl) _ s) opAct_memRd
  refine ⟨hzero, hnull, fun hne ha => ⟨fun bytes u h => ⟨exec_memRd_outside hr hv hne ha h, fun hin => ?_⟩,
    fun e => exec_memRd_error hr hv hne ha, fun hauto => ?_⟩⟩
  · have hans := answers_memRd hr hv hne ha h hin
    refine ⟨hans, fun hwf t ht => ?_⟩
    obtain ⟨t', ht', -, ⟨hframe, -⟩, -⟩ := hans
    obtain rfl : t' = t := Host.Outcome.next.inj (ht'.symm.trans ht)
    have hd := (devOnly_devBlockRead h).trans (devOnly_keepDrainHeader s)
    have hlen := devBlockRead_rxData_length h
    have hmem : t'.hmem = (hwrite s.hif.arg0.toNat bytes s).hmem := by
      rw [congrArg State.hmem hframe]
      exact congrArg (storeBytes · _ _) hd.hmem
    rw [← hlen]
    exact hbyte_stored hwf hmem (by rw [hlen]; exact Nat.le_of_add_left_le hin)
  · obtain ⟨bytes, u, h, -⟩ := devBlockRead_port_ok (s := s) (n := len.toNat) (.inr rfl)
      (Nat.pos_of_ne_zero (BitVec.toNat_ne_iff_ne.mpr hne)) (Nat.le_of_lt_succ len.isLt) hauto
    exact ⟨bytes, u, h⟩

section
variable {s u : State} {len : BitVec 16} {sc : Scratch} {h : Hif} {tr : List Obs}

/-! ### MEM_WR -/

theorem hread_getD {a n i : Nat} (hi : i < n) : (hread s a n).getD i 0 = hbyte s (a + i) := by
  rw [hread, List.getD_eq_getElem?_getD, List.getElem?_map, List.getElem?_range hi, Option.map_some, Option.getD_some]

/-- The step of S0 once the checks have passed. -/
def memWrGather (v : State) (n : Nat) (a : Word) : Act :=
  .plain (readString .H .memWr .s0 a.toNat n (toLabel .H .memWr .s1) v)

theorem opAct_memWr (v : State) : opAct .H .memWr .s0 v = memChecks .H .memWr v (memWrGather v) := rfl

/-- S0 where the checks pass: a step of the read of the source. -/
theorem opAct_memWr_read (hne : len ≠ 0) (ha : s.hif.arg0 ≠ 0) :
    opAct .H .memWr .s0 (withHost (opHost (.memWr len) .memWr sc .s0 s) h tr u) =
      .plain (readString .H .memWr .s0 s.hif.arg0.toNat len.toNat (toLabel .H .memWr .s1)
        (withHost (opHost (.memWr len) .memWr sc .s0 s) h tr u)) :=
  (opAct_memWr _).trans (memChecks_pass (i := .memWr len) (cwLen_memWr _ len) hne ha _)

theorem opEntry_memWr (s : State) (len : BitVec 16) : opEntry .H .memWr (issued (.memWr len) s) =
    .next (withHost (opHost (.memWr len) .memWr { bytes := some [] } .s0 s) { s.hif with done := false } s.trace s) := rfl

/-- S1: the block write of the bytes gathered. -/
theorem leads_memWr_stage {bs : List Byte} (hv : s.cfg.variant = .bus) (hl : s.lock = none) (hna : NoAgent s)
    (hsc : sc.bytes = some bs) (hne : bs ≠ []) (hlen : bs.length ≤ 65535) :
    Leads 2 (.next (withHost (opHost (.memWr len) .memWr sc .s1 s) { s.hif with done := false } s.trace s))
      (finish .H .memWr 0 0 (withHost (opHost (.memWr len) .memWr sc .s1 s) { s.hif with done := false }
        (s.trace ++ [blkWrObs s .txData bs]) (stageTx bs s))) := by
  refine leads_tx hv hl hna (fun _ => rfl) ?_
  simp only [scOf_host, hsc, need_some, blockWrite_host, devBlockWrite_txData hne hlen]
  rfl

/-- U11. -/
theorem exec_memWr_outside (hr : Ready .memWr s) (hv : s.cfg.variant = .bus) (hne : len ≠ 0) (ha : s.hif.arg0 ≠ 0)
    (hout : 2 ^ 32 < s.hif.arg0.toNat + len.toNat) : exec (.memWr len) s = .refused .outsideRegion := by
  refine refused_of_leads (k := 1) hr (by rw [hv]; rfl) rfl ?_ (Nat.le_trans (by decide) (callFuel_ge s))
  rw [opEntry_memWr]
  exact leads_plain hr.noAgent ((opAct_memWr_read hne ha).trans (congrArg Act.plain (if_pos hout)))

theorem answers_memWr (hr : Ready .memWr s) (hv : s.cfg.variant = .bus) (hne : len ≠ 0) (ha : s.hif.arg0 ≠ 0)
    (hin : s.hif.arg0.toNat + len.toNat ≤ 2 ^ 32) :
    Answers (exec (.memWr len) s) s (stageTx (hread s s.hif.arg0.toNat len.toNat) s)
      [blkWrObs s .txData (hread s s.hif.arg0.toNat len.toNat)] s.cfg.results.ok 0 0 := by
  obtain ⟨⟨hidle, hl, hna⟩, hadm⟩ := hr
  have hfuel := stringSteps_le_callFuel s len
  have hlen := hread_length s s.hif.arg0.toNat len.toNat
  have hbytes : hread s s.hif.arg0.toNat len.toNat ≠ [] :=
    List.ne_nil_of_length_pos (by rw [hlen]; exact Nat.pos_of_ne_zero (BitVec.toNat_ne_iff_ne.mpr hne))
  have hstage := leads_memWr_stage (len := len) (sc := { bytes := some (hread s s.hif.arg0.toNat len.toNat) }) hv hl hna rfl
    hbytes (by rw [hlen]; exact Nat.le_of_lt_succ len.isLt)
  exact answers_yields (n := 0 + 2 + len.toNat + 1) hidle hadm (by rw [hv]; rfl) rfl rfl
    (yields_readString (sc := {}) (after := toLabel .H .memWr .s1) hna hin
      (fun got => opAct_memWr_read (sc := { bytes := some got }) hne ha)
      (yields_of_leads hstage (yields_finish rfl))) (by omega)

end

/-- Settles O20: the checks, the source's bytes gathered, then their block write. -/
theorem memWr : Obligations.MemWr := by
  intro s len hr hv
  obtain ⟨hzero, hnull⟩ := answers_memChecks (i := .memWr len) (len := len) hr (by rw [hv]; rfl) rfl ⟨by decide, by decide⟩
    (cwLen_memWr _ len) (opEntry_memWr s len) opAct_memWr
  exact ⟨hzero, hnull, exec_memWr_outside hr hv, fun hne ha hin =>
    ⟨_, hread_length .., fun i hi => hread_getD hi, answers_memWr hr hv hne ha hin⟩⟩

end Sys2Proof.Machine

/-! PROOFS, family 41_phy_access. The two PHY operations from their issue to their end: the turns of HCTX that an agenda may
or may not name, the access protocol up to the command (R141, R142, R144), the polls (R143), and what the controller does
with the transaction (R146). -/

namespace Sys2Proof.Machine

/-! ## Turns of HCTX -/

/-- HCTX takes the next `k` steps, and the agenda is `e'` then: `e` names these steps, or it names no agent at all. -/
def HostTurns (k : Nat) (e e' : List Event) : Prop :=
  e = hostSteps k e' ∨ e' = e ∧ ∀ a rest, e ≠ .agent a :: rest

section
variable {j k : Nat} {e e' : List Event} {o : Out} {s u w : State} {r : Regs} {sc : Scratch} {h : Hif} {tr : List Obs}
variable {m : Op} {l : Label} {f : State → Out} {q : CReg} {b : Byte}

theorem hostTurns_of_noAgent (hna : NoAgent s) (k : Nat) : HostTurns k s.agenda s.agenda := .inr ⟨rfl, hna⟩

theorem HostTurns.zero (ht : HostTurns 0 e e') : e' = e := by
  rcases ht with rfl | ⟨rfl, -⟩ <;> rfl

theorem HostTurns.split (ht : HostTurns (j + k) e e') : ∃ e₁, HostTurns j e e₁ ∧ HostTurns k e₁ e' := by
  rcases ht with rfl | ⟨rfl, hna⟩
  · exact ⟨hostSteps k e', .inl (hostSteps_add j k e'), .inl rfl⟩
  · exact ⟨e', .inr ⟨rfl, hna⟩, .inr ⟨rfl, hna⟩⟩

/-- A step of an agent that the agenda puts here. -/
theorem leads_agent {x : Ctx} {g : AgentStep} (hb : hbusy (withHost x h tr u) = true) (ha : u.agenda = .agent g :: e)
    (hs : agentStep g (withHost x h tr { u with agenda := e }) = o) : Leads 1 (.next (withHost x h tr u)) o := by
  subst hs
  exact callLoop_agent hb ha

/-- A step of HCTX that is no transaction. -/
theorem leads_plain_turn (ht : HostTurns 1 u.agenda e)
    (hact : opAct .H m l (withHost ⟨r, sc, .op m l⟩ h tr { u with agenda := e }) = .plain o) :
    Leads 1 (.next (withHost ⟨r, sc, .op m l⟩ h tr u)) o := by
  rcases ht with hag | ⟨rfl, hna⟩
  · exact leads_agent (g := .ctx .H) rfl hag (ctxStep_plain rfl hact)
  · exact leads_plain hna hact

/-- A transaction of HCTX with the lock free, in either variant. -/
theorem leads_tx_turns (hl : u.lock = none) (ht : HostTurns (txSteps u.cfg.variant) u.agenda e)
    (hact : ∀ v, opAct .H m l (withHost ⟨r, sc, .op m l⟩ h tr v) = .bus f)
    (hf : f (withHost ⟨r, sc, .op m l⟩ h tr { u with agenda := e }) = o) :
    Leads (txSteps u.cfg.variant) (.next (withHost ⟨r, sc, .op m l⟩ h tr u)) o := by
  rcases ht with hag | ⟨rfl, hna⟩
  · have hstep (v : State) : agentStep (.ctx .H) (withHost ⟨r, sc, .op m l⟩ h tr v) =
        busStep .H f (withHost ⟨r, sc, .op m l⟩ h tr v) := ctxStep_bus rfl (hact v)
    cases hv : u.cfg.variant with
    | bus =>
      rw [hv] at hag
      have hacquire : Leads 1 (.next (withHost ⟨r, sc, .op m l⟩ h tr u)) (.next (withHost ⟨r, sc, .op m l⟩ h tr
          { u with agenda := .agent (.ctx .H) :: e, lock := some .H })) :=
        leads_agent rfl hag (by rw [hstep, busStep_acquire (by exact hv) (by exact hl)]; rfl)
      refine hacquire.trans (leads_agent rfl rfl ?_)
      rw [hstep, busStep_transfer (by exact hv) rfl, ← hf, ← hl]
      rfl
    | dma =>
      rw [hv] at hag
      exact leads_agent rfl hag (by rw [hstep, busStep_dma (by exact hv)]; exact hf)
  · exact leads_access hl hna (fun q => hact { u with lock := q }) hf

/-- A register read that has no side effect. -/
theorem leads_read {next : Byte → State → Out} (hl : u.lock = none) (hq : resetting u = false)
    (ht : HostTurns (txSteps u.cfg.variant) u.agenda e)
    (hact : ∀ v, opAct .H m l (withHost ⟨r, sc, .op m l⟩ h tr v) = rdStep q next)
    (hraw : devReadRaw q { u with agenda := e } = .ok (b, { u with agenda := e }))
    (ho : next b (withHost ⟨r, sc, .op m l⟩ h (tr ++ [rdObs u q b]) { u with agenda := e }) = o) :
    Leads (txSteps u.cfg.variant) (.next (withHost ⟨r, sc, .op m l⟩ h tr u)) o := by
  refine leads_tx_turns hl ht hact ?_
  rw [regRead_host, devRead_of_not_resetting (s := { u with agenda := e }) hq, hraw]
  exact ho

/-- A register write, where the step `f` is one. -/
theorem leads_write {next : State → Out} (hl : u.lock = none) (ht : HostTurns (txSteps u.cfg.variant) u.agenda e)
    (hact : ∀ v, opAct .H m l (withHost ⟨r, sc, .op m l⟩ h tr v) = .bus f)
    (hf : ∀ v, f (withHost ⟨r, sc, .op m l⟩ h tr v) = regWrite q b (withHost ⟨r, sc, .op m l⟩ h tr v) next)
    (hw : devWrite q b { u with agenda := e } = .ok w)
    (ho : next (withHost ⟨r, sc, .op m l⟩ h (tr ++ [wrObs u q b]) w) = o) :
    Leads (txSteps u.cfg.variant) (.next (withHost ⟨r, sc, .op m l⟩ h tr u)) o := by
  refine leads_tx_turns hl ht hact ?_
  rw [hf, regWrite_host, hw]
  exact ho

end

/-! ## Bytes of the PHY registers (10_state.md R34; 41_phy_access.md R146) -/

/-- Bit 0 of PHY_CMD is `BUSY`. -/
theorem phyCmdByte_getLsbD_zero (d : Dev) : (phyCmdByte d).getLsbD 0 = d.phyOp.isSome := by
  rw [phyCmdByte_eq]
  cases d.phySel <;> cases d.phyOp.isSome <;> rfl

theorem phyCmdByte_idle {d : Dev} (hidle : d.phyOp = none) : phyCmdByte d = if d.phySel then 0x08 else 0 := by
  rw [phyCmdByte_eq, hidle]
  cases d.phySel <;> rfl

theorem phyCmdByte_busy {d : Dev} (hbusy : d.phyOp.isSome = true) : phyCmdByte d = if d.phySel then 0x09 else 0x01 := by
  rw [phyCmdByte_eq, hbusy]
  cases d.phySel <;> rfl

section
variable {phy reg : BitVec 5} {v : Half}

theorem phyAddrByte_of_lt (hphy : phy.toNat < 4) :
    phyAddrByte phy reg = BitVec.ofNat 8 (phy.toNat * 64 + reg.toNat) := by
  rw [phyAddrByte, Nat.mod_eq_of_lt hphy]

theorem phyAddrP_phyAddrByte (hphy : phy.toNat < 4) : phyAddrP (phyAddrByte phy reg) = phy := by
  have := reg.isLt
  apply BitVec.eq_of_toNat_eq
  rw [phyAddrP, phyAddrByte, BitVec.toNat_ofNat, BitVec.toNat_ofNat]
  omega

theorem phyAddrR_phyAddrByte : phyAddrR (phyAddrByte phy reg) = reg := by
  have := reg.isLt
  apply BitVec.eq_of_toNat_eq
  rw [phyAddrR, phyAddrByte, BitVec.extractLsb'_toNat, BitVec.toNat_ofNat, Nat.shiftRight_zero]
  omega

theorem toNat_lowByte (v : Half) : (lowByte v).toNat = v.toNat % 256 := by
  rw [lowByte, BitVec.extractLsb'_toNat, Nat.shiftRight_zero]

theorem toNat_highByte (v : Half) : (highByte v).toNat = v.toNat / 256 := by
  rw [highByte, BitVec.extractLsb'_toNat, Nat.shiftRight_eq_div_pow]
  omega

theorem halfOf_lowByte_highByte (v : Half) : halfOf (lowByte v) (highByte v) = v := by
  apply BitVec.eq_of_toNat_eq
  rw [halfOf_toNat, toNat_lowByte, toNat_highByte]
  omega

/-- The two data bytes joined in a working register, as PHY_RD joins them. -/
theorem zextByte_lowByte_or_highByte (v : Half) :
    zextByte (lowByte v) ||| zextByte (highByte v) <<< 8 = BitVec.ofNat 32 v.toNat := by
  have hlow : (zextByte (lowByte v)).toNat = v.toNat % 256 := by
    rw [zextByte, BitVec.toNat_ofNat, toNat_lowByte]; omega
  have hhigh : (zextByte (highByte v) <<< 8).toNat = (v.toNat / 256) <<< 8 := by
    rw [zextByte, BitVec.toNat_shiftLeft, BitVec.toNat_ofNat, toNat_highByte, Nat.shiftLeft_eq, Nat.shiftLeft_eq]; omega
  apply BitVec.eq_of_toNat_eq
  rw [BitVec.toNat_or, hlow, hhigh, Nat.or_comm, ← Nat.shiftLeft_add_eq_or_of_lt (by omega), Nat.shiftLeft_eq,
    BitVec.toNat_ofNat]
  omega

end

/-! ## The steps of the two operations (R141, R142) -/

/-- HCTX inside the PHY operation `m` that the word of `i` issued at `s`: the byte read last, the accumulator, the label. -/
def phyHost (s : State) (i : Instr) (m : Op) (t acc : Option Word) (l : Label) : Ctx :=
  ⟨{ cw := some (encodeWord s.cfg.opcodes i), a0 := some s.hif.arg0, a1 := some s.hif.arg1, t := t, acc := acc }, {},
    .op m l⟩

/-- The machine there: the transactions of the operation so far are `obs`, all but the host's own part is `u`. -/
def phyAt (s : State) (i : Instr) (m : Op) (t acc : Option Word) (obs : List Obs) (l : Label) (u : State) : State :=
  withHost (phyHost s i m t acc l) { s.hif with done := false } (s.trace ++ obs) u

/-- The accumulator after `p` polls. -/
def pollTime (c : Config) (p : Nat) : Word := BitVec.ofNat 32 (p * c.phyPollUs)

section
variable {c : Config} {n p : Nat}

theorem pollTime_add (c : Config) (p : Nat) : pollTime c p + BitVec.ofNat 32 c.phyPollUs = pollTime c (p + 1) := by
  rw [pollTime, pollTime, Nat.succ_mul, BitVec.ofNat_add]

/-- The budget is spent at the `n`-th poll and not before. -/
theorem PhyBudget.pollTime_lt_iff (hb : PhyBudget c n) (hp : p ≤ n) : (pollTime c p).toNat < c.phyBudgetUs ↔ p < n := by
  obtain ⟨hpos, hbudget, hfit⟩ := hb
  have hle : p * c.phyPollUs ≤ n * c.phyPollUs := Nat.mul_le_mul_right _ hp
  rw [pollTime, BitVec.toNat_ofNat, Nat.mod_eq_of_lt (by omega), hbudget]
  exact Nat.mul_lt_mul_right hpos

theorem PhyBudget.le_budget (hb : PhyBudget c n) : n ≤ c.phyBudgetUs := by
  obtain ⟨hpos, hbudget, -⟩ := hb
  rw [hbudget]
  exact Nat.le_mul_of_pos_right n hpos

end

section
variable {s u w : State} {i : Instr} {m : Op} {t acc : Option Word} {obs : List Obs} {l : Label} {e : List Event}
variable {phy reg : BitVec 5}

theorem phyAt_append (o : Obs) :
    withHost (phyHost s i m t acc l) { s.hif with done := false } (s.trace ++ obs ++ [o]) u =
      phyAt s i m t acc (obs ++ [o]) l u := by
  rw [phyAt, List.append_assoc]

/-- The pre-check (R144) reads PHY_CMD once. -/
theorem leads_phyPreCheck {after : Label} (hl : u.lock = none) (hq : resetting u = false)
    (ht : HostTurns (txSteps u.cfg.variant) u.agenda e)
    (hact : ∀ v, opAct .H m l (phyAt s i m t acc obs l v) = phyPreCheck .H m after) :
    Leads (txSteps u.cfg.variant) (.next (phyAt s i m t acc obs l u))
      (if u.dev.phyOp.isSome then raiseErr .H m .invalidState 0 (phyAt s i m (some (zextByte (phyCmdByte u.dev))) acc
          (obs ++ [rdObs u .phyCmd (phyCmdByte u.dev)]) l { u with agenda := e })
        else .next (phyAt s i m (some (zextByte (phyCmdByte u.dev))) acc
          (obs ++ [rdObs u .phyCmd (phyCmdByte u.dev)]) after { u with agenda := e })) := by
  simp only [← phyCmdByte_getLsbD_zero, ← phyAt_append]
  exact leads_read hl hq ht hact rfl rfl

theorem leads_phyPreCheck_idle {after : Label} (hidle : u.dev.phyOp = none) (hl : u.lock = none)
    (hq : resetting u = false)
    (ht : HostTurns (txSteps u.cfg.variant) u.agenda e)
    (hact : ∀ v, opAct .H m l (phyAt s i m t acc obs l v) = phyPreCheck .H m after) :
    Leads (txSteps u.cfg.variant) (.next (phyAt s i m t acc obs l u))
      (.next (phyAt s i m (some (zextByte (phyCmdByte u.dev))) acc
        (obs ++ [rdObs u .phyCmd (phyCmdByte u.dev)]) after { u with agenda := e })) := by
  have hread := leads_phyPreCheck hl hq ht hact
  rw [hidle] at hread
  exact hread

/-- A step that writes a byte `val` of the command word to register `q`. -/
theorem leads_phyWrite {after : Label} {val : Word → Byte} {q : CReg} {b : Byte} (hl : u.lock = none)
    (ht : HostTurns (txSteps u.cfg.variant) u.agenda e)
    (hact : ∀ v, opAct .H m l (phyAt s i m t acc obs l v) = .bus fun x => need (xOf .H x).cw fun cw =>
      regWrite q (val cw) x (toLabel .H m after))
    (hb : val (encodeWord s.cfg.opcodes i) = b) (hw : devWrite q b { u with agenda := e } = .ok w) :
    Leads (txSteps u.cfg.variant) (.next (phyAt s i m t acc obs l u))
      (.next (phyAt s i m t acc (obs ++ [wrObs u q b]) after w)) := by
  subst hb
  rw [← phyAt_append]
  exact leads_write hl ht hact (fun _ => rfl) hw rfl

/-- The command byte, with `ACC <- 0`. -/
theorem leads_phyCommand {after : Label} {cmd : Byte} (hl : u.lock = none)
    (ht : HostTurns (txSteps u.cfg.variant) u.agenda e)
    (hact : ∀ v, opAct .H m l (phyAt s i m t acc obs l v) = phyCommand .H m cmd after)
    (hw : devWrite .phyCmd cmd { u with agenda := e } = .ok w) :
    Leads (txSteps u.cfg.variant) (.next (phyAt s i m t acc obs l u))
      (.next (phyAt s i m t (some (pollTime u.cfg 0)) (obs ++ [wrObs u .phyCmd cmd]) after w)) := by
  rw [← phyAt_append, pollTime, Nat.zero_mul]
  exact leads_write hl ht hact (fun _ => rfl) hw rfl

/-- A command with `SEL` and one command bit, while no transaction is in flight, latches one (R146). -/
theorem devWrite_phyCmd_start {cmd : Byte} (hone : cmd.getLsbD 1 ≠ cmd.getLsbD 2) (hsel : cmd.getLsbD 3 = true)
    (hidle : u.dev.phyOp = none) : devWrite .phyCmd cmd u = .ok { u with dev := { u.dev with
      phySel := true
      phyOp := some ⟨cmd.getLsbD 1, phyAddrP u.dev.phyAddr, phyAddrR u.dev.phyAddr,
        halfOf u.dev.phyDatL u.dev.phyDatH⟩ } } := by
  refine (writePhyCmd_one hone).trans ?_
  rw [hsel, phyBusy, hidle]
  rfl

/-! ### The transaction completes (R146) -/

theorem phyComplete_host (x : Ctx) (h : Hif) (tr : List Obs) (u : State) :
    phyComplete (withHost x h tr u) = withHost x h tr (phyComplete u) := by
  unfold phyComplete
  rw [withHost_dev]
  cases u.dev.phyOp with
  | none => rfl
  | some o =>
    obtain ⟨write, p, r, v⟩ := o
    cases write <;> rfl

/-- What completion can change: the transaction is gone, the data registers or the PHY's registers have a new value. -/
theorem phyComplete_busy (hbusy : u.dev.phyOp.isSome = true) : ∃ regs lo hi, phyComplete u = { u with
    phyReg := regs
    dev := { u.dev with
      phyDatL := lo
      phyDatH := hi
      phyOp := none } } := by
  obtain ⟨⟨write, p, r, v⟩, hop⟩ := Option.isSome_iff_exists.mp hbusy
  rw [phyComplete, hop]
  cases write
  · exact ⟨_, _, _, rfl⟩
  · exact ⟨_, _, _, rfl⟩

/-! ### The polls (R143) -/

/-- Operation `m` polls: at `again` it waits one interval, at `poll` it reads the flag, and `clear` follows a clear one. -/
def Polls (m : Op) (again poll : Label) (clear : State → Out) : Prop :=
  ∀ v, opAct .H m again v = .plain (toLabel .H m poll v) ∧ opAct .H m poll v = phyPoll .H m again clear

section
variable {again poll : Label} {clear : State → Out} {n p j : Nat} {e' : List Event}
variable (hpolls : Polls m again poll clear) (hl : u.lock = none) (hq : resetting u = false)
include hpolls hl hq

/-- One poll: the interval, the read, and the three ways on. -/
theorem leads_phyPoll (ht : HostTurns (1 + txSteps u.cfg.variant) e e') {v : State}
    (hv : v = phyAt s i m (some (zextByte (phyCmdByte u.dev))) (some (pollTime u.cfg (p + 1)))
      (obs ++ [rdObs u .phyCmd (phyCmdByte u.dev)]) poll { u with agenda := e' }) :
    Leads (1 + txSteps u.cfg.variant)
      (.next (phyAt s i m t (some (pollTime u.cfg p)) obs again { u with agenda := e }))
      (if u.dev.phyOp.isSome && decide ((pollTime u.cfg (p + 1)).toNat < u.cfg.phyBudgetUs) then toLabel .H m again v
        else if u.dev.phyOp.isSome then raiseErr .H m .timeout 0 v else clear v) := by
  obtain ⟨e₁, hwait, hread⟩ := ht.split
  have hact : ∀ w, opAct .H m poll (phyAt s i m t (some (pollTime u.cfg p)) obs poll w) = phyPoll .H m again clear :=
    fun _ => (hpolls _).2
  subst hv
  rw [Nat.add_comm, ← phyAt_append, ← pollTime_add, ← phyCmdByte_getLsbD_zero]
  exact (leads_plain_turn (u := { u with agenda := e }) hwait (hpolls _).1).trans
    (leads_read (u := { u with agenda := e₁ }) hl hq hread hact rfl rfl)

/-- A poll that reads busy below the budget goes round. -/
theorem leads_phyPoll_again (hbusy : u.dev.phyOp.isSome = true) (hb : PhyBudget u.cfg n) (hp : p + 1 < n)
    (ht : HostTurns (1 + txSteps u.cfg.variant) e e') :
    Leads (1 + txSteps u.cfg.variant)
      (.next (phyAt s i m t (some (pollTime u.cfg p)) obs again { u with agenda := e }))
      (.next (phyAt s i m (some (zextByte (phyCmdByte u.dev))) (some (pollTime u.cfg (p + 1)))
        (obs ++ [rdObs u .phyCmd (phyCmdByte u.dev)]) again { u with agenda := e' })) := by
  have hone := leads_phyPoll (s := s) (i := i) (t := t) (obs := obs) (p := p) hpolls hl hq ht rfl
  rw [hbusy, decide_eq_true ((hb.pollTime_lt_iff (by omega)).mpr hp)] at hone
  exact hone

/-- The poll that spends the budget and reads busy raises. -/
theorem leads_phyPoll_last (hbusy : u.dev.phyOp.isSome = true) (hb : PhyBudget u.cfg (p + 1)) (hna : NoAgent u) :
    Leads (1 + txSteps u.cfg.variant) (.next (phyAt s i m t (some (pollTime u.cfg p)) obs again u))
      (raiseErr .H m .timeout 0 (phyAt s i m (some (zextByte (phyCmdByte u.dev))) (some (pollTime u.cfg (p + 1)))
        (obs ++ [rdObs u .phyCmd (phyCmdByte u.dev)]) poll u)) := by
  have hone := leads_phyPoll (s := s) (i := i) (t := t) (obs := obs) (p := p) hpolls hl hq
    (hostTurns_of_noAgent hna _) rfl
  rw [hbusy, decide_eq_false (mt (hb.pollTime_lt_iff (Nat.le_refl _)).mp (Nat.lt_irrefl _))] at hone
  exact hone

/-- A poll that reads clear ends the polls. -/
theorem leads_phyPoll_clear (hidle : u.dev.phyOp = none) (hna : NoAgent u) :
    Leads (1 + txSteps u.cfg.variant) (.next (phyAt s i m t (some (pollTime u.cfg p)) obs again u))
      (clear (phyAt s i m (some (zextByte (phyCmdByte u.dev))) (some (pollTime u.cfg (p + 1)))
        (obs ++ [rdObs u .phyCmd (phyCmdByte u.dev)]) poll u)) := by
  have hone := leads_phyPoll (s := s) (i := i) (t := t) (obs := obs) (p := p) hpolls hl hq
    (hostTurns_of_noAgent hna _) rfl
  rw [hidle] at hone
  exact hone

/-- Polls that read busy below the budget, by their number. -/
theorem leads_phyPolls (hbusy : u.dev.phyOp.isSome = true) (hb : PhyBudget u.cfg n) (hp : p + j < n)
    (ht : HostTurns (j * (1 + txSteps u.cfg.variant)) e e') : ∃ t',
    Leads (j * (1 + txSteps u.cfg.variant))
      (.next (phyAt s i m t (some (pollTime u.cfg p)) obs again { u with agenda := e }))
      (.next (phyAt s i m t' (some (pollTime u.cfg (p + j)))
        (obs ++ List.replicate j (rdObs u .phyCmd (phyCmdByte u.dev))) again { u with agenda := e' })) := by
  induction j generalizing p t obs e with
  | zero =>
    rw [Nat.zero_mul] at ht ⊢
    rw [ht.zero, List.replicate_zero, List.append_nil]
    exact ⟨t, fun _ => rfl⟩
  | succ j ih =>
    rw [Nat.succ_mul, Nat.add_comm] at ht
    obtain ⟨e₁, hfirst, hrest⟩ := ht.split
    obtain ⟨t', hothers⟩ := ih (t := some (zextByte (phyCmdByte u.dev)))
      (obs := obs ++ [rdObs u .phyCmd (phyCmdByte u.dev)]) (p := p + 1) (by omega) hrest
    rw [List.append_assoc, List.singleton_append, ← List.replicate_succ, Nat.add_assoc, Nat.add_comm 1 j] at hothers
    rw [Nat.succ_mul]
    exact ⟨t', (leads_phyPoll_again hpolls hl hq hbusy hb (by omega) hfirst).trans hothers⟩

/-- The polls of a transaction that does not complete: all `n` of the budget. -/
theorem leads_phyPolls_spent (hbusy : u.dev.phyOp.isSome = true) (hb : PhyBudget u.cfg n) (hn : 0 < n)
    (hna : NoAgent u) : ∃ t',
    Leads (n * (1 + txSteps u.cfg.variant)) (.next (phyAt s i m t (some (pollTime u.cfg 0)) obs again u))
      (raiseErr .H m .timeout 0 (phyAt s i m t' (some (pollTime u.cfg n))
        (obs ++ List.replicate n (rdObs u .phyCmd (phyCmdByte u.dev))) poll u)) := by
  obtain ⟨k, rfl⟩ : ∃ k, n = k + 1 := ⟨n - 1, by omega⟩
  obtain ⟨t', hothers⟩ := leads_phyPolls (s := s) (i := i) (t := t) (obs := obs) (p := 0) (j := k) hpolls hl hq hbusy hb
    (by omega) (hostTurns_of_noAgent hna _)
  rw [Nat.zero_add] at hothers
  rw [Nat.succ_mul, Nat.add_comm, List.replicate_succ', ← List.append_assoc]
  exact ⟨_, hothers.trans (leads_phyPoll_last hpolls hl hq hbusy hb hna)⟩

/-- `j` polls that read busy, then the controller completes the transaction, then one that reads clear. -/
theorem leads_phyPolls_completed (hbusy : u.dev.phyOp.isSome = true) (hb : PhyBudget u.cfg n) (hj : j < n)
    (ht : HostTurns (j * (1 + txSteps u.cfg.variant)) e [.agent .phyComplete])
    (hw : phyComplete { u with agenda := [] } = w) : ∃ t' acc',
    Leads (1 + txSteps u.cfg.variant + (1 + j * (1 + txSteps u.cfg.variant)))
      (.next (phyAt s i m t (some (pollTime u.cfg 0)) obs again { u with agenda := e }))
      (clear (phyAt s i m t' acc'
        (obs ++ List.replicate j (rdObs u .phyCmd (phyCmdByte u.dev)) ++ [rdObs w .phyCmd (phyCmdByte w.dev)]) poll
        w)) := by
  obtain ⟨t', hothers⟩ := leads_phyPolls (s := s) (i := i) (t := t) (obs := obs) (p := 0) (j := j) hpolls hl hq hbusy hb
    (by omega) ht
  rw [Nat.zero_add] at hothers
  have hcomplete : Leads 1 (.next (phyAt s i m t' (some (pollTime u.cfg j))
      (obs ++ List.replicate j (rdObs u .phyCmd (phyCmdByte u.dev))) again { u with agenda := [.agent .phyComplete] }))
      (.next (phyAt s i m t' (some (pollTime u.cfg j))
        (obs ++ List.replicate j (rdObs u .phyCmd (phyCmdByte u.dev))) again w)) :=
    leads_agent rfl rfl (congrArg Host.Outcome.next ((phyComplete_host ..).trans (by rw [← hw]; rfl)))
  obtain ⟨regs, lo, hi, hdone⟩ := phyComplete_busy (u := { u with agenda := [] }) hbusy
  rw [hdone] at hw
  subst hw
  exact ⟨_, _, (hothers.trans hcomplete).trans (leads_phyPoll_clear hpolls hl hq rfl (fun _ _ h => nomatch h))⟩

end

end

/-! ## An operation from its issue -/

section
variable {s u : State} {i : Instr} {m : Op} {o : Out} {obs : List Obs} {code a b : Word} {k n j : Nat}

/-- What a PHY operation leads to from its first label decides its answer, whatever the agenda. -/
theorem answers_of_phyAt (hent : ∀ t, opEntry .H m t = toLabel .H m .s0 t) (hidle : s.hctx.pc = .idle)
    (ha : admitted m s.inst.life = true) (he : i.existsIn s.cfg.variant = true)
    (hw : i.wellFormed s.cfg.cregs = true) (hu : u.hif = s.hif)
    (hl : Leads k (.next (phyAt s i m none none [] .s0 s)) o) (hy : Yields n o s u obs code a b)
    (hn : n + k ≤ callFuel s) : Answers (hostCall m i s) s u obs code a b := by
  refine answers_yields hidle ha he hw hu ?_ hn
  rw [hent, toLabel_host]
  rw [phyAt, List.append_nil] at hl
  exact yields_of_leads hl hy

/-- The budget's polls and a few transactions more are within a call's fuel. -/
theorem phyTurns_le_callFuel (hb : PhyBudget s.cfg n) (hj : j ≤ n) :
    j * (1 + txSteps s.cfg.variant) + 7 * txSteps s.cfg.variant + 256 ≤ callFuel s := by
  have htx := txSteps_le s.cfg.variant
  have hmul : j * (1 + txSteps s.cfg.variant) ≤ n * 3 := Nat.mul_le_mul hj (by omega)
  have := hb.le_budget
  unfold callFuel
  omega

end

/-! ## PHY_WR and PHY_RD up to their polls -/

/-- What PHY_WR has written before its polls, and the transaction in flight. -/
def phyWrStarted (phy reg : BitVec 5) (v : Half) (s : State) : State :=
  { s with dev := { s.dev with
    phyAddr := phyAddrByte phy reg
    phyDatL := lowByte v
    phyDatH := highByte v
    phySel := true
    phyOp := some ⟨true, phy, reg, v⟩ } }

/-- What PHY_RD has written before its polls, and the transaction in flight. -/
def phyRdStarted (phy reg : BitVec 5) (s : State) : State :=
  { s with dev := { s.dev with
    phyAddr := phyAddrByte phy reg
    phySel := true
    phyOp := some ⟨false, phy, reg, halfOf s.dev.phyDatL s.dev.phyDatH⟩ } }

/-- The transactions of either operation up to the address. -/
def phyAddressTrace (phy reg : BitVec 5) (s : State) : List Obs :=
  [rdObs s .phyCmd (phyCmdByte s.dev), wrObs s .phyAddr (phyAddrByte phy reg)]

/-- The transactions of PHY_WR before its polls. -/
def phyWrTrace (phy reg : BitVec 5) (v : Half) (s : State) : List Obs :=
  phyAddressTrace phy reg s ++ [wrObs s .phyDatL (lowByte v), wrObs s .phyDatH (highByte v), wrObs s .phyCmd phyCmdWrite]

/-- The transactions of PHY_RD before its polls. -/
def phyRdTrace (phy reg : BitVec 5) (s : State) : List Obs :=
  phyAddressTrace phy reg s ++ [wrObs s .phyCmd phyCmdRead]

theorem polls_phyWr : Polls .phyWr .s5 .s6 (finish .H .phyWr 0 0) := fun _ => ⟨rfl, rfl⟩

theorem polls_phyRd : Polls .phyRd .s3 .s4 (toLabel .H .phyRd .s5) := fun _ => ⟨rfl, rfl⟩

section
variable {s u : State} {phy reg : BitVec 5} {v : Half} {e : List Event} {i : Instr} {m : Op}
variable {t acc : Option Word} {obs : List Obs}

/-- S0 and S1, the same in both. -/
theorem leads_phyAddressed {after : Label} (hl : s.lock = none) (hq : resetting s = false) (hidle : s.dev.phyOp = none)
    (hact₀ : ∀ v, opAct .H m .s0 (phyAt s i m none none [] .s0 v) = phyPreCheck .H m .s1)
    (hact₁ : ∀ t obs v, opAct .H m .s1 (phyAt s i m t none obs .s1 v) = phyAddress .H m after)
    (hphy : Field.phy (encodeWord s.cfg.opcodes i) = phy) (hreg : Field.reg5 (encodeWord s.cfg.opcodes i) = reg)
    (ht : HostTurns (txSteps s.cfg.variant + txSteps s.cfg.variant) s.agenda e) :
    Leads (txSteps s.cfg.variant + txSteps s.cfg.variant) (.next (phyAt s i m none none [] .s0 s))
      (.next (phyAt s i m (some (zextByte (phyCmdByte s.dev))) none (phyAddressTrace phy reg s) after
        { s with agenda := e, dev.phyAddr := phyAddrByte phy reg })) := by
  subst hphy hreg
  obtain ⟨e₁, ht₀, ht₁⟩ := ht.split
  exact (leads_phyPreCheck_idle hidle hl hq ht₀ hact₀).trans
    (leads_phyWrite (u := { s with agenda := e₁ }) hl ht₁ (hact₁ _ _) rfl rfl)

/-- S2 and S3 of PHY_WR: the data registers. -/
theorem leads_phyWr_data (hl : u.lock = none)
    (ht : HostTurns (txSteps u.cfg.variant + txSteps u.cfg.variant) u.agenda e) :
    Leads (txSteps u.cfg.variant + txSteps u.cfg.variant) (.next (phyAt s (.phyWr phy reg v) .phyWr t acc obs .s2 u))
      (.next (phyAt s (.phyWr phy reg v) .phyWr t acc
        (obs ++ [wrObs u .phyDatL (lowByte v)] ++ [wrObs u .phyDatH (highByte v)]) .s4
        { u with agenda := e, dev := { u.dev with phyDatL := lowByte v, phyDatH := highByte v } })) := by
  obtain ⟨e₁, ht₀, ht₁⟩ := ht.split
  exact (leads_phyWrite (l := .s2) hl ht₀ (fun _ => rfl) (congrArg lowByte (low16_phyWr ..)) rfl).trans
    (leads_phyWrite (l := .s3) (u := { u with agenda := e₁, dev.phyDatL := lowByte v }) hl ht₁ (fun _ => rfl)
      (congrArg highByte (low16_phyWr ..)) rfl)

/-- S0 to S4 of PHY_WR. -/
theorem leads_phyWr_command (hphy : phy.toNat < 4) (hl : s.lock = none) (hq : resetting s = false)
    (hidle : s.dev.phyOp = none) (ht : HostTurns (5 * txSteps s.cfg.variant) s.agenda e) : ∃ t,
    Leads (5 * txSteps s.cfg.variant) (.next (phyAt s (.phyWr phy reg v) .phyWr none none [] .s0 s))
      (.next (phyAt s (.phyWr phy reg v) .phyWr t (some (pollTime s.cfg 0)) (phyWrTrace phy reg v s) .s5
        { phyWrStarted phy reg v s with agenda := e })) := by
  rw [show 5 * txSteps s.cfg.variant = txSteps s.cfg.variant + txSteps s.cfg.variant +
    (txSteps s.cfg.variant + txSteps s.cfg.variant + txSteps s.cfg.variant) by omega] at ht
  obtain ⟨e₁, haddr, ht⟩ := ht.split
  obtain ⟨e₂, hdata, hcmd⟩ := ht.split
  have hw : devWrite .phyCmd phyCmdWrite { s with agenda := e, dev := { s.dev with
      phyAddr := phyAddrByte phy reg, phyDatL := lowByte v, phyDatH := highByte v } } =
      .ok { phyWrStarted phy reg v s with agenda := e } := by
    rw [devWrite_phyCmd_start (by decide) rfl (by exact hidle), phyAddrP_phyAddrByte hphy, phyAddrR_phyAddrByte,
      halfOf_lowByte_highByte]
    rfl
  rw [show 5 * txSteps s.cfg.variant = txSteps s.cfg.variant + (txSteps s.cfg.variant + txSteps s.cfg.variant +
    (txSteps s.cfg.variant + txSteps s.cfg.variant)) by omega]
  exact ⟨_, ((leads_phyAddressed hl hq hidle (fun _ => rfl) (fun _ _ _ => rfl) (phy_phyWr ..) (reg5_phyWr ..) haddr).trans
    (leads_phyWr_data (u := { s with agenda := e₁, dev.phyAddr := phyAddrByte phy reg }) hl hdata)).trans
    (leads_phyCommand (l := .s4) (u := { s with agenda := e₂, dev := { s.dev with
      phyAddr := phyAddrByte phy reg, phyDatL := lowByte v, phyDatH := highByte v } }) hl hcmd (fun _ => rfl) hw)⟩

/-- With `DV` = 1 the first step of PHY_RD is the pre-check. -/
theorem opAct_phyRd_check (w : State) : opAct .H .phyRd .s0 (phyAt s (.phyRd phy reg true) .phyRd t acc obs .s0 w) =
    phyPreCheck .H .phyRd .s1 := by
  rw [opAct, phyRdAct, phyAt, phyHost, xOf_host, needAct_some, flag_phyRd, if_pos rfl]

/-- S0 to S2 of PHY_RD. -/
theorem leads_phyRd_command (hphy : phy.toNat < 4) (hl : s.lock = none) (hq : resetting s = false)
    (hidle : s.dev.phyOp = none) (ht : HostTurns (3 * txSteps s.cfg.variant) s.agenda e) : ∃ t,
    Leads (3 * txSteps s.cfg.variant) (.next (phyAt s (.phyRd phy reg true) .phyRd none none [] .s0 s))
      (.next (phyAt s (.phyRd phy reg true) .phyRd t (some (pollTime s.cfg 0)) (phyRdTrace phy reg s) .s3
        { phyRdStarted phy reg s with agenda := e })) := by
  rw [show 3 * txSteps s.cfg.variant = txSteps s.cfg.variant + txSteps s.cfg.variant + txSteps s.cfg.variant by omega]
    at ht
  obtain ⟨e₁, haddr, hcmd⟩ := ht.split
  have hw : devWrite .phyCmd phyCmdRead { s with agenda := e, dev.phyAddr := phyAddrByte phy reg } =
      .ok { phyRdStarted phy reg s with agenda := e } := by
    rw [devWrite_phyCmd_start (by decide) rfl (by exact hidle), phyAddrP_phyAddrByte hphy, phyAddrR_phyAddrByte]
    rfl
  rw [show 3 * txSteps s.cfg.variant = txSteps s.cfg.variant + (txSteps s.cfg.variant + txSteps s.cfg.variant) by omega]
  exact ⟨_, (leads_phyAddressed hl hq hidle opAct_phyRd_check (fun _ _ _ => rfl) (phy_phyRd ..) (reg5_phyRd ..)
    haddr).trans (leads_phyCommand (l := .s2) (u := { s with agenda := e₁, dev.phyAddr := phyAddrByte phy reg }) hl hcmd
      (fun _ => rfl) hw)⟩

/-- S5 and S6 of PHY_RD: the value from the data registers. -/
theorem yields_phyRd_value (hl : u.lock = none) (hq : resetting u = false) (hna : NoAgent u) (hcfg : u.cfg = s.cfg)
    (hlow : u.dev.phyDatL = lowByte v) (hhigh : u.dev.phyDatH = highByte v) :
    Yields (0 + txSteps u.cfg.variant + txSteps u.cfg.variant) (.next (phyAt s i .phyRd t acc obs .s5 u)) s u
      (obs ++ [rdObs u .phyDatL (lowByte v), rdObs u .phyDatH (highByte v)]) s.cfg.results.ok
      (BitVec.ofNat 32 v.toNat) 0 := by
  have ht := hostTurns_of_noAgent hna (txSteps u.cfg.variant)
  have hreadLow : Leads (txSteps u.cfg.variant) (.next (phyAt s i .phyRd t acc obs .s5 u))
      (.next (withHost ⟨{ (phyHost s i .phyRd t acc .s5).x with v := some (zextByte (lowByte v)) }, {}, .op .phyRd .s6⟩
        { s.hif with done := false } (s.trace ++ obs ++ [rdObs u .phyDatL (lowByte v)]) u)) :=
    leads_read (q := .phyDatL) hl hq ht (fun _ => rfl) (congrArg (fun b => Except.ok (b, u)) hlow) rfl
  refine yields_of_leads hreadLow (yields_of_leads (leads_read (q := .phyDatH) hl hq ht (fun _ => rfl)
    (congrArg (fun b => Except.ok (b, u)) hhigh) rfl) ?_)
  simp only [xOf_host, need_some, zextByte_lowByte_or_highByte, setV_host, List.append_assoc]
  exact yields_finish hcfg

end

/-- Settles O22: the command, then the agenda's polls and completion, then the clear poll. -/
theorem phyWrCompletes : Obligations.PhyWrCompletes := by
  rintro s phy reg v n j ⟨hpc, hl, hadm, hag⟩ hb hj hphy hidle hq
  obtain ⟨e, hcmd, hpolls⟩ := HostTurns.split (.inl hag)
  obtain ⟨t, hstart⟩ := leads_phyWr_command (v := v) hphy hl hq hidle hcmd
  obtain ⟨t', acc', hdone⟩ := leads_phyPolls_completed (u := phyWrStarted phy reg v s) polls_phyWr hl hq rfl hb hj hpolls
    rfl
  have hfuel := phyTurns_le_callFuel hb (Nat.le_of_lt hj)
  rw [exec_command (m := .phyWr) rfl, ← phyAddrByte_of_lt hphy, ← phyCmdByte_idle hidle]
  refine answers_of_phyAt (n := 0) (fun _ => rfl) hpc hadm rfl (decide_eq_true hphy) rfl (hstart.trans hdone)
    (yields_finish rfl) ?_
  show 0 + (1 + txSteps s.cfg.variant + (1 + j * (1 + txSteps s.cfg.variant)) + 5 * txSteps s.cfg.variant) ≤ _
  omega

/-- Settles O23: the command, then the agenda's polls and completion, then the clear poll and the two data reads. -/
theorem phyRdCompletes : Obligations.PhyRdCompletes := by
  rintro s phy reg n j v ⟨hpc, hl, hadm, hag⟩ hb hj hphy hidle hq rfl
  obtain ⟨e, hcmd, hpolls⟩ := HostTurns.split (.inl hag)
  obtain ⟨t, hstart⟩ := leads_phyRd_command hphy hl hq hidle hcmd
  obtain ⟨t', acc', hdone⟩ := leads_phyPolls_completed (u := phyRdStarted phy reg s) polls_phyRd hl hq rfl hb hj hpolls
    rfl
  have hfuel := phyTurns_le_callFuel hb (Nat.le_of_lt hj)
  rw [exec_command (m := .phyRd) rfl, ← phyAddrByte_of_lt hphy, ← phyCmdByte_idle hidle, List.append_cons]
  refine answers_of_phyAt (fun _ => rfl) hpc hadm rfl (decide_eq_true hphy) rfl (hstart.trans hdone)
    (yields_phyRd_value hl hq (fun _ _ h => nomatch h) rfl rfl rfl) ?_
  show 0 + txSteps s.cfg.variant + txSteps s.cfg.variant + (1 + txSteps s.cfg.variant +
    (1 + j * (1 + txSteps s.cfg.variant)) + 3 * txSteps s.cfg.variant) ≤ _
  omega

/-- Settles O24: the command, then all the polls of the budget. -/
theorem phyTimeout : Obligations.PhyTimeout := by
  rintro s phy reg v n ⟨hpc, hl, hna⟩ hb hn hphy hidle hq
  have hfuel := phyTurns_le_callFuel hb (Nat.le_refl n)
  rw [← phyAddrByte_of_lt hphy, ← phyCmdByte_idle hidle]
  refine ⟨fun hadm => ?_, fun hadm => ?_⟩
  · obtain ⟨t, hstart⟩ := leads_phyWr_command (v := v) hphy hl hq hidle (hostTurns_of_noAgent hna _)
    obtain ⟨t', hspent⟩ := leads_phyPolls_spent (u := phyWrStarted phy reg v s) polls_phyWr hl hq rfl hb hn hna
    refine answers_of_phyAt (n := 0) (fun _ => rfl) hpc hadm rfl (decide_eq_true hphy) rfl (hstart.trans hspent)
      (yields_done rfl rfl) ?_
    show 0 + (n * (1 + txSteps s.cfg.variant) + 5 * txSteps s.cfg.variant) ≤ _
    omega
  · obtain ⟨t, hstart⟩ := leads_phyRd_command hphy hl hq hidle (hostTurns_of_noAgent hna _)
    obtain ⟨t', hspent⟩ := leads_phyPolls_spent (u := phyRdStarted phy reg s) polls_phyRd hl hq rfl hb hn hna
    refine answers_of_phyAt (n := 0) (fun _ => rfl) hpc hadm rfl (decide_eq_true hphy) rfl (hstart.trans hspent)
      (yields_done rfl rfl) ?_
    show 0 + (n * (1 + txSteps s.cfg.variant) + 3 * txSteps s.cfg.variant) ≤ _
    omega

section
variable {s : State} {i : Instr} {m : Op} {phy reg : BitVec 5}

/-- An operation that finds a transaction in flight ends at its pre-check. -/
theorem answers_phyBusy (hent : ∀ t, opEntry .H m t = toLabel .H m .s0 t)
    (hact : ∀ w, opAct .H m .s0 (phyAt s i m none none [] .s0 w) = phyPreCheck .H m .s1)
    (hinit : m ≠ .init) (hdeinit : m ≠ .deinit) (hr : Ready m s) (he : i.existsIn s.cfg.variant = true)
    (hw : i.wellFormed s.cfg.cregs = true) (hbusy : s.dev.phyOp.isSome = true) (hq : resetting s = false) :
    Answers (hostCall m i s) s s [rdObs s .phyCmd (if s.dev.phySel then 0x09 else 0x01)]
      s.cfg.results.invalidState 0 0 := by
  obtain ⟨⟨hpc, hl, hna⟩, hadm⟩ := hr
  have hcheck := leads_phyPreCheck hl hq (hostTurns_of_noAgent hna _) hact
  rw [if_pos hbusy, raiseErr_of_ne hinit hdeinit, phyCmdByte_busy hbusy] at hcheck
  exact answers_of_phyAt (n := 0) hent hpc hadm he hw rfl hcheck (yields_done rfl rfl)
    (by rw [Nat.zero_add]; exact txSteps_le_callFuel s)

/-- With `DV` = 0 the first step of PHY_RD raises. -/
theorem opAct_phyRd_noDestination (w : State) :
    opAct .H .phyRd .s0 (phyAt s (.phyRd phy reg false) .phyRd none none [] .s0 w) =
      .plain (raiseErr .H .phyRd .invalidArgument 0 (phyAt s (.phyRd phy reg false) .phyRd none none [] .s0 w)) := by
  rw [opAct, phyRdAct, phyAt, phyHost, xOf_host, needAct_some, flag_phyRd, if_neg Bool.false_ne_true]

end

/-- Settles O25: the first step of each operation decides. -/
theorem phyPreChecks : Obligations.PhyPreChecks := by
  intro s phy reg v hphy
  refine ⟨fun ⟨⟨hpc, _, hna⟩, hadm⟩ => ?_, fun hr hbusy hq => ?_, fun hr hbusy hq => ?_⟩
  · exact answers_of_phyAt (n := 0) (fun _ => rfl) hpc hadm rfl (decide_eq_true hphy) rfl
      (leads_plain hna (opAct_phyRd_noDestination s)) (yields_done rfl rfl) (Nat.le_trans (by decide) (callFuel_ge s))
  · exact answers_phyBusy (fun _ => rfl) opAct_phyRd_check (by decide) (by decide) hr rfl (decide_eq_true hphy) hbusy hq
  · exact answers_phyBusy (fun _ => rfl) (fun _ => rfl) (by decide) (by decide) hr rfl (decide_eq_true hphy) hbusy hq

/-- Plain storage gives back what it was given (10_state.md R38). -/
theorem phyLoaded_phyStored {c : Config} {f : Cells 16} (hplain : c.phyModel = .plainStorage) (hwf : Cells.wf f = true)
    (p r : BitVec 5) (v : Half) : phyLoaded c p r (phyStored c p r v f) = v := by
  rw [phyLoaded, phyStored, hplain]
  exact (Cells.get_set hwf ..).trans (if_pos rfl)

theorem OnlyHost.exists_withHost {u t : State} (ht : OnlyHost u t) : ∃ x h tr, t = withHost x h tr u := by
  obtain ⟨hframe, -⟩ := ht
  exact ⟨_, _, _, hframe⟩

/-- PHY_RD of a machine at rest whose agenda completes the transaction in time reports what the PHY holds. -/
theorem phyRd_reports {t : State} {phy reg : BitVec 5} {v : Half} {n k : Nat} (hpc : t.hctx.pc = .idle)
    (hl : t.lock = none) (hadm : admitted .phyRd t.inst.life = true) (hb : PhyBudget t.cfg n) (hk : k < n)
    (hphy : phy.toNat < 4) (hidle : t.dev.phyOp = none) (hq : resetting t = false)
    (hv : phyLoaded t.cfg phy reg t.phyReg = v) : ∃ u, exec (.phyRd phy reg true) { t with
        agenda := schedule (3 * txSteps t.cfg.variant + k * (1 + txSteps t.cfg.variant)) .phyComplete } = .next u ∧
      u.hif.result = t.cfg.results.ok ∧ u.hif.rdata0 = BitVec.ofNat 32 v.toNat := by
  obtain ⟨u, hu, ⟨hok, hdata, -⟩, -⟩ := phyRdCompletes { t with
    agenda := schedule (3 * txSteps t.cfg.variant + k * (1 + txSteps t.cfg.variant)) .phyComplete } phy reg n k v
    ⟨hpc, hl, hadm, rfl⟩ hb hk hphy hidle hq hv.symm
  exact ⟨u, hu, hok, hdata⟩

/-- Settles O26: PHY_WR leaves a machine from which PHY_RD completes, and the register that it reads is the one stored. -/
theorem phyReadBack : Obligations.PhyReadBack := by
  intro s phy reg v n j k hsched hb hj hk hphy hidle hq hplain hwf
  obtain ⟨t, ht, ⟨hres, -, -, -, hpc⟩, honly, -⟩ := phyWrCompletes s phy reg v n j hsched hb hj hphy hidle hq
  obtain ⟨x, h, tr, rfl⟩ := honly.exists_withHost
  obtain ⟨-, hl, hadm, -⟩ := hsched
  rw [Memory.wf, Bool.and_eq_true] at hwf
  obtain ⟨-, hwf⟩ := hwf
  refine ⟨_, ht, hres, phyRd_reports (t := withHost x h tr _) hpc ?_ ?_ ?_ hk hphy ?_ ?_ ?_⟩
  · exact hl
  · exact hadm
  · exact hb
  · exact rfl
  · exact hq
  · exact phyLoaded_phyStored hplain hwf phy reg v

end Sys2Proof.Machine
